-- ==== Sys2Proof/Word.lean ====
section
/-! DEFINITION. The word types of the engine. -/

namespace Sys2Proof

/-- A byte: an element of a byte space, an `i8` sample or a symbol (00_scope.md R9, 20_memory.md R50). -/
abbrev Byte := BitVec 8

/-- A 32-bit register or command word (10_state.md R26, 30_encoding.md R70). -/
abbrev Word := BitVec 32

end Sys2Proof
end

