-- ==== Sys2Proof/Syntax.lean ====
section
/-! DEFINITION. Syntax: the 25 commands, the raw fields of a command word, the registers, and the accesses a host
makes. -/

namespace Sys2Proof

/-- A plane (00_scope.md R17): 0 = Y, 1 = U, 2 = V. -/
inductive Plane where
  | y | u | v
deriving DecidableEq, Repr

/-- A stream kind (00_scope.md R17): 0 = DC differences, 1 = AC run-lengths, 2 = AC values. -/
inductive Kind where
  | dc | run | val
deriving DecidableEq, Repr

/-- The two kinds whose byte lengths the container header stores (10_state.md R34). -/
inductive AcKind where
  | run | val
deriving DecidableEq, Repr

/-- The 25 commands of 30_encoding.md R72, one constructor per row of the opcode table. `Plane` and `Kind` have
no fourth value, so an operand the table reserves cannot be written. -/
inductive Instr where
  | nop
  | reset
  | clrerr
  | cscFwd
  | cscInv
  | tileIn
  | tileOut
  | fdct (p : Plane)
  | idct (p : Plane)
  | quant
  | dequant
  | stq (p : Plane)
  | ldq (p : Plane)
  | ccRst (p : Plane)
  | ccEnc (p : Plane)
  | ccDec (p : Plane)
  | hufLen (p : Plane) (k : Kind)
  | hufCode (p : Plane) (k : Kind)
  | hufEnc (p : Plane) (k : Kind)
  | hufDec (p : Plane) (k : Kind)
  | hufDecAc (p : Plane)
  | frame
  | deframeHdr
  | compress
  | decompress
deriving DecidableEq, Repr

/-- The raw fields of a command word, format `C` (30_encoding.md R71). -/
structure CommandFields where
  /-- bits 7:0 -/
  op : BitVec 8
  /-- bits 9:8 -/
  p : BitVec 2
  /-- bits 11:10 -/
  k : BitVec 2
  /-- bits 31:12, reserved -/
  rsv : BitVec 20
deriving DecidableEq, Repr

/-- The registers of the register block (10_state.md R26). -/
inductive Reg where
  | id | cmd | status | ctrl | errcode | errinfo
  | imgw | imgh | blkw | blkh
  | aclen (p : Plane) (a : AcKind)
  | clen | cptr | bidx | count | pix | yuv
  | dcp (p : Plane)
  | slen (p : Plane) (k : Kind)
  | srd (p : Plane) (k : Kind)
  | bslen (p : Plane) (k : Kind)
deriving DecidableEq, Repr

/-- One pixel: three `u8` channels (20_memory.md R50, space `IMG`). -/
structure Pixel where
  r : Byte
  g : Byte
  b : Byte
deriving DecidableEq, Repr

/-- One sample triple, each the byte of an `i8` (10_state.md R37). -/
structure Sample where
  y : Byte
  u : Byte
  v : Byte
deriving DecidableEq, Repr

/-- One entry of a code table: (`len`, `code`) (10_state.md R41). `len = 0` means the symbol has no code. -/
structure Code where
  len : Byte
  code : BitVec 255
deriving DecidableEq, Repr

/-- A byte-sized element of a memory space or block register that the host may read and write through the memory
window, by the index of 20_memory.md R50. -/
inductive ByteLoc where
  | cbuf (a : Nat)
  | s (p : Plane) (k : Kind) (n : Nat)
  | bs (p : Plane) (k : Kind) (n : Nat)
  | qp (p : Plane) (n : Nat) (v u : Fin 8)
  | lt (p : Plane) (k : Kind) (sym : Byte)
  | sb (p : Plane) (j i : Fin 8)
  | qb (v u : Fin 8)
deriving DecidableEq, Repr

/-- A memory space or block register of 20_memory.md R50. -/
inductive Space where
  | img
  | cbuf
  | s (p : Plane) (k : Kind)
  | bs (p : Plane) (k : Kind)
  | qp (p : Plane)
  | lt (p : Plane) (k : Kind)
  | ct (p : Plane) (k : Kind)
  | sb (p : Plane)
  | cb
  | qb
deriving DecidableEq, Repr

/-- One element of a memory space or block register (20_memory.md R50). -/
inductive Element where
  | byte (l : ByteLoc)
  | coef (v u : Fin 8)
  | code (p : Plane) (k : Kind) (sym : Byte)
  | pixel (x y : BitVec 16)
deriving DecidableEq, Repr

/-- What a bus address stands for (20_memory.md R58): a byte offset in the register block, or a slot whose bytes carry the
bytes of an element, none where the space has no such element. -/
inductive BusTarget where
  | reg (off : BitVec 9)
  | slot (lanes : List Nat) (e : Option Element)
deriving DecidableEq, Repr

/-- One access of the host at the engine's interfaces (10_state.md R44): a whole register by its byte offset in
the block `0x000..0x1FF`, one element of a memory space, or the reset input. `CT` has a read and no write, because
it is host readable, not host writable (10_state.md R41). A bus access names a register or an element by its bus address
(20_memory.md R58). -/
inductive HostAccess where
  | readReg (off : BitVec 9)
  | writeReg (off : BitVec 9) (v : Word)
  | readByte (l : ByteLoc)
  | writeByte (l : ByteLoc) (b : Byte)
  | readCoef (v u : Fin 8)
  | writeCoef (v u : Fin 8) (c : BitVec 16)
  | readCode (p : Plane) (k : Kind) (sym : Byte)
  | readPixel (x y : BitVec 16)
  | writePixel (x y : BitVec 16) (c : Pixel)
  | assertReset
  | busRead (addr : Nat)
  | busWrite (addr : Nat) (bytes : List Byte)
deriving DecidableEq, Repr

/-- What a host read returns (10_state.md R44). -/
inductive Reply where
  | word (w : Word)
  | byte (b : Byte)
  | coef (c : BitVec 16)
  | code (c : Code)
  | pixel (c : Pixel)
  | bytes (l : List Byte)
deriving DecidableEq, Repr

end Sys2Proof
end

