-- ==== Sys2Proof/WellFormed.lean ====
section
/-! DEFINITION. Well-formedness: the legality of the fields of a command word (30_encoding.md R73), check by check, and
of a host access (10_state.md R45). An `Instr` needs no check: its operands have no illegal value. -/

namespace Sys2Proof

/-- The 25 assigned opcodes (30_encoding.md R72). -/
def assignedOps : List Nat :=
  [0x00, 0x01, 0x02] ++ [0x10, 0x11, 0x12, 0x13] ++ [0x20, 0x21, 0x22, 0x23, 0x24, 0x25] ++
  [0x30, 0x31, 0x32] ++ [0x40, 0x41, 0x42, 0x43, 0x44] ++ [0x50, 0x51] ++ [0x60, 0x61]

/-- The opcodes that list `P` among their operands (30_encoding.md R72). -/
def planeOps : List Nat :=
  [0x20, 0x21, 0x24, 0x25] ++ [0x30, 0x31, 0x32] ++ [0x40, 0x41, 0x42, 0x43, 0x44]

/-- The opcodes that list `K` among their operands (30_encoding.md R72). -/
def kindOps : List Nat := [0x40, 0x41, 0x42, 0x43]

/-- R73: `w[31:12] = 0`. -/
def CommandFields.reservedZero (f : CommandFields) : Bool := f.rsv == 0#20

/-- R73: `OP` is one of the 25 values. -/
def CommandFields.opAssigned (f : CommandFields) : Bool := assignedOps.contains f.op.toNat

/-- R73: `P ≠ 3`. -/
def CommandFields.planeExists (f : CommandFields) : Bool := f.p != 3#2

/-- R73: `K ≠ 3`. -/
def CommandFields.kindExists (f : CommandFields) : Bool := f.k != 3#2

/-- R73: `P = 0` unless the command lists `P` among its operands. -/
def CommandFields.planeTaken (f : CommandFields) : Bool := f.p == 0#2 || planeOps.contains f.op.toNat

/-- R73: `K = 0` unless the command lists `K` among its operands. -/
def CommandFields.kindTaken (f : CommandFields) : Bool := f.k == 0#2 || kindOps.contains f.op.toNat

/-- A word is legal if and only if all six conditions of 30_encoding.md R73 hold of its fields. -/
def CommandFields.legal (f : CommandFields) : Bool :=
  f.reservedZero && f.opAssigned && f.planeExists && f.kindExists && f.planeTaken && f.kindTaken

/-- A register access is a whole word at an offset that is a multiple of 4 (10_state.md R45, 20_memory.md R56);
the offset's nine bits keep it inside the register block. Every other access is well-formed as it stands; whether a bus
access is served depends on what stands at its address (log 14). -/
def HostAccess.wf : HostAccess → Bool
  | .readReg off => off.toNat % 4 == 0
  | .writeReg off _ => off.toNat % 4 == 0
  | .readByte _ => true
  | .writeByte _ _ => true
  | .readCoef _ _ => true
  | .writeCoef _ _ _ => true
  | .readCode _ _ _ => true
  | .readPixel _ _ => true
  | .writePixel _ _ _ => true
  | .assertReset => true
  | .busRead _ => true
  | .busWrite _ _ => true

end Sys2Proof
end

