-- ==== Sys2Proof/Decode.lean ====
section
/-! DEFINITION. Decoding a command word (30_encoding.md R71 to R75), total and rejecting by name, and the encoder. -/

namespace Sys2Proof

/-- Why a word is not a legal command (30_encoding.md R73, R75). -/
inductive Illegal where
  /-- a nonzero bit in 31:12 -/
  | reservedBits
  /-- one of the 231 unassigned `OP` values -/
  | unassignedOp
  /-- `P` = 3 -/
  | planeReserved
  /-- `K` = 3 -/
  | kindReserved
  /-- a nonzero `P` on a command that takes no plane -/
  | planeNotTaken
  /-- a nonzero `K` on a command that takes no kind -/
  | kindNotTaken
deriving DecidableEq, Repr

/-- The operands a command lists (30_encoding.md R72). -/
inductive Shape where
  | bare (i : Instr)
  | plane (mk : Plane → Instr)
  | planeKind (mk : Plane → Kind → Instr)

/-- The opcode map of 30_encoding.md R72. -/
def opTable : List (Nat × Shape) :=
  [ (0x00, .bare .nop), (0x01, .bare .reset), (0x02, .bare .clrerr),
    (0x10, .bare .cscFwd), (0x11, .bare .cscInv), (0x12, .bare .tileIn), (0x13, .bare .tileOut),
    (0x20, .plane .fdct), (0x21, .plane .idct), (0x22, .bare .quant), (0x23, .bare .dequant),
    (0x24, .plane .stq), (0x25, .plane .ldq) ] ++
  [ (0x30, .plane .ccRst), (0x31, .plane .ccEnc), (0x32, .plane .ccDec),
    (0x40, .planeKind .hufLen), (0x41, .planeKind .hufCode), (0x42, .planeKind .hufEnc),
    (0x43, .planeKind .hufDec), (0x44, .plane .hufDecAc),
    (0x50, .bare .frame), (0x51, .bare .deframeHdr),
    (0x60, .bare .compress), (0x61, .bare .decompress) ]

/-- The fields of a word (30_encoding.md R71). -/
def fieldsOf (w : Word) : CommandFields :=
  { op := w.extractLsb' 0 8, p := w.extractLsb' 8 2, k := w.extractLsb' 10 2, rsv := w.extractLsb' 12 20 }

/-- The plane a 2-bit field names; 3 is reserved (30_encoding.md R71). -/
def planeOfBits (b : BitVec 2) : Option Plane :=
  match b.toNat with
  | 0 => some .y
  | 1 => some .u
  | 2 => some .v
  | _ => none

/-- The kind a 2-bit field names; 3 is reserved (30_encoding.md R71). -/
def kindOfBits (b : BitVec 2) : Option Kind :=
  match b.toNat with
  | 0 => some .dc
  | 1 => some .run
  | 2 => some .val
  | _ => none

/-- Put the operands into a command of the given shape; an operand the command does not take must be 0
(30_encoding.md R71, R73). -/
def assemble (sh : Shape) (p : Plane) (k : Kind) : Except Illegal Instr :=
  match sh with
  | .bare i => if p ≠ .y then .error .planeNotTaken else if k ≠ .dc then .error .kindNotTaken else .ok i
  | .plane mk => if k ≠ .dc then .error .kindNotTaken else .ok (mk p)
  | .planeKind mk => .ok (mk p k)

/-- The command a word encodes, or why it is illegal (30_encoding.md R73). -/
def decode (w : Word) : Except Illegal Instr :=
  let f := fieldsOf w
  if f.rsv != 0#20 then .error .reservedBits
  else match opTable.lookup f.op.toNat with
    | none => .error .unassignedOp
    | some sh =>
      match planeOfBits f.p, kindOfBits f.k with
      | none, _ => .error .planeReserved
      | some _, none => .error .kindReserved
      | some p, some k => assemble sh p k

/-- The 2-bit code of a plane (00_scope.md R17). -/
def planeCode : Plane → Nat
  | .y => 0
  | .u => 1
  | .v => 2

/-- The 2-bit code of a kind (00_scope.md R17). -/
def kindCode : Kind → Nat
  | .dc => 0
  | .run => 1
  | .val => 2

/-- The full word of a command is `OP + 256 × P + 1024 × K` (30_encoding.md R72). -/
def commandWord (op : Nat) (p : Nat) (k : Nat) : Word := BitVec.ofNat 32 (op + 256 * p + 1024 * k)

/-- The word of a command, row by row of 30_encoding.md R72. -/
def encode : Instr → Word
  | .nop => commandWord 0x00 0 0
  | .reset => commandWord 0x01 0 0
  | .clrerr => commandWord 0x02 0 0
  | .cscFwd => commandWord 0x10 0 0
  | .cscInv => commandWord 0x11 0 0
  | .tileIn => commandWord 0x12 0 0
  | .tileOut => commandWord 0x13 0 0
  | .fdct p => commandWord 0x20 (planeCode p) 0
  | .idct p => commandWord 0x21 (planeCode p) 0
  | .quant => commandWord 0x22 0 0
  | .dequant => commandWord 0x23 0 0
  | .stq p => commandWord 0x24 (planeCode p) 0
  | .ldq p => commandWord 0x25 (planeCode p) 0
  | .ccRst p => commandWord 0x30 (planeCode p) 0
  | .ccEnc p => commandWord 0x31 (planeCode p) 0
  | .ccDec p => commandWord 0x32 (planeCode p) 0
  | .hufLen p k => commandWord 0x40 (planeCode p) (kindCode k)
  | .hufCode p k => commandWord 0x41 (planeCode p) (kindCode k)
  | .hufEnc p k => commandWord 0x42 (planeCode p) (kindCode k)
  | .hufDec p k => commandWord 0x43 (planeCode p) (kindCode k)
  | .hufDecAc p => commandWord 0x44 (planeCode p) 0
  | .frame => commandWord 0x50 0 0
  | .deframeHdr => commandWord 0x51 0 0
  | .compress => commandWord 0x60 0 0
  | .decompress => commandWord 0x61 0 0

/-- The instruction the decoder reads from a command whose low `nbits` bits are `w`, the bits above being 0. A
command is one 32-bit word delivered by one register write (30_encoding.md R70), bit 0 its least significant bit;
a number that does not fit the word is no command. -/
def decodeTableWord (nbits w : Nat) : Option Instr :=
  let x := w % 2 ^ nbits
  if x < 2 ^ 32 then
    match decode (BitVec.ofNat 32 x) with
    | .ok i => some i
    | .error _ => none
  else none

end Sys2Proof
end

