-- ==== Sys2Proof/Config.lean ====
section
/-! DEFINITION. What an implementation fixes: the parameters of 00_scope.md R7 and the constants of R6. -/

namespace Sys2Proof

/-- `CSC_MAP` (00_scope.md R7, 41_color.md R97): the map from a scaled colour component, which lies in −225..255, to a
sample. Either the value the spec takes, or any other map, listed: entry `n` is the sample of the component `n − 225`
(log 8). -/
inductive CscMap where
  | clampThenShift
  | listed (samples : Vector Byte 481)
deriving DecidableEq, Repr

/-- A range of bus addresses where a memory space appears (20_memory.md R58): `elements` elements in index order from
`base` on, each in a slot of `lanes.length` bytes. Byte `i` of a slot carries byte `lanes[i]` of the element; a number the
element has no byte for is a filler. `rowPitch` is the number of pixels per row of `IMG`. What a window answers whose lanes
leave out a byte or name one twice, or whose `rowPitch` is 0, log 14 says (DESIGN CHOICE). -/
structure BusWindow where
  base : Nat
  space : Space
  elements : Nat
  lanes : List Nat
  rowPitch : Nat
deriving DecidableEq, Repr

/-- `MEMMAP` (00_scope.md R7, 20_memory.md R58): the bus address of the register block, whether and where each memory
space appears on the bus, and the packing of its elements. -/
structure MemMap where
  regBase : Nat
  windows : List BusWindow
deriving DecidableEq, Repr

/-- The parameters of 00_scope.md R7 that an implementation fixes (92_eei_decisions.md section 6). They are an argument of
the model: State carries one `Config`, no step changes it, and a statement over all states holds for every value
(log 1, DESIGN CHOICE). -/
structure Config where
  /-- `BS_CAP`: bytes per bit-segment memory -/
  bsCap : Word
  /-- `CBUF_CAP`: bytes of the container buffer -/
  cbufCap : Word
  /-- `CSC_MAP`: from a scaled colour component to a sample -/
  cscMap : CscMap
  /-- `MEMMAP`: the bus addresses and the packing -/
  memMap : MemMap
deriving DecidableEq, Repr

/-- The defaults 00_scope.md R7 gives for the capacities and for `CSC_MAP`. It gives none for `MEMMAP`; the model's is a
register block at bus address 0 and no memory window (log 14, DESIGN CHOICE). -/
def Config.defaults : Config :=
  { bsCap := 4194304#32
    cbufCap := 16777216#32
    cscMap := .clampThenShift
    memMap := { regBase := 0, windows := [] } }

/-- `S_CAP` (00_scope.md R7): symbols per symbol-stream memory, 64 × 255 × 255. -/
def sCap : Nat := 4161600

/-- The number of blocks of a quantised plane memory (20_memory.md R50). -/
def qpBlocks : Nat := 65025

/-- `HDR_BYTES` (00_scope.md R6). -/
def hdrBytes : Nat := 2320

end Sys2Proof
end

