-- ==== Sys2Proof/Machine/State.lean ====
section
/-! DEFINITION. The machine's state: everything the spec gives the engine (10_state.md, 20_memory.md R50), as plain data;
the reasons a step can stop; reset. -/

namespace Sys2Proof.Machine

/-- One thing per plane (00_scope.md R17). -/
structure PerPlane (α : Type) where
  y : α
  u : α
  v : α
deriving DecidableEq, Repr

/-- One thing per stream kind (00_scope.md R17). -/
structure PerKind (α : Type) where
  dc : α
  run : α
  val : α
deriving DecidableEq, Repr

/-- One thing per AC kind (10_state.md R34). -/
structure PerAc (α : Type) where
  run : α
  val : α
deriving DecidableEq, Repr

/-- One thing per stream, indexed `[p][k]` (10_state.md R39). -/
abbrev PerStream (α : Type) := PerPlane (PerKind α)

/-- An 8 × 8 array, row first (00_scope.md R17). -/
abbrev Block (α : Type) := Vector (Vector α 8) 8

/-- A byte space of 20_memory.md R50: the (address, byte) pairs that differ from what an unlisted address reads as. -/
abbrev Memory := List Host.Cell

/-- What an unlisted address reads as: 0, the reset contents of `S`, `BS`, `QP` and `LT` (10_state.md R43). For `CBUF`
and `IMG`, whose contents after power-up the spec leaves unspecified, this is the model's choice.
DESIGN CHOICE, unsafe (log 4). -/
def unlisted : Byte := 0#8

/-- Addresses strictly rising, none below `lo`, and no entry equal to what an unlisted address reads as. -/
def Memory.risingFrom (lo : Nat) : Memory → Bool
  | [] => true
  | (a, b) :: rest => Nat.ble lo a && b != unlisted && Memory.risingFrom (a + 1) rest

/-- The canonical form of a memory: equal memories are equal lists. -/
def Memory.wf (m : Memory) : Bool := Memory.risingFrom 0 m

/-- Every listed address is below `cap`. -/
def Memory.within (cap : Nat) (m : Memory) : Bool := m.all fun c => Nat.blt c.1 cap

/-- A code table `CT[p][k]` (10_state.md R41): the symbols that have a code, rising, each with its code; every other
symbol reads (`len` 0, `code` 0). -/
abbrev CodeTable := List (Nat × Code)

/-- The canonical form of a code table: symbols strictly rising and below 256, no entry of length 0, and every code
below `2^len` (10_state.md R41). -/
def CodeTable.risingFrom (lo : Nat) : CodeTable → Bool
  | [] => true
  | (s, c) :: rest =>
    Nat.ble lo s && Nat.blt s 256 && c.len != 0#8 && Nat.blt c.code.toNat (2 ^ c.len.toNat) &&
      CodeTable.risingFrom (s + 1) rest

/-- The canonical form of a code table. -/
def CodeTable.wf (t : CodeTable) : Bool := CodeTable.risingFrom 0 t

/-- The fifteen error codes, in the order of their numbers 0 to 14 (60_exceptions.md R191). -/
inductive ErrCode where
  | none | illcmd | dim | magic | trunc | format | exhaust | nomatch
  | table | nocode | zz | stream | seglen | cap | range
deriving DecidableEq, Repr

/-- A code and its information word, as `raise E(info)` carries them (00_scope.md R16). -/
structure Err where
  code : ErrCode
  info : Nat
deriving DecidableEq, Repr

/-- The engine. Field names are the spec's register and space names in lower case; `syms` is the space `S`. -/
structure State where
  /-- the OPEN parameters; the model's own field (log 1) -/
  cfg : Config
  /-- `CMD` (10_state.md R28) -/
  cmd : Word
  /-- `STATUS.BUSY` (R29) -/
  busy : Bool
  /-- `STATUS.DONE` (R29) -/
  done : Bool
  /-- `STATUS.ERR` (R29) -/
  err : Bool
  /-- `CTRL.IE` (R30) -/
  ie : Bool
  /-- `ERRCODE` (R31) -/
  errcode : ErrCode
  /-- `ERRINFO` (R31) -/
  errinfo : Word
  /-- `IMGW` (R32) -/
  imgw : BitVec 16
  /-- `IMGH` (R32) -/
  imgh : BitVec 16
  /-- `BLKW` (R33) -/
  blkw : BitVec 8
  /-- `BLKH` (R33) -/
  blkh : BitVec 8
  /-- `ACLEN[2p]` is plane `p`'s `run`, `ACLEN[2p + 1]` its `val` (R34) -/
  aclen : PerPlane (PerAc (BitVec 16))
  /-- `CLEN` (R35) -/
  clen : Word
  /-- `CPTR` (R35) -/
  cptr : Word
  /-- `BIDX` (R36) -/
  bidx : BitVec 16
  /-- `COUNT` (R36) -/
  count : Word
  /-- `PIX` (R37) -/
  pix : BitVec 24
  /-- `YUV` (R37) -/
  yuv : BitVec 24
  /-- `DCP0..DCP2` (R38) -/
  dcp : PerPlane Byte
  /-- `SLEN[p][k]` (R39) -/
  slen : PerStream Word
  /-- `SRD[p][k]` (R39) -/
  srd : PerStream Word
  /-- `BSLEN[p][k]` (R39) -/
  bslen : PerStream Word
  /-- `SB[p][j][i]` (R21) -/
  sb : PerPlane (Block Byte)
  /-- `CB[v][u]` (R22) -/
  cb : Block (BitVec 16)
  /-- `QB[v][u]` (R23) -/
  qb : Block Byte
  /-- `LT[p][k][s]` (R40) -/
  lt : PerStream Memory
  /-- `CT[p][k][s]` (R41) -/
  ct : PerStream CodeTable
  /-- the symbol stream memories `S[p][k]` (20_memory.md R50) -/
  syms : PerStream Memory
  /-- the bit-segment memories `BS[p][k]` (20_memory.md R50) -/
  bs : PerStream Memory
  /-- the quantised planes `QP[p]` (20_memory.md R50) -/
  qp : PerPlane Memory
  /-- the container buffer `CBUF` (20_memory.md R50) -/
  cbuf : Memory
  /-- the image `IMG` (20_memory.md R50) -/
  img : Memory
  /-- the host's accesses not yet served, oldest first; the model's own field (log 2) -/
  pending : List HostAccess
  /-- what the last host read returned; the model's own field (log 3) -/
  reply : Option Reply
deriving DecidableEq, Repr

/-- Why the machine stops. No command of the opcode table raises one: a command error is a next state
(60_exceptions.md R194, R196). -/
inductive Fault where
  /-- Raised by the register port for an access at an offset that is not a multiple of 4, or by the bus for one that is
  no whole word, which 20_memory.md R56 puts outside the model. Safe: the model stops where a platform's bus might go
  on (log 6). -/
  | registerAccessMisaligned
  /-- Raised by the bus for an access at an address where the platform has put no register and no element, or of a number
  of bytes other than the slot's: the engine takes part in no such access. Safe (log 14). -/
  | busAccessUnmapped
deriving DecidableEq, Repr

/-- Why an instruction has no meaning in the model. -/
inductive Refusal where
  /-- Raised by an arm of `exec` for an instruction that is not modelled; no arm raises it now. Safe. -/
  | notModelled (mnemonic : String)
deriving DecidableEq, Repr

/-- The same thing for every plane. -/
def PerPlane.all {α : Type} (x : α) : PerPlane α := { y := x, u := x, v := x }

/-- The same thing for every stream. -/
def PerStream.all {α : Type} (x : α) : PerStream α := PerPlane.all { dc := x, run := x, val := x }

/-- The same element at every place of a block. -/
def Block.all {α : Type} (x : α) : Block α := Vector.replicate 8 (Vector.replicate 8 x)

/-- The reset values of 10_state.md R43, over the parts reset does not touch: the OPEN parameters, the contents of
`CBUF` and `IMG`, which belong to the host side, and what the host has pending or has been told (log 10). -/
def State.resetOver (cfg : Config) (cbuf img : Memory) (pending : List HostAccess) (reply : Option Reply) : State :=
  { cfg := cfg
    cmd := 0#32
    busy := false
    done := false
    err := false
    ie := false
    errcode := .none
    errinfo := 0#32
    imgw := 0#16
    imgh := 0#16
    blkw := 0#8
    blkh := 0#8
    aclen := PerPlane.all { run := 0#16, val := 0#16 }
    clen := 0#32
    cptr := 0#32
    bidx := 0#16
    count := 0#32
    pix := 0#24
    yuv := 0#24
    dcp := PerPlane.all 0#8
    slen := PerStream.all 0#32
    srd := PerStream.all 0#32
    bslen := PerStream.all 0#32
    sb := PerPlane.all (Block.all 0#8)
    cb := Block.all 0#16
    qb := Block.all 0#8
    lt := PerStream.all []
    ct := PerStream.all []
    syms := PerStream.all []
    bs := PerStream.all []
    qp := PerPlane.all []
    cbuf := cbuf
    img := img
    pending := pending
    reply := reply }

/-- The engine after power-up and hardware reset (10_state.md R43, 70_reset_and_hazards.md R221): the default
capacities, nothing in `CBUF` or `IMG` (log 4), no host access pending. -/
def State.reset : State := State.resetOver Config.defaults [] [] [] none

end Sys2Proof.Machine
end

