-- ==== Sys2Proof/Machine/Operands.lean ====
section
/-! DEFINITION. Operands and their arithmetic: the conversions and roundings of 00_scope.md R9 to R14, and the access by
plane, kind, row and column of R17. -/

namespace Sys2Proof.Machine

/-- `byte(x) = x mod 256` (00_scope.md R10). -/
def byteOf (x : Int) : Byte := BitVec.ofInt 8 x

/-- `sval(b)`: the signed value a byte carries (00_scope.md R10). -/
def sval (b : Byte) : Int := if b.toNat ≥ 128 then (b.toNat : Int) - 256 else (b.toNat : Int)

/-- The `i16` that carries an integer of its range. -/
def half (x : Int) : BitVec 16 := BitVec.ofInt 16 x

/-- `clamp(x, lo, hi)` (00_scope.md R11). -/
def clamp (x lo hi : Int) : Int := if x < lo then lo else if x > hi then hi else x

/-- `sat8` (00_scope.md R11). -/
def sat8 (x : Int) : Int := clamp x (-128) 127

/-- `satu8` (00_scope.md R11). -/
def satu8 (x : Int) : Int := clamp x 0 255

/-- `tdiv(a, b)`: division truncating toward zero (00_scope.md R12). -/
def tdiv (a : Int) (b : Nat) : Int :=
  if a ≥ 0 then ((a.natAbs / b : Nat) : Int) else -((a.natAbs / b : Nat) : Int)

/-- `sign(g)`, with `sign(0) = 0` (00_scope.md R13). -/
def signOf (g : Int) : Int := if g < 0 then -1 else if g = 0 then 0 else 1

/-- `rha(g, s)`: `g / 2^s` to the nearest integer, ties away from zero (00_scope.md R13). -/
def rha (g : Int) (s : Nat) : Int := signOf g * (((g.natAbs + 2 ^ (s - 1)) / 2 ^ s : Nat) : Int)

/-- `rhadiv(a, b)`: `a / b` to the nearest integer, ties away from zero (00_scope.md R14). -/
def rhadiv (a : Int) (b : Nat) : Int := signOf a * (((2 * a.natAbs + b) / (2 * b) : Nat) : Int)

/-- A 32-bit register value for a number that fits it. -/
def wordOf (n : Nat) : Word := BitVec.ofNat 32 n

/-- The planes in the order Y, U, V (00_scope.md R6). -/
def allPlanes : List Plane := [.y, .u, .v]

/-- The kinds in the order DC, RUN, VAL (00_scope.md R6). -/
def allKinds : List Kind := [.dc, .run, .val]

/-- The nine streams, plane by plane (00_scope.md R6). -/
def allStreams : List (Plane × Kind) :=
  [(.y, .dc), (.y, .run), (.y, .val), (.u, .dc), (.u, .run), (.u, .val), (.v, .dc), (.v, .run), (.v, .val)]

/-- The six AC segments in header order, `t` = 0..5 (10_state.md R34). -/
def acSegments : List (Plane × AcKind) :=
  [(.y, .run), (.y, .val), (.u, .run), (.u, .val), (.v, .run), (.v, .val)]

/-- The number of a plane, 0 to 2 (00_scope.md R17). -/
def planeNum : Plane → Nat
  | .y => 0
  | .u => 1
  | .v => 2

/-- The number of a kind, 0 to 2 (00_scope.md R17). -/
def kindNum : Kind → Nat
  | .dc => 0
  | .run => 1
  | .val => 2

/-- The number `t` = `2p + k − 1` of an AC segment's count in the header (46_container.md R171). -/
def acNum : Plane → AcKind → Nat
  | p, .run => 2 * planeNum p
  | p, .val => 2 * planeNum p + 1

/-- An AC kind as a stream kind. -/
def acKind : AcKind → Kind
  | .run => .run
  | .val => .val

/-- Element `p`. -/
def PerPlane.get {α : Type} (a : PerPlane α) : Plane → α
  | .y => a.y
  | .u => a.u
  | .v => a.v

/-- Element `p` replaced. -/
def PerPlane.set {α : Type} (a : PerPlane α) (p : Plane) (x : α) : PerPlane α :=
  match p with
  | .y => { a with y := x }
  | .u => { a with u := x }
  | .v => { a with v := x }

/-- Element `k`. -/
def PerKind.get {α : Type} (a : PerKind α) : Kind → α
  | .dc => a.dc
  | .run => a.run
  | .val => a.val

/-- Element `k` replaced. -/
def PerKind.set {α : Type} (a : PerKind α) (k : Kind) (x : α) : PerKind α :=
  match k with
  | .dc => { a with dc := x }
  | .run => { a with run := x }
  | .val => { a with val := x }

/-- The count of AC kind `a`. -/
def PerAc.get {α : Type} (c : PerAc α) : AcKind → α
  | .run => c.run
  | .val => c.val

/-- The count of AC kind `a` replaced. -/
def PerAc.set {α : Type} (c : PerAc α) (a : AcKind) (x : α) : PerAc α :=
  match a with
  | .run => { c with run := x }
  | .val => { c with val := x }

/-- Element `[p][k]`. -/
def PerPlane.at {α : Type} (a : PerStream α) (p : Plane) (k : Kind) : α := (a.get p).get k

/-- Element `[p][k]` replaced. -/
def PerPlane.put {α : Type} (a : PerStream α) (p : Plane) (k : Kind) (x : α) : PerStream α :=
  a.set p ((a.get p).set k x)

/-- One element per plane, computed. -/
def PerPlane.make {α : Type} (f : Plane → α) : PerPlane α := { y := f .y, u := f .u, v := f .v }

/-- One element per stream, computed. -/
def PerPlane.makeStreams {α : Type} (f : Plane → Kind → α) : PerStream α :=
  PerPlane.make fun p => { dc := f p .dc, run := f p .run, val := f p .val }

/-- Eight elements, computed. -/
def vec8 {α : Type} (f : Fin 8 → α) : Vector α 8 := #v[f 0, f 1, f 2, f 3, f 4, f 5, f 6, f 7]

/-- An 8 × 8 array, computed. -/
def Block.make {α : Type} (f : Fin 8 → Fin 8 → α) : Block α := vec8 fun r => vec8 (f r)

/-- The element at a row and column. -/
def Block.at {α : Type} (b : Block α) (r c : Fin 8) : α := b[r][c]

/-- A block with one element replaced. -/
def Block.put {α : Type} (b : Block α) (r c : Fin 8) (x : α) : Block α := b.set r (b[r].set c x)

/-- `Σ_{n=0..7} f(n)`. -/
def sum8 (f : Fin 8 → Int) : Int := f 0 + f 1 + f 2 + f 3 + f 4 + f 5 + f 6 + f 7

/-- Bits 7:0 of a 24-bit register (10_state.md R37). -/
def byte0 (w : BitVec 24) : Byte := w.extractLsb' 0 8

/-- Bits 15:8 of a 24-bit register (10_state.md R37). -/
def byte1 (w : BitVec 24) : Byte := w.extractLsb' 8 8

/-- Bits 23:16 of a 24-bit register (10_state.md R37). -/
def byte2 (w : BitVec 24) : Byte := w.extractLsb' 16 8

/-- Three bytes as a 24-bit register, the first in bits 7:0 (41_color.md R99, R100). -/
def pack24 (a b c : Byte) : BitVec 24 := BitVec.ofNat 24 (a.toNat + 256 * b.toNat + 65536 * c.toNat)

end Sys2Proof.Machine
end

