-- ==== Sys2Proof/Machine/Ops.lean ====
section
/-! DEFINITION. Named operations over memory and registers: byte spaces, the element layout of `QP` and `IMG`, the run of
a command, error entry (60_exceptions.md R196) and the way out of it (R198), the start and end of a command (R194). -/

namespace Sys2Proof.Machine

/-! ### Byte spaces (20_memory.md R50) -/

/-- The byte at an address. -/
def Memory.read : Memory → Nat → Byte
  | [], _ => unlisted
  | (b, x) :: rest, a => if Nat.beq b a then x else Memory.read rest a

/-- The cells of a run of bytes from an address, those that read as an unlisted address left out. -/
def cellsFrom (a : Nat) : List Byte → Memory
  | [] => []
  | b :: rest => if b == unlisted then cellsFrom (a + 1) rest else (a, b) :: cellsFrom (a + 1) rest

/-- `MemWrite` of a run of consecutive bytes: the bytes from `a` on become `bytes`, all others stay. -/
def Memory.writeBytes (m : Memory) (a : Nat) (bytes : List Byte) : Memory :=
  m.filter (fun c => Nat.blt c.1 a) ++ cellsFrom a bytes ++ m.filter (fun c => Nat.ble (a + bytes.length) c.1)

/-- `MemWrite` of one byte. -/
def Memory.write (m : Memory) (a : Nat) (b : Byte) : Memory := m.writeBytes a [b]

/-- `MemRead` of `n` consecutive bytes from `a`; only the cells of that window are searched. -/
def Memory.readBytes (m : Memory) (a n : Nat) : List Byte :=
  (List.range n).map fun i =>
    Memory.read (m.filter fun c => Nat.ble a c.1 && Nat.blt c.1 (a + n)) (a + i)

/-- The address of element (`n`, `v`, `u`) of a quantised plane (20_memory.md R50; log 5). -/
def qpAddr (n : Nat) (v u : Fin 8) : Nat := 64 * n + 8 * v.val + u.val

/-- The elements of a block in row order. -/
def Block.bytes (b : Block Byte) : List Byte :=
  (List.range 8).flatMap fun r => (List.range 8).map fun c => b.at (Fin.ofNat 8 r) (Fin.ofNat 8 c)

/-- The 64 elements of block `n` of a quantised plane. -/
def Memory.readBlock (m : Memory) (n : Nat) : Block Byte := Block.make fun v u => m.read (qpAddr n v u)

/-- Block `n` of a quantised plane replaced. -/
def Memory.writeBlock (m : Memory) (n : Nat) (b : Block Byte) : Memory := m.writeBytes (64 * n) b.bytes

/-- The address of the first byte of pixel (`x`, `y`) of `IMG`; R, G and B follow one another (log 5). -/
def pixelAddr (x y : Nat) : Nat := 3 * (65536 * y + x)

/-- `getPixel(x, y)` (10_state.md R44). -/
def Memory.readPixel (m : Memory) (x y : Nat) : Pixel :=
  { r := m.read (pixelAddr x y), g := m.read (pixelAddr x y + 1), b := m.read (pixelAddr x y + 2) }

/-- The three bytes of a pixel in the order of 20_memory.md R50. -/
def pixelBytes (c : Pixel) : List Byte := [c.r, c.g, c.b]

/-- `setPixel` of consecutive pixels of one row (10_state.md R44). -/
def Memory.writePixels (m : Memory) (x y : Nat) (cs : List Pixel) : Memory :=
  m.writeBytes (pixelAddr x y) (cs.flatMap pixelBytes)

/-- The entry of a symbol in a code table (10_state.md R41). -/
def CodeTable.entry (t : CodeTable) (s : Nat) : Code := (t.lookup s).getD { len := 0#8, code := 0#255 }

/-! ### The error mechanism (60_exceptions.md) -/

/-- The number of an error code (60_exceptions.md R191). -/
def ErrCode.number : ErrCode → Nat
  | .none => 0
  | .illcmd => 1
  | .dim => 2
  | .magic => 3
  | .trunc => 4
  | .format => 5
  | .exhaust => 6
  | .nomatch => 7
  | .table => 8
  | .nocode => 9
  | .zz => 10
  | .stream => 11
  | .seglen => 12
  | .cap => 13
  | .range => 14

/-- Error entry (60_exceptions.md R196): `ERR` set, the code and bits 31:0 of the information word recorded, nothing
else saved. -/
def errorEntry (e : Err) (s : State) : State :=
  { s with err := true, errcode := e.code, errinfo := wordOf e.info }

/-- Leaving the error state (60_exceptions.md R198, 40_control.md R92); nothing is restored. -/
def clearError (s : State) : State := { s with err := false, errcode := .none, errinfo := 0#32 }

/-- How the pseudocode of a command ends: normally, or by a `raise` whose error entry has been performed
(00_scope.md R16). What was written before the `raise` stays written. -/
inductive Run where
  | ok (s : State)
  | raised (s : State)
deriving DecidableEq, Repr

/-- The state a command leaves, however it ended. -/
def Run.state : Run → State
  | .ok s => s
  | .raised s => s

/-- `raise E(info)` (00_scope.md R16). -/
def raise (e : Err) (s : State) : Run := .raised (errorEntry e s)

/-- The error of an access past a capacity, with the capacity as information (20_memory.md R52). -/
def capError (cap : Nat) : Err := { code := .cap, info := cap }

/-- `raise E(info)` when a condition holds, else go on. -/
def raiseIf (c : Bool) (e : Err) (s : State) (go : State → Run) : Run := if c then raise e s else go s

/-- Go on with a computed value, or raise the error of its computation. -/
def withResult {α : Type} (r : Except Err α) (s : State) (go : α → State → Run) : Run :=
  match r with
  | .ok a => go a s
  | .error e => raise e s

/-- One piece of pseudocode after another; a `raise` ends the whole (47_codec.md R180). -/
def Run.andThen (r : Run) (go : State → Run) : Run :=
  match r with
  | .ok s => go s
  | .raised s => .raised s

/-- A `for` loop of pseudocode over the given values. -/
def forEach {α : Type} (l : List α) (body : α → State → Run) (s : State) : Run :=
  match l with
  | [] => .ok s
  | a :: rest => (body a s).andThen (forEach rest body)

/-- The first line of 60_exceptions.md R194: `CMD <- w ; STATUS.BUSY <- 1 ; STATUS.DONE <- 0`. -/
def commandStart (w : Word) (s : State) : State := { s with cmd := w, busy := true, done := false }

/-- The last line of 60_exceptions.md R194: `STATUS.BUSY <- 0 ; STATUS.DONE <- 1`. -/
def commandEnd (s : State) : State := { s with busy := false, done := true }

/-- The end of a command whose meaning has answered. -/
def commandEnds (o : Host.Outcome State Fault Refusal) : Host.Outcome State Fault Refusal :=
  match o with
  | .next s => .next (commandEnd s)
  | .fault f => .fault f
  | .refused r => .refused r

/-- The number of blocks per plane, `N = BLKW × BLKH` (10_state.md R33). -/
def blockCount (s : State) : Nat := s.blkw.toNat * s.blkh.toNat

end Sys2Proof.Machine
end

