-- ==== Sys2Proof/Machine/Tables.lean ====
section
/-! DEFINITION. The engine's ROMs, each one named constant: the DCT constants (42_dct.md R108), the quantisation matrix
(43_quant.md R121), the zigzag sequence (44_coefcoder.md R131), and what the map `CSC_MAP` gives (41_color.md R97). -/

namespace Sys2Proof.Machine

/-- What `CSC_MAP` gives for a scaled colour component (00_scope.md R7, 41_color.md R97), as the byte of an `i8`: for the
value the spec takes, clamp to 0..255, then level-shift by −128. -/
def cscMap (m : CscMap) (t : Int) : Byte :=
  match m with
  | .clampThenShift => byteOf (satu8 t - 128)
  | .listed samples => samples.toList.getD (t + 225).toNat 0x80#8

/-- The magnitudes `c_1` to `c_7` of 42_dct.md R108, at index `m`. -/
def dctMagnitude : Nat → Int
  | 1 => 1053110176
  | 2 => 992008094
  | 3 => 892783698
  | 4 => 759250125
  | 5 => 596538995
  | 6 => 410903207
  | 7 => 209476638
  | _ => 0

/-- The signed index `±m` of `±c_m` at row `k`, column `n` of the table of 42_dct.md R108. -/
def dctIndex : Block Int :=
  #v[ #v[ 4,  4,  4,  4,  4,  4,  4,  4],
      #v[ 1,  3,  5,  7, -7, -5, -3, -1],
      #v[ 2,  6, -6, -2, -2, -6,  6,  2],
      #v[ 3, -7, -1, -5,  5,  1,  7, -3],
      #v[ 4, -4, -4,  4,  4, -4, -4,  4],
      #v[ 5, -1,  7,  3, -3, -7,  1, -5],
      #v[ 6, -2,  2, -6, -6,  2, -2,  6],
      #v[ 7, -5,  3, -1,  1, -3,  5, -7] ]

/-- `K[k][n]` (42_dct.md R108). -/
def dctK (k n : Fin 8) : Int :=
  let m := dctIndex.at k n
  signOf m * dctMagnitude m.natAbs

/-- The quantisation matrix `Q[v][u]` (43_quant.md R121). -/
def quantMatrix : Block Nat :=
  #v[ #v[16, 11, 10, 16,  24,  40,  51,  61],
      #v[12, 12, 14, 19,  26,  58,  60,  55],
      #v[14, 13, 16, 24,  40,  57,  69,  56],
      #v[14, 17, 22, 29,  51,  87,  80,  62],
      #v[18, 22, 37, 56,  68, 109, 103,  77],
      #v[24, 35, 55, 64,  81, 104, 113,  92],
      #v[49, 64, 78, 87, 103, 121, 120, 101],
      #v[72, 92, 95, 98, 112, 100, 103,  99] ]

/-- `Q[v][u]`. -/
def quantStep (v u : Fin 8) : Nat := quantMatrix.at v u

/-- The zigzag sequence `ZZ[t]`, `t` = 0..62, as (row, column) (44_coefcoder.md R131). -/
def zigzag : List (Fin 8 × Fin 8) :=
  [(0,1), (1,0), (2,0), (1,1), (0,2), (0,3), (1,2), (2,1)] ++
  [(3,0), (4,0), (3,1), (2,2), (1,3), (0,4), (0,5), (1,4)] ++
  [(2,3), (3,2), (4,1), (5,0), (6,0), (5,1), (4,2), (3,3)] ++
  [(2,4), (1,5), (0,6), (0,7), (1,6), (2,5), (3,4), (4,3)] ++
  [(5,2), (6,1), (7,0), (7,1), (6,2), (5,3), (4,4), (3,5)] ++
  [(2,6), (1,7), (2,7), (3,6), (4,5), (5,4), (6,3), (7,2)] ++
  [(7,3), (6,4), (5,5), (4,6), (3,7), (4,7), (5,6), (6,5)] ++
  [(7,4), (7,5), (6,6), (5,7), (6,7), (7,6), (7,7)]

/-- `ZZ[t]`, for `t` ≤ 62. -/
def zigzagAt (t : Nat) : Fin 8 × Fin 8 := zigzag.getD t (0, 0)

end Sys2Proof.Machine
end

