-- ==== Sys2Proof/Machine/CoefCoder.lean ====
section
/-! DEFINITION. The coefficient coder: CC_RST, CC_ENC, CC_DEC (44_coefcoder.md). -/

namespace Sys2Proof.Machine

/-- `CC_RST p` (44_coefcoder.md R132). -/
def cmdCcRst (p : Plane) (s : State) : Run :=
  .ok { s with
    slen := s.slen.set p { dc := 0#32, run := 0#32, val := 0#32 }
    srd := s.srd.set p { dc := 0#32, run := 0#32, val := 0#32 }
    dcp := s.dcp.set p 0#8 }

/-- The (run, value) pairs of a block from a zigzag position on, `run` zeros already counted, the EOB pair last
(44_coefcoder.md R133). -/
def acPairs (q : Block Byte) (run : Nat) : List (Fin 8 × Fin 8) → List (Byte × Byte)
  | [] => [(0#8, 0#8)]
  | (v, u) :: rest =>
    if q.at v u == 0#8 then acPairs q (run + 1) rest
    else (BitVec.ofNat 8 run, q.at v u) :: acPairs q 0 rest

/-- All pairs of a block, in zigzag order (44_coefcoder.md R133). -/
def blockPairs (q : Block Byte) : List (Byte × Byte) := acPairs q 0 zigzag

/-- The DC symbol: the difference to the predictor, modulo 256 (44_coefcoder.md R133). -/
def dcSymbol (q : Block Byte) (dcp : Byte) : Byte := byteOf (sval (q.at 0 0) - sval dcp)

/-- Append symbols to the stream `S[p][k]` at `SLEN[p][k]` and count them (44_coefcoder.md R133). -/
def appendSymbols (p : Plane) (k : Kind) (bytes : List Byte) (s : State) : State :=
  let n := (s.slen.at p k).toNat
  { s with
    syms := s.syms.put p k ((s.syms.at p k).writeBytes n bytes)
    slen := s.slen.put p k (wordOf (n + bytes.length)) }

/-- `CC_ENC p` (44_coefcoder.md R133); all checks precede all writes. -/
def cmdCcEnc (p : Plane) (s : State) : Run :=
  let pairs := blockPairs s.qb
  let m := pairs.length
  raiseIf (Nat.blt sCap ((s.slen.at p .dc).toNat + 1)) (capError sCap) s fun s =>
  raiseIf (Nat.blt sCap ((s.slen.at p .run).toNat + m) || Nat.blt sCap ((s.slen.at p .val).toNat + m))
    (capError sCap) s fun s =>
  let s1 := appendSymbols p .dc [dcSymbol s.qb (s.dcp.get p)] s
  let s2 := appendSymbols p .run (pairs.map Prod.fst) s1
  let s3 := appendSymbols p .val (pairs.map Prod.snd) s2
  .ok { s3 with dcp := s3.dcp.set p (s.qb.at 0 0) }

/-- The symbol at an index of a stream memory; an index past the capacity is `E_CAP` (44_coefcoder.md R134,
20_memory.md R52). -/
def readSymbol (m : Memory) (n : Nat) : Except Err Byte :=
  if Nat.ble sCap n then .error (capError sCap) else .ok (m.read n)

/-- What the pair loop of `CC_DEC` works on: one plane's AC streams and the block number it reports. -/
structure PairSource where
  runs : Memory
  vals : Memory
  runLen : Nat
  valLen : Nat
  block : Nat

/-- One pass of the loop of `CC_DEC` up to the EOB test: the pair at the cursors (44_coefcoder.md R134). -/
def readPair (src : PairSource) (r1 r2 : Nat) : Except Err (Byte × Byte) :=
  if Nat.ble src.runLen r1 then .error { code := .stream, info := 1 }
  else if Nat.ble src.valLen r2 then .error { code := .stream, info := 2 }
  else match readSymbol src.runs r1, readSymbol src.vals r2 with
    | .error e, _ => .error e
    | .ok _, .error e => .error e
    | .ok run, .ok val => .ok (run, val)

/-- The loop of `CC_DEC` (44_coefcoder.md R134): zigzag cursor `c`, read cursors `r1`, `r2`, block so far `q`; answers
the block and the cursors after the EOB. `fuel` bounds the passes: each pass but the last moves `c` on by at least 1
and `c` ≤ 63, so 64 passes from `c` = 0 always suffice and the bound is never what ends the loop (log 9). -/
def pairLoop (src : PairSource) : (fuel c r1 r2 : Nat) → Block Byte → Except Err (Block Byte × Nat × Nat)
  | 0, _, _, _, _ => .error { code := .zz, info := src.block }
  | fuel + 1, c, r1, r2, q =>
    match readPair src r1 r2 with
    | .error e => .error e
    | .ok (run, val) =>
      if run == 0#8 && val == 0#8 then .ok (q, r1 + 1, r2 + 1)
      else if Nat.blt 62 (c + run.toNat) then .error { code := .zz, info := src.block }
      else pairLoop src fuel (c + run.toNat + 1) (r1 + 1) (r2 + 1)
        (q.put (zigzagAt (c + run.toNat)).1 (zigzagAt (c + run.toNat)).2 val)

/-- The streams of plane `p` as `CC_DEC` reads them. -/
def pairSource (p : Plane) (s : State) : PairSource :=
  { runs := s.syms.at p .run
    vals := s.syms.at p .val
    runLen := (s.slen.at p .run).toNat
    valLen := (s.slen.at p .val).toNat
    block := (s.srd.at p .dc).toNat }

/-- A block that is zero but for its DC coefficient. -/
def dcBlock (dc : Byte) : Block Byte := (Block.all 0#8).put 0 0 dc

/-- The DC coefficient `CC_DEC` finds: running accumulation, modulo 256 (44_coefcoder.md R134). -/
def decodeDc (p : Plane) (s : State) : Except Err Byte :=
  let n := (s.srd.at p .dc).toNat
  if Nat.ble (s.slen.at p .dc).toNat n then .error { code := .stream, info := 0 }
  else match readSymbol (s.syms.at p .dc) n with
    | .error e => .error e
    | .ok d => .ok (byteOf (sval (s.dcp.get p) + sval d))

/-- What `CC_DEC p` decodes: the DC byte, the block, and the read cursors after it (44_coefcoder.md R134). -/
def decodeBlock (p : Plane) (s : State) : Except Err (Byte × Block Byte × Nat × Nat) :=
  match decodeDc p s with
  | .error e => .error e
  | .ok dc =>
    match pairLoop (pairSource p s) 64 0 (s.srd.at p .run).toNat (s.srd.at p .val).toNat (dcBlock dc) with
    | .error e => .error e
    | .ok (q, r1, r2) => .ok (dc, q, r1, r2)

/-- `CC_DEC p` (44_coefcoder.md R134); all writes are at its end. -/
def cmdCcDec (p : Plane) (s : State) : Run :=
  withResult (decodeBlock p s) s fun d s =>
    .ok { s with
      qb := d.2.1
      dcp := s.dcp.set p d.1
      srd := s.srd.set p
        { dc := wordOf ((s.srd.at p .dc).toNat + 1), run := wordOf d.2.2.1, val := wordOf d.2.2.2 } }

/-- `CC_RST p` (44_coefcoder.md R132). -/
def execCcRst (p : Plane) (s : State) : Host.Outcome State Fault Refusal := .next (cmdCcRst p s).state

/-- `CC_ENC p` (44_coefcoder.md R133). -/
def execCcEnc (p : Plane) (s : State) : Host.Outcome State Fault Refusal := .next (cmdCcEnc p s).state

/-- `CC_DEC p` (44_coefcoder.md R134). -/
def execCcDec (p : Plane) (s : State) : Host.Outcome State Fault Refusal := .next (cmdCcDec p s).state

end Sys2Proof.Machine
end

