-- ==== Sys2Proof/Machine/Color.lean ====
section
/-! DEFINITION. The colour-space converter and tiler: CSC_FWD, CSC_INV, TILE_IN, TILE_OUT (41_color.md). -/

namespace Sys2Proof.Machine

/-- `rgb2yuv` (41_color.md R97) under a `CSC_MAP`, each result as the byte of an `i8`. -/
def rgb2yuv (m : CscMap) (c : Pixel) : Sample :=
  let r : Int := c.r.toNat
  let g : Int := c.g.toNat
  let b : Int := c.b.toNat
  { y := cscMap m (tdiv (299 * r + 587 * g + 114 * b) 1000)
    u := cscMap m (tdiv (-299 * r - 587 * g + 886 * b) 1000)
    v := cscMap m (tdiv (701 * r - 587 * g - 114 * b) 1000) }

/-- `yuv2rgb` (41_color.md R98). -/
def yuv2rgb (t : Sample) : Pixel :=
  let py := sval t.y + 128
  let pu := sval t.u + 128
  let pv := sval t.v + 128
  { r := byteOf (satu8 (py + pv))
    g := byteOf (satu8 (tdiv (1000 * py - 194 * pu - 509 * pv) 1000))
    b := byteOf (satu8 (py + pu)) }

/-- `CSC_FWD` (41_color.md R99). -/
def cmdCscFwd (s : State) : Run :=
  let t := rgb2yuv s.cfg.cscMap { r := byte0 s.pix, g := byte1 s.pix, b := byte2 s.pix }
  .ok { s with yuv := pack24 t.y t.u t.v }

/-- `CSC_INV` (41_color.md R100). -/
def cmdCscInv (s : State) : Run :=
  let c := yuv2rgb { y := byte0 s.yuv, u := byte1 s.yuv, v := byte2 s.yuv }
  .ok { s with pix := pack24 c.r c.g c.b }

/-- The checks of `TILE_IN` and `TILE_OUT`, in their order (41_color.md R101, R102). -/
def tileChecks (s : State) (go : State → Run) : Run :=
  raiseIf (Nat.ble (blockCount s) s.bidx.toNat) { code := .range, info := s.bidx.toNat } s fun s =>
  raiseIf (Nat.blt s.imgw.toNat (8 * s.blkw.toNat) || Nat.blt s.imgh.toNat (8 * s.blkh.toNat))
    { code := .range, info := s.bidx.toNat } s go

/-- The pixel column of column `i` of the block `BIDX` (41_color.md R101). -/
def tileX (s : State) (i : Nat) : Nat := 8 * (s.bidx.toNat % s.blkw.toNat) + i

/-- The pixel row of row `j` of the block `BIDX` (41_color.md R101). -/
def tileY (s : State) (j : Nat) : Nat := 8 * (s.bidx.toNat / s.blkw.toNat) + j

/-- The samples of the tile `BIDX` (41_color.md R101). -/
def tileSample (s : State) (j i : Fin 8) : Sample :=
  rgb2yuv s.cfg.cscMap (s.img.readPixel (tileX s i.val) (tileY s j.val))

/-- `TILE_IN` (41_color.md R101). -/
def cmdTileIn (s : State) : Run :=
  tileChecks s fun s =>
    .ok { s with sb :=
      { y := Block.make fun j i => (tileSample s j i).y
        u := Block.make fun j i => (tileSample s j i).u
        v := Block.make fun j i => (tileSample s j i).v } }

/-- The pixels of row `j` of the tile that the sample blocks hold (41_color.md R102). -/
def tileRow (sb : PerPlane (Block Byte)) (j : Fin 8) : List Pixel :=
  (List.range 8).map fun i =>
    yuv2rgb { y := sb.y.at j (Fin.ofNat 8 i), u := sb.u.at j (Fin.ofNat 8 i), v := sb.v.at j (Fin.ofNat 8 i) }

/-- The image with the tile `BIDX` written, row by row (41_color.md R102). -/
def tileWritten (s : State) : Memory :=
  (List.range 8).foldl (fun m j => m.writePixels (tileX s 0) (tileY s j) (tileRow s.sb (Fin.ofNat 8 j))) s.img

/-- `TILE_OUT` (41_color.md R102). -/
def cmdTileOut (s : State) : Run := tileChecks s fun s => .ok { s with img := tileWritten s }

/-- `CSC_FWD` (41_color.md R99). -/
def execCscFwd (s : State) : Host.Outcome State Fault Refusal := .next (cmdCscFwd s).state

/-- `CSC_INV` (41_color.md R100). -/
def execCscInv (s : State) : Host.Outcome State Fault Refusal := .next (cmdCscInv s).state

/-- `TILE_IN` (41_color.md R101). -/
def execTileIn (s : State) : Host.Outcome State Fault Refusal := .next (cmdTileIn s).state

/-- `TILE_OUT` (41_color.md R102). -/
def execTileOut (s : State) : Host.Outcome State Fault Refusal := .next (cmdTileOut s).state

end Sys2Proof.Machine
end

