-- ==== Sys2Proof/Machine/Container.lean ====
section
/-! DEFINITION. The container framer: FRAME, DEFRAME_HDR (46_container.md; layout 30_encoding.md R77 to R80). -/

namespace Sys2Proof.Machine

/-- `'I'` and `'M'` (30_encoding.md R77). -/
def magic : List Byte := [0x49#8, 0x4D#8]

/-- A 16-bit count, little-endian (20_memory.md R53). -/
def countBytes (c : Word) : List Byte := [c.extractLsb' 0 8, c.extractLsb' 8 8]

/-- The 16-byte file header (30_encoding.md R77); the six counts are the lengths of the AC segments
(46_container.md R171). -/
def fileHeader (s : State) : List Byte :=
  magic ++ [s.blkw, s.blkh] ++ acSegments.flatMap fun t => countBytes (s.bslen.at t.1 (acKind t.2))

/-- The nine length tables in order, 256 bytes each (30_encoding.md R78). -/
def tableBytes (s : State) : List Byte := allStreams.flatMap fun t => (s.lt.at t.1 t.2).readBytes 0 256

/-- The nine segments in order (30_encoding.md R79). -/
def payloadBytes (s : State) : List Byte :=
  allStreams.flatMap fun t => (s.bs.at t.1 t.2).readBytes 0 (s.bslen.at t.1 t.2).toNat

/-- The container `FRAME` writes (30_encoding.md R77 to R79). -/
def containerBytes (s : State) : List Byte := fileHeader s ++ tableBytes s ++ payloadBytes s

/-- `total` of `FRAME`: 2320 and the lengths of the nine segments (46_container.md R171). -/
def containerLength (s : State) : Nat := hdrBytes + (allStreams.map fun t => (s.bslen.at t.1 t.2).toNat).sum

/-- The first AC segment, in header order, whose length the 16-bit count cannot hold (46_container.md R171). -/
def longSegment (s : State) : Option (Plane × AcKind) :=
  acSegments.find? fun t => Nat.blt 65535 (s.bslen.at t.1 (acKind t.2)).toNat

/-- The six counts as `FRAME` leaves them in `ACLEN` (46_container.md R171). -/
def segmentCounts (s : State) : PerPlane (PerAc (BitVec 16)) :=
  PerPlane.make fun p =>
    { run := (s.bslen.at p .run).extractLsb' 0 16, val := (s.bslen.at p .val).extractLsb' 0 16 }

/-- `FRAME` (46_container.md R171); all checks precede all writes. -/
def cmdFrame (s : State) : Run :=
  raiseIf (allStreams.any fun t => Nat.blt s.cfg.bsCap.toNat (s.bslen.at t.1 t.2).toNat)
    (capError s.cfg.bsCap.toNat) s fun s =>
  match longSegment s with
  | some t => raise { code := .seglen, info := acNum t.1 t.2 } s
  | none =>
    raiseIf (Nat.blt s.cfg.cbufCap.toNat (containerLength s)) (capError s.cfg.cbufCap.toNat) s fun s =>
    .ok { s with
      cbuf := s.cbuf.writeBytes 0 (containerBytes s)
      aclen := segmentCounts s
      clen := wordOf (containerLength s) }

/-- The first two bytes are not the magic, as far as they exist (46_container.md R172). -/
def badMagic (s : State) : Bool :=
  Nat.blt s.clen.toNat 2 || s.cbuf.read 0 != 0x49#8 || s.cbuf.read 1 != 0x4D#8

/-- The header count of an AC segment: bytes 4 + 2t and 5 + 2t, little-endian (46_container.md R172). -/
def headerCount (m : Memory) (p : Plane) (a : AcKind) : Nat :=
  (m.read (4 + 2 * acNum p a)).toNat + 256 * (m.read (5 + 2 * acNum p a)).toNat

/-- The sum of the six header counts (46_container.md R172). -/
def declaredAc (m : Memory) : Nat := (acSegments.map fun t => headerCount m t.1 t.2).sum

/-- The offset of the length table of stream (`p`, `k`) in a container (30_encoding.md R78). -/
def tableOffset (p : Plane) (k : Kind) : Nat := 16 + 768 * planeNum p + 256 * kindNum k

/-- `DEFRAME_HDR` (46_container.md R172); all checks precede all writes. -/
def cmdDeframeHdr (s : State) : Run :=
  raiseIf (Nat.blt s.cfg.cbufCap.toNat s.clen.toNat) (capError s.cfg.cbufCap.toNat) s fun s =>
  raiseIf (badMagic s) { code := .magic, info := 0 } s fun s =>
  raiseIf (Nat.blt s.clen.toNat hdrBytes) { code := .trunc, info := s.clen.toNat } s fun s =>
  raiseIf (Nat.blt s.clen.toNat (hdrBytes + declaredAc s.cbuf)) { code := .trunc, info := s.clen.toNat } s fun s =>
  .ok { s with
    blkw := s.cbuf.read 2
    blkh := s.cbuf.read 3
    aclen := PerPlane.make fun p =>
      { run := BitVec.ofNat 16 (headerCount s.cbuf p .run), val := BitVec.ofNat 16 (headerCount s.cbuf p .val) }
    lt := PerPlane.makeStreams fun p k => cellsFrom 0 (s.cbuf.readBytes (tableOffset p k) 256)
    cptr := wordOf hdrBytes }

/-- `FRAME` (46_container.md R171). -/
def execFrame (s : State) : Host.Outcome State Fault Refusal := .next (cmdFrame s).state

/-- `DEFRAME_HDR` (46_container.md R172). -/
def execDeframeHdr (s : State) : Host.Outcome State Fault Refusal := .next (cmdDeframeHdr s).state

end Sys2Proof.Machine
end

