-- ==== Sys2Proof/Machine/Dct.lean ====
section
/-! DEFINITION. The two-dimensional DCT: FDCT, IDCT (42_dct.md). -/

namespace Sys2Proof.Machine

/-- The row pass of `fdct`: `T[j][u] = Σ_i K[u][i] × f[j][i]` (42_dct.md R109). -/
def fdctRows (f : Block Byte) : Block Int := Block.make fun j u => sum8 fun i => dctK u i * sval (f.at j i)

/-- The column pass of `fdct`: `G[v][u] = Σ_j K[v][j] × T[j][u]`, scaled by 2^62 (42_dct.md R109). -/
def fdctSum (f : Block Byte) (v u : Fin 8) : Int := sum8 fun j => dctK v j * (fdctRows f).at j u

/-- `fdct(f)` (42_dct.md R109). -/
def fdct (f : Block Byte) : Block (BitVec 16) := Block.make fun v u => half (rha (fdctSum f v u) 62)

/-- The row pass of `idct`: `T[v][i] = Σ_u K[u][i] × F[v][u]` (42_dct.md R112). -/
def idctRows (c : Block (BitVec 16)) : Block Int := Block.make fun v i => sum8 fun u => dctK u i * (c.at v u).toInt

/-- The column pass of `idct`: `G[j][i] = Σ_v K[v][j] × T[v][i]`, scaled by 2^62 (42_dct.md R112). -/
def idctSum (c : Block (BitVec 16)) (j i : Fin 8) : Int := sum8 fun v => dctK v j * (idctRows c).at v i

/-- `idct(F)` (42_dct.md R112). -/
def idct (c : Block (BitVec 16)) : Block Byte := Block.make fun j i => byteOf (sat8 (rha (idctSum c j i) 62))

/-- `FDCT p` (42_dct.md R110). -/
def cmdFdct (p : Plane) (s : State) : Run := .ok { s with cb := fdct (s.sb.get p) }

/-- `IDCT p` (42_dct.md R111). -/
def cmdIdct (p : Plane) (s : State) : Run := .ok { s with sb := s.sb.set p (idct s.cb) }

/-- `FDCT p` (42_dct.md R110). -/
def execFdct (p : Plane) (s : State) : Host.Outcome State Fault Refusal := .next (cmdFdct p s).state

/-- `IDCT p` (42_dct.md R111). -/
def execIdct (p : Plane) (s : State) : Host.Outcome State Fault Refusal := .next (cmdIdct p s).state

end Sys2Proof.Machine
end

