-- ==== Sys2Proof/Machine/Huffman.lean ====
section
/-! DEFINITION. The canonical Huffman unit: HUF_LEN, HUF_CODE, HUF_ENC, HUF_DEC, HUF_DEC_AC (45_huffman.md). -/

namespace Sys2Proof.Machine

/-! ### Building the length table (45_huffman.md R146, R147) -/

/-- A merge tree: a leaf is a symbol (45_huffman.md R145). -/
inductive HufTree where
  | leaf (s : Nat)
  | node (a b : HufTree)
deriving DecidableEq, Repr

/-- A node of the pool: its weight, its identity, and the tree below it (45_huffman.md R146). -/
structure HufNode where
  weight : Nat
  id : Nat
  tree : HufTree
deriving DecidableEq, Repr

/-- Node `x` is lower than node `y` (45_huffman.md R146). -/
def lowerNode (x y : HufNode) : Bool :=
  Nat.blt x.weight y.weight || (Nat.beq x.weight y.weight && Nat.blt x.id y.id)

/-- Add a node to a pool kept in ascending node order, so that the pool's lowest node is its first. -/
def addNode (x : HufNode) : List HufNode → List HufNode
  | [] => [x]
  | y :: rest => if lowerNode x y then x :: y :: rest else y :: addNode x rest

/-- The pool of 256 leaves (`freq[s]`, `s`), zero counts included (45_huffman.md R147). -/
def leafPool (seq : List Byte) : List HufNode :=
  (List.range 256).foldr
    (fun s pool => addNode { weight := seq.count (BitVec.ofNat 8 s), id := s, tree := .leaf s } pool) []

/-- Merge number `t`: the two lowest nodes leave the pool and their parent (`w_a + w_b`, `256 + t`) joins it
(45_huffman.md R147). -/
def mergeNodes (t : Nat) : List HufNode → List HufNode
  | a :: b :: rest => addNode { weight := a.weight + b.weight, id := 256 + t, tree := .node a.tree b.tree } rest
  | pool => pool

/-- The merges `t`, `t + 1`, … , `count` of them. -/
def mergeFrom : (count t : Nat) → List HufNode → List HufNode
  | 0, _, pool => pool
  | count + 1, t, pool => mergeFrom count (t + 1) (mergeNodes t pool)

/-- Each leaf of a tree with its depth below the root, the root itself being at depth `d`. -/
def leafDepths : HufTree → Nat → List (Nat × Nat)
  | .leaf s, d => [(s, d)]
  | .node a b, d => leafDepths a (d + 1) ++ leafDepths b (d + 1)

/-- The symbols with their depths after all 255 merges (45_huffman.md R147). -/
def hufDepths (seq : List Byte) : List (Nat × Nat) :=
  match mergeFrom 255 0 (leafPool seq) with
  | [] => []
  | root :: _ => leafDepths root.tree 0

/-- `huflen(seq)`, entry `s` at index `s` (45_huffman.md R147). -/
def huflen (seq : List Byte) : List Byte :=
  (List.range 256).map fun s => BitVec.ofNat 8 (((hufDepths seq).lookup s).getD 0)

/-! ### Canonical code assignment (45_huffman.md R149) -/

/-- Insert (length, symbol) into a list ascending by length, then symbol. -/
def addByLength (x : Nat × Nat) : List (Nat × Nat) → List (Nat × Nat)
  | [] => [x]
  | y :: rest =>
    if Nat.blt x.1 y.1 || (Nat.beq x.1 y.1 && Nat.blt x.2 y.2) then x :: y :: rest else y :: addByLength x rest

/-- `order` of 45_huffman.md R149: the symbols of positive length with their lengths, by (length, symbol). -/
def codeOrder (len : Nat → Nat) : List (Nat × Nat) :=
  (List.range 256).foldr (fun s l => if Nat.beq (len s) 0 then l else addByLength (len s, s) l) []

/-- The code of the next symbol: 0 for the first, else the previous code plus 1, shifted left by the length increase
(45_huffman.md R149). `prev` is the previous (length, code). -/
def nextCode (prev : Option (Nat × Nat)) (l : Nat) : Nat :=
  match prev with
  | none => 0
  | some (l0, c0) => (c0 + 1) * 2 ^ (l - l0)

/-- The assignment along `order`; it fails with the first symbol for which no code is left (45_huffman.md R149). -/
def assignCodes (prev : Option (Nat × Nat)) : List (Nat × Nat) → Except Err (List (Nat × Code))
  | [] => .ok []
  | (l, s) :: rest =>
    if Nat.ble (2 ^ l) (nextCode prev l) then .error { code := .table, info := s }
    else match assignCodes (some (l, nextCode prev l)) rest with
      | .error e => .error e
      | .ok t => .ok ((s, { len := BitVec.ofNat 8 l, code := BitVec.ofNat 255 (nextCode prev l) }) :: t)

/-- A code table in symbol order from assigned codes in any order. -/
def codeTableOf (t : List (Nat × Code)) : CodeTable :=
  (List.range 256).filterMap fun s => (t.lookup s).map fun c => (s, c)

/-- `canon(L)` for the length table `len` (45_huffman.md R149). -/
def canon (len : Nat → Nat) : Except Err CodeTable :=
  match assignCodes none (codeOrder len) with
  | .error e => .error e
  | .ok t => .ok (codeTableOf t)

/-! ### Encoding (45_huffman.md R151) -/

/-- The bits of a code, most significant first (45_huffman.md R151, 20_memory.md R54). -/
def codeBits (c : Code) : List Bool :=
  (List.range c.len.toNat).map fun i => c.code.getLsbD (c.len.toNat - 1 - i)

/-- `bitsof(T, seq)` (45_huffman.md R151). -/
def bitsOf (t : CodeTable) (seq : List Byte) : List Bool := seq.flatMap fun b => codeBits (t.entry b.toNat)

/-- Up to eight bits as a byte, the first in bit 0, missing ones 0 (20_memory.md R54, 30_encoding.md R80). -/
def packByte : List Bool → Nat
  | [] => 0
  | b :: rest => (if b then 1 else 0) + 2 * packByte rest

/-- `count` bytes packed from a bit sequence. -/
def packBytes : (count : Nat) → List Bool → List Byte
  | 0, _ => []
  | count + 1, bits => BitVec.ofNat 8 (packByte (bits.take 8)) :: packBytes count (bits.drop 8)

/-- `packbits(bits)`: `ceil(length / 8)` bytes, the unused high bits of the last 0 (45_huffman.md R151). -/
def packBits (bits : List Bool) : List Byte := packBytes ((bits.length + 7) / 8) bits

/-- The index of the first symbol of a sequence that has no code (45_huffman.md R152). -/
def firstUncoded (t : CodeTable) (seq : List Byte) : Option Nat :=
  seq.findIdx? fun b => (t.entry b.toNat).len == 0#8

/-! ### Decoding (45_huffman.md R153, R154) -/

/-- `nextbit` of a reader at bit position `pos` with byte limit `lim` (45_huffman.md R153). -/
def nextBit (cbuf : Memory) (lim pos : Nat) : Except Err Bool :=
  if Nat.ble (8 * lim) pos then .error { code := .exhaust, info := lim }
  else .ok ((cbuf.read (pos / 8)).getLsbD (pos % 8))

/-- `used(rd)`: the offset of the first byte the reader has not touched (45_huffman.md R153). -/
def bytesUsed (pos : Nat) : Nat := (pos + 7) / 8

/-- The largest code length of a table (45_huffman.md R154). -/
def maxLen (t : CodeTable) : Nat := t.foldr (fun e m => Nat.max e.2.len.toNat m) 0

/-- The symbol whose code has length `n` and value `code`, if there is one (45_huffman.md R154). -/
def matchCode (t : CodeTable) (n code : Nat) : Option Nat :=
  match t.find? fun e => Nat.beq e.2.len.toNat n && Nat.beq e.2.code.toNat code with
  | some e => some e.1
  | none => none

/-- The loop of `decode1` after `n` bits with accumulated value `acc`; `left` is `maxlen − n`. At `left` = 0 the
longest code has been passed and the last bit read is at `pos − 1` (45_huffman.md R154). -/
def decodeFrom (cbuf : Memory) (lim : Nat) (t : CodeTable) :
    (left n acc pos : Nat) → Except Err (Byte × Nat)
  | 0, _, _, pos => .error { code := .nomatch, info := (pos - 1) / 8 }
  | left + 1, n, acc, pos =>
    match nextBit cbuf lim pos with
    | .error e => .error e
    | .ok b =>
      match matchCode t (n + 1) (2 * acc + (if b then 1 else 0)) with
      | some s => .ok (BitVec.ofNat 8 s, pos + 1)
      | none => decodeFrom cbuf lim t left (n + 1) (2 * acc + (if b then 1 else 0)) (pos + 1)

/-- `decode1(rd, T)`: one symbol and the position after it (45_huffman.md R154). -/
def decodeOne (cbuf : Memory) (lim : Nat) (t : CodeTable) (pos : Nat) : Except Err (Byte × Nat) :=
  if Nat.beq (maxLen t) 0 then .error { code := .nomatch, info := pos / 8 }
  else decodeFrom cbuf lim t (maxLen t) 0 0 pos

/-- `count` symbols one after another, and the position after the last (45_huffman.md R155). -/
def decodeMany (cbuf : Memory) (lim : Nat) (t : CodeTable) :
    (count pos : Nat) → Except Err (List Byte × Nat)
  | 0, pos => .ok ([], pos)
  | count + 1, pos =>
    match decodeOne cbuf lim t pos with
    | .error e => .error e
    | .ok (b, pos1) =>
      match decodeMany cbuf lim t count pos1 with
      | .error e => .error e
      | .ok (rest, pos2) => .ok (b :: rest, pos2)

/-- What the loop of `HUF_DEC_AC` reads from: the buffer, and per segment its table and its limit. -/
structure AcSource where
  cbuf : Memory
  runTable : CodeTable
  valTable : CodeTable
  runLim : Nat
  valLim : Nat

/-- The loop of `HUF_DEC_AC` (45_huffman.md R156): decode a run symbol and a value symbol until `eobs` more EOB pairs
have been seen; answers the runs, the values and the two positions. `fuel` bounds the passes: each pass takes at
least one bit of the run segment, so a loop allowed one pass more than the segment has bits ends, by its last EOB or
by an error, within the passes it is allowed, and the bound is never what ends it (log 9). -/
def acLoop (src : AcSource) :
    (fuel eobs pos1 pos2 : Nat) → Except Err (List Byte × List Byte × Nat × Nat)
  | _, 0, pos1, pos2 => .ok ([], [], pos1, pos2)
  | 0, _ + 1, _, _ => .error { code := .exhaust, info := src.runLim }
  | fuel + 1, eobs + 1, pos1, pos2 =>
    match decodeOne src.cbuf src.runLim src.runTable pos1 with
    | .error e => .error e
    | .ok (run, next1) =>
      match decodeOne src.cbuf src.valLim src.valTable pos2 with
      | .error e => .error e
      | .ok (val, next2) =>
        match acLoop src fuel (if run == 0#8 && val == 0#8 then eobs else eobs + 1) next1 next2 with
        | .error e => .error e
        | .ok (runs, vals, end1, end2) => .ok (run :: runs, val :: vals, end1, end2)

/-! ### Commands -/

/-- The valid symbols of a stream, `S[p][k][0 .. SLEN[p][k] − 1]`. -/
def streamSymbols (p : Plane) (k : Kind) (s : State) : List Byte :=
  (s.syms.at p k).readBytes 0 (s.slen.at p k).toNat

/-- `HUF_LEN p,k` (45_huffman.md R148). -/
def cmdHufLen (p : Plane) (k : Kind) (s : State) : Run :=
  raiseIf (Nat.blt sCap (s.slen.at p k).toNat) (capError sCap) s fun s =>
  .ok { s with lt := s.lt.put p k (cellsFrom 0 (huflen (streamSymbols p k s))) }

/-- `HUF_CODE p,k` (45_huffman.md R150). -/
def cmdHufCode (p : Plane) (k : Kind) (s : State) : Run :=
  withResult (canon fun sym => ((s.lt.at p k).read sym).toNat) s fun t s =>
  .ok { s with ct := s.ct.put p k t }

/-- `HUF_ENC p,k` (45_huffman.md R152); all checks precede all writes. -/
def cmdHufEnc (p : Plane) (k : Kind) (s : State) : Run :=
  raiseIf (Nat.blt sCap (s.slen.at p k).toNat) (capError sCap) s fun s =>
  let seq := streamSymbols p k s
  let t := s.ct.at p k
  match firstUncoded t seq with
  | some n => raise { code := .nocode, info := n } s
  | none =>
    let b := packBits (bitsOf t seq)
    raiseIf (Nat.blt s.cfg.bsCap.toNat b.length) (capError s.cfg.bsCap.toNat) s fun s =>
    .ok { s with
      bs := s.bs.put p k ((s.bs.at p k).writeBytes 0 b)
      bslen := s.bslen.put p k (wordOf b.length) }

/-- Store decoded symbols as the whole of a stream and rewind its cursor (45_huffman.md R155, R156). -/
def setStream (p : Plane) (k : Kind) (bytes : List Byte) (s : State) : State :=
  { s with
    syms := s.syms.put p k ((s.syms.at p k).writeBytes 0 bytes)
    slen := s.slen.put p k (wordOf bytes.length)
    srd := s.srd.put p k 0#32 }

/-- `HUF_DEC p,k` (45_huffman.md R155); all writes follow all decoding. -/
def cmdHufDec (p : Plane) (k : Kind) (s : State) : Run :=
  raiseIf (Nat.blt s.cfg.cbufCap.toNat s.clen.toNat) (capError s.cfg.cbufCap.toNat) s fun s =>
  raiseIf (Nat.blt sCap s.count.toNat) (capError sCap) s fun s =>
  withResult (decodeMany s.cbuf s.clen.toNat (s.ct.at p k) s.count.toNat (8 * s.cptr.toNat)) s fun d s =>
  let s1 := setStream p k d.1 s
  .ok { s1 with cptr := wordOf (bytesUsed d.2) }

/-- The source of `HUF_DEC_AC p`: the run segment of `a` bytes at `CPTR` and the value segment of `b` bytes after it
(45_huffman.md R156). -/
def acSource (p : Plane) (s : State) : AcSource :=
  { cbuf := s.cbuf
    runTable := s.ct.at p .run
    valTable := s.ct.at p .val
    runLim := s.cptr.toNat + (s.aclen.get p).run.toNat
    valLim := s.cptr.toNat + (s.aclen.get p).run.toNat + (s.aclen.get p).val.toNat }

/-- `HUF_DEC_AC p` (45_huffman.md R156); all writes follow all checks. -/
def cmdHufDecAc (p : Plane) (s : State) : Run :=
  raiseIf (Nat.blt s.cfg.cbufCap.toNat s.clen.toNat) (capError s.cfg.cbufCap.toNat) s fun s =>
  let src := acSource p s
  raiseIf (Nat.blt s.clen.toNat src.valLim) { code := .trunc, info := s.clen.toNat } s fun s =>
  withResult
    (acLoop src (8 * (s.aclen.get p).run.toNat + 1) (blockCount s) (8 * s.cptr.toNat) (8 * src.runLim)) s fun d s =>
  raiseIf (bytesUsed d.2.2.1 != src.runLim) { code := .format, info := bytesUsed d.2.2.1 } s fun s =>
  raiseIf (bytesUsed d.2.2.2 != src.valLim) { code := .format, info := bytesUsed d.2.2.2 } s fun s =>
  let s1 := setStream p .run d.1 s
  let s2 := setStream p .val d.2.1 s1
  .ok { s2 with cptr := wordOf src.valLim }

/-- `HUF_LEN p,k` (45_huffman.md R148). -/
def execHufLen (p : Plane) (k : Kind) (s : State) : Host.Outcome State Fault Refusal := .next (cmdHufLen p k s).state

/-- `HUF_CODE p,k` (45_huffman.md R150). -/
def execHufCode (p : Plane) (k : Kind) (s : State) : Host.Outcome State Fault Refusal := .next (cmdHufCode p k s).state

/-- `HUF_ENC p,k` (45_huffman.md R152). -/
def execHufEnc (p : Plane) (k : Kind) (s : State) : Host.Outcome State Fault Refusal := .next (cmdHufEnc p k s).state

/-- `HUF_DEC p,k` (45_huffman.md R155). -/
def execHufDec (p : Plane) (k : Kind) (s : State) : Host.Outcome State Fault Refusal := .next (cmdHufDec p k s).state

/-- `HUF_DEC_AC p` (45_huffman.md R156). -/
def execHufDecAc (p : Plane) (s : State) : Host.Outcome State Fault Refusal := .next (cmdHufDecAc p s).state

end Sys2Proof.Machine
end

