-- ==== Sys2Proof/Machine/Quant.lean ====
section
/-! DEFINITION. The block quantiser and the quantised-plane store: QUANT, DEQUANT, STQ, LDQ (43_quant.md). -/

namespace Sys2Proof.Machine

/-- One quantised coefficient: `sat8(rhadiv(c, Q[v][u]))` (43_quant.md R122). -/
def quantOne (v u : Fin 8) (c : BitVec 16) : Byte := byteOf (sat8 (rhadiv c.toInt (quantStep v u)))

/-- One coefficient back: `q × Q[v][u]` (43_quant.md R123). -/
def dequantOne (v u : Fin 8) (q : Byte) : BitVec 16 := half (sval q * (quantStep v u : Int))

/-- `QUANT` (43_quant.md R122). -/
def cmdQuant (s : State) : Run := .ok { s with qb := Block.make fun v u => quantOne v u (s.cb.at v u) }

/-- `DEQUANT` (43_quant.md R123). -/
def cmdDequant (s : State) : Run := .ok { s with cb := Block.make fun v u => dequantOne v u (s.qb.at v u) }

/-- The check of `STQ` and `LDQ` (43_quant.md R124, R125). -/
def blockCheck (s : State) (go : State → Run) : Run :=
  raiseIf (Nat.ble (blockCount s) s.bidx.toNat) { code := .range, info := s.bidx.toNat } s go

/-- `STQ p` (43_quant.md R124). -/
def cmdStq (p : Plane) (s : State) : Run :=
  blockCheck s fun s => .ok { s with qp := s.qp.set p ((s.qp.get p).writeBlock s.bidx.toNat s.qb) }

/-- `LDQ p` (43_quant.md R125). -/
def cmdLdq (p : Plane) (s : State) : Run :=
  blockCheck s fun s => .ok { s with qb := (s.qp.get p).readBlock s.bidx.toNat }

/-- `QUANT` (43_quant.md R122). -/
def execQuant (s : State) : Host.Outcome State Fault Refusal := .next (cmdQuant s).state

/-- `DEQUANT` (43_quant.md R123). -/
def execDequant (s : State) : Host.Outcome State Fault Refusal := .next (cmdDequant s).state

/-- `STQ p` (43_quant.md R124). -/
def execStq (p : Plane) (s : State) : Host.Outcome State Fault Refusal := .next (cmdStq p s).state

/-- `LDQ p` (43_quant.md R125). -/
def execLdq (p : Plane) (s : State) : Host.Outcome State Fault Refusal := .next (cmdLdq p s).state

end Sys2Proof.Machine
end

