-- ==== Sys2Proof/Machine/Codec.lean ====
section
/-! DEFINITION. The pipeline sequencer: COMPRESS, DECOMPRESS as the fixed sequences of unit commands of 47_codec.md. -/

namespace Sys2Proof.Machine

/-- A dimension `COMPRESS` rejects: not a multiple of 8, or above 2040 (47_codec.md R181). -/
def badDimension (d : BitVec 16) : Bool := d.toNat % 8 != 0 || Nat.blt 2040 d.toNat

/-- `FDCT p ; QUANT ; STQ p ; CC_ENC p` (47_codec.md R181). -/
def encodePlane (p : Plane) (s : State) : Run :=
  (((cmdFdct p s).andThen cmdQuant).andThen (cmdStq p)).andThen (cmdCcEnc p)

/-- Block `n` of `COMPRESS` (47_codec.md R181). -/
def encodeBlock (n : Nat) (s : State) : Run :=
  (cmdTileIn { s with bidx := BitVec.ofNat 16 n }).andThen (forEach allPlanes encodePlane)

/-- `HUF_LEN p,k ; HUF_CODE p,k ; HUF_ENC p,k` (47_codec.md R181). -/
def encodeStream (t : Plane × Kind) (s : State) : Run :=
  ((cmdHufLen t.1 t.2 s).andThen (cmdHufCode t.1 t.2)).andThen (cmdHufEnc t.1 t.2)

/-- `BLKW <- IMGW div 8 ; BLKH <- IMGH div 8` (47_codec.md R181). -/
def setGrid (s : State) : State :=
  { s with blkw := BitVec.ofNat 8 (s.imgw.toNat / 8), blkh := BitVec.ofNat 8 (s.imgh.toNat / 8) }

/-- The stages of `COMPRESS` after the dimension check, over `N` blocks (47_codec.md R181). -/
def compressStages (n : Nat) (s : State) : Run :=
  (((forEach allPlanes cmdCcRst s).andThen (forEach (List.range n) encodeBlock)).andThen
    (forEach allStreams encodeStream)).andThen cmdFrame

/-- `COMPRESS` (47_codec.md R181). -/
def cmdCompress (s : State) : Run :=
  raiseIf (badDimension s.imgw || badDimension s.imgh)
    { code := .dim, info := s.imgw.toNat + 65536 * s.imgh.toNat } s fun s =>
  compressStages (blockCount (setGrid s)) (setGrid s)

/-- The entropy decoding of plane `p` (47_codec.md R183). -/
def decodePlane (p : Plane) (s : State) : Run :=
  ((forEach allKinds (cmdHufCode p) s).andThen fun s =>
    cmdHufDec p .dc { s with count := wordOf (blockCount s) }).andThen (cmdHufDecAc p)

/-- `BIDX <- n ; CC_DEC p ; STQ p` (47_codec.md R183). -/
def decodeCoefs (p : Plane) (n : Nat) (s : State) : Run :=
  (cmdCcDec p { s with bidx := BitVec.ofNat 16 n }).andThen (cmdStq p)

/-- The coefficient decoding of plane `p` (47_codec.md R183). -/
def decodePlaneCoefs (p : Plane) (s : State) : Run :=
  forEach (List.range (blockCount s)) (decodeCoefs p) { s with dcp := s.dcp.set p 0#8 }

/-- `LDQ p ; DEQUANT ; IDCT p` (47_codec.md R183). -/
def rebuildPlane (p : Plane) (s : State) : Run := ((cmdLdq p s).andThen cmdDequant).andThen (cmdIdct p)

/-- Block `n` of the image output (47_codec.md R183). -/
def rebuildBlock (n : Nat) (s : State) : Run :=
  (forEach allPlanes rebuildPlane { s with bidx := BitVec.ofNat 16 n }).andThen cmdTileOut

/-- `IMGW <- 8 × BLKW ; IMGH <- 8 × BLKH` (47_codec.md R183). -/
def setImageSize (s : State) : State :=
  { s with imgw := BitVec.ofNat 16 (8 * s.blkw.toNat), imgh := BitVec.ofNat 16 (8 * s.blkh.toNat) }

/-- The stages of `DECOMPRESS` that can fail: header, entropy decoding, the trailing-bytes check, coefficient decoding
(47_codec.md R183, R184). -/
def decompressParse (s : State) : Run :=
  (((cmdDeframeHdr s).andThen (forEach allPlanes decodePlane)).andThen fun s =>
    raiseIf (s.cptr != s.clen) { code := .format, info := s.cptr.toNat } s .ok).andThen
    (forEach allPlanes decodePlaneCoefs)

/-- The stages of `DECOMPRESS` that touch the image (47_codec.md R183, R184). -/
def decompressImage (s : State) : Run := forEach (List.range (blockCount s)) rebuildBlock (setImageSize s)

/-- `DECOMPRESS` (47_codec.md R183). -/
def cmdDecompress (s : State) : Run := (decompressParse s).andThen decompressImage

/-- `COMPRESS` (47_codec.md R181). -/
def execCompress (s : State) : Host.Outcome State Fault Refusal := .next (cmdCompress s).state

/-- `DECOMPRESS` (47_codec.md R183). -/
def execDecompress (s : State) : Host.Outcome State Fault Refusal := .next (cmdDecompress s).state

end Sys2Proof.Machine
end

