-- ==== Sys2Proof/Machine/Control.lean ====
section
/-! DEFINITION. The control commands NOP, RESET, CLRERR (40_control.md). -/

namespace Sys2Proof.Machine

/-- Reset of the engine (10_state.md R43), leaving the contents of `IMG` and `CBUF`, the parameters, and the host's own
side as they are. Shared by the `RESET` command and the reset input (70_reset_and_hazards.md R221, R222). -/
def engineReset (s : State) : State := State.resetOver s.cfg s.cbuf s.img s.pending s.reply

/-- `NOP` (40_control.md R90): nothing. -/
def cmdNop (s : State) : Run := .ok s

/-- `RESET` (40_control.md R91). -/
def cmdReset (s : State) : Run := .ok (engineReset s)

/-- `CLRERR` (40_control.md R92). -/
def cmdClrerr (s : State) : Run := .ok (clearError s)

/-- `NOP` (40_control.md R90). -/
def execNop (s : State) : Host.Outcome State Fault Refusal := .next (cmdNop s).state

/-- `RESET` (40_control.md R91). -/
def execReset (s : State) : Host.Outcome State Fault Refusal := .next (cmdReset s).state

/-- `CLRERR` (40_control.md R92). -/
def execClrerr (s : State) : Host.Outcome State Fault Refusal := .next (cmdClrerr s).state

end Sys2Proof.Machine
end

