-- ==== Sys2Proof/Machine/Dispatch.lean ====
section
/-! DEFINITION. Dispatch: one arm per command, each one call of its meaning. -/

namespace Sys2Proof.Machine

/-- The pseudocode of a command, run once (40 to 47); the start and end common to all commands are in
HostPort.lean (60_exceptions.md R194). -/
def exec (i : Instr) (s : State) : Host.Outcome State Fault Refusal :=
  match i with
  | .nop => Sys2Proof.Machine.execNop s
  | .reset => Sys2Proof.Machine.execReset s
  | .clrerr => Sys2Proof.Machine.execClrerr s
  | .cscFwd => Sys2Proof.Machine.execCscFwd s
  | .cscInv => Sys2Proof.Machine.execCscInv s
  | .tileIn => Sys2Proof.Machine.execTileIn s
  | .tileOut => Sys2Proof.Machine.execTileOut s
  | .fdct p => Sys2Proof.Machine.execFdct p s
  | .idct p => Sys2Proof.Machine.execIdct p s
  | .quant => Sys2Proof.Machine.execQuant s
  | .dequant => Sys2Proof.Machine.execDequant s
  | .stq p => Sys2Proof.Machine.execStq p s
  | .ldq p => Sys2Proof.Machine.execLdq p s
  | .ccRst p => Sys2Proof.Machine.execCcRst p s
  | .ccEnc p => Sys2Proof.Machine.execCcEnc p s
  | .ccDec p => Sys2Proof.Machine.execCcDec p s
  | .hufLen p k => Sys2Proof.Machine.execHufLen p k s
  | .hufCode p k => Sys2Proof.Machine.execHufCode p k s
  | .hufEnc p k => Sys2Proof.Machine.execHufEnc p k s
  | .hufDec p k => Sys2Proof.Machine.execHufDec p k s
  | .hufDecAc p => Sys2Proof.Machine.execHufDecAc p s
  | .frame => Sys2Proof.Machine.execFrame s
  | .deframeHdr => Sys2Proof.Machine.execDeframeHdr s
  | .compress => Sys2Proof.Machine.execCompress s
  | .decompress => Sys2Proof.Machine.execDecompress s

end Sys2Proof.Machine
end

