-- ==== Sys2Proof/Machine/Flags.lean ====
section
/-! DEFINITION. The flags: the `STATUS` and `CTRL` words, clearing `DONE`, the interrupt output. These are the engine's
only flags; no command sets a condition code (10_state.md R29). -/

namespace Sys2Proof.Machine

/-- A flag as the number 0 or 1. -/
def bit (b : Bool) : Nat := if b then 1 else 0

/-- `STATUS`: bit 0 `BUSY`, bit 1 `DONE`, bit 2 `ERR`, bits 31:3 read 0 (10_state.md R29). -/
def statusWord (s : State) : Word := wordOf (bit s.busy + 2 * bit s.done + 4 * bit s.err)

/-- `CTRL`: bit 0 `IE`, bits 31:1 read 0 (10_state.md R30). -/
def ctrlWord (s : State) : Word := wordOf (bit s.ie)

/-- A host write to `STATUS` clears `DONE` if bit 1 of the written word is 1, and does nothing else
(10_state.md R29). -/
def writeStatus (v : Word) (s : State) : State := if v.getLsbD 1 then { s with done := false } else s

/-- A host write to `CTRL` stores bit 0 (10_state.md R30, R26). -/
def writeCtrl (v : Word) (s : State) : State := { s with ie := v.getLsbD 0 }

/-- The interrupt output: `irq = CTRL.IE and STATUS.DONE` (60_exceptions.md R200). -/
def irq (s : State) : Bool := s.ie && s.done

end Sys2Proof.Machine
end

