-- ==== Sys2Proof/Machine/HostPort.lean ====
section
/-! DEFINITION. The host's side of the engine: the register port (10_state.md R26 to R45), the start of a command by a
write to `CMD` (60_exceptions.md R194), the memory window (20_memory.md R50, R52), bus addresses (20_memory.md R58), the
reset input (R221), and the pseudo-commands of 30_encoding.md R83. -/

namespace Sys2Proof.Machine

/-! ### Commands -/

/-- The answer to a command word once the start of R194 is done: `RESET` and `CLRERR` run even when `ERR` = 1; else
with `ERR` = 1 the word is refused (R195); else an illegal word is `E_ILLCMD(w)`; else the command runs
(60_exceptions.md R194, R197). -/
def runWord (w : Word) (s : State) : Host.Outcome State Fault Refusal :=
  match decode w with
  | .ok .reset => exec .reset s
  | .ok .clrerr => exec .clrerr s
  | .ok i => if s.err then .next s else exec i s
  | .error _ => if s.err then .next s else .next (errorEntry { code := .illcmd, info := w.toNat } s)

/-- A host write of `w` to `CMD`, start to end, as one atomic step (60_exceptions.md R194). -/
def issue (w : Word) (s : State) : Host.Outcome State Fault Refusal := commandEnds (runWord w (commandStart w s))

/-! ### Registers -/

/-- The byte offset of a register (10_state.md R26). -/
def regOffset : Reg → Nat
  | .id => 0x000
  | .cmd => 0x004
  | .status => 0x008
  | .ctrl => 0x00C
  | .errcode => 0x010
  | .errinfo => 0x014
  | .imgw => 0x018
  | .imgh => 0x01C
  | .blkw => 0x020
  | .blkh => 0x024
  | .aclen p a => 0x028 + 4 * acNum p a
  | .clen => 0x040
  | .cptr => 0x044
  | .bidx => 0x048
  | .count => 0x04C
  | .pix => 0x050
  | .yuv => 0x054
  | .dcp p => 0x058 + 4 * planeNum p
  | .slen p k => 0x080 + 4 * (3 * planeNum p + kindNum k)
  | .srd p k => 0x0C0 + 4 * (3 * planeNum p + kindNum k)
  | .bslen p k => 0x100 + 4 * (3 * planeNum p + kindNum k)

/-- Every register of the block (10_state.md R26). -/
def allRegs : List Reg :=
  [.id, .cmd, .status, .ctrl, .errcode, .errinfo, .imgw, .imgh, .blkw, .blkh] ++
  acSegments.map (fun t => .aclen t.1 t.2) ++
  [.clen, .cptr, .bidx, .count, .pix, .yuv] ++
  allPlanes.map .dcp ++
  allStreams.map (fun t => .slen t.1 t.2) ++
  allStreams.map (fun t => .srd t.1 t.2) ++
  allStreams.map (fun t => .bslen t.1 t.2)

/-- The register at an offset; none at a reserved offset (10_state.md R45). -/
def regAt (off : BitVec 9) : Option Reg := allRegs.find? fun r => Nat.beq (regOffset r) off.toNat

/-- The identification value (10_state.md R27). -/
def idValue : Word := 0x494D3301#32

/-- What a register reads as; unused bits read 0 (10_state.md R26). -/
def readReg (r : Reg) (s : State) : Word :=
  match r with
  | .id => idValue
  | .cmd => s.cmd
  | .status => statusWord s
  | .ctrl => ctrlWord s
  | .errcode => wordOf s.errcode.number
  | .errinfo => s.errinfo
  | .imgw => s.imgw.setWidth 32
  | .imgh => s.imgh.setWidth 32
  | .blkw => s.blkw.setWidth 32
  | .blkh => s.blkh.setWidth 32
  | .aclen p a => ((s.aclen.get p).get a).setWidth 32
  | .clen => s.clen
  | .cptr => s.cptr
  | .bidx => s.bidx.setWidth 32
  | .count => s.count
  | .pix => s.pix.setWidth 32
  | .yuv => s.yuv.setWidth 32
  | .dcp p => (s.dcp.get p).setWidth 32
  | .slen p k => s.slen.at p k
  | .srd p k => s.srd.at p k
  | .bslen p k => s.bslen.at p k

/-- A host write to a register other than `CMD`: the value masked to the used bits is stored; read-only registers
ignore it; `STATUS` only clears `DONE` (10_state.md R26, R29, R45). For `CMD`, only the storing (R28). -/
def storeReg (r : Reg) (v : Word) (s : State) : State :=
  match r with
  | .id => s
  | .cmd => { s with cmd := v }
  | .status => writeStatus v s
  | .ctrl => writeCtrl v s
  | .errcode => s
  | .errinfo => s
  | .imgw => { s with imgw := v.setWidth 16 }
  | .imgh => { s with imgh := v.setWidth 16 }
  | .blkw => { s with blkw := v.setWidth 8 }
  | .blkh => { s with blkh := v.setWidth 8 }
  | .aclen p a => { s with aclen := s.aclen.set p ((s.aclen.get p).set a (v.setWidth 16)) }
  | .clen => { s with clen := v }
  | .cptr => { s with cptr := v }
  | .bidx => { s with bidx := v.setWidth 16 }
  | .count => { s with count := v }
  | .pix => { s with pix := v.setWidth 24 }
  | .yuv => { s with yuv := v.setWidth 24 }
  | .dcp p => { s with dcp := s.dcp.set p (v.setWidth 8) }
  | .slen p k => { s with slen := s.slen.put p k v }
  | .srd p k => { s with srd := s.srd.put p k v }
  | .bslen p k => { s with bslen := s.bslen.put p k v }

/-- A host write to a register: a write to `CMD` stores the word and starts the command it encodes (10_state.md
R28). -/
def writeReg (r : Reg) (v : Word) (s : State) : Host.Outcome State Fault Refusal :=
  match r with
  | .cmd => issue v s
  | r => .next (storeReg r v s)

/-- What the register port answers at an offset; a reserved offset reads 0 (10_state.md R45). -/
def readAt (off : BitVec 9) (s : State) : Word :=
  match regAt off with
  | some r => readReg r s
  | none => 0#32

/-- A host write at an offset; at a reserved offset it is ignored (10_state.md R45). -/
def writeAt (off : BitVec 9) (v : Word) (s : State) : Host.Outcome State Fault Refusal :=
  match regAt off with
  | some r => writeReg r v s
  | none => .next s

/-- Byte `o` of a register as a byte-addressed bus holds it: bits `8o + 7 : 8o` (20_memory.md R55). -/
def regByte (w : Word) (o : Fin 4) : Byte := w.extractLsb' (8 * o.val) 8

/-! ### The memory window -/

/-- An index lies inside its space's capacity (20_memory.md R50, R52). -/
def inCapacity (l : ByteLoc) (s : State) : Bool :=
  match l with
  | .cbuf a => Nat.blt a s.cfg.cbufCap.toNat
  | .s _ _ n => Nat.blt n sCap
  | .bs _ _ n => Nat.blt n s.cfg.bsCap.toNat
  | .qp _ n _ _ => Nat.blt n qpBlocks
  | .lt _ _ _ => true
  | .sb _ _ _ => true
  | .qb _ _ => true

/-- The byte at a place of a memory space or block register (20_memory.md R50). -/
def loadByte (l : ByteLoc) (s : State) : Byte :=
  match l with
  | .cbuf a => s.cbuf.read a
  | .s p k n => (s.syms.at p k).read n
  | .bs p k n => (s.bs.at p k).read n
  | .qp p n v u => (s.qp.get p).read (qpAddr n v u)
  | .lt p k sym => (s.lt.at p k).read sym.toNat
  | .sb p j i => (s.sb.get p).at j i
  | .qb v u => s.qb.at v u

/-- The byte at a place replaced (20_memory.md R50). -/
def storeByte (l : ByteLoc) (b : Byte) (s : State) : State :=
  match l with
  | .cbuf a => { s with cbuf := s.cbuf.write a b }
  | .s p k n => { s with syms := s.syms.put p k ((s.syms.at p k).write n b) }
  | .bs p k n => { s with bs := s.bs.put p k ((s.bs.at p k).write n b) }
  | .qp p n v u => { s with qp := s.qp.set p ((s.qp.get p).write (qpAddr n v u) b) }
  | .lt p k sym => { s with lt := s.lt.put p k ((s.lt.at p k).write sym.toNat b) }
  | .sb p j i => { s with sb := s.sb.set p ((s.sb.get p).put j i b) }
  | .qb v u => { s with qb := s.qb.put v u b }

/-- A host read of a byte element; outside the capacity it returns 0 (20_memory.md R52). -/
def windowRead (l : ByteLoc) (s : State) : Byte := if inCapacity l s then loadByte l s else 0#8

/-- A host write of a byte element; outside the capacity it is ignored (20_memory.md R52). -/
def windowWrite (l : ByteLoc) (b : Byte) (s : State) : State := if inCapacity l s then storeByte l b s else s

/-- Answer a host read. -/
def replyWith (r : Reply) (s : State) : State := { s with reply := some r }

/-! ### Bus addresses (20_memory.md R58, log 14) -/

/-- The number of bytes of an element of a space (20_memory.md R50). -/
def spaceWidth : Space → Nat
  | .img => 3
  | .cb => 2
  | .ct _ _ => 33
  | .cbuf | .s _ _ | .bs _ _ | .qp _ | .lt _ _ | .sb _ | .qb => 1

/-- An element of a block register or table, none behind its end. -/
def elementBelow (limit n : Nat) (e : Element) : Option Element := if Nat.blt n limit then some e else none

/-- Element `n` of a space, in index order: row by row in blocks, block by block in planes, and in `IMG` row by row of
`pitch` pixels (20_memory.md R50). A pitch of 0 puts every pixel in row 0 (log 14, DESIGN CHOICE). -/
def elementAt (sp : Space) (pitch n : Nat) : Option Element :=
  match sp with
  | .img =>
    if Nat.blt (n % pitch) 65536 && Nat.blt (n / pitch) 65536 then
      some (.pixel (BitVec.ofNat 16 (n % pitch)) (BitVec.ofNat 16 (n / pitch)))
    else none
  | .cbuf => some (.byte (.cbuf n))
  | .s p k => some (.byte (.s p k n))
  | .bs p k => some (.byte (.bs p k n))
  | .qp p => some (.byte (.qp p (n / 64) (Fin.ofNat 8 (n / 8)) (Fin.ofNat 8 n)))
  | .lt p k => elementBelow 256 n (.byte (.lt p k (BitVec.ofNat 8 n)))
  | .ct p k => elementBelow 256 n (.code p k (BitVec.ofNat 8 n))
  | .sb p => elementBelow 64 n (.byte (.sb p (Fin.ofNat 8 (n / 8)) (Fin.ofNat 8 n)))
  | .cb => elementBelow 64 n (.coef (Fin.ofNat 8 (n / 8)) (Fin.ofNat 8 n))
  | .qb => elementBelow 64 n (.byte (.qb (Fin.ofNat 8 (n / 8)) (Fin.ofNat 8 n)))

/-- The lanes of a window carry every byte of its elements. A window whose lanes leave one out answers at no address
(log 14, DESIGN CHOICE). -/
def windowCarries (w : BusWindow) : Bool := (List.range (spaceWidth w.space)).all fun k => w.lanes.contains k

/-- What a window has at a bus address: a slot begins there, or nothing; nothing anywhere, where the lanes leave out a byte
of the element (log 14, DESIGN CHOICE). -/
def windowTarget (w : BusWindow) (addr : Nat) : Option BusTarget :=
  let n := (addr - w.base) / w.lanes.length
  if windowCarries w && Nat.ble w.base addr && Nat.beq ((addr - w.base) % w.lanes.length) 0 && Nat.blt n w.elements then
    some (.slot w.lanes (elementAt w.space w.rowPitch n))
  else none

/-- What stands at a bus address: the register block `0x000..0x1FF` from its base on, else the first window that has the
address (20_memory.md R58). -/
def busTarget (m : MemMap) (addr : Nat) : Option BusTarget :=
  if Nat.ble m.regBase addr && Nat.blt (addr - m.regBase) 0x200 then some (.reg (BitVec.ofNat 9 (addr - m.regBase)))
  else m.windows.findSome? fun w => windowTarget w addr

/-- The bytes of a coefficient, least significant first. -/
def coefBytes (c : BitVec 16) : List Byte := [c.extractLsb' 0 8, c.extractLsb' 8 8]

/-- The bytes of a code table entry: the length, then the code, least significant byte first. -/
def codeBytes (c : Code) : List Byte := c.len :: (List.range 32).map fun i => c.code.extractLsb' (8 * i) 8

/-- The bytes of an element as a host read finds them. -/
def elementBytes (e : Element) (s : State) : List Byte :=
  match e with
  | .byte l => [windowRead l s]
  | .coef v u => coefBytes (s.cb.at v u)
  | .code p k sym => codeBytes ((s.ct.at p k).entry sym.toNat)
  | .pixel x y => pixelBytes (s.img.readPixel x.toNat y.toNat)

/-- The element written with the given bytes; `CT` is not host writable (10_state.md R41). -/
def storeElement (e : Element) (bytes : List Byte) (s : State) : State :=
  match e with
  | .byte l => windowWrite l (bytes.getD 0 0#8) s
  | .coef v u => { s with cb := s.cb.put v u (bytes.getD 1 0#8 ++ bytes.getD 0 0#8) }
  | .code _ _ _ => s
  | .pixel x y => { s with img := s.img.writeBytes (pixelAddr x.toNat y.toNat) (bytes.take 3) }

/-- The bytes of an element as the lanes of its slot carry them, a byte in every lane that names it; a filler is 0 (log 14,
DESIGN CHOICE). -/
def toLanes (lanes : List Nat) (bytes : List Byte) : List Byte := lanes.map fun k => bytes.getD k 0#8

/-- The bytes of an element of `width` bytes from the lanes of its slot; a byte that several lanes carry is taken from the
first of them (log 14, DESIGN CHOICE). -/
def fromLanes (lanes : List Nat) (width : Nat) (slot : List Byte) : List Byte :=
  (List.range width).map fun k => slot.getD (lanes.idxOf k) 0#8

/-- A register value from its four bytes, byte `o` in bits `8o + 7 : 8o` (20_memory.md R55). -/
def wordOfBytes (bytes : List Byte) : Word :=
  bytes.getD 3 0#8 ++ bytes.getD 2 0#8 ++ bytes.getD 1 0#8 ++ bytes.getD 0 0#8

/-- A host read at a bus address: a whole register, or an element's slot. An element behind its space's end reads 0
(20_memory.md R52). -/
def busRead (addr : Nat) (s : State) : Host.Outcome State Fault Refusal :=
  match busTarget s.cfg.memMap addr with
  | some (.reg off) =>
    if off.toNat % 4 == 0 then .next (replyWith (.word (readAt off s)) s) else .fault .registerAccessMisaligned
  | some (.slot lanes (some e)) => .next (replyWith (.bytes (toLanes lanes (elementBytes e s))) s)
  | some (.slot lanes none) => .next (replyWith (.bytes (toLanes lanes [])) s)
  | none => .fault .busAccessUnmapped

/-- The number of bytes of an element. -/
def elementWidth : Element → Nat
  | .byte _ => 1
  | .coef _ _ => 2
  | .code _ _ _ => 33
  | .pixel _ _ => 3

/-- A host write at a bus address: a whole register, or an element's slot. An element behind its space's end is not
written (20_memory.md R52). -/
def busWrite (addr : Nat) (bytes : List Byte) (s : State) : Host.Outcome State Fault Refusal :=
  match busTarget s.cfg.memMap addr with
  | some (.reg off) =>
    if off.toNat % 4 == 0 && bytes.length == 4 then writeAt off (wordOfBytes bytes) s
    else .fault .registerAccessMisaligned
  | some (.slot lanes e) =>
    if bytes.length == lanes.length then
      match e with
      | some e => .next (storeElement e (fromLanes lanes (elementWidth e) bytes) s)
      | none => .next s
    else .fault .busAccessUnmapped
  | none => .fault .busAccessUnmapped

/-! ### Serving one access -/

/-- One host access, served whole. A register access that is not well-formed is outside the model
(20_memory.md R56, log 6). -/
def serve (a : HostAccess) (s : State) : Host.Outcome State Fault Refusal :=
  if a.wf then
    match a with
    | .readReg off => .next (replyWith (.word (readAt off s)) s)
    | .writeReg off v => writeAt off v s
    | .readByte l => .next (replyWith (.byte (windowRead l s)) s)
    | .writeByte l b => .next (windowWrite l b s)
    | .readCoef v u => .next (replyWith (.coef (s.cb.at v u)) s)
    | .writeCoef v u c => .next { s with cb := s.cb.put v u c }
    | .readCode p k sym => .next (replyWith (.code ((s.ct.at p k).entry sym.toNat)) s)
    | .readPixel x y => .next (replyWith (.pixel (s.img.readPixel x.toNat y.toNat)) s)
    | .writePixel x y c => .next { s with img := s.img.writePixels x.toNat y.toNat [c] }
    | .assertReset => .next (engineReset s)
    | .busRead addr => busRead addr s
    | .busWrite addr bytes => busWrite addr bytes s
  else .fault .registerAccessMisaligned

/-- Serve the oldest pending host access; with none pending the engine is idle and keeps all its state
(60_exceptions.md R204; log 2). -/
def serveNext (s : State) : Host.Outcome State Fault Refusal :=
  match s.pending with
  | [] => .next s
  | a :: rest => serve a { s with pending := rest }

/-- A host write of a command word to `CMD`, as an access. -/
def commandAccess (w : Word) : HostAccess := .writeReg 0x004#9 w

/-! ### Pseudo-commands (30_encoding.md R83) -/

/-- The accesses that issue commands one after another. -/
def commandAccesses (l : List Instr) : List HostAccess := l.map fun i => commandAccess (encode i)

/-- `ENCBLK p`. -/
def pseudoEncBlk (p : Plane) : List HostAccess := commandAccesses [.fdct p, .quant, .stq p, .ccEnc p]

/-- `DECBLK p`. -/
def pseudoDecBlk (p : Plane) : List HostAccess := commandAccesses [.ccDec p, .stq p, .dequant, .idct p]

/-- `HUF_ALL p,k`. -/
def pseudoHufAll (p : Plane) (k : Kind) : List HostAccess :=
  commandAccesses [.hufLen p k, .hufCode p k, .hufEnc p k]

/-- `ACK`: clear `DONE`. -/
def pseudoAck : List HostAccess := [.writeReg 0x008#9 0b010#32]

end Sys2Proof.Machine
end

