-- ==== Sys2Proof/Machine/Step.lean ====
section
/-! DEFINITION. The step function and the placing of a command word where the next step takes it. -/

namespace Sys2Proof.Machine

/-- One step: the oldest pending host access is served; a write to `CMD` runs its command, start to end, as one
atomic change (00_scope.md R8, 10_state.md R25, 60_exceptions.md R194). -/
def step (s : State) : Host.Outcome State Fault Refusal := serveNext s

/-- The engine fetches nothing: a command word is taken from the bus write that delivers it (20_memory.md R63). So the
word goes where the next step takes it from: a host write to `CMD`, ahead of what the host has pending (log 2). -/
def State.withFetchWord (s : State) (nbits w : Nat) : State :=
  { s with pending := commandAccess (BitVec.ofNat 32 (w % 2 ^ nbits)) :: s.pending }

end Sys2Proof.Machine
end

