-- ==== Sys2Proof/Safety.lean ====
section
/-! DEFINITION. What counts as a safe state, and the terms in which the claims are stated: arithmetic, registers and
their used bits, the reset values, bytes and bits a memory holds, the symbols and the container of a list of blocks, code
tables, and which command writes which space. -/

namespace Sys2Proof.Machine

/-! ### Arithmetic, written apart from the model's own (00_scope.md R11 to R14) -/

/-- `x` limited to 0..255. -/
def channel (x : Int) : Int := max 0 (min 255 x)

/-- `x` limited to −128..127. -/
def sample8 (x : Int) : Int := max (-128) (min 127 x)

/-- `x / d` to the nearest integer, ties away from zero. -/
def nearest (x : Int) (d : Nat) : Int := x.sign * ((2 * x.natAbs + d) / (2 * d) : Nat)

/-- `Σ_j Σ_i f(j, i)` over rows and columns 0..7. -/
def sum64 (f : Fin 8 → Fin 8 → Int) : Int := sum8 fun j => sum8 fun i => f j i

/-! ### A safe state -/

/-- The invariant of the engine between two steps: no command is running; the error record is empty exactly when `ERR`
is clear; every memory and code table is in its canonical form and inside its capacity. -/
structure Safe (s : State) : Prop where
  /-- no host access ever sees `BUSY` = 1 (10_state.md R29) -/
  idle : s.busy = false
  /-- `ERRCODE` and `ERRINFO` are 0 while `ERR` is (10_state.md R31) -/
  errorFree : s.err = false → s.errcode = .none ∧ s.errinfo = 0#32
  /-- a recorded error has a code (60_exceptions.md R196) -/
  errorNamed : s.err = true → s.errcode ≠ .none
  cbufCanonical : s.cbuf.wf = true
  cbufWithin : s.cbuf.within s.cfg.cbufCap.toNat = true
  imgCanonical : s.img.wf = true
  imgWithin : s.img.within (3 * 2 ^ 32) = true
  qpCanonical : ∀ p, (s.qp.get p).wf = true
  qpWithin : ∀ p, (s.qp.get p).within (64 * qpBlocks) = true
  symsCanonical : ∀ p k, (s.syms.at p k).wf = true
  symsWithin : ∀ p k, (s.syms.at p k).within sCap = true
  bsCanonical : ∀ p k, (s.bs.at p k).wf = true
  bsWithin : ∀ p k, (s.bs.at p k).within s.cfg.bsCap.toNat = true
  ltCanonical : ∀ p k, (s.lt.at p k).wf = true
  ltWithin : ∀ p k, (s.lt.at p k).within 256 = true
  ctCanonical : ∀ p k, (s.ct.at p k).wf = true

/-! ### Registers -/

/-- The bits of a register that hold state (10_state.md R26). -/
def usedBits : Reg → Word
  | .id => 0xFFFFFFFF#32
  | .cmd => 0xFFFFFFFF#32
  | .status => 0x7#32
  | .ctrl => 0x1#32
  | .errcode => 0xFF#32
  | .errinfo => 0xFFFFFFFF#32
  | .imgw => 0xFFFF#32
  | .imgh => 0xFFFF#32
  | .blkw => 0xFF#32
  | .blkh => 0xFF#32
  | .aclen _ _ => 0xFFFF#32
  | .clen => 0xFFFFFFFF#32
  | .cptr => 0xFFFFFFFF#32
  | .bidx => 0xFFFF#32
  | .count => 0xFFFFFFFF#32
  | .pix => 0xFFFFFF#32
  | .yuv => 0xFFFFFF#32
  | .dcp _ => 0xFF#32
  | .slen _ _ => 0xFFFFFFFF#32
  | .srd _ _ => 0xFFFFFFFF#32
  | .bslen _ _ => 0xFFFFFFFF#32

/-- The registers a host read finds as a host write stored them (10_state.md R26): all but `ID`, `ERRCODE` and
`ERRINFO`, which are read-only, `STATUS`, and `CMD`, whose write starts a command. -/
def plainlyStored : Reg → Bool
  | .id | .cmd | .status | .errcode | .errinfo => false
  | .ctrl | .imgw | .imgh | .blkw | .blkh | .aclen _ _ | .clen | .cptr | .bidx | .count | .pix | .yuv | .dcp _
  | .slen _ _ | .srd _ _ | .bslen _ _ => true

/-- The offsets of 10_state.md R45 that name no register. -/
def reservedOffset (o : Nat) : Prop :=
  0x064 ≤ o ∧ o ≤ 0x07C ∨ 0x0A4 ≤ o ∧ o ≤ 0x0BC ∨ 0x0E4 ≤ o ∧ o ≤ 0x0FC ∨ 0x124 ≤ o ∧ o ≤ 0x1FC

/-- A host access that reads. -/
def readsOnly : HostAccess → Bool
  | .readReg _ | .readByte _ | .readCoef _ _ | .readCode _ _ _ | .readPixel _ _ | .busRead _ => true
  | .writeReg _ _ | .writeByte _ _ | .writeCoef _ _ _ | .writePixel _ _ _ | .assertReset | .busWrite _ _ => false

/-- A host access that the engine takes part in: a whole word of the register block, an element by its index, or a bus
access to a whole word of the register block or a whole slot (logs 6 and 14). -/
def servable (m : MemMap) : HostAccess → Prop
  | .busRead addr => ∃ g, busTarget m addr = some g ∧ ∀ off, g = .reg off → off.toNat % 4 = 0
  | .busWrite addr bytes => ∃ g, busTarget m addr = some g ∧
    (∀ off, g = .reg off → off.toNat % 4 = 0 ∧ bytes.length = 4) ∧
    ∀ lanes e, g = .slot lanes e → bytes.length = lanes.length
  | a => a.wf = true

/-- A host access to the register block. -/
def touchesRegisters (m : MemMap) : HostAccess → Prop
  | .readReg _ | .writeReg _ _ => True
  | .busRead addr | .busWrite addr _ => ∃ off, busTarget m addr = some (.reg off)
  | _ => False

/-- Every piece of engine state has its reset value, `DONE` apart (10_state.md R43). -/
structure AtReset (t : State) : Prop where
  registers : ∀ r, r ≠ .status → readReg r t = if r = .id then 0x494D3301#32 else 0#32
  busy : t.busy = false
  err : t.err = false
  sb : ∀ p j i, (t.sb.get p).at j i = 0#8
  cb : ∀ v u, t.cb.at v u = 0#16
  qb : ∀ v u, t.qb.at v u = 0#8
  lt : ∀ p k a, (t.lt.at p k).read a = 0#8
  ct : ∀ p k a, (t.ct.at p k).entry a = { len := 0#8, code := 0#255 }
  syms : ∀ p k a, (t.syms.at p k).read a = 0#8
  bs : ∀ p k a, (t.bs.at p k).read a = 0#8
  qp : ∀ p a, (t.qp.get p).read a = 0#8

/-! ### What a memory holds -/

/-- The bytes from an address on are the given ones. -/
def holdsBytes (m : Memory) (a : Nat) (bytes : List Byte) : Prop :=
  ∀ i, i < bytes.length → m.read (a + i) = bytes.getD i 0#8

/-- Bit `n` of a memory read as one bit sequence (20_memory.md R54). -/
def bitAt (m : Memory) (n : Nat) : Bool := (m.read (n / 8)).getLsbD (n % 8)

/-- The bits from bit position `pos` on are the given ones. -/
def holdsBits (m : Memory) (pos : Nat) (bits : List Bool) : Prop :=
  ∀ i, i < bits.length → bitAt m (pos + i) = bits.getD i false

/-- The bytes a bit sequence fills, padded to a byte (30_encoding.md R80). -/
def byteCount (bits : List Bool) : Nat := (bits.length + 7) / 8

/-! ### Code tables -/

/-- `Σ 2^(−len s)` over the symbols that have a length, in units of `2^−255` (45_huffman.md R149). -/
def kraftSum (len : Nat → Nat) : Nat :=
  ((List.range 256).map fun s => if len s = 0 then 0 else 2 ^ (255 - len s)).sum

/-- Symbol `r` stands before symbol `s` in the order (length, symbol) (45_huffman.md R149). -/
def codedBefore (len : Nat → Nat) (r s : Nat) : Prop := len r ≠ 0 ∧ (len r < len s ∨ len r = len s ∧ r < s)

/-- The share of the code space, in units of `2^−255`, that the symbols before `s` take. -/
def spaceBefore (len : Nat → Nat) (s : Nat) : Nat :=
  ((List.range 256).map fun r =>
    if len r ≠ 0 ∧ (len r < len s ∨ len r = len s ∧ r < s) then 2 ^ (255 - len r) else 0).sum

/-- Every symbol of a sequence has a code. -/
def covers (t : CodeTable) (seq : List Byte) : Prop := ∀ b ∈ seq, (t.entry b.toNat).len ≠ 0#8

/-- No code of the table begins another symbol's code (30_encoding.md R81). -/
def uniquelyReadable (t : CodeTable) : Prop :=
  ∀ a b, a ≠ b → (t.entry a).len ≠ 0#8 → (t.entry b).len ≠ 0#8 →
    ¬ codeBits (t.entry a) <+: codeBits (t.entry b)

/-- The codes of a sequence stand at bit position `pos`, before byte `lim` (45_huffman.md R153). -/
def reads (m : Memory) (t : CodeTable) (pos lim : Nat) (seq : List Byte) : Prop :=
  covers t seq ∧ holdsBits m pos (bitsOf t seq) ∧ (seq = [] ∨ pos + (bitsOf t seq).length ≤ 8 * lim)

/-- `n` is the length of the longest code (45_huffman.md R154). -/
def longest (t : CodeTable) (n : Nat) : Prop :=
  (∃ b : Byte, (t.entry b.toNat).len.toNat = n) ∧ ∀ b : Byte, (t.entry b.toNat).len.toNat ≤ n

/-- Decoding one symbol at bit position `pos` before byte `lim` ends in the error `e` (45_huffman.md R153, R154): the
table is empty; or the bits there, as many as the longest code has, begin with no code; or the bits up to `lim` are fewer
and begin with no code. -/
def failsAt (m : Memory) (t : CodeTable) (pos lim : Nat) (e : Err) : Prop :=
  ∃ (n : Nat) (w : List Bool), longest t n ∧ holdsBits m pos w ∧
    (∀ b : Byte, (t.entry b.toNat).len ≠ 0#8 → ¬ codeBits (t.entry b.toNat) <+: w) ∧
    (n = 0 ∧ e = { code := .nomatch, info := pos / 8 } ∨
      0 < n ∧ w.length = n ∧ pos + n ≤ 8 * lim ∧ e = { code := .nomatch, info := (pos + n - 1) / 8 } ∨
      w.length < n ∧ (pos + w.length = 8 * lim ∨ w = [] ∧ 8 * lim ≤ pos) ∧ e = { code := .exhaust, info := lim })

/-- The length table that the builder makes for a sequence, as a function (45_huffman.md R147). -/
def builtLengths (seq : List Byte) (s : Nat) : Nat := ((huflen seq).getD s 0#8).toNat

/-- The bits of a sequence under its own code: `bitsof(canon(huflen(seq)), seq)` (45_huffman.md R158). -/
def ownBits (seq : List Byte) : List Bool :=
  match canon (builtLengths seq) with
  | .ok t => bitsOf t seq
  | .error _ => []

/-! ### The symbols and the container of a list of blocks -/

/-- The coefficients that pairs stand for: each run's zeros, then the value (44_coefcoder.md R130, R134). -/
def acSequence (pairs : List (Byte × Byte)) : List Byte :=
  pairs.flatMap fun x => List.replicate x.1.toNat 0#8 ++ [x.2]

/-- The AC coefficients of a block in zigzag order (44_coefcoder.md R131). -/
def acOf (q : Block Byte) : List Byte := zigzag.map fun c => q.at c.1 c.2

/-- The DC differences of a list of blocks from a predictor on (44_coefcoder.md R130). -/
def dcSymbols (dcp : Byte) : List (Block Byte) → List Byte
  | [] => []
  | q :: rest => byteOf (sval (q.at 0 0) - sval dcp) :: dcSymbols (q.at 0 0) rest

/-- The symbols of one kind that a plane's blocks give (44_coefcoder.md R130). -/
def symbolsOf (k : Kind) (blocks : List (Block Byte)) : List Byte :=
  match k with
  | .dc => dcSymbols 0#8 blocks
  | .run => blocks.flatMap fun q => (blockPairs q).map Prod.fst
  | .val => blocks.flatMap fun q => (blockPairs q).map Prod.snd

/-- The number of a stream in container order (30_encoding.md R79). -/
def streamNum (p : Plane) (k : Kind) : Nat := 3 * planeNum p + kindNum k

/-- The offset of a stream's segment in a container whose segments have the given lengths (30_encoding.md R79). -/
def segmentStart (len : Plane → Kind → Nat) (p : Plane) (k : Kind) : Nat :=
  2320 + ((allStreams.filter fun t => Nat.blt (streamNum t.1 t.2) (streamNum p k)).map fun t => len t.1 t.2).sum

/-- The length of a container whose segments have the given lengths (30_encoding.md R79). -/
def totalLength (len : Plane → Kind → Nat) : Nat := 2320 + (allStreams.map fun t => len t.1 t.2).sum

/-- A well-formed container of `n` bytes in a buffer (46_container.md R173): `bw` by `bh` blocks per plane, its blocks,
and the code tables its length tables stand for. -/
structure HoldsContainer (m : Memory) (n bw bh : Nat) (blocks : Plane → List (Block Byte))
    (table : Plane → Kind → CodeTable) : Prop where
  magicI : m.read 0 = 0x49#8
  magicM : m.read 1 = 0x4D#8
  wide : (m.read 2).toNat = bw
  high : (m.read 3).toNat = bh
  count : ∀ p, (blocks p).length = bw * bh
  tables : ∀ p k, canon (fun s => (m.read (16 + 768 * planeNum p + 256 * kindNum k + s)).toNat) = .ok (table p k)
  covered : ∀ p k, covers (table p k) (symbolsOf k (blocks p))
  counts : ∀ p a, (m.read (4 + 2 * acNum p a)).toNat + 256 * (m.read (5 + 2 * acNum p a)).toNat =
    byteCount (bitsOf (table p (acKind a)) (symbolsOf (acKind a) (blocks p)))
  segments : ∀ p k, holdsBits m
    (8 * segmentStart (fun p k => byteCount (bitsOf (table p k) (symbolsOf k (blocks p)))) p k)
    (bitsOf (table p k) (symbolsOf k (blocks p)))
  length : n = totalLength fun p k => byteCount (bitsOf (table p k) (symbolsOf k (blocks p)))

/-! ### From the image to blocks and back -/

/-- One sample of a sample triple. -/
def sampleOf (c : Sample) : Plane → Byte
  | .y => c.y
  | .u => c.u
  | .v => c.v

/-- The samples of plane `p` in block `n` of an image with `bw` blocks per row (41_color.md R101), under a `CSC_MAP`. -/
def imageSamples (m : CscMap) (img : Memory) (bw : Nat) (p : Plane) (n : Nat) : Block Byte :=
  Block.make fun j i => sampleOf (rgb2yuv m (img.readPixel (8 * (n % bw) + i.val) (8 * (n / bw) + j.val))) p

/-- The quantised coefficients of a block of samples (47_codec.md R180). -/
def quantised (f : Block Byte) : Block Byte := Block.make fun v u => quantOne v u ((fdct f).at v u)

/-- The quantised blocks of plane `p` of the image, in scan order (47_codec.md R181). -/
def imageBlocks (s : State) (p : Plane) : List (Block Byte) :=
  (List.range (s.imgw.toNat / 8 * (s.imgh.toNat / 8))).map fun n =>
    quantised (imageSamples s.cfg.cscMap s.img (s.imgw.toNat / 8) p n)

/-- The samples that quantised coefficients stand for (47_codec.md R180). -/
def rebuilt (q : Block Byte) : Block Byte := idct (Block.make fun v u => dequantOne v u (q.at v u))

/-- The bits of a stream of the image under its own code. -/
def imageBits (s : State) (p : Plane) (k : Kind) : List Bool := ownBits (symbolsOf k (imageBlocks s p))

/-- A 16-bit count as two bytes, the low one first (20_memory.md R53). -/
def lowHigh (n : Nat) : List Byte := [BitVec.ofNat 8 n, BitVec.ofNat 8 (n / 256)]

/-- The container of an image, byte by byte (30_encoding.md R77 to R80). -/
def imageContainer (s : State) : List Byte :=
  [0x49#8, 0x4D#8, BitVec.ofNat 8 (s.imgw.toNat / 8), BitVec.ofNat 8 (s.imgh.toNat / 8)] ++
  allPlanes.flatMap (fun p =>
    lowHigh (byteCount (imageBits s p .run)) ++ lowHigh (byteCount (imageBits s p .val))) ++
  allStreams.flatMap (fun t => huflen (symbolsOf t.2 (imageBlocks s t.1))) ++
  allStreams.flatMap (fun t => packBits (imageBits s t.1 t.2))

/-! ### Which command writes what (20_memory.md R51, 10_state.md R24) -/

/-- The commands that write `IMG`. -/
def writesImg : Instr → Bool
  | .tileOut | .decompress => true
  | _ => false

/-- The commands that write `CBUF`. -/
def writesCbuf : Instr → Bool
  | .frame | .compress => true
  | _ => false

/-- The commands that write `S[p][k]`. -/
def writesS (p : Plane) (k : Kind) : Instr → Bool
  | .ccEnc q => p == q
  | .hufDec q l => p == q && k == l
  | .hufDecAc q => p == q && k != .dc
  | .reset | .compress | .decompress => true
  | _ => false

/-- The commands that write `BS[p][k]`. -/
def writesBs (p : Plane) (k : Kind) : Instr → Bool
  | .hufEnc q l => p == q && k == l
  | .reset | .compress => true
  | _ => false

/-- The commands that write `QP[p]`. -/
def writesQp (p : Plane) : Instr → Bool
  | .stq q => p == q
  | .reset | .compress | .decompress => true
  | _ => false

/-- The commands that write `LT[p][k]`. -/
def writesLt (p : Plane) (k : Kind) : Instr → Bool
  | .hufLen q l => p == q && k == l
  | .deframeHdr | .reset | .compress | .decompress => true
  | _ => false

/-- The commands that write `CT[p][k]`. -/
def writesCt (p : Plane) (k : Kind) : Instr → Bool
  | .hufCode q l => p == q && k == l
  | .reset | .compress | .decompress => true
  | _ => false

/-- The commands that write `SB[p]`. -/
def writesSb (p : Plane) : Instr → Bool
  | .idct q => p == q
  | .tileIn | .reset | .compress | .decompress => true
  | _ => false

/-- The commands that write `CB`. -/
def writesCb : Instr → Bool
  | .fdct _ | .dequant | .reset | .compress | .decompress => true
  | _ => false

/-- The commands that write `QB`. -/
def writesQb : Instr → Bool
  | .quant | .ldq _ | .ccDec _ | .reset | .compress | .decompress => true
  | _ => false

end Sys2Proof.Machine
end

