-- ==== Sys2Proof/Certificates/Slice0/Obligations.lean ====
section
/-! DEFINITION. The statements about the model, in the order of the spec's files: encoding, the life of a command, the
host's side, the commands, the invariant. -/

open Sys2Proof Sys2Proof.Machine

/-! ### Encoding (30_encoding.md) -/

/-- 30_encoding.md R71 to R73: a word decodes to a command exactly when it is that command's word. -/
def Obligations.DecodingAndEncodingAgree : Prop :=
  ∀ (w : Word) (i : Instr), decode w = .ok i ↔ w = encode i

/-- 30_encoding.md R73: a word is legal exactly when the six conditions hold of its fields, and then it is exactly one
command; every other word is rejected. -/
def Obligations.LegalWordsMeetSixConditions : Prop :=
  ∀ w : Word,
    let op := (w.extractLsb' 0 8).toNat
    let p := w.extractLsb' 8 2
    let k := w.extractLsb' 10 2
    let legal := w.extractLsb' 12 20 = 0#20 ∧
      op ∈ [0x00, 0x01, 0x02, 0x10, 0x11, 0x12, 0x13, 0x20, 0x21, 0x22, 0x23, 0x24, 0x25, 0x30, 0x31, 0x32, 0x40,
        0x41, 0x42, 0x43, 0x44, 0x50, 0x51, 0x60, 0x61] ∧
      p ≠ 3#2 ∧ k ≠ 3#2 ∧
      (p = 0#2 ∨ op ∈ [0x20, 0x21, 0x24, 0x25, 0x30, 0x31, 0x32, 0x40, 0x41, 0x42, 0x43, 0x44]) ∧
      (k = 0#2 ∨ op ∈ [0x40, 0x41, 0x42, 0x43])
    (legal → ∃ i, decode w = .ok i ∧ ∀ j, decode w = .ok j → j = i) ∧ (¬ legal → ∃ e, decode w = .error e)

/-- 30_encoding.md R72, R75: words written out from the opcode map, and words that are no command. -/
def Obligations.SampleWordsDecode : Prop :=
  decode 0x00000000#32 = .ok .nop ∧ decode 0x00000011#32 = .ok .cscInv ∧ decode 0x00000120#32 = .ok (.fdct .u) ∧
  decode 0x00000225#32 = .ok (.ldq .v) ∧ decode 0x00000131#32 = .ok (.ccEnc .u) ∧
  decode 0x00000A42#32 = .ok (.hufEnc .v .val) ∧ decode 0x00000540#32 = .ok (.hufLen .u .run) ∧
  decode 0x00000051#32 = .ok .deframeHdr ∧ decode 0x00000060#32 = .ok .compress ∧
  decode 0x00000003#32 = .error .unassignedOp ∧ decode 0x00000320#32 = .error .planeReserved ∧
  decode 0x00000C40#32 = .error .kindReserved ∧ decode 0x00000122#32 = .error .planeNotTaken ∧
  decode 0x00000420#32 = .error .kindNotTaken ∧ decode 0x00001000#32 = .error .reservedBits

/-! ### The life of a command (60_exceptions.md) -/

/-- A step runs the decoded command. When the oldest pending host access writes a legal word to `CMD`, and the engine is
not in its error state or the command is one that leaves it, the step is `exec` of that command, from the state in which
the access has been taken and the command has been started, and then the command's end (60_exceptions.md R194). The words
`withFetchWord` places are such accesses. That a pending host access is what a step serves is the model's choice (log 2). -/
def Obligations.StepRunsDecodedCommand : Prop :=
  (∀ (s : State) (w : Word) (rest : List HostAccess) (i : Instr),
    s.pending = .writeReg 0x004#9 w :: rest → decode w = .ok i → (s.err = false ∨ i = .reset ∨ i = .clrerr) →
    step s = commandEnds (exec i { s with pending := rest, cmd := w, busy := true, done := false })) ∧
  (∀ t : State, commandEnds (.next t) = .next { t with busy := false, done := true }) ∧
  (∀ (s : State) (w : Nat), w < 2 ^ 32 →
    s.withFetchWord 32 w = { s with pending := .writeReg 0x004#9 (BitVec.ofNat 32 w) :: s.pending })

/-- 60_exceptions.md R194: the start and the end of a command. -/
def Obligations.CommandStartsAndEnds : Prop :=
  ∀ (s : State) (w : Word) (rest : List HostAccess), s.pending = .writeReg 0x004#9 w :: rest →
    let u : State := { s with pending := rest, cmd := w, busy := true, done := false }
    (w = 0x00000001#32 → step s = commandEnds (exec .reset u)) ∧
    (w = 0x00000002#32 → step s = commandEnds (exec .clrerr u)) ∧
    (w ≠ 0x00000001#32 → w ≠ 0x00000002#32 → s.err = true →
      step s = .next { u with busy := false, done := true }) ∧
    (s.err = false → (∀ i, decode w ≠ .ok i) →
      step s = .next { u with err := true, errcode := .illcmd, errinfo := w, busy := false, done := true }) ∧
    (s.err = false → ∀ i, decode w = .ok i → step s = commandEnds (exec i u)) ∧
    ∃ t, step s = .next t ∧ t.busy = false ∧ t.done = true ∧
      t.cmd = (if w = 0x00000001#32 then 0#32 else w) ∧ t.pending = rest

/-- 60_exceptions.md R195: while `ERR` = 1 every word but those of `RESET` and `CLRERR` changes `CMD` and sets `DONE` and
does nothing else; host accesses other than a command are served alike whatever `ERR` is (what differs is `ERR` itself,
and `STATUS` shows it). -/
def Obligations.CommandsAreRefusedWhileError : Prop :=
  (∀ (s : State) (w : Word) (rest : List HostAccess),
    s.pending = .writeReg 0x004#9 w :: rest → s.err = true → s.busy = false →
    w ≠ 0x00000001#32 → w ≠ 0x00000002#32 →
    step s = .next { s with pending := rest, cmd := w, done := true }) ∧
  (∀ (s t : State) (a : HostAccess) (rest : List HostAccess) (e : Bool),
    s.pending = a :: rest → (∀ w, a ≠ .writeReg 0x004#9 w) → a ≠ .readReg 0x008#9 → a ≠ .assertReset →
    (∀ addr bytes, a = .busWrite addr bytes → busTarget s.cfg.memMap addr ≠ some (.reg 0x004#9)) →
    (∀ addr, a = .busRead addr → busTarget s.cfg.memMap addr ≠ some (.reg 0x008#9)) →
    step s = .next t → step { s with err := e } = .next { t with err := e })

/-- 60_exceptions.md R196: what error entry writes, and all it writes. -/
def Obligations.ErrorEntryRecords : Prop :=
  ∀ (e : Err) (s : State), ∃ info : Word, info.toNat = e.info % 2 ^ 32 ∧
    errorEntry e s = { s with err := true, errcode := e.code, errinfo := info }

/-- 10_state.md R31, 60_exceptions.md R198: while an error is recorded, a step keeps it, unless the step is a `RESET` or
`CLRERR` command or the reset input, which clear it. -/
def Obligations.FirstErrorIsKept : Prop :=
  ∀ s t : State, s.err = true → step s = .next t →
    (t.err = true ∧ t.errcode = s.errcode ∧ t.errinfo = s.errinfo) ∨
    ((∃ rest, s.pending = .writeReg 0x004#9 0x00000001#32 :: rest ∨
        s.pending = .writeReg 0x004#9 0x00000002#32 :: rest ∨ s.pending = .assertReset :: rest ∨
        ∃ addr bytes, s.pending = .busWrite addr bytes :: rest ∧
          busTarget s.cfg.memMap addr = some (.reg 0x004#9) ∧
          (wordOfBytes bytes = 0x00000001#32 ∨ wordOfBytes bytes = 0x00000002#32)) ∧
      t.err = false ∧ t.errcode = .none ∧ t.errinfo = 0#32)

/-- 10_state.md R43, 40_control.md R91: the reset values, after the reset input and after the `RESET` command, which then
sets `DONE`; and in the state the model starts from. That a reset keeps the parameters, the accesses the host has still to
make and what it was last told is the model's choice (log 10). -/
def Obligations.ResetLeavesResetValues : Prop :=
  (AtReset State.reset ∧ State.reset.done = false ∧ irq State.reset = false) ∧
  (∀ (s : State) (rest : List HostAccess), s.pending = .assertReset :: rest →
    ∃ t, step s = .next t ∧ AtReset t ∧ t.done = false ∧ irq t = false ∧ t.cbuf = s.cbuf ∧ t.img = s.img ∧
      t.cfg = s.cfg ∧ t.pending = rest ∧ t.reply = s.reply) ∧
  (∀ (s : State) (rest : List HostAccess), s.pending = .writeReg 0x004#9 0x00000001#32 :: rest →
    ∃ t, step s = .next t ∧ AtReset t ∧ readReg .status t = 0b010#32 ∧ irq t = false ∧ t.cbuf = s.cbuf ∧
      t.img = s.img ∧ t.cfg = s.cfg ∧ t.pending = rest ∧ t.reply = s.reply) ∧
  encode .reset = 0x00000001#32 ∧
  ∀ s : State, ∃ t, exec .reset s = .next t ∧ AtReset t ∧ t.done = false ∧ t.cbuf = s.cbuf ∧ t.img = s.img ∧
    t.cfg = s.cfg ∧ t.pending = s.pending ∧ t.reply = s.reply

/-- 40_control.md R90: `NOP`; with the common start and end it leaves all but `CMD`, `BUSY` and `DONE` alone. -/
def Obligations.NopChangesNothing : Prop :=
  encode .nop = 0x00000000#32 ∧ readReg .cmd State.reset = encode .nop ∧
  (∀ s : State, exec .nop s = .next s) ∧
  (∀ (s : State) (rest : List HostAccess), s.pending = .writeReg 0x004#9 0x00000000#32 :: rest →
    step s = .next { s with pending := rest, cmd := 0#32, busy := false, done := true })

/-- 40_control.md R92: `CLRERR`; with `ERR` already 0, in a safe state, it is a `NOP`. -/
def Obligations.ClrerrClearsTheError : Prop :=
  encode .clrerr = 0x00000002#32 ∧
  (∀ s : State, exec .clrerr s = .next { s with err := false, errcode := .none, errinfo := 0#32 }) ∧
  (∀ s : State, Safe s → s.err = false → exec .clrerr s = .next s) ∧
  (∀ (s : State) (rest : List HostAccess), s.pending = .writeReg 0x004#9 0x00000002#32 :: rest →
    step s = .next { s with
      pending := rest
      cmd := 2#32
      busy := false
      done := true
      err := false
      errcode := .none
      errinfo := 0#32 })

/-! ### The host's side (10_state.md, 20_memory.md) -/

/-- 10_state.md R26: a register written by the host reads back masked to its used bits, and no other register, block
register or memory changes; a host read returns the register. At the bus address that `MEMMAP` gives a register, with
the register's bytes in the order of 20_memory.md R55, the bus does the same (log 14). -/
def Obligations.RegisterWritesReadBack : Prop :=
  (∀ (r : Reg) (v : Word) (s : State) (rest : List HostAccess), plainlyStored r = true →
    s.pending = .writeReg (BitVec.ofNat 9 (regOffset r)) v :: rest →
    ∃ t, step s = .next t ∧ readReg r t = v &&& usedBits r ∧ (∀ q, q ≠ r → readReg q t = readReg q s) ∧
      t.pending = rest ∧ t.cfg = s.cfg ∧ t.reply = s.reply ∧ t.sb = s.sb ∧ t.cb = s.cb ∧ t.qb = s.qb ∧
      t.lt = s.lt ∧ t.ct = s.ct ∧ t.syms = s.syms ∧ t.bs = s.bs ∧ t.qp = s.qp ∧ t.cbuf = s.cbuf ∧ t.img = s.img) ∧
  (∀ (r : Reg) (s : State) (rest : List HostAccess),
    s.pending = .readReg (BitVec.ofNat 9 (regOffset r)) :: rest →
    step s = .next { s with pending := rest, reply := some (.word (readReg r s)) }) ∧
  (∀ (off : BitVec 9) (v : Word) (s : State) (rest : List HostAccess), off.toNat % 4 = 0 →
    (s.pending = .busRead (s.cfg.memMap.regBase + off.toNat) :: rest →
      step s = step { s with pending := .readReg off :: rest }) ∧
    (s.pending = .busWrite (s.cfg.memMap.regBase + off.toNat)
        [v.extractLsb' 0 8, v.extractLsb' 8 8, v.extractLsb' 16 8, v.extractLsb' 24 8] :: rest →
      step s = step { s with pending := .writeReg off v :: rest }))

/-- 10_state.md R45, R27: reserved offsets read 0 and ignore writes; `ID`, `ERRCODE` and `ERRINFO` ignore writes; `ID`
reads its constant. -/
def Obligations.FixedOffsetsIgnoreWrites : Prop :=
  (∀ (off : BitVec 9) (s : State) (rest : List HostAccess), off.toNat % 4 = 0 → reservedOffset off.toNat →
    (s.pending = .readReg off :: rest → step s = .next { s with pending := rest, reply := some (.word 0#32) }) ∧
    (∀ v, s.pending = .writeReg off v :: rest → step s = .next { s with pending := rest })) ∧
  (∀ (off : BitVec 9) (v : Word) (s : State) (rest : List HostAccess),
    off = 0x000#9 ∨ off = 0x010#9 ∨ off = 0x014#9 → s.pending = .writeReg off v :: rest →
    step s = .next { s with pending := rest }) ∧
  (∀ (s : State) (rest : List HostAccess), s.pending = .readReg 0x000#9 :: rest →
    step s = .next { s with pending := rest, reply := some (.word 0x494D3301#32) })

/-- 10_state.md R29, R30, 60_exceptions.md R200: the bits of `STATUS`, clearing `DONE`, and the interrupt output, which
after a command other than `RESET` is `IE` and after `DONE` is cleared is 0. -/
def Obligations.DoneDrivesTheInterrupt : Prop :=
  (∀ (s : State) (n : Nat), (readReg .status s).getLsbD n =
    match n with
    | 0 => s.busy
    | 1 => s.done
    | 2 => s.err
    | _ => false) ∧
  (∀ (s : State) (v : Word) (rest : List HostAccess), s.pending = .writeReg 0x008#9 v :: rest →
    step s = .next { s with pending := rest, done := s.done && !v.getLsbD 1 }) ∧
  (∀ (s : State) (v : Word) (rest : List HostAccess), s.pending = .writeReg 0x00C#9 v :: rest →
    step s = .next { s with pending := rest, ie := v.getLsbD 0 }) ∧
  (∀ s : State, irq s = (s.ie && s.done)) ∧
  (∀ (s t : State) (w : Word) (rest : List HostAccess), s.pending = .writeReg 0x004#9 w :: rest →
    w ≠ 0x00000001#32 → step s = .next t → t.ie = s.ie ∧ irq t = s.ie)

/-- 20_memory.md R57: a host read changes nothing but what the host has been told; with nothing pending the engine is idle
and keeps all its state (60_exceptions.md R204). The record of what the host was told is the model's (log 3). -/
def Obligations.HostReadsChangeNothing : Prop :=
  (∀ (s : State) (a : HostAccess) (rest : List HostAccess), readsOnly a = true → servable s.cfg.memMap a →
    s.pending = a :: rest → ∃ r, step s = .next { s with pending := rest, reply := some r }) ∧
  (∀ s : State, s.pending = [] → step s = .next s)

/-- 20_memory.md R50, R52: the memory window. A byte written inside its space's capacity reads back, and every other byte
element of every space, every register and every wider space stays; outside the capacity a write is ignored and a read
returns 0. A coefficient and a pixel read back as the host wrote them, and no other coefficient, byte of `IMG` or other
state changes; an entry of a code table can be read. That the host's pixels are bounded by the 16 bits of `IMGW` and
`IMGH`, not by their values, is the model's choice (log 5). At the bus address where `MEMMAP` puts an element, with the
element's bytes in the slot's lanes, the bus does the same; which address that is follows from the window's base, lanes and
space; a bus write to a code table, or behind a space's end, is ignored: the model's choices (logs 7 and 14). -/
def Obligations.WindowReadsBackWrites : Prop :=
  (∀ s : State, (∀ a, inCapacity (.cbuf a) s = true ↔ a < s.cfg.cbufCap.toNat) ∧
    (∀ p k n, inCapacity (.s p k n) s = true ↔ n < 4161600) ∧
    (∀ p k n, inCapacity (.bs p k n) s = true ↔ n < s.cfg.bsCap.toNat) ∧
    (∀ p n v u, inCapacity (.qp p n v u) s = true ↔ n < 65025) ∧
    (∀ p k sym, inCapacity (.lt p k sym) s = true) ∧ (∀ p j i, inCapacity (.sb p j i) s = true) ∧
    (∀ v u, inCapacity (.qb v u) s = true)) ∧
  (∀ (s : State) (l : ByteLoc) (b : Byte) (rest : List HostAccess), s.pending = .writeByte l b :: rest →
    (inCapacity l s = true → ∃ t, step s = .next t ∧ loadByte l t = b ∧
      (∀ l', l' ≠ l → loadByte l' t = loadByte l' s) ∧ (∀ r, readReg r t = readReg r s) ∧
      t.cb = s.cb ∧ t.ct = s.ct ∧ t.img = s.img ∧ t.cfg = s.cfg ∧ t.pending = rest ∧ t.reply = s.reply) ∧
    (inCapacity l s = false → step s = .next { s with pending := rest })) ∧
  (∀ (s : State) (l : ByteLoc) (rest : List HostAccess), s.pending = .readByte l :: rest →
    step s = .next { s with
      pending := rest
      reply := some (.byte (if inCapacity l s then loadByte l s else 0#8)) }) ∧
  (∀ (s : State) (v u : Fin 8) (c : BitVec 16) (rest : List HostAccess), s.pending = .writeCoef v u c :: rest →
    ∃ b : Block (BitVec 16), step s = .next { s with pending := rest, cb := b } ∧
      ∀ v' u', b.at v' u' = if v' = v ∧ u' = u then c else s.cb.at v' u') ∧
  (∀ (s : State) (x y : BitVec 16) (c : Pixel) (rest : List HostAccess), s.pending = .writePixel x y c :: rest →
    ∃ m : Memory, step s = .next { s with pending := rest, img := m } ∧ m.readPixel x.toNat y.toNat = c ∧
      ∀ a, a < pixelAddr x.toNat y.toNat ∨ pixelAddr x.toNat y.toNat + 3 ≤ a → m.read a = s.img.read a) ∧
  (∀ (s : State) (v u : Fin 8) (rest : List HostAccess), s.pending = .readCoef v u :: rest →
    step s = .next { s with pending := rest, reply := some (.coef (s.cb.at v u)) }) ∧
  (∀ (s : State) (x y : BitVec 16) (rest : List HostAccess), s.pending = .readPixel x y :: rest →
    step s = .next { s with pending := rest, reply := some (.pixel (s.img.readPixel x.toNat y.toNat)) }) ∧
  (∀ (s : State) (p : Plane) (k : Kind) (sym : Byte) (rest : List HostAccess), s.pending = .readCode p k sym :: rest →
    step s = .next { s with pending := rest, reply := some (.code ((s.ct.at p k).entry sym.toNat)) }) ∧
  (∀ (m : MemMap) (w : BusWindow) (ws : List BusWindow) (n addr : Nat), m.windows = w :: ws → n < w.elements →
    (∀ k, k < spaceWidth w.space → k ∈ w.lanes) → addr = w.base + w.lanes.length * n →
    addr < m.regBase ∨ m.regBase + 0x200 ≤ addr →
    busTarget m addr = some (.slot w.lanes (elementAt w.space w.rowPitch n))) ∧
  (∀ (s : State) (addr : Nat) (lanes : List Nat) (e : Element) (rest : List HostAccess),
    busTarget s.cfg.memMap addr = some (.slot lanes (some e)) →
    let bus := fun bytes => s.pending = .busWrite addr (lanes.map fun k => bytes.getD k 0#8) :: rest
    let as := fun a => step s = step { s with pending := a :: rest }
    (∀ l b, e = .byte l → bus [b] → as (.writeByte l b)) ∧
    (∀ v u c, e = .coef v u → bus [c.extractLsb' 0 8, c.extractLsb' 8 8] → as (.writeCoef v u c)) ∧
    (∀ x y c, e = .pixel x y → bus [c.r, c.g, c.b] → as (.writePixel x y c)) ∧
    (∀ p k sym bytes, e = .code p k sym → bus bytes → step s = .next { s with pending := rest }) ∧
    (s.pending = .busRead addr :: rest → ∃ bytes : List Byte,
      step s = .next { s with
        pending := rest
        reply := some (.bytes (lanes.map fun k => bytes.getD k 0#8)) } ∧
      (∀ l, e = .byte l → bytes = [if inCapacity l s then loadByte l s else 0#8]) ∧
      (∀ v u, e = .coef v u → bytes = [(s.cb.at v u).extractLsb' 0 8, (s.cb.at v u).extractLsb' 8 8]) ∧
      (∀ x y, e = .pixel x y → let c := s.img.readPixel x.toNat y.toNat; bytes = [c.r, c.g, c.b]) ∧
      ∀ p k sym, e = .code p k sym → bytes = codeBytes ((s.ct.at p k).entry sym.toNat))) ∧
  (∀ (s : State) (addr : Nat) (lanes : List Nat) (rest : List HostAccess),
    busTarget s.cfg.memMap addr = some (.slot lanes none) →
    (∀ bytes, s.pending = .busWrite addr bytes :: rest → bytes.length = lanes.length →
      step s = .next { s with pending := rest }) ∧
    (s.pending = .busRead addr :: rest →
      step s = .next { s with pending := rest, reply := some (.bytes (lanes.map fun _ => 0#8)) }))

/-- The model's own choice (logs 6 and 14; 20_memory.md R56 puts such register accesses outside the model, R58 leaves the
bus to the platform): a step stops only on a host access that the engine takes no part in, and then with the fault that
names it; nothing is ever refused as not modelled. -/
def Obligations.StepStopsOnlyOnUnservableAccess : Prop :=
  ∀ s : State, (∀ r, step s ≠ .refused r) ∧
    ∀ f, step s = .fault f ↔ ∃ a rest, s.pending = a :: rest ∧ ¬ servable s.cfg.memMap a ∧
      (touchesRegisters s.cfg.memMap a → f = .registerAccessMisaligned) ∧
      (¬ touchesRegisters s.cfg.memMap a → f = .busAccessUnmapped)

/-! ### Colour (41_color.md) -/

/-- 41_color.md R99, R97: `CSC_FWD`, for every `CSC_MAP`, and for the value the spec gives it (log 8). -/
def Obligations.CscFwdConvertsThePixel : Prop :=
  encode .cscFwd = 0x00000010#32 ∧
  (∀ s : State,
    let r : Int := (s.pix.extractLsb' 0 8).toNat
    let g : Int := (s.pix.extractLsb' 8 8).toNat
    let b : Int := (s.pix.extractLsb' 16 8).toNat
    let ny := (299 * r + 587 * g + 114 * b).tdiv 1000
    let nu := (-299 * r - 587 * g + 886 * b).tdiv 1000
    let nv := (701 * r - 587 * g - 114 * b).tdiv 1000
    let sample := cscMap s.cfg.cscMap
    let sy := channel ny - 128
    let su := channel nu - 128
    let sv := channel nv - 128
    exec .cscFwd s = .next { s with yuv := sample nv ++ sample nu ++ sample ny } ∧
    (s.cfg.cscMap = .clampThenShift → exec .cscFwd s =
      .next { s with yuv := BitVec.ofInt 24 (sy % 256 + 256 * (su % 256) + 65536 * (sv % 256)) }) ∧
    -225 ≤ nu ∧ -225 ≤ nv ∧ 0 ≤ ny ∧ ny ≤ 255 ∧ nu ≤ 255 ∧ nv ≤ 255) ∧
  (∀ (samples : Vector Byte 481) (n : Fin 481), cscMap (.listed samples) (n.val - 225 : Int) = samples[n]) ∧
  (∀ (s : State) (g : Byte), s.cfg.cscMap = .clampThenShift → s.pix = g ++ g ++ g →
    exec .cscFwd s = .next { s with yuv := 0x80#8 ++ 0x80#8 ++ (g - 128#8) }) ∧
  (∀ s : State, s.cfg.cscMap = .clampThenShift → s.pix = 0x3264C8#24 →
    exec .cscFwd s = .next { s with yuv := 0xCB80FC#24 })

/-- 41_color.md R100, R98: `CSC_INV`. -/
def Obligations.CscInvConvertsTheSamples : Prop :=
  encode .cscInv = 0x00000011#32 ∧
  (∀ s : State,
    let py := (s.yuv.extractLsb' 0 8).toInt + 128
    let pu := (s.yuv.extractLsb' 8 8).toInt + 128
    let pv := (s.yuv.extractLsb' 16 8).toInt + 128
    let r := channel (py + pv)
    let g := channel ((1000 * py - 194 * pu - 509 * pv).tdiv 1000)
    let b := channel (py + pu)
    exec .cscInv s = .next { s with pix := BitVec.ofInt 24 (r + 256 * g + 65536 * b) } ∧
    (py + pv > 255 → r = 255) ∧ (py + pu > 255 → b = 255) ∧ (194 * pu + 509 * pv > 1000 * py → g = 0)) ∧
  (∀ s : State, s.yuv = 0xCB80FC#24 → exec .cscInv s = .next { s with pix := 0x7C55C7#24 })

/-- 41_color.md R103: what the two maps preserve, and that they are total, with the value the spec gives `CSC_MAP`. An
inference the spec marks as its own: "[derived: from rules R97 and R98]". -/
def Obligations.ColourMapsPreserve : Prop :=
  let rgb2yuv := rgb2yuv .clampThenShift
  (∀ g : Byte, yuv2rgb (rgb2yuv { r := g, g := g, b := g }) = { r := g, g := g, b := g }) ∧
  (∀ c : Pixel, (-128 ≤ (rgb2yuv c).y.toInt ∧ (rgb2yuv c).y.toInt ≤ 127) ∧
    (-128 ≤ (rgb2yuv c).u.toInt ∧ (rgb2yuv c).u.toInt ≤ 97) ∧
    (-128 ≤ (rgb2yuv c).v.toInt ∧ (rgb2yuv c).v.toInt ≤ 50)) ∧
  (∀ c : Pixel,
    0 ≤ -299 * (c.r.toNat : Int) - 587 * (c.g.toNat : Int) + 886 * (c.b.toNat : Int) →
    0 ≤ 701 * (c.r.toNat : Int) - 587 * (c.g.toNat : Int) - 114 * (c.b.toNat : Int) →
    ((yuv2rgb (rgb2yuv c)).r.toNat - c.r.toNat : Int).natAbs ≤ 1 ∧
    ((yuv2rgb (rgb2yuv c)).g.toNat - c.g.toNat : Int).natAbs ≤ 1 ∧
    ((yuv2rgb (rgb2yuv c)).b.toNat - c.b.toNat : Int).natAbs ≤ 1) ∧
  (∃ c : Pixel, yuv2rgb (rgb2yuv c) ≠ c) ∧
  ∀ s : State, (∃ t, exec .cscFwd s = .next t ∧ t.err = s.err) ∧ ∃ t, exec .cscInv s = .next t ∧ t.err = s.err

/-- 41_color.md R101: `TILE_IN`. -/
def Obligations.TileInReadsTheTile : Prop :=
  encode .tileIn = 0x00000012#32 ∧
  ∀ s : State,
    let n := s.bidx.toNat
    let bw := s.blkw.toNat
    let bh := s.blkh.toNat
    let refused := exec .tileIn s =
      .next { s with err := true, errcode := .range, errinfo := s.bidx.setWidth 32 }
    (bw * bh ≤ n → refused) ∧
    (n < bw * bh → s.imgw.toNat < 8 * bw ∨ s.imgh.toNat < 8 * bh → refused) ∧
    (n < bw * bh → 8 * bw ≤ s.imgw.toNat → 8 * bh ≤ s.imgh.toNat →
      ∃ b : PerPlane (Block Byte), exec .tileIn s = .next { s with sb := b } ∧
        ∀ j i : Fin 8, { y := b.y.at j i, u := b.u.at j i, v := b.v.at j i } =
          rgb2yuv s.cfg.cscMap (s.img.readPixel (8 * (n % bw) + i.val) (8 * (n / bw) + j.val)))

/-- 41_color.md R102: `TILE_OUT`. Every byte of `IMG` outside the tile's 64 pixels stays. -/
def Obligations.TileOutWritesTheTile : Prop :=
  encode .tileOut = 0x00000013#32 ∧
  ∀ s : State,
    let n := s.bidx.toNat
    let bw := s.blkw.toNat
    let bh := s.blkh.toNat
    let refused := exec .tileOut s =
      .next { s with err := true, errcode := .range, errinfo := s.bidx.setWidth 32 }
    (bw * bh ≤ n → refused) ∧
    (n < bw * bh → s.imgw.toNat < 8 * bw ∨ s.imgh.toNat < 8 * bh → refused) ∧
    (n < bw * bh → 8 * bw ≤ s.imgw.toNat → 8 * bh ≤ s.imgh.toNat →
      ∃ m : Memory, exec .tileOut s = .next { s with img := m } ∧
        (∀ j i : Fin 8, m.readPixel (8 * (n % bw) + i.val) (8 * (n / bw) + j.val) =
          yuv2rgb { y := s.sb.y.at j i, u := s.sb.u.at j i, v := s.sb.v.at j i }) ∧
        ∀ a, (∀ j i : Fin 8, a < pixelAddr (8 * (n % bw) + i.val) (8 * (n / bw) + j.val) ∨
          pixelAddr (8 * (n % bw) + i.val) (8 * (n / bw) + j.val) + 3 ≤ a) → m.read a = s.img.read a)

/-! ### The transform (42_dct.md) -/

/-- 42_dct.md R110, R109: `FDCT p`. Each coefficient is the exact double sum rounded once, and never beyond ±1024 (the
bound is an inference that R109 marks as its own). The constants are the table of R108, row by row, by the signed numbers of
the seven magnitudes (log 8). -/
def Obligations.FdctRoundsTheDoubleSum : Prop :=
  (∀ k n : Fin 8,
    let m : Int := ((([[4, 4, 4, 4, 4, 4, 4, 4], [1, 3, 5, 7, -7, -5, -3, -1], [2, 6, -6, -2, -2, -6, 6, 2],
      [3, -7, -1, -5, 5, 1, 7, -3], [4, -4, -4, 4, 4, -4, -4, 4], [5, -1, 7, 3, -3, -7, 1, -5],
      [6, -2, 2, -6, -6, 2, -2, 6], [7, -5, 3, -1, 1, -3, 5, -7]] : List (List Int)).getD k.val []).getD n.val 0)
    dctK k n = m.sign * ([0, 1053110176, 992008094, 892783698, 759250125, 596538995, 410903207,
      209476638] : List Int).getD m.natAbs 0) ∧
  ∀ (s : State) (p : Plane), ∃ c : Block (BitVec 16), exec (.fdct p) s = .next { s with cb := c } ∧
    ∀ v u : Fin 8, (c.at v u).toInt =
        nearest (sum64 fun j i => dctK v j * dctK u i * ((s.sb.get p).at j i).toInt) (2 ^ 62) ∧
      -1024 ≤ (c.at v u).toInt ∧ (c.at v u).toInt ≤ 1024

/-- 42_dct.md R110: a constant block has only a DC coefficient, 8 times the sample (the zero block is the case 0); the
transform of a negated block is the negated transform; the example of the rule. -/
def Obligations.FdctOfConstantAndNegatedBlocks : Prop :=
  (∀ (f : Block Byte) (c : Byte), (∀ j i, f.at j i = c) → ∀ v u : Fin 8,
    ((fdct f).at v u).toInt = if v = 0 ∧ u = 0 then 8 * c.toInt else 0) ∧
  (∀ f g : Block Byte, (∀ j i, (g.at j i).toInt = -(f.at j i).toInt) → ∀ v u : Fin 8,
    ((fdct g).at v u).toInt = -((fdct f).at v u).toInt) ∧
  (∀ f : Block Byte, (∀ j i : Fin 8, (f.at j i).toInt = 16 * (i.val : Int) - 56) → ∀ v u : Fin 8,
    ((fdct f).at v u).toInt = if v = 0 then [0, -292, 0, -30, 0, -9, 0, -2].getD u.val 0 else 0)

/-- 42_dct.md R111, R112: `IDCT p`. Each sample is the exact double sum rounded once and then limited; a block with only
a DC coefficient `d` gives the constant `sat8(rhadiv(d, 8))`. -/
def Obligations.IdctRoundsTheDoubleSum : Prop :=
  ∀ (s : State) (p : Plane), ∃ f : Block Byte, exec (.idct p) s = .next { s with sb := s.sb.set p f } ∧
    (∀ j i : Fin 8, (f.at j i).toInt =
      sample8 (nearest (sum64 fun v u => dctK v j * dctK u i * (s.cb.at v u).toInt) (2 ^ 62))) ∧
    ((∀ v u : Fin 8, ¬(v = 0 ∧ u = 0) → s.cb.at v u = 0#16) →
      ∀ j i : Fin 8, (f.at j i).toInt = sample8 (nearest (s.cb.at 0 0).toInt 8))

/-! ### The quantiser (43_quant.md) -/

/-- 43_quant.md R122, R121: `QUANT`; the 64 values of the matrix (log 8). -/
def Obligations.QuantDividesByTheMatrix : Prop :=
  encode .quant = 0x00000022#32 ∧
  (∀ v u : Fin 8, quantStep v u = ((([[16, 11, 10, 16, 24, 40, 51, 61], [12, 12, 14, 19, 26, 58, 60, 55],
    [14, 13, 16, 24, 40, 57, 69, 56], [14, 17, 22, 29, 51, 87, 80, 62], [18, 22, 37, 56, 68, 109, 103, 77],
    [24, 35, 55, 64, 81, 104, 113, 92], [49, 64, 78, 87, 103, 121, 120, 101],
    [72, 92, 95, 98, 112, 100, 103, 99]] : List (List Nat)).getD v.val []).getD u.val 0)) ∧
  ∀ s : State, ∃ q : Block Byte, exec .quant s = .next { s with qb := q } ∧
    ∀ v u : Fin 8, (q.at v u).toInt = sample8 (nearest (s.cb.at v u).toInt (quantStep v u))

/-- 43_quant.md R122: what `FDCT` yields never saturates in `QUANT`: no quotient is beyond ±95. An inference the spec marks as
its own: "[derived: from 42_dct.md rules R108, R109 and rule R121]". -/
def Obligations.FdctOutputNeverSaturates : Prop :=
  ∀ (f : Block Byte) (v u : Fin 8), (nearest ((fdct f).at v u).toInt (quantStep v u)).natAbs ≤ 95

/-- 43_quant.md R123: `DEQUANT`; `DEQUANT` after `QUANT` need not restore `CB`. That the product always fits is an inference
the spec marks as its own: "its magnitude is at most 128 × 121 = 15488 [derived: from rule R121]". -/
def Obligations.DequantMultipliesByTheMatrix : Prop :=
  encode .dequant = 0x00000023#32 ∧
  (∀ s : State, ∃ c : Block (BitVec 16), exec .dequant s = .next { s with cb := c } ∧
    ∀ v u : Fin 8, (c.at v u).toInt = (s.qb.at v u).toInt * (quantStep v u : Int)) ∧
  ∃ s t u : State, exec .quant s = .next t ∧ exec .dequant t = .next u ∧ u.cb ≠ s.cb

/-- 43_quant.md R126: `QUANT` then `DEQUANT` moves a coefficient by at most half its step, when it does not saturate.
An inference the spec marks as its own: "[derived: from rules R122, R123 and 00_scope.md rule R14]". -/
def Obligations.QuantErrorIsHalfAStep : Prop :=
  ∀ s t u : State, exec .quant s = .next t → exec .dequant t = .next u → ∀ v w : Fin 8,
    sample8 (nearest (s.cb.at v w).toInt (quantStep v w)) = nearest (s.cb.at v w).toInt (quantStep v w) →
    2 * ((u.cb.at v w).toInt - (s.cb.at v w).toInt).natAbs ≤ quantStep v w

/-- 43_quant.md R124: `STQ p`. Every byte of the plane outside block `BIDX` stays. -/
def Obligations.StqStoresTheBlock : Prop :=
  encode (.stq .y) = 0x00000024#32 ∧ encode (.stq .u) = 0x00000124#32 ∧ encode (.stq .v) = 0x00000224#32 ∧
  ∀ (s : State) (p : Plane),
    let n := s.bidx.toNat
    (s.blkw.toNat * s.blkh.toNat ≤ n → exec (.stq p) s =
      .next { s with err := true, errcode := .range, errinfo := s.bidx.setWidth 32 }) ∧
    (n < s.blkw.toNat * s.blkh.toNat →
      ∃ m : Memory, exec (.stq p) s = .next { s with qp := s.qp.set p m } ∧
        (∀ v u : Fin 8, m.read (64 * n + 8 * v.val + u.val) = s.qb.at v u) ∧
        ∀ a, a < 64 * n ∨ 64 * n + 64 ≤ a → m.read a = (s.qp.get p).read a)

/-- 43_quant.md R125: `LDQ p`; after `STQ p` it restores the block. -/
def Obligations.LdqLoadsTheBlock : Prop :=
  encode (.ldq .y) = 0x00000025#32 ∧ encode (.ldq .u) = 0x00000125#32 ∧ encode (.ldq .v) = 0x00000225#32 ∧
  (∀ (s : State) (p : Plane),
    let n := s.bidx.toNat
    (s.blkw.toNat * s.blkh.toNat ≤ n → exec (.ldq p) s =
      .next { s with err := true, errcode := .range, errinfo := s.bidx.setWidth 32 }) ∧
    (n < s.blkw.toNat * s.blkh.toNat →
      ∃ q : Block Byte, exec (.ldq p) s = .next { s with qb := q } ∧
        ∀ v u : Fin 8, q.at v u = (s.qp.get p).read (64 * n + 8 * v.val + u.val))) ∧
  (∀ (s t : State) (p : Plane) (q : Block Byte), s.bidx.toNat < s.blkw.toNat * s.blkh.toNat →
    exec (.stq p) s = .next t → exec (.ldq p) { t with qb := q } = .next { t with qb := s.qb }) ∧
  ∀ (p : Plane) (n : Nat), (State.reset.qp.get p).readBlock n = Block.all 0#8

/-! ### The coefficient coder (44_coefcoder.md) -/

/-- 44_coefcoder.md R132: `CC_RST p`. -/
def Obligations.CcRstStartsAPlane : Prop :=
  encode (.ccRst .y) = 0x00000030#32 ∧ encode (.ccRst .u) = 0x00000130#32 ∧ encode (.ccRst .v) = 0x00000230#32 ∧
  ∀ (s : State) (p : Plane), ∃ n r : PerStream Word,
    exec (.ccRst p) s = .next { s with slen := n, srd := r, dcp := s.dcp.set p 0#8 } ∧
    ∀ q k, n.at q k = (if q = p then 0#32 else s.slen.at q k) ∧ r.at q k = (if q = p then 0#32 else s.srd.at q k)

/-- 44_coefcoder.md R131: the zigzag sequence visits each AC position once and the DC position never, in the order its
construction gives: along the anti-diagonals, downward on odd ones and upward on even ones. -/
def Obligations.ZigzagVisitsEachAcPositionOnce : Prop :=
  zigzag.length = 63 ∧ zigzag.Nodup ∧ (∀ v u : Fin 8, (v, u) ∈ zigzag ↔ ¬(v = 0 ∧ u = 0)) ∧
  zigzag.Pairwise fun a b =>
    a.1.val + a.2.val < b.1.val + b.2.val ∨
    a.1.val + a.2.val = b.1.val + b.2.val ∧
      if (a.1.val + a.2.val) % 2 = 1 then a.1.val < b.1.val else b.1.val < a.1.val

/-- 44_coefcoder.md R133: the shape of a block's pairs. Their values are the nonzero AC coefficients in zigzag order and
then the 0 of the EOB; every run but the EOB's counts the zeros before its value, so it is at most 62, and the zeros behind
the last value have no pair; there are 1 to 64 pairs, and the last alone is (0, 0). -/
def Obligations.BlockPairsEndInOneEob : Prop :=
  ∀ q : Block Byte, ∃ l : List (Byte × Byte), blockPairs q = l ++ [(0#8, 0#8)] ∧
    l.map Prod.snd = (zigzag.map fun c => q.at c.1 c.2).filter (fun x => x != 0#8) ∧
    (∀ x ∈ l, x.1.toNat ≤ 62 ∧ x.2 ≠ 0#8) ∧
    acOf q = acSequence l ++ List.replicate (63 - (acSequence l).length) 0#8 ∧
    (l.map fun x => x.1.toNat + 1).sum ≤ 63 ∧ l.length ≤ 63

/-- 44_coefcoder.md R133: `CC_ENC p`. It appends one DC symbol and the block's pairs at the streams' ends; every other byte
of the streams stays. -/
def Obligations.CcEncAppendsTheBlock : Prop :=
  ∀ (s : State) (p : Plane),
    let pairs := blockPairs s.qb
    let d := (s.slen.at p .dc).toNat
    let r := (s.slen.at p .run).toNat
    let v := (s.slen.at p .val).toNat
    let refused := exec (.ccEnc p) s = .next { s with err := true, errcode := .cap, errinfo := 4161600#32 }
    (4161600 < d + 1 → refused) ∧
    (d + 1 ≤ 4161600 → 4161600 < r + pairs.length ∨ 4161600 < v + pairs.length → refused) ∧
    (d + 1 ≤ 4161600 → r + pairs.length ≤ 4161600 → v + pairs.length ≤ 4161600 →
      ∃ mem : Kind → Memory,
        exec (.ccEnc p) s = .next { s with
          syms := ((s.syms.put p .dc (mem .dc)).put p .run (mem .run)).put p .val (mem .val)
          slen := ((s.slen.put p .dc (s.slen.at p .dc + 1#32)).put p .run
            (s.slen.at p .run + BitVec.ofNat 32 pairs.length)).put p .val
            (s.slen.at p .val + BitVec.ofNat 32 pairs.length)
          dcp := s.dcp.set p (s.qb.at 0 0) } ∧
        holdsBytes (mem .dc) d [s.qb.at 0 0 - s.dcp.get p] ∧
        holdsBytes (mem .run) r (pairs.map Prod.fst) ∧ holdsBytes (mem .val) v (pairs.map Prod.snd) ∧
        (∀ a, a < d ∨ d + 1 ≤ a → (mem .dc).read a = (s.syms.at p .dc).read a) ∧
        (∀ a, a < r ∨ r + pairs.length ≤ a → (mem .run).read a = (s.syms.at p .run).read a) ∧
        ∀ a, a < v ∨ v + pairs.length ≤ a → (mem .val).read a = (s.syms.at p .val).read a)

/-- 44_coefcoder.md R134: `CC_DEC p` decodes a block whose symbols stand at the read cursors, whatever the block; and any
pairs that an EOB ends and that stay inside the 63 positions, a pair of a run and the value 0 among them. -/
def Obligations.CcDecDecodesABlock : Prop :=
  (∀ (s : State) (p : Plane) (q : Block Byte),
    let pairs := blockPairs q
    let d := (s.srd.at p .dc).toNat
    let r := (s.srd.at p .run).toNat
    let v := (s.srd.at p .val).toNat
    d + 1 ≤ (s.slen.at p .dc).toNat → d + 1 ≤ 4161600 →
    r + pairs.length ≤ (s.slen.at p .run).toNat → r + pairs.length ≤ 4161600 →
    v + pairs.length ≤ (s.slen.at p .val).toNat → v + pairs.length ≤ 4161600 →
    holdsBytes (s.syms.at p .dc) d [q.at 0 0 - s.dcp.get p] →
    holdsBytes (s.syms.at p .run) r (pairs.map Prod.fst) →
    holdsBytes (s.syms.at p .val) v (pairs.map Prod.snd) →
    exec (.ccDec p) s = .next { s with
      qb := q
      dcp := s.dcp.set p (q.at 0 0)
      srd := ((s.srd.put p .dc (s.srd.at p .dc + 1#32)).put p .run
        (s.srd.at p .run + BitVec.ofNat 32 pairs.length)).put p .val
        (s.srd.at p .val + BitVec.ofNat 32 pairs.length) }) ∧
  ∀ (s : State) (p : Plane) (diff : Byte) (l : List (Byte × Byte)),
    let d := (s.srd.at p .dc).toNat
    let r := (s.srd.at p .run).toNat
    let v := (s.srd.at p .val).toNat
    (0#8, 0#8) ∉ l → (acSequence l).length ≤ 63 →
    d + 1 ≤ (s.slen.at p .dc).toNat → d + 1 ≤ 4161600 →
    r + l.length + 1 ≤ (s.slen.at p .run).toNat → r + l.length + 1 ≤ 4161600 →
    v + l.length + 1 ≤ (s.slen.at p .val).toNat → v + l.length + 1 ≤ 4161600 →
    holdsBytes (s.syms.at p .dc) d [diff] →
    holdsBytes (s.syms.at p .run) r (l.map Prod.fst ++ [0#8]) →
    holdsBytes (s.syms.at p .val) v (l.map Prod.snd ++ [0#8]) →
    ∃ q : Block Byte, exec (.ccDec p) s = .next { s with
        qb := q
        dcp := s.dcp.set p (s.dcp.get p + diff)
        srd := ((s.srd.put p .dc (s.srd.at p .dc + 1#32)).put p .run
          (s.srd.at p .run + BitVec.ofNat 32 (l.length + 1))).put p .val
          (s.srd.at p .val + BitVec.ofNat 32 (l.length + 1)) } ∧
      q.at 0 0 = s.dcp.get p + diff ∧
      acOf q = acSequence l ++ List.replicate (63 - (acSequence l).length) 0#8

/-- 44_coefcoder.md R135: the coefficient coder is lossless. `CC_ENC p`, then, with the read cursors at the appended symbols
and the predictor it started from, `CC_DEC p` restores the block, whatever `QB` holds in between. An inference
the spec marks as its own: "[derived: from rules R133 and R134]". -/
def Obligations.CoefficientCoderIsLossless : Prop :=
  (∀ (s t : State) (p : Plane) (q : Block Byte),
    (s.slen.at p .dc).toNat + 1 ≤ 4161600 →
    (s.slen.at p .run).toNat + (blockPairs s.qb).length ≤ 4161600 →
    (s.slen.at p .val).toNat + (blockPairs s.qb).length ≤ 4161600 →
    exec (.ccEnc p) s = .next t →
    exec (.ccDec p) { t with qb := q, dcp := s.dcp, srd := s.slen } =
      .next { t with qb := s.qb, srd := t.slen } ∧ t.dcp.get p = s.qb.at 0 0) ∧
  (∀ a b : Int, -128 ≤ a → a ≤ 127 → -128 ≤ b → b ≤ 127 → sval (byteOf (a + sval (byteOf (b - a)))) = b) ∧
  (∀ v u : Fin 8, zigzag.count (v, u) = if v = 0 ∧ u = 0 then 0 else 1) ∧
  (∀ q : Block Byte, (blockPairs q).count (0#8, 0#8) = 1)

/-- 44_coefcoder.md R134, 60_exceptions.md R197: `CC_DEC p` commits whole or not at all; the errors of its first checks; and
the error that ends it after any pairs that are no EOB and stay inside the 63 positions: a stream without a symbol, a cursor
that an `SLEN` above `S_CAP` has let reach the capacity, or a pair that leaves the 63 positions. -/
def Obligations.CcDecCommitsWholeOrNotAtAll : Prop :=
  (∀ (s : State) (p : Plane), ∃ t, exec (.ccDec p) s = .next t ∧
    ((∃ q d c, t = { s with qb := q, dcp := s.dcp.set p d, srd := s.srd.set p c }) ∨
      ∃ e, t = errorEntry e s ∧ (e.code = .stream ∨ e.code = .zz ∨ e.code = .cap))) ∧
  (∀ (s : State) (p : Plane),
    let d := (s.srd.at p .dc).toNat
    let r := (s.srd.at p .run).toNat
    let v := (s.srd.at p .val).toNat
    ((s.slen.at p .dc).toNat ≤ d →
      exec (.ccDec p) s = .next { s with err := true, errcode := .stream, errinfo := 0#32 }) ∧
    (d < (s.slen.at p .dc).toNat → d < 4161600 →
      ((s.slen.at p .run).toNat ≤ r →
        exec (.ccDec p) s = .next { s with err := true, errcode := .stream, errinfo := 1#32 }) ∧
      (r < (s.slen.at p .run).toNat → (s.slen.at p .val).toNat ≤ v →
        exec (.ccDec p) s = .next { s with err := true, errcode := .stream, errinfo := 2#32 }) ∧
      (r < (s.slen.at p .run).toNat → r < 4161600 → v < (s.slen.at p .val).toNat → v < 4161600 →
        63 ≤ ((s.syms.at p .run).read r).toNat →
        exec (.ccDec p) s = .next { s with err := true, errcode := .zz, errinfo := s.srd.at p .dc }))) ∧
  (∀ (s : State) (p : Plane) (l : List (Byte × Byte)),
    let d := (s.srd.at p .dc).toNat
    let r := (s.srd.at p .run).toNat
    let v := (s.srd.at p .val).toNat
    let r' := r + l.length
    let v' := v + l.length
    let runLen := (s.slen.at p .run).toNat
    let valLen := (s.slen.at p .val).toNat
    let capped := exec (.ccDec p) s = .next { s with err := true, errcode := .cap, errinfo := 4161600#32 }
    (d < (s.slen.at p .dc).toNat → 4161600 ≤ d → capped) ∧
    (d < (s.slen.at p .dc).toNat → d < 4161600 → (0#8, 0#8) ∉ l → (acSequence l).length ≤ 63 →
      (l = [] ∨ r' ≤ runLen ∧ r' ≤ 4161600 ∧ v' ≤ valLen ∧ v' ≤ 4161600) →
      holdsBytes (s.syms.at p .run) r (l.map Prod.fst) → holdsBytes (s.syms.at p .val) v (l.map Prod.snd) →
      (runLen ≤ r' →
        exec (.ccDec p) s = .next { s with err := true, errcode := .stream, errinfo := 1#32 }) ∧
      (r' < runLen → valLen ≤ v' →
        exec (.ccDec p) s = .next { s with err := true, errcode := .stream, errinfo := 2#32 }) ∧
      (r' < runLen → v' < valLen → 4161600 ≤ r' ∨ 4161600 ≤ v' → capped) ∧
      (r' < runLen → v' < valLen → r' < 4161600 → v' < 4161600 →
        ¬ ((s.syms.at p .run).read r' = 0#8 ∧ (s.syms.at p .val).read v' = 0#8) →
        62 < (acSequence l).length + ((s.syms.at p .run).read r').toNat →
        exec (.ccDec p) s = .next { s with err := true, errcode := .zz, errinfo := s.srd.at p .dc })))

/-! ### The Huffman unit (45_huffman.md) -/

/-- 45_huffman.md R146, R147: the builder starts from the 256 leaves, each of its 255 merges takes the two lowest nodes of
the pool by weight and then identity, and a symbol's length is its leaf's depth below the one node left. It gives all 256
symbols a length of 1 to 255, and the table is a complete code. -/
def Obligations.BuiltLengthsAreComplete : Prop :=
  ∀ seq : List Byte, (huflen seq).length = 256 ∧
    (∀ s, s < 256 → 1 ≤ builtLengths seq s ∧ builtLengths seq s ≤ 255) ∧
    kraftSum (builtLengths seq) = 2 ^ 255 ∧
    (leafPool seq).Pairwise (fun x y => lowerNode x y = true) ∧
    (leafPool seq).Perm ((List.range 256).map fun s =>
      { weight := seq.count (BitVec.ofNat 8 s), id := s, tree := .leaf s }) ∧
    (∃ root, mergeFrom 255 0 (leafPool seq) = [root] ∧
      ∀ s, s < 256 → (leafDepths root.tree 0).lookup s = some (builtLengths seq s)) ∧
    (∀ x y : HufNode, lowerNode x y = true ↔ x.weight < y.weight ∨ x.weight = y.weight ∧ x.id < y.id) ∧
    (∀ (count t : Nat) (pool : List HufNode),
      mergeFrom (count + 1) t pool = mergeFrom count (t + 1) (mergeNodes t pool)) ∧
    ∀ (t : Nat) (pool : List HufNode), pool.Pairwise (fun x y => lowerNode x y = true) → 2 ≤ pool.length →
      (∀ x ∈ pool, x.id ≠ 256 + t) →
      ∃ a b rest, pool.Perm (a :: b :: rest) ∧ (∀ x ∈ b :: rest, lowerNode a x = true) ∧
        (∀ x ∈ rest, lowerNode b x = true) ∧
        (mergeNodes t pool).Perm
          ({ weight := a.weight + b.weight, id := 256 + t, tree := .node a.tree b.tree } :: rest) ∧
        (mergeNodes t pool).Pairwise fun x y => lowerNode x y = true

/-- 45_huffman.md R148, R158 (c), 46_container.md R175: a stream of one distinct symbol gives that symbol length 1 and the
others lengths 8 and 9; an empty stream gives all symbols length 8; the tables of the rules' examples. -/
def Obligations.OneSymbolGetsLengthOne : Prop :=
  (∀ (x : Byte) (n : Nat), 0 < n → builtLengths (List.replicate n x) x.toNat = 1) ∧
  (∀ (x : Byte) (n s : Nat), 0 < n → s < 256 → s ≠ x.toNat →
    builtLengths (List.replicate n x) s = 8 ∨ builtLengths (List.replicate n x) s = 9) ∧
  huflen [] = List.replicate 256 8#8 ∧
  huflen [0#8] = [1#8] ++ List.replicate 254 9#8 ++ [8#8] ∧
  huflen [192#8] = List.replicate 192 9#8 ++ [1#8] ++ List.replicate 62 9#8 ++ [8#8] ∧
  ∀ s, s < 256 → builtLengths [5#8, 5#8, 5#8, 5#8, 9#8] s =
    if s = 5 then 1 else if s = 9 then 2 else if 254 ≤ s then 9 else 10

/-- 45_huffman.md R148: `HUF_LEN p,k`. -/
def Obligations.HufLenBuildsTheTable : Prop :=
  ∀ (s : State) (p : Plane) (k : Kind),
    (4161600 < (s.slen.at p k).toNat → exec (.hufLen p k) s =
      .next { s with err := true, errcode := .cap, errinfo := 4161600#32 }) ∧
    (∀ seq : List Byte, seq.length = (s.slen.at p k).toNat → seq.length ≤ 4161600 →
      holdsBytes (s.syms.at p k) 0 seq →
      ∃ m : Memory, exec (.hufLen p k) s = .next { s with lt := s.lt.put p k m } ∧ holdsBytes m 0 (huflen seq) ∧
        ∀ a, 256 ≤ a → m.read a = 0#8)

/-- 45_huffman.md R149: canonical assignment. It succeeds exactly when the table is not over-subscribed. Then every symbol
keeps its length, and the code of a symbol is the share of the code space that the symbols before it take; else the error
names the first symbol for which no space is left. -/
def Obligations.CanonAssignsTheCodeSpace : Prop :=
  ∀ len : Nat → Nat, (∀ s, len s ≤ 255) →
    (kraftSum len ≤ 2 ^ 255 → ∃ t, canon len = .ok t ∧ ∀ s, s < 256 →
      (t.entry s).len.toNat = len s ∧
      (len s = 0 → (t.entry s).code = 0#255) ∧
      (len s ≠ 0 → (t.entry s).code.toNat * 2 ^ (255 - len s) = spaceBefore len s)) ∧
    (2 ^ 255 < kraftSum len → ∃ s, canon len = .error { code := .table, info := s } ∧ s < 256 ∧ len s ≠ 0 ∧
      2 ^ 255 ≤ spaceBefore len s ∧ ∀ r, r < 256 → codedBefore len r s → spaceBefore len r < 2 ^ 255)

/-- 30_encoding.md R81, 45_huffman.md R145: the codes of a canonical table are below `2^len`, and none begins another. -/
def Obligations.CanonicalCodesAreUniquelyReadable : Prop :=
  ∀ (len : Nat → Nat) (t : CodeTable), (∀ s, len s ≤ 255) → canon len = .ok t →
    uniquelyReadable t ∧ t.wf = true ∧ ∀ s, (t.entry s).code.toNat < 2 ^ (t.entry s).len.toNat

/-- 45_huffman.md R150: `HUF_CODE p,k`. -/
def Obligations.HufCodeBuildsTheCodes : Prop :=
  ∀ (s : State) (p : Plane) (k : Kind),
    let len := fun sym => ((s.lt.at p k).read sym).toNat
    (kraftSum len ≤ 2 ^ 255 →
      ∃ t, canon len = .ok t ∧ exec (.hufCode p k) s = .next { s with ct := s.ct.put p k t }) ∧
    (2 ^ 255 < kraftSum len → ∃ sym, sym < 256 ∧ canon len = .error { code := .table, info := sym } ∧
      exec (.hufCode p k) s =
        .next { s with err := true, errcode := .table, errinfo := BitVec.ofNat 32 sym })

/-- 45_huffman.md R152, R151: `HUF_ENC p,k`. The segment is the codes one after another, packed by 20_memory.md R54 and
padded with zero bits; every byte behind it stays. -/
def Obligations.HufEncPacksTheCodes : Prop :=
  ∀ (s : State) (p : Plane) (k : Kind),
    (4161600 < (s.slen.at p k).toNat → exec (.hufEnc p k) s =
      .next { s with err := true, errcode := .cap, errinfo := 4161600#32 }) ∧
    ∀ seq : List Byte, seq.length = (s.slen.at p k).toNat → seq.length ≤ 4161600 →
      holdsBytes (s.syms.at p k) 0 seq →
      let bits := bitsOf (s.ct.at p k) seq
      let n := byteCount bits
      (∀ e, e < seq.length → ((s.ct.at p k).entry (seq.getD e 0#8).toNat).len = 0#8 →
        covers (s.ct.at p k) (seq.take e) → exec (.hufEnc p k) s =
          .next { s with err := true, errcode := .nocode, errinfo := BitVec.ofNat 32 e }) ∧
      (covers (s.ct.at p k) seq → s.cfg.bsCap.toNat < n → exec (.hufEnc p k) s =
        .next { s with err := true, errcode := .cap, errinfo := s.cfg.bsCap }) ∧
      (covers (s.ct.at p k) seq → n ≤ s.cfg.bsCap.toNat →
        ∃ m : Memory, exec (.hufEnc p k) s = .next { s with
            bs := s.bs.put p k m
            bslen := s.bslen.put p k (BitVec.ofNat 32 n) } ∧
          holdsBits m 0 bits ∧ (∀ i, bits.length ≤ i → i < 8 * n → bitAt m i = false) ∧
          ∀ a, n ≤ a → m.read a = (s.bs.at p k).read a)

/-- 45_huffman.md R155, R154, R157: `HUF_DEC p,k` decodes the segment at `CPTR` whose codes are those of a sequence of
`COUNT` symbols, and leaves `CPTR` behind its last byte; pad bits are not examined. -/
def Obligations.HufDecDecodesASegment : Prop :=
  ∀ (s : State) (p : Plane) (k : Kind) (seq : List Byte),
    let bits := bitsOf (s.ct.at p k) seq
    s.clen.toNat ≤ s.cfg.cbufCap.toNat → seq.length = s.count.toNat → seq.length ≤ 4161600 →
    (s.ct.at p k).wf = true → uniquelyReadable (s.ct.at p k) → covers (s.ct.at p k) seq →
    holdsBits s.cbuf (8 * s.cptr.toNat) bits → s.cptr.toNat + byteCount bits ≤ s.clen.toNat →
    ∃ m : Memory, exec (.hufDec p k) s = .next { s with
        syms := s.syms.put p k m
        slen := s.slen.put p k s.count
        srd := s.srd.put p k 0#32
        cptr := s.cptr + BitVec.ofNat 32 (byteCount bits) } ∧
      holdsBytes m 0 seq ∧ ∀ a, seq.length ≤ a → m.read a = (s.syms.at p k).read a

/-- 45_huffman.md R156: `HUF_DEC_AC p` decodes the two AC segments at `CPTR`, whose lengths are the header's, in lockstep,
up to the EOB pair of the last block. -/
def Obligations.HufDecAcDecodesTwoSegments : Prop :=
  ∀ (s : State) (p : Plane) (runs vals : List Byte),
    let runBits := bitsOf (s.ct.at p .run) runs
    let valBits := bitsOf (s.ct.at p .val) vals
    let a := (s.aclen.get p).run.toNat
    let b := (s.aclen.get p).val.toNat
    s.clen.toNat ≤ s.cfg.cbufCap.toNat → s.cptr.toNat + a + b ≤ s.clen.toNat →
    (∀ k, k = .run ∨ k = .val → (s.ct.at p k).wf = true ∧ uniquelyReadable (s.ct.at p k)) →
    covers (s.ct.at p .run) runs → covers (s.ct.at p .val) vals → runs.length = vals.length →
    (runs.zip vals).count (0#8, 0#8) = s.blkw.toNat * s.blkh.toNat →
    (∀ x ∈ (runs.zip vals).getLast?, x = (0#8, 0#8)) →
    a = byteCount runBits → b = byteCount valBits →
    holdsBits s.cbuf (8 * s.cptr.toNat) runBits → holdsBits s.cbuf (8 * (s.cptr.toNat + a)) valBits →
    ∃ mr mv : Memory, exec (.hufDecAc p) s = .next { s with
        syms := (s.syms.put p .run mr).put p .val mv
        slen := (s.slen.put p .run (BitVec.ofNat 32 runs.length)).put p .val (BitVec.ofNat 32 vals.length)
        srd := (s.srd.put p .run 0#32).put p .val 0#32
        cptr := s.cptr + BitVec.ofNat 32 (a + b) } ∧
      holdsBytes mr 0 runs ∧ (∀ x, runs.length ≤ x → mr.read x = (s.syms.at p .run).read x) ∧
      holdsBytes mv 0 vals ∧ ∀ x, vals.length ≤ x → mv.read x = (s.syms.at p .val).read x

/-- 45_huffman.md R153 to R156, 60_exceptions.md R197: the decoders commit whole or not at all. What they commit are symbols
whose codes stand in the segment, and every byte behind them stays; the errors of their first checks; and the error that ends
them after any symbols whose codes stand there, with its information word: the table is empty, the bits begin with no code,
the bits run out, or whole bytes of an AC segment are left. -/
def Obligations.DecodersCommitWholeOrNotAtAll : Prop :=
  (∀ (s : State) (p : Plane) (k : Kind), ∃ t, exec (.hufDec p k) s = .next t ∧
    ((∃ m c, t = { s with
        syms := s.syms.put p k m
        slen := s.slen.put p k s.count
        srd := s.srd.put p k 0#32
        cptr := c } ∧
      (∀ a, s.count.toNat ≤ a → m.read a = (s.syms.at p k).read a) ∧
      s.cptr.toNat ≤ c.toNat ∧ (c = s.cptr ∨ c.toNat ≤ s.clen.toNat) ∧
      ((s.ct.at p k).wf = true → ∃ seq : List Byte, seq.length = s.count.toNat ∧
        reads s.cbuf (s.ct.at p k) (8 * s.cptr.toNat) s.clen.toNat seq ∧ holdsBytes m 0 seq ∧
        c = s.cptr + BitVec.ofNat 32 (byteCount (bitsOf (s.ct.at p k) seq)))) ∨
      ∃ e, t = errorEntry e s ∧ (e.code = .cap ∨ e.code = .exhaust ∨ e.code = .nomatch))) ∧
  (∀ (s : State) (p : Plane),
    let a := (s.aclen.get p).run.toNat
    let b := (s.aclen.get p).val.toNat
    ∃ t, exec (.hufDecAc p) s = .next t ∧
    ((∃ (mr mv : Memory) (n : Word), t = { s with
        syms := (s.syms.put p .run mr).put p .val mv
        slen := (s.slen.put p .run n).put p .val n
        srd := (s.srd.put p .run 0#32).put p .val 0#32
        cptr := s.cptr + BitVec.ofNat 32 (a + b) } ∧
      (∀ x, n.toNat ≤ x → mr.read x = (s.syms.at p .run).read x ∧ mv.read x = (s.syms.at p .val).read x) ∧
      ((s.ct.at p .run).wf = true → (s.ct.at p .val).wf = true → ∃ runs vals : List Byte,
        runs.length = n.toNat ∧ vals.length = n.toNat ∧ holdsBytes mr 0 runs ∧ holdsBytes mv 0 vals ∧
        reads s.cbuf (s.ct.at p .run) (8 * s.cptr.toNat) (s.cptr.toNat + a) runs ∧
        reads s.cbuf (s.ct.at p .val) (8 * (s.cptr.toNat + a)) (s.cptr.toNat + a + b) vals ∧
        a = byteCount (bitsOf (s.ct.at p .run) runs) ∧ b = byteCount (bitsOf (s.ct.at p .val) vals) ∧
        (runs.zip vals).count (0#8, 0#8) = s.blkw.toNat * s.blkh.toNat ∧
        ∀ x ∈ (runs.zip vals).getLast?, x = (0#8, 0#8))) ∨
      ∃ e, t = errorEntry e s ∧
        (e.code = .cap ∨ e.code = .trunc ∨ e.code = .exhaust ∨ e.code = .nomatch ∨ e.code = .format))) ∧
  (∀ (s : State) (p : Plane) (k : Kind) (seq : List Byte) (e : Err),
    s.clen.toNat ≤ s.cfg.cbufCap.toNat → s.count.toNat ≤ 4161600 → seq.length < s.count.toNat →
    (s.ct.at p k).wf = true → uniquelyReadable (s.ct.at p k) →
    reads s.cbuf (s.ct.at p k) (8 * s.cptr.toNat) s.clen.toNat seq →
    failsAt s.cbuf (s.ct.at p k) (8 * s.cptr.toNat + (bitsOf (s.ct.at p k) seq).length) s.clen.toNat e →
    exec (.hufDec p k) s = .next (errorEntry e s)) ∧
  (∀ (s : State) (p : Plane) (runs vals : List Byte) (e : Err),
    let a := (s.aclen.get p).run.toNat
    let b := (s.aclen.get p).val.toNat
    let start := s.cptr.toNat
    let runTable := s.ct.at p .run
    let valTable := s.ct.at p .val
    let runBits := (bitsOf runTable runs).length
    let valBits := (bitsOf valTable vals).length
    s.clen.toNat ≤ s.cfg.cbufCap.toNat → start + a + b ≤ s.clen.toNat →
    runTable.wf = true → uniquelyReadable runTable → valTable.wf = true → uniquelyReadable valTable →
    reads s.cbuf runTable (8 * start) (start + a) runs →
    reads s.cbuf valTable (8 * (start + a)) (start + a + b) vals →
    ((runs.zip vals).count (0#8, 0#8) < s.blkw.toNat * s.blkh.toNat →
      (runs.length = vals.length → failsAt s.cbuf runTable (8 * start + runBits) (start + a) e →
        exec (.hufDecAc p) s = .next (errorEntry e s)) ∧
      (runs.length = vals.length + 1 → failsAt s.cbuf valTable (8 * (start + a) + valBits) (start + a + b) e →
        exec (.hufDecAc p) s = .next (errorEntry e s))) ∧
    (runs.length = vals.length → (runs.zip vals).count (0#8, 0#8) = s.blkw.toNat * s.blkh.toNat →
      (∀ x ∈ (runs.zip vals).getLast?, x = (0#8, 0#8)) →
      ((runBits + 7) / 8 ≠ a → exec (.hufDecAc p) s =
        .next (errorEntry { code := .format, info := start + (runBits + 7) / 8 } s)) ∧
      ((runBits + 7) / 8 = a → (valBits + 7) / 8 ≠ b → exec (.hufDecAc p) s =
        .next (errorEntry { code := .format, info := start + a + (valBits + 7) / 8 } s)))) ∧
  (∀ (s : State) (p : Plane) (k : Kind),
    (s.cfg.cbufCap.toNat < s.clen.toNat → exec (.hufDec p k) s =
      .next { s with err := true, errcode := .cap, errinfo := s.cfg.cbufCap }) ∧
    (s.clen.toNat ≤ s.cfg.cbufCap.toNat → 4161600 < s.count.toNat → exec (.hufDec p k) s =
      .next { s with err := true, errcode := .cap, errinfo := 4161600#32 }) ∧
    (s.clen.toNat ≤ s.cfg.cbufCap.toNat → 0 < s.count.toNat → s.count.toNat ≤ 4161600 →
      (s.ct.at p k = [] → exec (.hufDec p k) s =
        .next { s with err := true, errcode := .nomatch, errinfo := s.cptr }) ∧
      (s.ct.at p k ≠ [] → (s.ct.at p k).wf = true → s.clen.toNat ≤ s.cptr.toNat → exec (.hufDec p k) s =
        .next { s with err := true, errcode := .exhaust, errinfo := s.clen }))) ∧
  (∀ (s : State) (p : Plane),
    let a := (s.aclen.get p).run.toNat
    let b := (s.aclen.get p).val.toNat
    (s.cfg.cbufCap.toNat < s.clen.toNat → exec (.hufDecAc p) s =
      .next { s with err := true, errcode := .cap, errinfo := s.cfg.cbufCap }) ∧
    (s.clen.toNat ≤ s.cfg.cbufCap.toNat → s.clen.toNat < s.cptr.toNat + a + b → exec (.hufDecAc p) s =
      .next { s with err := true, errcode := .trunc, errinfo := s.clen }) ∧
    (s.clen.toNat ≤ s.cfg.cbufCap.toNat → s.cptr.toNat + a + b ≤ s.clen.toNat → s.blkw.toNat * s.blkh.toNat = 0 →
      (a ≠ 0 → exec (.hufDecAc p) s = .next { s with err := true, errcode := .format, errinfo := s.cptr }) ∧
      (a = 0 → b ≠ 0 → exec (.hufDecAc p) s =
        .next { s with err := true, errcode := .format, errinfo := s.cptr })))

/-- 45_huffman.md R158 (a): the Huffman round trip. Building the table of a stream, its codes and its segment completes,
and decoding the segment's bytes from anywhere in the container buffer gives the stream back. An inference the spec marks as
its own: "[derived: from rules R147 to R157]". -/
def Obligations.HuffmanRoundTrip : Prop :=
  ∀ (s : State) (p : Plane) (k : Kind) (seq : List Byte),
    seq.length = (s.slen.at p k).toNat → seq.length ≤ 4161600 → holdsBytes (s.syms.at p k) 0 seq →
    byteCount (ownBits seq) ≤ s.cfg.bsCap.toNat →
    ∃ t₁ t₂ t₃, exec (.hufLen p k) s = .next t₁ ∧ exec (.hufCode p k) t₁ = .next t₂ ∧
      exec (.hufEnc p k) t₂ = .next t₃ ∧ t₃.err = s.err ∧ (t₃.bslen.at p k).toNat = byteCount (ownBits seq) ∧
      ∀ (buf : Memory) (start len : Word),
        (∀ i, i < (t₃.bslen.at p k).toNat → buf.read (start.toNat + i) = (t₃.bs.at p k).read i) →
        start.toNat + (t₃.bslen.at p k).toNat ≤ len.toNat → len.toNat ≤ s.cfg.cbufCap.toNat →
        ∃ t₄, exec (.hufDec p k) { t₃ with cbuf := buf, cptr := start, clen := len, count := s.slen.at p k } = .next t₄ ∧
          t₄.err = s.err ∧ t₄.slen.at p k = s.slen.at p k ∧ holdsBytes (t₄.syms.at p k) 0 seq ∧
          t₄.cptr.toNat = start.toNat + (t₃.bslen.at p k).toNat

/-- 45_huffman.md R153: the commands that read a container read no byte of `CBUF` at or behind `CLEN`. -/
def Obligations.DecodersReadOnlyTheContainer : Prop :=
  ∀ (i : Instr) (s t : State) (m : Memory),
    (∃ p k, i = .hufDec p k) ∨ (∃ p, i = .hufDecAc p) ∨ i = .deframeHdr →
    (∀ a, a < s.clen.toNat → m.read a = s.cbuf.read a) →
    exec i s = .next t → exec i { s with cbuf := m } = .next { t with cbuf := m }

/-! ### The container (46_container.md) -/

/-- 46_container.md R171, 30_encoding.md R77 to R79: `FRAME`. Every byte of `CBUF` behind the container stays. -/
def Obligations.FrameWritesTheContainer : Prop :=
  encode .frame = 0x00000050#32 ∧
  ∀ s : State,
    let len := fun p k => (s.bslen.at p k).toNat
    ((∃ p k, s.cfg.bsCap.toNat < len p k) → exec .frame s =
      .next { s with err := true, errcode := .cap, errinfo := s.cfg.bsCap }) ∧
    ((∀ p k, len p k ≤ s.cfg.bsCap.toNat) → ∀ p a, 65535 < len p (acKind a) →
      (∀ p' a', acNum p' a' < acNum p a → len p' (acKind a') ≤ 65535) → exec .frame s =
        .next { s with err := true, errcode := .seglen, errinfo := BitVec.ofNat 32 (acNum p a) }) ∧
    ((∀ p k, len p k ≤ s.cfg.bsCap.toNat) → (∀ p a, len p (acKind a) ≤ 65535) →
      (s.cfg.cbufCap.toNat < totalLength len → exec .frame s =
        .next { s with err := true, errcode := .cap, errinfo := s.cfg.cbufCap }) ∧
      (totalLength len ≤ s.cfg.cbufCap.toNat →
        ∃ (m : Memory) (c : PerPlane (PerAc (BitVec 16))),
          exec .frame s = .next { s with cbuf := m, aclen := c, clen := BitVec.ofNat 32 (totalLength len) } ∧
          holdsBytes m 0 [0x49#8, 0x4D#8, s.blkw, s.blkh] ∧
          (∀ p a, ((c.get p).get a).toNat = len p (acKind a) ∧
            holdsBytes m (4 + 2 * acNum p a) (lowHigh (len p (acKind a)))) ∧
          (∀ p k sym, sym < 256 → m.read (16 + 768 * planeNum p + 256 * kindNum k + sym) = (s.lt.at p k).read sym) ∧
          (∀ p k n, n < len p k → m.read (segmentStart len p k + n) = (s.bs.at p k).read n) ∧
          ∀ a, totalLength len ≤ a → m.read a = s.cbuf.read a))

/-- 46_container.md R172: `DEFRAME_HDR`. -/
def Obligations.DeframeHdrReadsTheHeader : Prop :=
  encode .deframeHdr = 0x00000051#32 ∧
  ∀ s : State,
    let magical := 2 ≤ s.clen.toNat ∧ s.cbuf.read 0 = 0x49#8 ∧ s.cbuf.read 1 = 0x4D#8
    let count := fun p a => (s.cbuf.read (4 + 2 * acNum p a)).toNat + 256 * (s.cbuf.read (5 + 2 * acNum p a)).toNat
    let declared := 2320 + (acSegments.map fun t => count t.1 t.2).sum
    let truncated := exec .deframeHdr s = .next { s with err := true, errcode := .trunc, errinfo := s.clen }
    (s.cfg.cbufCap.toNat < s.clen.toNat → exec .deframeHdr s =
      .next { s with err := true, errcode := .cap, errinfo := s.cfg.cbufCap }) ∧
    (s.clen.toNat ≤ s.cfg.cbufCap.toNat →
      (¬ magical → exec .deframeHdr s = .next { s with err := true, errcode := .magic, errinfo := 0#32 }) ∧
      (magical → s.clen.toNat < 2320 → truncated) ∧
      (magical → 2320 ≤ s.clen.toNat → s.clen.toNat < declared → truncated) ∧
      (magical → declared ≤ s.clen.toNat →
        ∃ (c : PerPlane (PerAc (BitVec 16))) (l : PerStream Memory),
          exec .deframeHdr s = .next { s with
            blkw := s.cbuf.read 2
            blkh := s.cbuf.read 3
            aclen := c
            lt := l
            cptr := 2320#32 } ∧
          (∀ p a, ((c.get p).get a).toNat = count p a) ∧
          ∀ p k sym, (l.at p k).read sym =
            if sym < 256 then s.cbuf.read (16 + 768 * planeNum p + 256 * kindNum k + sym) else 0#8))

/-! ### The pipeline (47_codec.md) -/

/-- 47_codec.md R181, R182: `COMPRESS` writes the container of the image, byte by byte, whenever every segment and the
container fit; and what it leaves in the registers and in the quantised planes. -/
def Obligations.CompressWritesTheContainer : Prop :=
  encode .compress = 0x00000060#32 ∧
  ∀ s : State,
    let bw := s.imgw.toNat / 8
    let bh := s.imgh.toNat / 8
    let len := fun p k => byteCount (imageBits s p k)
    s.imgw.toNat % 8 = 0 → s.imgh.toNat % 8 = 0 → s.imgw.toNat ≤ 2040 → s.imgh.toNat ≤ 2040 →
    (∀ p k, len p k ≤ s.cfg.bsCap.toNat) → (∀ p a, len p (acKind a) ≤ 65535) →
    totalLength len ≤ s.cfg.cbufCap.toNat →
    ∃ t, exec .compress s = .next t ∧
      (imageContainer s).length = totalLength len ∧
      holdsBytes t.cbuf 0 (imageContainer s) ∧ (∀ a, totalLength len ≤ a → t.cbuf.read a = s.cbuf.read a) ∧
      t.clen.toNat = totalLength len ∧ t.blkw.toNat = bw ∧ t.blkh.toNat = bh ∧
      (∀ p a, ((t.aclen.get p).get a).toNat = len p (acKind a)) ∧
      t.bidx = (if bw * bh = 0 then s.bidx else BitVec.ofNat 16 (bw * bh - 1)) ∧
      (∀ p n, n < bw * bh → (t.qp.get p).readBlock n = quantised (imageSamples s.cfg.cscMap s.img bw p n)) ∧
      (∀ p a, 64 * (bw * bh) ≤ a → (t.qp.get p).read a = (s.qp.get p).read a) ∧
      (∀ p k, t.srd.at p k = 0#32 ∧ (t.slen.at p k).toNat = (symbolsOf k (imageBlocks s p)).length ∧
        (t.bslen.at p k).toNat = len p k ∧ holdsBytes (t.syms.at p k) 0 (symbolsOf k (imageBlocks s p)) ∧
        (∀ a, (symbolsOf k (imageBlocks s p)).length ≤ a → (t.syms.at p k).read a = (s.syms.at p k).read a) ∧
        holdsBytes (t.lt.at p k) 0 (huflen (symbolsOf k (imageBlocks s p))) ∧
        canon (builtLengths (symbolsOf k (imageBlocks s p))) = .ok (t.ct.at p k) ∧
        holdsBytes (t.bs.at p k) 0 (packBits (imageBits s p k)) ∧
        ∀ a, len p k ≤ a → (t.bs.at p k).read a = (s.bs.at p k).read a) ∧
      (if bw * bh = 0 then t.sb = s.sb ∧ t.cb = s.cb ∧ t.qb = s.qb
        else (∀ p, t.sb.get p = imageSamples s.cfg.cscMap s.img bw p (bw * bh - 1)) ∧
          t.cb = fdct (imageSamples s.cfg.cscMap s.img bw .v (bw * bh - 1)) ∧
          t.qb = quantised (imageSamples s.cfg.cscMap s.img bw .v (bw * bh - 1))) ∧
      (∀ p, t.dcp.get p = ((imageBlocks s p).getLast?.map fun q => q.at 0 0).getD 0#8) ∧
      t.img = s.img ∧ t.imgw = s.imgw ∧ t.imgh = s.imgh ∧ t.cptr = s.cptr ∧ t.count = s.count ∧ t.pix = s.pix ∧
      t.yuv = s.yuv ∧ t.ie = s.ie ∧ t.err = s.err ∧ t.errcode = s.errcode ∧ t.errinfo = s.errinfo ∧ t.cfg = s.cfg ∧
      t.cmd = s.cmd ∧ t.busy = s.busy ∧ t.done = s.done ∧ t.pending = s.pending ∧ t.reply = s.reply

/-- 47_codec.md R181, R182: the errors of `COMPRESS`. A bad dimension is `E_DIM` and changes nothing else; otherwise only
`E_SEGLEN` and `E_CAP` can occur (an inference that R181 marks as its own), and then `CBUF`, `CLEN` and the image are as
before. -/
def Obligations.FailingCompressKeepsTheBuffer : Prop :=
  ∀ s : State,
    let bad := s.imgw.toNat % 8 ≠ 0 ∨ s.imgh.toNat % 8 ≠ 0 ∨ 2040 < s.imgw.toNat ∨ 2040 < s.imgh.toNat
    (bad → exec .compress s = .next { s with err := true, errcode := .dim, errinfo := s.imgh ++ s.imgw }) ∧
    (¬ bad → s.err = false → ∃ t, exec .compress s = .next t ∧
      (t.err = true → (t.errcode = .seglen ∨ t.errcode = .cap) ∧ t.cbuf = s.cbuf ∧ t.clen = s.clen ∧
        t.aclen = s.aclen ∧ t.img = s.img ∧ t.imgw = s.imgw ∧ t.imgh = s.imgh))

/-- 47_codec.md R183: `DECOMPRESS` of a well-formed container. It writes the blocks into the quantised planes, every pixel of
the image once, and nothing of the image outside `8 × BLKW` by `8 × BLKH` pixels. -/
def Obligations.DecompressReadsTheContainer : Prop :=
  encode .decompress = 0x00000061#32 ∧
  ∀ (s : State) (bw bh : Nat) (blocks : Plane → List (Block Byte)) (table : Plane → Kind → CodeTable),
    HoldsContainer s.cbuf s.clen.toNat bw bh blocks table → s.clen.toNat ≤ s.cfg.cbufCap.toNat →
    let sample := fun p n (j i : Fin 8) => (rebuilt ((blocks p).getD n (Block.all 0#8))).at j i
    ∃ t, exec .decompress s = .next t ∧
      t.imgw.toNat = 8 * bw ∧ t.imgh.toNat = 8 * bh ∧ t.blkw.toNat = bw ∧ t.blkh.toNat = bh ∧
      (∀ n, n < bw * bh → ∀ j i : Fin 8,
        t.img.readPixel (8 * (n % bw) + i.val) (8 * (n / bw) + j.val) =
          yuv2rgb { y := sample .y n j i, u := sample .u n j i, v := sample .v n j i }) ∧
      (∀ a, 8 * bw ≤ a / 3 % 65536 ∨ 8 * bh ≤ a / 3 / 65536 → t.img.read a = s.img.read a) ∧
      (∀ p n, n < bw * bh → (t.qp.get p).readBlock n = (blocks p).getD n (Block.all 0#8)) ∧
      (∀ p a, 64 * (bw * bh) ≤ a → (t.qp.get p).read a = (s.qp.get p).read a) ∧
      (∀ p k, t.ct.at p k = table p k ∧ (∀ sym, sym < 256 →
          (t.lt.at p k).read sym = s.cbuf.read (16 + 768 * planeNum p + 256 * kindNum k + sym)) ∧
        (t.slen.at p k).toNat = (symbolsOf k (blocks p)).length ∧ t.srd.at p k = t.slen.at p k ∧
        holdsBytes (t.syms.at p k) 0 (symbolsOf k (blocks p)) ∧
        ∀ a, (symbolsOf k (blocks p)).length ≤ a → (t.syms.at p k).read a = (s.syms.at p k).read a) ∧
      (∀ p a, ((t.aclen.get p).get a).toNat =
        byteCount (bitsOf (table p (acKind a)) (symbolsOf (acKind a) (blocks p)))) ∧
      (∀ p, t.dcp.get p = ((blocks p).getLast?.map fun q => q.at 0 0).getD 0#8) ∧
      (if bw * bh = 0 then t.sb = s.sb ∧ t.cb = s.cb ∧ t.qb = s.qb
        else (∀ p, t.sb.get p = rebuilt ((blocks p).getD (bw * bh - 1) (Block.all 0#8))) ∧
          t.qb = (blocks .v).getD (bw * bh - 1) (Block.all 0#8) ∧
          t.cb = Block.make fun v u => dequantOne v u (t.qb.at v u)) ∧
      t.bidx = (if bw * bh = 0 then s.bidx else BitVec.ofNat 16 (bw * bh - 1)) ∧
      t.cbuf = s.cbuf ∧ t.clen = s.clen ∧ t.cptr = s.clen ∧ t.count.toNat = bw * bh ∧
      t.bs = s.bs ∧ t.bslen = s.bslen ∧ t.pix = s.pix ∧ t.yuv = s.yuv ∧ t.ie = s.ie ∧ t.err = s.err ∧
      t.errcode = s.errcode ∧ t.errinfo = s.errinfo ∧ t.cfg = s.cfg ∧ t.cmd = s.cmd ∧ t.busy = s.busy ∧
      t.done = s.done ∧ t.pending = s.pending ∧ t.reply = s.reply

/-- 47_codec.md R184, R183: no partial image. A failing `DECOMPRESS` leaves `IMG`, `IMGW` and `IMGH` as they were; none
writes `CBUF` or `CLEN`; only the errors the rule lists can occur, never `E_STREAM` or `E_RANGE` (an inference that R183
marks as its own); and after `E_CAP`, `E_MAGIC` or an `E_TRUNC` of the header, too short or declaring more than
`CLEN` has, nothing but the error record has changed. -/
def Obligations.FailingDecompressKeepsTheImage : Prop :=
  ∀ s : State,
    let magical := 2 ≤ s.clen.toNat ∧ s.cbuf.read 0 = 0x49#8 ∧ s.cbuf.read 1 = 0x4D#8
    let count := fun p a => (s.cbuf.read (4 + 2 * acNum p a)).toNat + 256 * (s.cbuf.read (5 + 2 * acNum p a)).toNat
    let declared := 2320 + (acSegments.map fun t => count t.1 t.2).sum
    s.err = false → ∃ t, exec .decompress s = .next t ∧ t.cbuf = s.cbuf ∧ t.clen = s.clen ∧
    (t.err = true → t.img = s.img ∧ t.imgw = s.imgw ∧ t.imgh = s.imgh ∧
      t.errcode ∈ [ErrCode.cap, .magic, .trunc, .table, .exhaust, .nomatch, .format, .zz]) ∧
    (s.cfg.cbufCap.toNat < s.clen.toNat → t = { s with err := true, errcode := .cap, errinfo := s.cfg.cbufCap }) ∧
    (s.clen.toNat ≤ s.cfg.cbufCap.toNat →
      (¬ magical → t = { s with err := true, errcode := .magic, errinfo := 0#32 }) ∧
      (magical → s.clen.toNat < 2320 ∨ s.clen.toNat < declared →
        t = { s with err := true, errcode := .trunc, errinfo := s.clen }))

/-- 47_codec.md R186 (a), (b): `COMPRESS` and then `DECOMPRESS` of its container preserves the dimensions and every quantised
block. An inference the spec marks as its own: "[derived: from rules R181, R183 and the unit rules]". -/
def Obligations.CompressThenDecompressPreserves : Prop :=
  ∀ s : State,
    let len := fun p k => byteCount (imageBits s p k)
    s.imgw.toNat % 8 = 0 → s.imgh.toNat % 8 = 0 → s.imgw.toNat ≤ 2040 → s.imgh.toNat ≤ 2040 →
    (∀ p k, len p k ≤ s.cfg.bsCap.toNat) → (∀ p a, len p (acKind a) ≤ 65535) →
    totalLength len ≤ s.cfg.cbufCap.toNat →
    ∃ t u, exec .compress s = .next t ∧ exec .decompress t = .next u ∧ u.err = s.err ∧
      u.imgw = s.imgw ∧ u.imgh = s.imgh ∧
      ∀ p n, n < s.imgw.toNat / 8 * (s.imgh.toNat / 8) →
        (u.qp.get p).readBlock n = quantised (imageSamples s.cfg.cscMap s.img (s.imgw.toNat / 8) p n)

/-! ### The whole machine -/

/-- 20_memory.md R51, 10_state.md R24, R30: no command changes a space or block register that the tables do not give it;
and no command but `RESET` changes `CTRL`. -/
def Obligations.CommandsWriteOnlyTheirSpaces : Prop :=
  ∀ (i : Instr) (s t : State), exec i s = .next t →
    (writesImg i = false → t.img = s.img) ∧ (writesCbuf i = false → t.cbuf = s.cbuf) ∧
    (∀ p k, (writesS p k i = false → t.syms.at p k = s.syms.at p k) ∧
      (writesBs p k i = false → t.bs.at p k = s.bs.at p k) ∧
      (writesLt p k i = false → t.lt.at p k = s.lt.at p k) ∧
      (writesCt p k i = false → t.ct.at p k = s.ct.at p k)) ∧
    (∀ p, (writesQp p i = false → t.qp.get p = s.qp.get p) ∧ (writesSb p i = false → t.sb.get p = s.sb.get p)) ∧
    (writesCb i = false → t.cb = s.cb) ∧ (writesQb i = false → t.qb = s.qb) ∧
    (i ≠ .reset → t.ie = s.ie ∧ t.cmd = s.cmd ∧ t.done = s.done) ∧
    t.cfg = s.cfg ∧ t.pending = s.pending ∧ t.reply = s.reply

/-- Every step keeps the invariant `Safe`: 10_state.md R29, R31, R41, 20_memory.md R50, R52. -/
def Obligations.StepKeepsSafe : Prop :=
  ∀ s t : State, Safe s → step s = .next t → Safe t

/-- The state after reset meets the invariant `Safe`. -/
def Obligations.ResetIsSafe : Prop := Safe State.reset
end

