-- ==== Sys2Proof/Laws/Arith.lean ====
section
/-! SUPPORT. The engine's arithmetic said once: the conversions of 00_scope.md R10 undo one another, the limits limit, and
the roundings are the ones the claims are written with. -/

namespace Sys2Proof.Machine

theorem sval_eq_toInt (b : Byte) : sval b = b.toInt := by
  have := b.isLt
  rw [sval, BitVec.toInt_eq_toNat_cond]
  split <;> split <;> omega

theorem sval_range (b : Byte) : -128 ≤ sval b ∧ sval b ≤ 127 := by
  have := b.isLt
  rw [sval]
  split <;> omega

/-- `sval(byte(x)) = x` for `x` in −128..127 (00_scope.md R10). -/
theorem sval_byteOf {x : Int} (hlo : -128 ≤ x) (hhi : x ≤ 127) : sval (byteOf x) = x := by
  rw [sval_eq_toInt, byteOf, BitVec.toInt_ofInt]
  exact Int.bmod_eq_of_le (by omega) (by omega)

theorem byteOf_sval (b : Byte) : byteOf (sval b) = b := by
  rw [sval_eq_toInt, byteOf, BitVec.ofInt_toInt]

/-- A byte that carries a channel value carries it unsigned. -/
theorem toNat_byteOf {x : Int} (hlo : 0 ≤ x) (hhi : x ≤ 255) : ((byteOf x).toNat : Int) = x := by
  rw [byteOf, BitVec.toNat_ofInt]
  omega

theorem toInt_half {x : Int} (hlo : -32768 ≤ x) (hhi : x ≤ 32767) : (half x).toInt = x := by
  rw [half, BitVec.toInt_ofInt]
  exact Int.bmod_eq_of_le (by omega) (by omega)

theorem toNat_wordOf {n : Nat} (h : n < 2 ^ 32) : (wordOf n).toNat = n := by
  rw [wordOf, BitVec.toNat_ofNat, Nat.mod_eq_of_lt h]

theorem wordOf_toNat (w : Word) : wordOf w.toNat = w := by
  rw [wordOf, BitVec.ofNat_toNat, BitVec.setWidth_eq]

theorem satu8_eq_channel (x : Int) : satu8 x = channel x := by
  simp only [satu8, clamp, channel]
  split
  · omega
  · split <;> omega

theorem sat8_eq_sample8 (x : Int) : sat8 x = sample8 x := by
  simp only [sat8, clamp, sample8]
  split
  · omega
  · split <;> omega

theorem channel_range (x : Int) : 0 ≤ channel x ∧ channel x ≤ 255 := by
  simp only [channel]
  omega

theorem sample8_range (x : Int) : -128 ≤ sample8 x ∧ sample8 x ≤ 127 := by
  simp only [sample8]
  omega

theorem tdiv_eq (a : Int) (b : Nat) : tdiv a b = a.tdiv b := by
  simp only [tdiv]
  split
  · rename_i h
    rw [Int.tdiv_eq_ediv_of_nonneg h]
    conv_rhs => rw [← Int.natAbs_of_nonneg h]
    exact Int.natCast_ediv _ _
  · rename_i h
    have hn : (a.natAbs : Int) = -a := by omega
    rw [show a = -(-a) from by omega, Int.neg_tdiv, Int.tdiv_eq_ediv_of_nonneg (by omega), ← hn]
    simp

theorem signOf_eq (g : Int) : signOf g = g.sign := by
  simp only [signOf]
  split
  · rename_i h; rw [Int.sign_eq_neg_one_of_neg h]
  · split
    · rename_i h; rw [h]; rfl
    · rw [Int.sign_eq_one_of_pos (by omega)]

theorem rhadiv_eq_nearest (a : Int) (b : Nat) : rhadiv a b = nearest a b := by
  rw [rhadiv, nearest, signOf_eq]

theorem rha_eq_nearest (g : Int) {s : Nat} (hs : 0 < s) : rha g s = nearest g (2 ^ s) := by
  obtain ⟨k, rfl⟩ : ∃ k, s = k + 1 := ⟨s - 1, by omega⟩
  have h : (g.natAbs + 2 ^ (k + 1 - 1)) / 2 ^ (k + 1) = (2 * g.natAbs + 2 ^ (k + 1)) / (2 * 2 ^ (k + 1)) := by
    rw [show 2 * g.natAbs + 2 ^ (k + 1) = 2 * (g.natAbs + 2 ^ k) from by rw [Nat.pow_succ]; omega,
      Nat.mul_div_mul_left _ _ (by omega)]
    rfl
  rw [rha, nearest, signOf_eq, h]

/-- Rounding to the nearest is off by at most half a step. -/
theorem nearest_error (x : Int) {d : Nat} (hd : 0 < d) : 2 * (d * nearest x d - x).natAbs ≤ d := by
  have hq := Nat.div_add_mod (2 * x.natAbs + d) (2 * d)
  have hr := Nat.mod_lt (2 * x.natAbs + d) (show 0 < 2 * d from by omega)
  simp only [nearest]
  generalize (2 * x.natAbs + d) / (2 * d) = q at *
  generalize (2 * x.natAbs + d) % (2 * d) = r at *
  have hq' : (2 : Int) * d * q + r = 2 * (x.natAbs : Int) + d := by exact_mod_cast hq
  have hr' : (r : Int) < 2 * d := by exact_mod_cast hr
  rcases Int.lt_trichotomy x 0 with h | h | h
  · rw [Int.sign_eq_neg_one_of_neg h]
    have : (x.natAbs : Int) = -x := by omega
    rw [this] at hq'
    have e : (d : Int) * (-1 * q) = -(d * q) := by ring
    have e2 : (2 : Int) * d * q = 2 * (d * q) := by ring
    rw [e]
    rw [e2] at hq'
    generalize (d : Int) * q = m at *
    omega
  · subst h; simp
  · rw [Int.sign_eq_one_of_pos h]
    have : (x.natAbs : Int) = x := by omega
    rw [this] at hq'
    have e : (d : Int) * (1 * q) = d * q := by ring
    have e2 : (2 : Int) * d * q = 2 * (d * q) := by ring
    rw [e]
    rw [e2] at hq'
    generalize (d : Int) * q = m at *
    omega

@[simp] theorem byte0_pack24 (a b c : Byte) : byte0 (pack24 a b c) = a := by
  apply BitVec.eq_of_toNat_eq
  have := a.isLt; have := b.isLt; have := c.isLt
  simp only [byte0, pack24, BitVec.extractLsb'_toNat, BitVec.toNat_ofNat, Nat.shiftRight_eq_div_pow]
  omega

@[simp] theorem byte1_pack24 (a b c : Byte) : byte1 (pack24 a b c) = b := by
  apply BitVec.eq_of_toNat_eq
  have := a.isLt; have := b.isLt; have := c.isLt
  simp only [byte1, pack24, BitVec.extractLsb'_toNat, BitVec.toNat_ofNat, Nat.shiftRight_eq_div_pow]
  omega

@[simp] theorem byte2_pack24 (a b c : Byte) : byte2 (pack24 a b c) = c := by
  apply BitVec.eq_of_toNat_eq
  have := a.isLt; have := b.isLt; have := c.isLt
  simp only [byte2, pack24, BitVec.extractLsb'_toNat, BitVec.toNat_ofNat, Nat.shiftRight_eq_div_pow]
  omega

end Sys2Proof.Machine
end

