-- ==== Sys2Proof/Laws/Ops.lean ====
section
/-! SUPPORT. What the shared operations do, said once: planes, kinds and blocks; byte spaces; the run of a command. -/

namespace Sys2Proof.Machine

/-! ### Planes, kinds, blocks -/

@[simp] theorem PerPlane.get_set {α : Type} (a : PerPlane α) (p q : Plane) (x : α) :
    (a.set p x).get q = if p = q then x else a.get q := by
  cases p <;> cases q <;> rfl

@[simp] theorem PerKind.get_set {α : Type} (a : PerKind α) (k l : Kind) (x : α) :
    (a.set k x).get l = if k = l then x else a.get l := by
  cases k <;> cases l <;> rfl

@[simp] theorem PerAc.get_set {α : Type} (c : PerAc α) (a b : AcKind) (x : α) :
    (c.set a x).get b = if a = b then x else c.get b := by
  cases a <;> cases b <;> rfl

@[simp] theorem PerPlane.at_put {α : Type} (a : PerStream α) (p q : Plane) (k l : Kind) (x : α) :
    (a.put p k x).at q l = if p = q ∧ k = l then x else a.at q l := by
  cases p <;> cases q <;> cases k <;> cases l <;> rfl

@[simp] theorem PerPlane.get_all {α : Type} (x : α) (p : Plane) : (PerPlane.all x).get p = x := by
  cases p <;> rfl

@[simp] theorem PerStream.at_all {α : Type} (x : α) (p : Plane) (k : Kind) : (PerStream.all x).at p k = x := by
  cases p <;> cases k <;> rfl

@[simp] theorem PerPlane.get_make {α : Type} (f : Plane → α) (p : Plane) : (PerPlane.make f).get p = f p := by
  cases p <;> rfl

@[simp] theorem PerPlane.at_makeStreams {α : Type} (f : Plane → Kind → α) (p : Plane) (k : Kind) :
    (PerPlane.makeStreams f).at p k = f p k := by
  cases p <;> cases k <;> rfl

theorem PerPlane.ext_get {α : Type} {a b : PerPlane α} (h : ∀ p, a.get p = b.get p) : a = b := by
  cases a; cases b
  have hy := h .y; have hu := h .u; have hv := h .v
  simp only [PerPlane.get] at hy hu hv
  subst hy hu hv; rfl

theorem PerKind.ext_get {α : Type} {a b : PerKind α} (h : ∀ k, a.get k = b.get k) : a = b := by
  cases a; cases b
  have hd := h .dc; have hr := h .run; have hv := h .val
  simp only [PerKind.get] at hd hr hv
  subst hd hr hv; rfl

theorem PerPlane.ext_at {α : Type} {a b : PerStream α} (h : ∀ p k, a.at p k = b.at p k) : a = b :=
  PerPlane.ext_get fun p => PerKind.ext_get fun k => h p k

/-- The plane that was set reads as the new value, seen as one stream. -/
@[simp] theorem PerPlane.at_set {α : Type} (a : PerStream α) (p q : Plane) (k : Kind) (x : PerKind α) :
    PerPlane.at (a.set p x) q k = if p = q then x.get k else a.at q k := by
  cases p <;> cases q <;> rfl

@[simp] theorem vec8_getElem {α : Type} (f : Fin 8 → α) (i : Fin 8) : (vec8 f)[i] = f i := by
  fin_cases i <;> rfl

@[simp] theorem Block.at_make {α : Type} (f : Fin 8 → Fin 8 → α) (r c : Fin 8) : (Block.make f).at r c = f r c := by
  fin_cases r <;> fin_cases c <;> rfl

@[simp] theorem Block.at_put {α : Type} (b : Block α) (r c r' c' : Fin 8) (x : α) :
    (b.put r c x).at r' c' = if r = r' ∧ c = c' then x else b.at r' c' := by
  simp only [Block.at, Block.put, Fin.getElem_fin, Vector.getElem_set, Fin.ext_iff]
  by_cases hr : r.val = r'.val
  · simp only [hr, true_and, if_true, Vector.getElem_set]
  · simp [hr]

@[simp] theorem Block.at_all {α : Type} (x : α) (r c : Fin 8) : (Block.all x).at r c = x := by
  simp [Block.at, Block.all]

theorem Block.ext_at {α : Type} {a b : Block α} (h : ∀ r c, a.at r c = b.at r c) : a = b := by
  apply Vector.ext
  intro r hr
  apply Vector.ext
  intro c hc
  exact h ⟨r, hr⟩ ⟨c, hc⟩

theorem Block.length_bytes (b : Block Byte) : b.bytes.length = 64 := rfl

/-- The bytes of a block are its elements in row order. -/
theorem Block.bytes_getD (b : Block Byte) (v u : Fin 8) : b.bytes.getD (8 * v.val + u.val) unlisted = b.at v u := by
  fin_cases v <;> fin_cases u <;> rfl

/-! ### Byte spaces -/

@[simp] theorem Memory.read_nil (a : Nat) : Memory.read [] a = unlisted := rfl

theorem Memory.read_cons (a x : Nat) (b : Byte) (m : Memory) :
    Memory.read ((a, b) :: m) x = if a = x then b else Memory.read m x := by
  by_cases h : a = x
  · subst h; simp [Memory.read]
  · rw [if_neg h, Memory.read, if_neg (by simpa using h)]

/-- A memory none of whose entries is at `x` reads there as an unlisted address. -/
theorem Memory.read_of_unlisted {m : Memory} {x : Nat} (h : ∀ c ∈ m, c.1 ≠ x) : Memory.read m x = unlisted := by
  induction m with
  | nil => rfl
  | cons c m ih =>
    obtain ⟨a, b⟩ := c
    rw [Memory.read_cons, if_neg (h (a, b) (by simp)), ih fun c hc => h c (by simp [hc])]

/-- Reading past a part that lists nothing at `x`. -/
theorem Memory.read_append_of_unlisted {m n : Memory} {x : Nat} (h : ∀ c ∈ m, c.1 ≠ x) :
    Memory.read (m ++ n) x = Memory.read n x := by
  induction m with
  | nil => rfl
  | cons c m ih =>
    obtain ⟨a, b⟩ := c
    rw [List.cons_append, Memory.read_cons, if_neg (h (a, b) (by simp)), ih fun c hc => h c (by simp [hc])]

/-- Reading before a part that lists nothing at `x`. -/
theorem Memory.read_append_left {m n : Memory} {x : Nat} (h : ∀ c ∈ n, c.1 ≠ x) :
    Memory.read (m ++ n) x = Memory.read m x := by
  induction m with
  | nil => exact Memory.read_of_unlisted h
  | cons c m ih =>
    obtain ⟨a, b⟩ := c
    rw [List.cons_append, Memory.read_cons, Memory.read_cons, ih]

/-- Keeping the cells of a set of addresses does not change what is read at one of them. -/
theorem Memory.read_filter {m : Memory} {f : Nat → Bool} {x : Nat} (h : f x = true) :
    Memory.read (m.filter fun c => f c.1) x = Memory.read m x := by
  induction m with
  | nil => rfl
  | cons c m ih =>
    obtain ⟨a, b⟩ := c
    by_cases hf : f a = true
    · rw [List.filter_cons_of_pos (p := fun c : Host.Cell => f c.1) hf, Memory.read_cons, Memory.read_cons, ih]
    · rw [List.filter_cons_of_neg (p := fun c : Host.Cell => f c.1) hf, ih, Memory.read_cons, if_neg]
      rintro rfl
      exact hf h

theorem mem_cellsFrom {a : Nat} {bytes : List Byte} {c : Host.Cell} (h : c ∈ cellsFrom a bytes) :
    a ≤ c.1 ∧ c.1 < a + bytes.length ∧ c.2 ≠ unlisted := by
  induction bytes generalizing a with
  | nil => simp [cellsFrom] at h
  | cons b rest ih =>
    simp only [cellsFrom] at h
    split at h
    · have := ih h
      simp only [List.length_cons]
      exact ⟨by omega, by omega, this.2.2⟩
    · rename_i hb
      rcases List.mem_cons.1 h with rfl | h
      · simp only [List.length_cons]
        exact ⟨by omega, by omega, by simpa using hb⟩
      · have := ih h
        simp only [List.length_cons]
        exact ⟨by omega, by omega, this.2.2⟩

/-- The cells of a run of bytes read back as those bytes. -/
theorem read_cellsFrom (a : Nat) (bytes : List Byte) (x : Nat) :
    Memory.read (cellsFrom a bytes) x =
      if a ≤ x ∧ x < a + bytes.length then bytes.getD (x - a) unlisted else unlisted := by
  induction bytes generalizing a with
  | nil => simp [cellsFrom]
  | cons b rest ih =>
    have tail : Memory.read (cellsFrom (a + 1) rest) a = unlisted :=
      Memory.read_of_unlisted fun c hc => by have := mem_cellsFrom hc; omega
    have key : Memory.read (cellsFrom a (b :: rest)) x = if a = x then b else Memory.read (cellsFrom (a + 1) rest) x := by
      simp only [cellsFrom]
      split
      · rename_i hb
        split
        · rename_i hx
          rw [← hx, tail]; exact (by simpa using hb : b = unlisted).symm
        · rfl
      · exact Memory.read_cons _ _ _ _
    rw [key, ih]
    by_cases hx : a = x
    · subst hx; simp
    · rw [if_neg hx]
      by_cases hin : a + 1 ≤ x ∧ x < a + 1 + rest.length
      · have hl : a ≤ x ∧ x < a + (b :: rest).length := by simp only [List.length_cons]; omega
        rw [if_pos hin, if_pos hl, show x - a = (x - (a + 1)) + 1 from by omega]
        rfl
      · have hl : ¬(a ≤ x ∧ x < a + (b :: rest).length) := by simp only [List.length_cons]; omega
        rw [if_neg hin, if_neg hl]

/-- Everything a write does to a later read: the run reads as the bytes written, every other address as before. -/
theorem Memory.read_writeBytes (m : Memory) (a : Nat) (bytes : List Byte) (x : Nat) :
    (m.writeBytes a bytes).read x =
      if a ≤ x ∧ x < a + bytes.length then bytes.getD (x - a) unlisted else m.read x := by
  have low : ∀ c ∈ m.filter (fun c => Nat.blt c.1 a), c.1 < a := by
    intro c hc; simpa using (List.mem_filter.1 hc).2
  have high : ∀ c ∈ m.filter (fun c => Nat.ble (a + bytes.length) c.1), a + bytes.length ≤ c.1 := by
    intro c hc; simpa using (List.mem_filter.1 hc).2
  simp only [Memory.writeBytes, List.append_assoc]
  by_cases hlo : x < a
  · rw [if_neg (by omega), Memory.read_append_left]
    · exact Memory.read_filter (f := fun n => Nat.blt n a) (by simpa using hlo)
    · intro c hc
      rcases List.mem_append.1 hc with hc | hc
      · have := mem_cellsFrom hc; omega
      · have := high c hc; omega
  · rw [Memory.read_append_of_unlisted (fun c hc => by have := low c hc; omega)]
    by_cases hin : x < a + bytes.length
    · rw [if_pos (by omega), Memory.read_append_left (fun c hc => by have := high c hc; omega), read_cellsFrom,
        if_pos (by omega)]
    · rw [if_neg (by omega), Memory.read_append_of_unlisted (fun c hc => by have := mem_cellsFrom hc; omega)]
      exact Memory.read_filter (f := fun n => Nat.ble (a + bytes.length) n) (by simp; omega)

theorem Memory.read_writeBytes_of_outside {m : Memory} {a : Nat} {bytes : List Byte} {x : Nat}
    (h : x < a ∨ a + bytes.length ≤ x) : (m.writeBytes a bytes).read x = m.read x := by
  rw [Memory.read_writeBytes, if_neg (by omega)]

theorem Memory.read_write (m : Memory) (a : Nat) (b : Byte) (x : Nat) :
    (m.write a b).read x = if x = a then b else m.read x := by
  rw [Memory.write, Memory.read_writeBytes]
  by_cases h : x = a
  · subst h; simp
  · rw [if_neg h, if_neg (by simp only [List.length_singleton]; omega)]

@[simp] theorem Memory.length_readBytes (m : Memory) (a n : Nat) : (m.readBytes a n).length = n := by
  simp [Memory.readBytes]

/-- Reading a run of bytes is reading each of them. -/
theorem Memory.readBytes_eq (m : Memory) (a n : Nat) :
    m.readBytes a n = (List.range n).map fun i => m.read (a + i) := by
  apply List.map_congr_left
  intro i hi
  have hi : i < n := List.mem_range.1 hi
  exact Memory.read_filter (f := fun k => Nat.ble a k && Nat.blt k (a + n)) (by simp; omega)

theorem Memory.readBytes_getD (m : Memory) (a n i : Nat) (h : i < n) :
    (m.readBytes a n).getD i unlisted = m.read (a + i) := by
  simp [Memory.readBytes_eq, List.getD, h]

/-! ### The canonical form -/

theorem Memory.risingFrom_cons {lo a : Nat} {b : Byte} {m : Memory} :
    Memory.risingFrom lo ((a, b) :: m) = true ↔ lo ≤ a ∧ b ≠ unlisted ∧ Memory.risingFrom (a + 1) m = true := by
  simp [Memory.risingFrom, and_assoc]

theorem Memory.risingFrom_mono {lo lo' : Nat} {m : Memory} (hle : lo' ≤ lo) (h : m.risingFrom lo = true) :
    m.risingFrom lo' = true := by
  cases m with
  | nil => rfl
  | cons c m =>
    obtain ⟨a, b⟩ := c
    rw [Memory.risingFrom_cons] at h ⊢
    exact ⟨by omega, h.2⟩

theorem Memory.le_of_mem {lo : Nat} {m : Memory} (h : m.risingFrom lo = true) {c : Host.Cell} (hc : c ∈ m) :
    lo ≤ c.1 := by
  induction m generalizing lo with
  | nil => simp at hc
  | cons d m ih =>
    obtain ⟨a, b⟩ := d
    rw [Memory.risingFrom_cons] at h
    rcases List.mem_cons.1 hc with rfl | hc
    · exact h.1
    · have := ih h.2.2 hc; omega

theorem Memory.risingFrom_filter {lo : Nat} {m : Memory} (f : Host.Cell → Bool) (h : m.risingFrom lo = true) :
    Memory.risingFrom lo (m.filter f) = true := by
  induction m generalizing lo with
  | nil => rfl
  | cons d m ih =>
    obtain ⟨a, b⟩ := d
    rw [Memory.risingFrom_cons] at h
    by_cases hf : f (a, b) = true
    · rw [List.filter_cons_of_pos hf, Memory.risingFrom_cons]
      exact ⟨h.1, h.2.1, ih h.2.2⟩
    · rw [List.filter_cons_of_neg hf]
      exact Memory.risingFrom_mono (by omega) (ih h.2.2)

/-- Rising parts one after another are rising. -/
theorem Memory.risingFrom_append {lo mid : Nat} {m n : Memory} (hm : m.risingFrom lo = true)
    (hlt : ∀ c ∈ m, c.1 < mid) (hn : n.risingFrom mid = true) (hle : lo ≤ mid) :
    Memory.risingFrom lo (m ++ n) = true := by
  induction m generalizing lo with
  | nil => exact Memory.risingFrom_mono hle hn
  | cons d m ih =>
    obtain ⟨a, b⟩ := d
    rw [Memory.risingFrom_cons] at hm
    rw [List.cons_append, Memory.risingFrom_cons]
    have ha : a < mid := hlt (a, b) (by simp)
    exact ⟨hm.1, hm.2.1, ih hm.2.2 (fun c hc => hlt c (by simp [hc])) (by omega)⟩

theorem risingFrom_cellsFrom (a : Nat) (bytes : List Byte) : Memory.risingFrom a (cellsFrom a bytes) = true := by
  induction bytes generalizing a with
  | nil => rfl
  | cons b rest ih =>
    simp only [cellsFrom]
    split
    · exact Memory.risingFrom_mono (Nat.le_succ a) (ih (a + 1))
    · rename_i hb
      rw [Memory.risingFrom_cons]
      exact ⟨le_refl a, by simpa using hb, ih (a + 1)⟩

theorem cellsFrom_wf (a : Nat) (bytes : List Byte) : Memory.wf (cellsFrom a bytes) = true :=
  Memory.risingFrom_mono (Nat.zero_le a) (risingFrom_cellsFrom a bytes)

theorem risingFrom_high {m : Memory} {lo n : Nat} (h : m.risingFrom lo = true) :
    Memory.risingFrom n (m.filter fun c => Nat.ble n c.1) = true := by
  induction m generalizing lo with
  | nil => rfl
  | cons d m ih =>
    obtain ⟨a, b⟩ := d
    rw [Memory.risingFrom_cons] at h
    by_cases hf : n ≤ a
    · rw [List.filter_cons_of_pos (p := fun c : Host.Cell => Nat.ble n c.1) (by simpa using hf), Memory.risingFrom_cons]
      exact ⟨hf, h.2.1, Memory.risingFrom_filter _ h.2.2⟩
    · rw [List.filter_cons_of_neg (p := fun c : Host.Cell => Nat.ble n c.1) (by simpa using hf)]
      exact ih h.2.2

/-- Every write keeps the canonical form. -/
theorem Memory.writeBytes_wf {m : Memory} (a : Nat) (bytes : List Byte) (h : m.wf = true) :
    (m.writeBytes a bytes).wf = true := by
  have hlow : ∀ c ∈ m.filter (fun c => Nat.blt c.1 a), c.1 < a := by
    intro c hc; simpa using (List.mem_filter.1 hc).2
  simp only [Memory.wf, Memory.writeBytes, List.append_assoc]
  refine Memory.risingFrom_append (mid := a) (Memory.risingFrom_filter _ h) hlow ?_ (Nat.zero_le a)
  refine Memory.risingFrom_append (mid := a + bytes.length) (risingFrom_cellsFrom a bytes) ?_ (risingFrom_high h)
    (Nat.le_add_right a _)
  intro c hc
  exact (mem_cellsFrom hc).2.1

theorem Memory.write_wf {m : Memory} (a : Nat) (b : Byte) (h : m.wf = true) : (m.write a b).wf = true :=
  Memory.writeBytes_wf a [b] h

theorem Memory.writeBlock_wf {m : Memory} (n : Nat) (b : Block Byte) (h : m.wf = true) :
    (m.writeBlock n b).wf = true :=
  Memory.writeBytes_wf _ _ h

theorem Memory.writePixels_wf {m : Memory} (x y : Nat) (cs : List Pixel) (h : m.wf = true) :
    (m.writePixels x y cs).wf = true :=
  Memory.writeBytes_wf _ _ h

theorem Memory.within_iff {cap : Nat} {m : Memory} : m.within cap = true ↔ ∀ c ∈ m, c.1 < cap := by
  simp [Memory.within]

/-- A write below the capacity keeps a memory inside it. -/
theorem Memory.writeBytes_within {cap : Nat} {m : Memory} {a : Nat} {bytes : List Byte} (h : m.within cap = true)
    (hcap : a + bytes.length ≤ cap) : (m.writeBytes a bytes).within cap = true := by
  rw [Memory.within_iff] at h ⊢
  intro c hc
  simp only [Memory.writeBytes, List.mem_append, List.mem_filter] at hc
  rcases hc with (hc | hc) | hc
  · exact h c hc.1
  · have := mem_cellsFrom hc; omega
  · exact h c hc.1

theorem cellsFrom_within {cap a : Nat} {bytes : List Byte} (hcap : a + bytes.length ≤ cap) :
    Memory.within cap (cellsFrom a bytes) = true := by
  rw [Memory.within_iff]
  intro c hc
  have := mem_cellsFrom hc
  omega

/-- The canonical form is canonical: memories that read alike everywhere are equal. -/
theorem Memory.eq_of_read_eq {lo : Nat} {m n : Memory} (hm : m.risingFrom lo = true) (hn : n.risingFrom lo = true)
    (h : ∀ x, m.read x = n.read x) : m = n := by
  induction m generalizing n lo with
  | nil =>
    cases n with
    | nil => rfl
    | cons d n =>
      obtain ⟨a, b⟩ := d
      rw [Memory.risingFrom_cons] at hn
      have := h a
      rw [Memory.read_nil, Memory.read_cons, if_pos rfl] at this
      exact absurd this.symm hn.2.1
  | cons c m ih =>
    obtain ⟨a, b⟩ := c
    rw [Memory.risingFrom_cons] at hm
    cases n with
    | nil =>
      have := h a
      rw [Memory.read_nil, Memory.read_cons, if_pos rfl] at this
      exact absurd this hm.2.1
    | cons d n =>
      obtain ⟨a', b'⟩ := d
      rw [Memory.risingFrom_cons] at hn
      have below : ∀ {lo' : Nat} {k : Memory} {x : Nat}, k.risingFrom lo' = true → x < lo' → k.read x = unlisted :=
        fun hk hx => Memory.read_of_unlisted fun c hc => by have := Memory.le_of_mem hk hc; omega
      have haa : a = a' := by
        rcases Nat.lt_trichotomy a a' with hlt | heq | hgt
        · have := h a
          rw [Memory.read_cons, if_pos rfl, Memory.read_cons, if_neg (by omega), below hn.2.2 (by omega)] at this
          exact absurd this hm.2.1
        · exact heq
        · have := h a'
          rw [Memory.read_cons, if_neg (by omega), below hm.2.2 (by omega), Memory.read_cons, if_pos rfl] at this
          exact absurd this.symm hn.2.1
      subst haa
      have hbb : b = b' := by
        have := h a
        rwa [Memory.read_cons, if_pos rfl, Memory.read_cons, if_pos rfl] at this
      subst hbb
      have : m = n := by
        refine ih hm.2.2 hn.2.2 fun x => ?_
        by_cases hx : x < a + 1
        · rw [below hm.2.2 hx, below hn.2.2 hx]
        · have := h x
          rwa [Memory.read_cons, if_neg (by omega), Memory.read_cons, if_neg (by omega)] at this
      rw [this]

/-! ### Blocks of a quantised plane -/

/-- An element of a quantised plane after a block is stored: the block's own elements are the new ones, all others
as before. -/
theorem Memory.read_writeBlock (m : Memory) (n : Nat) (b : Block Byte) (x : Nat) :
    (m.writeBlock n b).read x =
      if 64 * n ≤ x ∧ x < 64 * n + 64 then b.bytes.getD (x - 64 * n) unlisted else m.read x := by
  rw [Memory.writeBlock, Memory.read_writeBytes, Block.length_bytes]

theorem Memory.readBlock_writeBlock_same (m : Memory) (n : Nat) (b : Block Byte) :
    (m.writeBlock n b).readBlock n = b := by
  apply Block.ext_at
  intro v u
  have hv := v.isLt
  have hu := u.isLt
  rw [Memory.readBlock, Block.at_make, Memory.read_writeBlock, if_pos (by simp only [qpAddr]; omega),
    show qpAddr n v u - 64 * n = 8 * v.val + u.val from by simp only [qpAddr]; omega, Block.bytes_getD]

theorem Memory.readBlock_writeBlock_other {m : Memory} {n n' : Nat} {b : Block Byte} (h : n ≠ n') :
    (m.writeBlock n b).readBlock n' = m.readBlock n' := by
  apply Block.ext_at
  intro v u
  have hv := v.isLt
  have hu := u.isLt
  rw [Memory.readBlock, Memory.readBlock, Block.at_make, Block.at_make, Memory.read_writeBlock,
    if_neg (by simp only [qpAddr]; omega)]

/-! ### The run of a command -/

@[simp] theorem Run.state_ok (s : State) : (Run.ok s).state = s := rfl

@[simp] theorem Run.state_raise (e : Err) (s : State) : (raise e s).state = errorEntry e s := rfl

@[simp] theorem Run.andThen_ok (s : State) (go : State → Run) : (Run.ok s).andThen go = go s := rfl

@[simp] theorem Run.andThen_raised (s : State) (go : State → Run) : (Run.raised s).andThen go = .raised s := rfl

@[simp] theorem raiseIf_true (e : Err) (s : State) (go : State → Run) : raiseIf true e s go = raise e s := rfl

@[simp] theorem raiseIf_false (e : Err) (s : State) (go : State → Run) : raiseIf false e s go = go s := rfl

@[simp] theorem withResult_ok {α : Type} (a : α) (s : State) (go : α → State → Run) :
    withResult (.ok a) s go = go a s := rfl

@[simp] theorem withResult_error {α : Type} (e : Err) (s : State) (go : α → State → Run) :
    withResult (.error e : Except Err α) s go = raise e s := rfl

/-- Everything a check can do: it raises and the condition holds, or it goes on and the condition fails. -/
theorem raiseIf_cases (c : Bool) (e : Err) (s : State) (go : State → Run) :
    (c = true ∧ raiseIf c e s go = raise e s) ∨ (c = false ∧ raiseIf c e s go = go s) := by
  cases c <;> simp

/-- A command that ends normally passed the check. -/
theorem raiseIf_eq_ok {c : Bool} {e : Err} {s t : State} {go : State → Run} (h : raiseIf c e s go = .ok t) :
    c = false ∧ go s = .ok t := by
  cases c with
  | false => exact ⟨rfl, h⟩
  | true => simp [raise] at h

/-- A command that ends normally had a result to go on with. -/
theorem withResult_eq_ok {α : Type} {r : Except Err α} {s t : State} {go : α → State → Run}
    (h : withResult r s go = .ok t) : ∃ a, r = .ok a ∧ go a s = .ok t := by
  cases r with
  | ok a => exact ⟨a, rfl, h⟩
  | error e => simp [raise] at h

/-- A sequence that ends normally ended normally in both parts. -/
theorem Run.andThen_eq_ok {r : Run} {go : State → Run} {t : State} (h : r.andThen go = .ok t) :
    ∃ s, r = .ok s ∧ go s = .ok t := by
  cases r with
  | ok s => exact ⟨s, rfl, h⟩
  | raised s => simp at h

theorem Run.andThen_assoc (r : Run) (f g : State → Run) : (r.andThen f).andThen g = r.andThen fun s => (f s).andThen g := by
  cases r <;> rfl

/-- What a check and the rest of a command keep of a state, the command keeps. -/
theorem raiseIf_keeps {P : State → Prop} {c : Bool} {e : Err} {s : State} {go : State → Run}
    (hraise : P (errorEntry e s)) (hgo : c = false → P (go s).state) : P (raiseIf c e s go).state := by
  cases c with
  | true => exact hraise
  | false => exact hgo rfl

theorem withResult_keeps {α : Type} {P : State → Prop} {r : Except Err α} {s : State} {go : α → State → Run}
    (hraise : ∀ e, r = .error e → P (errorEntry e s)) (hgo : ∀ a, r = .ok a → P (go a s).state) :
    P (withResult r s go).state := by
  cases r with
  | ok a => exact hgo a rfl
  | error e => exact hraise e rfl

theorem Run.andThen_keeps {P : State → Prop} {r : Run} {go : State → Run} (hr : P r.state)
    (hgo : ∀ s, r = .ok s → P s → P (go s).state) : P (r.andThen go).state := by
  cases r with
  | ok s => exact hgo s rfl hr
  | raised s => exact hr

/-- What every pass of a loop keeps, the loop keeps. -/
theorem forEach_keeps {α : Type} {P : State → Prop} {l : List α} {body : α → State → Run}
    (hbody : ∀ a ∈ l, ∀ s, P s → P (body a s).state) {s : State} (hs : P s) : P (forEach l body s).state := by
  induction l generalizing s with
  | nil => exact hs
  | cons a rest ih =>
    exact Run.andThen_keeps (hbody a (by simp) s hs) fun t _ ht => ih (fun b hb => hbody b (by simp [hb])) ht

/-- A loop none of whose passes raises ends normally, and keeps what its passes keep. -/
theorem forEach_ok {α : Type} {P : State → Prop} {l : List α} {body : α → State → Run}
    (hbody : ∀ a ∈ l, ∀ s, P s → ∃ t, body a s = .ok t ∧ P t) {s : State} (hs : P s) :
    ∃ t, forEach l body s = .ok t ∧ P t := by
  induction l generalizing s with
  | nil => exact ⟨s, rfl, hs⟩
  | cons a rest ih =>
    obtain ⟨t, ht, hP⟩ := hbody a (by simp) s hs
    obtain ⟨u, hu, hQ⟩ := ih (fun b hb => hbody b (by simp [hb])) hP
    exact ⟨u, by simp [forEach, ht, hu], hQ⟩

end Sys2Proof.Machine
end

