-- ==== Sys2Proof/Laws/State.lean ====
section
/-! SUPPORT. What each named update of the state does to each field of it. -/

namespace Sys2Proof.Machine

/-! ### `errorEntry` -/

@[simp] theorem errorEntry_cfg (e : Err) (s : State) : (errorEntry e s).cfg = s.cfg := rfl
@[simp] theorem errorEntry_cmd (e : Err) (s : State) : (errorEntry e s).cmd = s.cmd := rfl
@[simp] theorem errorEntry_busy (e : Err) (s : State) : (errorEntry e s).busy = s.busy := rfl
@[simp] theorem errorEntry_done (e : Err) (s : State) : (errorEntry e s).done = s.done := rfl
@[simp] theorem errorEntry_err (e : Err) (s : State) : (errorEntry e s).err = true := rfl
@[simp] theorem errorEntry_ie (e : Err) (s : State) : (errorEntry e s).ie = s.ie := rfl
@[simp] theorem errorEntry_errcode (e : Err) (s : State) : (errorEntry e s).errcode = e.code := rfl
@[simp] theorem errorEntry_errinfo (e : Err) (s : State) : (errorEntry e s).errinfo = wordOf e.info := rfl
@[simp] theorem errorEntry_imgw (e : Err) (s : State) : (errorEntry e s).imgw = s.imgw := rfl
@[simp] theorem errorEntry_imgh (e : Err) (s : State) : (errorEntry e s).imgh = s.imgh := rfl
@[simp] theorem errorEntry_blkw (e : Err) (s : State) : (errorEntry e s).blkw = s.blkw := rfl
@[simp] theorem errorEntry_blkh (e : Err) (s : State) : (errorEntry e s).blkh = s.blkh := rfl
@[simp] theorem errorEntry_aclen (e : Err) (s : State) : (errorEntry e s).aclen = s.aclen := rfl
@[simp] theorem errorEntry_clen (e : Err) (s : State) : (errorEntry e s).clen = s.clen := rfl
@[simp] theorem errorEntry_cptr (e : Err) (s : State) : (errorEntry e s).cptr = s.cptr := rfl
@[simp] theorem errorEntry_bidx (e : Err) (s : State) : (errorEntry e s).bidx = s.bidx := rfl
@[simp] theorem errorEntry_count (e : Err) (s : State) : (errorEntry e s).count = s.count := rfl
@[simp] theorem errorEntry_pix (e : Err) (s : State) : (errorEntry e s).pix = s.pix := rfl
@[simp] theorem errorEntry_yuv (e : Err) (s : State) : (errorEntry e s).yuv = s.yuv := rfl
@[simp] theorem errorEntry_dcp (e : Err) (s : State) : (errorEntry e s).dcp = s.dcp := rfl
@[simp] theorem errorEntry_slen (e : Err) (s : State) : (errorEntry e s).slen = s.slen := rfl
@[simp] theorem errorEntry_srd (e : Err) (s : State) : (errorEntry e s).srd = s.srd := rfl
@[simp] theorem errorEntry_bslen (e : Err) (s : State) : (errorEntry e s).bslen = s.bslen := rfl
@[simp] theorem errorEntry_sb (e : Err) (s : State) : (errorEntry e s).sb = s.sb := rfl
@[simp] theorem errorEntry_cb (e : Err) (s : State) : (errorEntry e s).cb = s.cb := rfl
@[simp] theorem errorEntry_qb (e : Err) (s : State) : (errorEntry e s).qb = s.qb := rfl
@[simp] theorem errorEntry_lt (e : Err) (s : State) : (errorEntry e s).lt = s.lt := rfl
@[simp] theorem errorEntry_ct (e : Err) (s : State) : (errorEntry e s).ct = s.ct := rfl
@[simp] theorem errorEntry_syms (e : Err) (s : State) : (errorEntry e s).syms = s.syms := rfl
@[simp] theorem errorEntry_bs (e : Err) (s : State) : (errorEntry e s).bs = s.bs := rfl
@[simp] theorem errorEntry_qp (e : Err) (s : State) : (errorEntry e s).qp = s.qp := rfl
@[simp] theorem errorEntry_cbuf (e : Err) (s : State) : (errorEntry e s).cbuf = s.cbuf := rfl
@[simp] theorem errorEntry_img (e : Err) (s : State) : (errorEntry e s).img = s.img := rfl
@[simp] theorem errorEntry_pending (e : Err) (s : State) : (errorEntry e s).pending = s.pending := rfl
@[simp] theorem errorEntry_reply (e : Err) (s : State) : (errorEntry e s).reply = s.reply := rfl

/-! ### `clearError` -/

@[simp] theorem clearError_cfg (s : State) : (clearError s).cfg = s.cfg := rfl
@[simp] theorem clearError_cmd (s : State) : (clearError s).cmd = s.cmd := rfl
@[simp] theorem clearError_busy (s : State) : (clearError s).busy = s.busy := rfl
@[simp] theorem clearError_done (s : State) : (clearError s).done = s.done := rfl
@[simp] theorem clearError_err (s : State) : (clearError s).err = false := rfl
@[simp] theorem clearError_ie (s : State) : (clearError s).ie = s.ie := rfl
@[simp] theorem clearError_errcode (s : State) : (clearError s).errcode = .none := rfl
@[simp] theorem clearError_errinfo (s : State) : (clearError s).errinfo = 0#32 := rfl
@[simp] theorem clearError_imgw (s : State) : (clearError s).imgw = s.imgw := rfl
@[simp] theorem clearError_imgh (s : State) : (clearError s).imgh = s.imgh := rfl
@[simp] theorem clearError_blkw (s : State) : (clearError s).blkw = s.blkw := rfl
@[simp] theorem clearError_blkh (s : State) : (clearError s).blkh = s.blkh := rfl
@[simp] theorem clearError_aclen (s : State) : (clearError s).aclen = s.aclen := rfl
@[simp] theorem clearError_clen (s : State) : (clearError s).clen = s.clen := rfl
@[simp] theorem clearError_cptr (s : State) : (clearError s).cptr = s.cptr := rfl
@[simp] theorem clearError_bidx (s : State) : (clearError s).bidx = s.bidx := rfl
@[simp] theorem clearError_count (s : State) : (clearError s).count = s.count := rfl
@[simp] theorem clearError_pix (s : State) : (clearError s).pix = s.pix := rfl
@[simp] theorem clearError_yuv (s : State) : (clearError s).yuv = s.yuv := rfl
@[simp] theorem clearError_dcp (s : State) : (clearError s).dcp = s.dcp := rfl
@[simp] theorem clearError_slen (s : State) : (clearError s).slen = s.slen := rfl
@[simp] theorem clearError_srd (s : State) : (clearError s).srd = s.srd := rfl
@[simp] theorem clearError_bslen (s : State) : (clearError s).bslen = s.bslen := rfl
@[simp] theorem clearError_sb (s : State) : (clearError s).sb = s.sb := rfl
@[simp] theorem clearError_cb (s : State) : (clearError s).cb = s.cb := rfl
@[simp] theorem clearError_qb (s : State) : (clearError s).qb = s.qb := rfl
@[simp] theorem clearError_lt (s : State) : (clearError s).lt = s.lt := rfl
@[simp] theorem clearError_ct (s : State) : (clearError s).ct = s.ct := rfl
@[simp] theorem clearError_syms (s : State) : (clearError s).syms = s.syms := rfl
@[simp] theorem clearError_bs (s : State) : (clearError s).bs = s.bs := rfl
@[simp] theorem clearError_qp (s : State) : (clearError s).qp = s.qp := rfl
@[simp] theorem clearError_cbuf (s : State) : (clearError s).cbuf = s.cbuf := rfl
@[simp] theorem clearError_img (s : State) : (clearError s).img = s.img := rfl
@[simp] theorem clearError_pending (s : State) : (clearError s).pending = s.pending := rfl
@[simp] theorem clearError_reply (s : State) : (clearError s).reply = s.reply := rfl

/-! ### `commandStart` -/

@[simp] theorem commandStart_cfg (w : Word) (s : State) : (commandStart w s).cfg = s.cfg := rfl
@[simp] theorem commandStart_cmd (w : Word) (s : State) : (commandStart w s).cmd = w := rfl
@[simp] theorem commandStart_busy (w : Word) (s : State) : (commandStart w s).busy = true := rfl
@[simp] theorem commandStart_done (w : Word) (s : State) : (commandStart w s).done = false := rfl
@[simp] theorem commandStart_err (w : Word) (s : State) : (commandStart w s).err = s.err := rfl
@[simp] theorem commandStart_ie (w : Word) (s : State) : (commandStart w s).ie = s.ie := rfl
@[simp] theorem commandStart_errcode (w : Word) (s : State) : (commandStart w s).errcode = s.errcode := rfl
@[simp] theorem commandStart_errinfo (w : Word) (s : State) : (commandStart w s).errinfo = s.errinfo := rfl
@[simp] theorem commandStart_imgw (w : Word) (s : State) : (commandStart w s).imgw = s.imgw := rfl
@[simp] theorem commandStart_imgh (w : Word) (s : State) : (commandStart w s).imgh = s.imgh := rfl
@[simp] theorem commandStart_blkw (w : Word) (s : State) : (commandStart w s).blkw = s.blkw := rfl
@[simp] theorem commandStart_blkh (w : Word) (s : State) : (commandStart w s).blkh = s.blkh := rfl
@[simp] theorem commandStart_aclen (w : Word) (s : State) : (commandStart w s).aclen = s.aclen := rfl
@[simp] theorem commandStart_clen (w : Word) (s : State) : (commandStart w s).clen = s.clen := rfl
@[simp] theorem commandStart_cptr (w : Word) (s : State) : (commandStart w s).cptr = s.cptr := rfl
@[simp] theorem commandStart_bidx (w : Word) (s : State) : (commandStart w s).bidx = s.bidx := rfl
@[simp] theorem commandStart_count (w : Word) (s : State) : (commandStart w s).count = s.count := rfl
@[simp] theorem commandStart_pix (w : Word) (s : State) : (commandStart w s).pix = s.pix := rfl
@[simp] theorem commandStart_yuv (w : Word) (s : State) : (commandStart w s).yuv = s.yuv := rfl
@[simp] theorem commandStart_dcp (w : Word) (s : State) : (commandStart w s).dcp = s.dcp := rfl
@[simp] theorem commandStart_slen (w : Word) (s : State) : (commandStart w s).slen = s.slen := rfl
@[simp] theorem commandStart_srd (w : Word) (s : State) : (commandStart w s).srd = s.srd := rfl
@[simp] theorem commandStart_bslen (w : Word) (s : State) : (commandStart w s).bslen = s.bslen := rfl
@[simp] theorem commandStart_sb (w : Word) (s : State) : (commandStart w s).sb = s.sb := rfl
@[simp] theorem commandStart_cb (w : Word) (s : State) : (commandStart w s).cb = s.cb := rfl
@[simp] theorem commandStart_qb (w : Word) (s : State) : (commandStart w s).qb = s.qb := rfl
@[simp] theorem commandStart_lt (w : Word) (s : State) : (commandStart w s).lt = s.lt := rfl
@[simp] theorem commandStart_ct (w : Word) (s : State) : (commandStart w s).ct = s.ct := rfl
@[simp] theorem commandStart_syms (w : Word) (s : State) : (commandStart w s).syms = s.syms := rfl
@[simp] theorem commandStart_bs (w : Word) (s : State) : (commandStart w s).bs = s.bs := rfl
@[simp] theorem commandStart_qp (w : Word) (s : State) : (commandStart w s).qp = s.qp := rfl
@[simp] theorem commandStart_cbuf (w : Word) (s : State) : (commandStart w s).cbuf = s.cbuf := rfl
@[simp] theorem commandStart_img (w : Word) (s : State) : (commandStart w s).img = s.img := rfl
@[simp] theorem commandStart_pending (w : Word) (s : State) : (commandStart w s).pending = s.pending := rfl
@[simp] theorem commandStart_reply (w : Word) (s : State) : (commandStart w s).reply = s.reply := rfl

/-! ### `commandEnd` -/

@[simp] theorem commandEnd_cfg (s : State) : (commandEnd s).cfg = s.cfg := rfl
@[simp] theorem commandEnd_cmd (s : State) : (commandEnd s).cmd = s.cmd := rfl
@[simp] theorem commandEnd_busy (s : State) : (commandEnd s).busy = false := rfl
@[simp] theorem commandEnd_done (s : State) : (commandEnd s).done = true := rfl
@[simp] theorem commandEnd_err (s : State) : (commandEnd s).err = s.err := rfl
@[simp] theorem commandEnd_ie (s : State) : (commandEnd s).ie = s.ie := rfl
@[simp] theorem commandEnd_errcode (s : State) : (commandEnd s).errcode = s.errcode := rfl
@[simp] theorem commandEnd_errinfo (s : State) : (commandEnd s).errinfo = s.errinfo := rfl
@[simp] theorem commandEnd_imgw (s : State) : (commandEnd s).imgw = s.imgw := rfl
@[simp] theorem commandEnd_imgh (s : State) : (commandEnd s).imgh = s.imgh := rfl
@[simp] theorem commandEnd_blkw (s : State) : (commandEnd s).blkw = s.blkw := rfl
@[simp] theorem commandEnd_blkh (s : State) : (commandEnd s).blkh = s.blkh := rfl
@[simp] theorem commandEnd_aclen (s : State) : (commandEnd s).aclen = s.aclen := rfl
@[simp] theorem commandEnd_clen (s : State) : (commandEnd s).clen = s.clen := rfl
@[simp] theorem commandEnd_cptr (s : State) : (commandEnd s).cptr = s.cptr := rfl
@[simp] theorem commandEnd_bidx (s : State) : (commandEnd s).bidx = s.bidx := rfl
@[simp] theorem commandEnd_count (s : State) : (commandEnd s).count = s.count := rfl
@[simp] theorem commandEnd_pix (s : State) : (commandEnd s).pix = s.pix := rfl
@[simp] theorem commandEnd_yuv (s : State) : (commandEnd s).yuv = s.yuv := rfl
@[simp] theorem commandEnd_dcp (s : State) : (commandEnd s).dcp = s.dcp := rfl
@[simp] theorem commandEnd_slen (s : State) : (commandEnd s).slen = s.slen := rfl
@[simp] theorem commandEnd_srd (s : State) : (commandEnd s).srd = s.srd := rfl
@[simp] theorem commandEnd_bslen (s : State) : (commandEnd s).bslen = s.bslen := rfl
@[simp] theorem commandEnd_sb (s : State) : (commandEnd s).sb = s.sb := rfl
@[simp] theorem commandEnd_cb (s : State) : (commandEnd s).cb = s.cb := rfl
@[simp] theorem commandEnd_qb (s : State) : (commandEnd s).qb = s.qb := rfl
@[simp] theorem commandEnd_lt (s : State) : (commandEnd s).lt = s.lt := rfl
@[simp] theorem commandEnd_ct (s : State) : (commandEnd s).ct = s.ct := rfl
@[simp] theorem commandEnd_syms (s : State) : (commandEnd s).syms = s.syms := rfl
@[simp] theorem commandEnd_bs (s : State) : (commandEnd s).bs = s.bs := rfl
@[simp] theorem commandEnd_qp (s : State) : (commandEnd s).qp = s.qp := rfl
@[simp] theorem commandEnd_cbuf (s : State) : (commandEnd s).cbuf = s.cbuf := rfl
@[simp] theorem commandEnd_img (s : State) : (commandEnd s).img = s.img := rfl
@[simp] theorem commandEnd_pending (s : State) : (commandEnd s).pending = s.pending := rfl
@[simp] theorem commandEnd_reply (s : State) : (commandEnd s).reply = s.reply := rfl

/-! ### `replyWith` -/

@[simp] theorem replyWith_cfg (r : Reply) (s : State) : (replyWith r s).cfg = s.cfg := rfl
@[simp] theorem replyWith_cmd (r : Reply) (s : State) : (replyWith r s).cmd = s.cmd := rfl
@[simp] theorem replyWith_busy (r : Reply) (s : State) : (replyWith r s).busy = s.busy := rfl
@[simp] theorem replyWith_done (r : Reply) (s : State) : (replyWith r s).done = s.done := rfl
@[simp] theorem replyWith_err (r : Reply) (s : State) : (replyWith r s).err = s.err := rfl
@[simp] theorem replyWith_ie (r : Reply) (s : State) : (replyWith r s).ie = s.ie := rfl
@[simp] theorem replyWith_errcode (r : Reply) (s : State) : (replyWith r s).errcode = s.errcode := rfl
@[simp] theorem replyWith_errinfo (r : Reply) (s : State) : (replyWith r s).errinfo = s.errinfo := rfl
@[simp] theorem replyWith_imgw (r : Reply) (s : State) : (replyWith r s).imgw = s.imgw := rfl
@[simp] theorem replyWith_imgh (r : Reply) (s : State) : (replyWith r s).imgh = s.imgh := rfl
@[simp] theorem replyWith_blkw (r : Reply) (s : State) : (replyWith r s).blkw = s.blkw := rfl
@[simp] theorem replyWith_blkh (r : Reply) (s : State) : (replyWith r s).blkh = s.blkh := rfl
@[simp] theorem replyWith_aclen (r : Reply) (s : State) : (replyWith r s).aclen = s.aclen := rfl
@[simp] theorem replyWith_clen (r : Reply) (s : State) : (replyWith r s).clen = s.clen := rfl
@[simp] theorem replyWith_cptr (r : Reply) (s : State) : (replyWith r s).cptr = s.cptr := rfl
@[simp] theorem replyWith_bidx (r : Reply) (s : State) : (replyWith r s).bidx = s.bidx := rfl
@[simp] theorem replyWith_count (r : Reply) (s : State) : (replyWith r s).count = s.count := rfl
@[simp] theorem replyWith_pix (r : Reply) (s : State) : (replyWith r s).pix = s.pix := rfl
@[simp] theorem replyWith_yuv (r : Reply) (s : State) : (replyWith r s).yuv = s.yuv := rfl
@[simp] theorem replyWith_dcp (r : Reply) (s : State) : (replyWith r s).dcp = s.dcp := rfl
@[simp] theorem replyWith_slen (r : Reply) (s : State) : (replyWith r s).slen = s.slen := rfl
@[simp] theorem replyWith_srd (r : Reply) (s : State) : (replyWith r s).srd = s.srd := rfl
@[simp] theorem replyWith_bslen (r : Reply) (s : State) : (replyWith r s).bslen = s.bslen := rfl
@[simp] theorem replyWith_sb (r : Reply) (s : State) : (replyWith r s).sb = s.sb := rfl
@[simp] theorem replyWith_cb (r : Reply) (s : State) : (replyWith r s).cb = s.cb := rfl
@[simp] theorem replyWith_qb (r : Reply) (s : State) : (replyWith r s).qb = s.qb := rfl
@[simp] theorem replyWith_lt (r : Reply) (s : State) : (replyWith r s).lt = s.lt := rfl
@[simp] theorem replyWith_ct (r : Reply) (s : State) : (replyWith r s).ct = s.ct := rfl
@[simp] theorem replyWith_syms (r : Reply) (s : State) : (replyWith r s).syms = s.syms := rfl
@[simp] theorem replyWith_bs (r : Reply) (s : State) : (replyWith r s).bs = s.bs := rfl
@[simp] theorem replyWith_qp (r : Reply) (s : State) : (replyWith r s).qp = s.qp := rfl
@[simp] theorem replyWith_cbuf (r : Reply) (s : State) : (replyWith r s).cbuf = s.cbuf := rfl
@[simp] theorem replyWith_img (r : Reply) (s : State) : (replyWith r s).img = s.img := rfl
@[simp] theorem replyWith_pending (r : Reply) (s : State) : (replyWith r s).pending = s.pending := rfl
@[simp] theorem replyWith_reply (r : Reply) (s : State) : (replyWith r s).reply = some r := rfl

/-! ### `setGrid` -/

@[simp] theorem setGrid_cfg (s : State) : (setGrid s).cfg = s.cfg := rfl
@[simp] theorem setGrid_cmd (s : State) : (setGrid s).cmd = s.cmd := rfl
@[simp] theorem setGrid_busy (s : State) : (setGrid s).busy = s.busy := rfl
@[simp] theorem setGrid_done (s : State) : (setGrid s).done = s.done := rfl
@[simp] theorem setGrid_err (s : State) : (setGrid s).err = s.err := rfl
@[simp] theorem setGrid_ie (s : State) : (setGrid s).ie = s.ie := rfl
@[simp] theorem setGrid_errcode (s : State) : (setGrid s).errcode = s.errcode := rfl
@[simp] theorem setGrid_errinfo (s : State) : (setGrid s).errinfo = s.errinfo := rfl
@[simp] theorem setGrid_imgw (s : State) : (setGrid s).imgw = s.imgw := rfl
@[simp] theorem setGrid_imgh (s : State) : (setGrid s).imgh = s.imgh := rfl
@[simp] theorem setGrid_blkw (s : State) : (setGrid s).blkw = BitVec.ofNat 8 (s.imgw.toNat / 8) := rfl
@[simp] theorem setGrid_blkh (s : State) : (setGrid s).blkh = BitVec.ofNat 8 (s.imgh.toNat / 8) := rfl
@[simp] theorem setGrid_aclen (s : State) : (setGrid s).aclen = s.aclen := rfl
@[simp] theorem setGrid_clen (s : State) : (setGrid s).clen = s.clen := rfl
@[simp] theorem setGrid_cptr (s : State) : (setGrid s).cptr = s.cptr := rfl
@[simp] theorem setGrid_bidx (s : State) : (setGrid s).bidx = s.bidx := rfl
@[simp] theorem setGrid_count (s : State) : (setGrid s).count = s.count := rfl
@[simp] theorem setGrid_pix (s : State) : (setGrid s).pix = s.pix := rfl
@[simp] theorem setGrid_yuv (s : State) : (setGrid s).yuv = s.yuv := rfl
@[simp] theorem setGrid_dcp (s : State) : (setGrid s).dcp = s.dcp := rfl
@[simp] theorem setGrid_slen (s : State) : (setGrid s).slen = s.slen := rfl
@[simp] theorem setGrid_srd (s : State) : (setGrid s).srd = s.srd := rfl
@[simp] theorem setGrid_bslen (s : State) : (setGrid s).bslen = s.bslen := rfl
@[simp] theorem setGrid_sb (s : State) : (setGrid s).sb = s.sb := rfl
@[simp] theorem setGrid_cb (s : State) : (setGrid s).cb = s.cb := rfl
@[simp] theorem setGrid_qb (s : State) : (setGrid s).qb = s.qb := rfl
@[simp] theorem setGrid_lt (s : State) : (setGrid s).lt = s.lt := rfl
@[simp] theorem setGrid_ct (s : State) : (setGrid s).ct = s.ct := rfl
@[simp] theorem setGrid_syms (s : State) : (setGrid s).syms = s.syms := rfl
@[simp] theorem setGrid_bs (s : State) : (setGrid s).bs = s.bs := rfl
@[simp] theorem setGrid_qp (s : State) : (setGrid s).qp = s.qp := rfl
@[simp] theorem setGrid_cbuf (s : State) : (setGrid s).cbuf = s.cbuf := rfl
@[simp] theorem setGrid_img (s : State) : (setGrid s).img = s.img := rfl
@[simp] theorem setGrid_pending (s : State) : (setGrid s).pending = s.pending := rfl
@[simp] theorem setGrid_reply (s : State) : (setGrid s).reply = s.reply := rfl

/-! ### `setImageSize` -/

@[simp] theorem setImageSize_cfg (s : State) : (setImageSize s).cfg = s.cfg := rfl
@[simp] theorem setImageSize_cmd (s : State) : (setImageSize s).cmd = s.cmd := rfl
@[simp] theorem setImageSize_busy (s : State) : (setImageSize s).busy = s.busy := rfl
@[simp] theorem setImageSize_done (s : State) : (setImageSize s).done = s.done := rfl
@[simp] theorem setImageSize_err (s : State) : (setImageSize s).err = s.err := rfl
@[simp] theorem setImageSize_ie (s : State) : (setImageSize s).ie = s.ie := rfl
@[simp] theorem setImageSize_errcode (s : State) : (setImageSize s).errcode = s.errcode := rfl
@[simp] theorem setImageSize_errinfo (s : State) : (setImageSize s).errinfo = s.errinfo := rfl
@[simp] theorem setImageSize_imgw (s : State) : (setImageSize s).imgw = BitVec.ofNat 16 (8 * s.blkw.toNat) := rfl
@[simp] theorem setImageSize_imgh (s : State) : (setImageSize s).imgh = BitVec.ofNat 16 (8 * s.blkh.toNat) := rfl
@[simp] theorem setImageSize_blkw (s : State) : (setImageSize s).blkw = s.blkw := rfl
@[simp] theorem setImageSize_blkh (s : State) : (setImageSize s).blkh = s.blkh := rfl
@[simp] theorem setImageSize_aclen (s : State) : (setImageSize s).aclen = s.aclen := rfl
@[simp] theorem setImageSize_clen (s : State) : (setImageSize s).clen = s.clen := rfl
@[simp] theorem setImageSize_cptr (s : State) : (setImageSize s).cptr = s.cptr := rfl
@[simp] theorem setImageSize_bidx (s : State) : (setImageSize s).bidx = s.bidx := rfl
@[simp] theorem setImageSize_count (s : State) : (setImageSize s).count = s.count := rfl
@[simp] theorem setImageSize_pix (s : State) : (setImageSize s).pix = s.pix := rfl
@[simp] theorem setImageSize_yuv (s : State) : (setImageSize s).yuv = s.yuv := rfl
@[simp] theorem setImageSize_dcp (s : State) : (setImageSize s).dcp = s.dcp := rfl
@[simp] theorem setImageSize_slen (s : State) : (setImageSize s).slen = s.slen := rfl
@[simp] theorem setImageSize_srd (s : State) : (setImageSize s).srd = s.srd := rfl
@[simp] theorem setImageSize_bslen (s : State) : (setImageSize s).bslen = s.bslen := rfl
@[simp] theorem setImageSize_sb (s : State) : (setImageSize s).sb = s.sb := rfl
@[simp] theorem setImageSize_cb (s : State) : (setImageSize s).cb = s.cb := rfl
@[simp] theorem setImageSize_qb (s : State) : (setImageSize s).qb = s.qb := rfl
@[simp] theorem setImageSize_lt (s : State) : (setImageSize s).lt = s.lt := rfl
@[simp] theorem setImageSize_ct (s : State) : (setImageSize s).ct = s.ct := rfl
@[simp] theorem setImageSize_syms (s : State) : (setImageSize s).syms = s.syms := rfl
@[simp] theorem setImageSize_bs (s : State) : (setImageSize s).bs = s.bs := rfl
@[simp] theorem setImageSize_qp (s : State) : (setImageSize s).qp = s.qp := rfl
@[simp] theorem setImageSize_cbuf (s : State) : (setImageSize s).cbuf = s.cbuf := rfl
@[simp] theorem setImageSize_img (s : State) : (setImageSize s).img = s.img := rfl
@[simp] theorem setImageSize_pending (s : State) : (setImageSize s).pending = s.pending := rfl
@[simp] theorem setImageSize_reply (s : State) : (setImageSize s).reply = s.reply := rfl

/-! ### `appendSymbols` -/

@[simp] theorem appendSymbols_cfg (p : Plane) (k : Kind) (l : List Byte) (s : State) : (appendSymbols p k l s).cfg =
    s.cfg := rfl
@[simp] theorem appendSymbols_cmd (p : Plane) (k : Kind) (l : List Byte) (s : State) : (appendSymbols p k l s).cmd =
    s.cmd := rfl
@[simp] theorem appendSymbols_busy (p : Plane) (k : Kind) (l : List Byte) (s : State) : (appendSymbols p k l s).busy =
    s.busy := rfl
@[simp] theorem appendSymbols_done (p : Plane) (k : Kind) (l : List Byte) (s : State) : (appendSymbols p k l s).done =
    s.done := rfl
@[simp] theorem appendSymbols_err (p : Plane) (k : Kind) (l : List Byte) (s : State) : (appendSymbols p k l s).err =
    s.err := rfl
@[simp] theorem appendSymbols_ie (p : Plane) (k : Kind) (l : List Byte) (s : State) : (appendSymbols p k l s).ie =
    s.ie := rfl
@[simp] theorem appendSymbols_errcode (p : Plane) (k : Kind) (l : List Byte) (s : State) : (appendSymbols p k l s).errcode =
    s.errcode := rfl
@[simp] theorem appendSymbols_errinfo (p : Plane) (k : Kind) (l : List Byte) (s : State) : (appendSymbols p k l s).errinfo =
    s.errinfo := rfl
@[simp] theorem appendSymbols_imgw (p : Plane) (k : Kind) (l : List Byte) (s : State) : (appendSymbols p k l s).imgw =
    s.imgw := rfl
@[simp] theorem appendSymbols_imgh (p : Plane) (k : Kind) (l : List Byte) (s : State) : (appendSymbols p k l s).imgh =
    s.imgh := rfl
@[simp] theorem appendSymbols_blkw (p : Plane) (k : Kind) (l : List Byte) (s : State) : (appendSymbols p k l s).blkw =
    s.blkw := rfl
@[simp] theorem appendSymbols_blkh (p : Plane) (k : Kind) (l : List Byte) (s : State) : (appendSymbols p k l s).blkh =
    s.blkh := rfl
@[simp] theorem appendSymbols_aclen (p : Plane) (k : Kind) (l : List Byte) (s : State) : (appendSymbols p k l s).aclen =
    s.aclen := rfl
@[simp] theorem appendSymbols_clen (p : Plane) (k : Kind) (l : List Byte) (s : State) : (appendSymbols p k l s).clen =
    s.clen := rfl
@[simp] theorem appendSymbols_cptr (p : Plane) (k : Kind) (l : List Byte) (s : State) : (appendSymbols p k l s).cptr =
    s.cptr := rfl
@[simp] theorem appendSymbols_bidx (p : Plane) (k : Kind) (l : List Byte) (s : State) : (appendSymbols p k l s).bidx =
    s.bidx := rfl
@[simp] theorem appendSymbols_count (p : Plane) (k : Kind) (l : List Byte) (s : State) : (appendSymbols p k l s).count =
    s.count := rfl
@[simp] theorem appendSymbols_pix (p : Plane) (k : Kind) (l : List Byte) (s : State) : (appendSymbols p k l s).pix =
    s.pix := rfl
@[simp] theorem appendSymbols_yuv (p : Plane) (k : Kind) (l : List Byte) (s : State) : (appendSymbols p k l s).yuv =
    s.yuv := rfl
@[simp] theorem appendSymbols_dcp (p : Plane) (k : Kind) (l : List Byte) (s : State) : (appendSymbols p k l s).dcp =
    s.dcp := rfl
@[simp] theorem appendSymbols_slen (p : Plane) (k : Kind) (l : List Byte) (s : State) : (appendSymbols p k l s).slen =
    s.slen.put p k (wordOf ((s.slen.at p k).toNat + l.length)) := rfl
@[simp] theorem appendSymbols_srd (p : Plane) (k : Kind) (l : List Byte) (s : State) : (appendSymbols p k l s).srd =
    s.srd := rfl
@[simp] theorem appendSymbols_bslen (p : Plane) (k : Kind) (l : List Byte) (s : State) : (appendSymbols p k l s).bslen =
    s.bslen := rfl
@[simp] theorem appendSymbols_sb (p : Plane) (k : Kind) (l : List Byte) (s : State) : (appendSymbols p k l s).sb =
    s.sb := rfl
@[simp] theorem appendSymbols_cb (p : Plane) (k : Kind) (l : List Byte) (s : State) : (appendSymbols p k l s).cb =
    s.cb := rfl
@[simp] theorem appendSymbols_qb (p : Plane) (k : Kind) (l : List Byte) (s : State) : (appendSymbols p k l s).qb =
    s.qb := rfl
@[simp] theorem appendSymbols_lt (p : Plane) (k : Kind) (l : List Byte) (s : State) : (appendSymbols p k l s).lt =
    s.lt := rfl
@[simp] theorem appendSymbols_ct (p : Plane) (k : Kind) (l : List Byte) (s : State) : (appendSymbols p k l s).ct =
    s.ct := rfl
@[simp] theorem appendSymbols_syms (p : Plane) (k : Kind) (l : List Byte) (s : State) : (appendSymbols p k l s).syms =
    s.syms.put p k ((s.syms.at p k).writeBytes (s.slen.at p k).toNat l) := rfl
@[simp] theorem appendSymbols_bs (p : Plane) (k : Kind) (l : List Byte) (s : State) : (appendSymbols p k l s).bs =
    s.bs := rfl
@[simp] theorem appendSymbols_qp (p : Plane) (k : Kind) (l : List Byte) (s : State) : (appendSymbols p k l s).qp =
    s.qp := rfl
@[simp] theorem appendSymbols_cbuf (p : Plane) (k : Kind) (l : List Byte) (s : State) : (appendSymbols p k l s).cbuf =
    s.cbuf := rfl
@[simp] theorem appendSymbols_img (p : Plane) (k : Kind) (l : List Byte) (s : State) : (appendSymbols p k l s).img =
    s.img := rfl
@[simp] theorem appendSymbols_pending (p : Plane) (k : Kind) (l : List Byte) (s : State) : (appendSymbols p k l s).pending =
    s.pending := rfl
@[simp] theorem appendSymbols_reply (p : Plane) (k : Kind) (l : List Byte) (s : State) : (appendSymbols p k l s).reply =
    s.reply := rfl

/-! ### `setStream` -/

@[simp] theorem setStream_cfg (p : Plane) (k : Kind) (l : List Byte) (s : State) : (setStream p k l s).cfg =
    s.cfg := rfl
@[simp] theorem setStream_cmd (p : Plane) (k : Kind) (l : List Byte) (s : State) : (setStream p k l s).cmd =
    s.cmd := rfl
@[simp] theorem setStream_busy (p : Plane) (k : Kind) (l : List Byte) (s : State) : (setStream p k l s).busy =
    s.busy := rfl
@[simp] theorem setStream_done (p : Plane) (k : Kind) (l : List Byte) (s : State) : (setStream p k l s).done =
    s.done := rfl
@[simp] theorem setStream_err (p : Plane) (k : Kind) (l : List Byte) (s : State) : (setStream p k l s).err =
    s.err := rfl
@[simp] theorem setStream_ie (p : Plane) (k : Kind) (l : List Byte) (s : State) : (setStream p k l s).ie = s.ie := rfl
@[simp] theorem setStream_errcode (p : Plane) (k : Kind) (l : List Byte) (s : State) : (setStream p k l s).errcode =
    s.errcode := rfl
@[simp] theorem setStream_errinfo (p : Plane) (k : Kind) (l : List Byte) (s : State) : (setStream p k l s).errinfo =
    s.errinfo := rfl
@[simp] theorem setStream_imgw (p : Plane) (k : Kind) (l : List Byte) (s : State) : (setStream p k l s).imgw =
    s.imgw := rfl
@[simp] theorem setStream_imgh (p : Plane) (k : Kind) (l : List Byte) (s : State) : (setStream p k l s).imgh =
    s.imgh := rfl
@[simp] theorem setStream_blkw (p : Plane) (k : Kind) (l : List Byte) (s : State) : (setStream p k l s).blkw =
    s.blkw := rfl
@[simp] theorem setStream_blkh (p : Plane) (k : Kind) (l : List Byte) (s : State) : (setStream p k l s).blkh =
    s.blkh := rfl
@[simp] theorem setStream_aclen (p : Plane) (k : Kind) (l : List Byte) (s : State) : (setStream p k l s).aclen =
    s.aclen := rfl
@[simp] theorem setStream_clen (p : Plane) (k : Kind) (l : List Byte) (s : State) : (setStream p k l s).clen =
    s.clen := rfl
@[simp] theorem setStream_cptr (p : Plane) (k : Kind) (l : List Byte) (s : State) : (setStream p k l s).cptr =
    s.cptr := rfl
@[simp] theorem setStream_bidx (p : Plane) (k : Kind) (l : List Byte) (s : State) : (setStream p k l s).bidx =
    s.bidx := rfl
@[simp] theorem setStream_count (p : Plane) (k : Kind) (l : List Byte) (s : State) : (setStream p k l s).count =
    s.count := rfl
@[simp] theorem setStream_pix (p : Plane) (k : Kind) (l : List Byte) (s : State) : (setStream p k l s).pix =
    s.pix := rfl
@[simp] theorem setStream_yuv (p : Plane) (k : Kind) (l : List Byte) (s : State) : (setStream p k l s).yuv =
    s.yuv := rfl
@[simp] theorem setStream_dcp (p : Plane) (k : Kind) (l : List Byte) (s : State) : (setStream p k l s).dcp =
    s.dcp := rfl
@[simp] theorem setStream_slen (p : Plane) (k : Kind) (l : List Byte) (s : State) : (setStream p k l s).slen =
    s.slen.put p k (wordOf l.length) := rfl
@[simp] theorem setStream_srd (p : Plane) (k : Kind) (l : List Byte) (s : State) : (setStream p k l s).srd =
    s.srd.put p k 0#32 := rfl
@[simp] theorem setStream_bslen (p : Plane) (k : Kind) (l : List Byte) (s : State) : (setStream p k l s).bslen =
    s.bslen := rfl
@[simp] theorem setStream_sb (p : Plane) (k : Kind) (l : List Byte) (s : State) : (setStream p k l s).sb = s.sb := rfl
@[simp] theorem setStream_cb (p : Plane) (k : Kind) (l : List Byte) (s : State) : (setStream p k l s).cb = s.cb := rfl
@[simp] theorem setStream_qb (p : Plane) (k : Kind) (l : List Byte) (s : State) : (setStream p k l s).qb = s.qb := rfl
@[simp] theorem setStream_lt (p : Plane) (k : Kind) (l : List Byte) (s : State) : (setStream p k l s).lt = s.lt := rfl
@[simp] theorem setStream_ct (p : Plane) (k : Kind) (l : List Byte) (s : State) : (setStream p k l s).ct = s.ct := rfl
@[simp] theorem setStream_syms (p : Plane) (k : Kind) (l : List Byte) (s : State) : (setStream p k l s).syms =
    s.syms.put p k ((s.syms.at p k).writeBytes 0 l) := rfl
@[simp] theorem setStream_bs (p : Plane) (k : Kind) (l : List Byte) (s : State) : (setStream p k l s).bs = s.bs := rfl
@[simp] theorem setStream_qp (p : Plane) (k : Kind) (l : List Byte) (s : State) : (setStream p k l s).qp = s.qp := rfl
@[simp] theorem setStream_cbuf (p : Plane) (k : Kind) (l : List Byte) (s : State) : (setStream p k l s).cbuf =
    s.cbuf := rfl
@[simp] theorem setStream_img (p : Plane) (k : Kind) (l : List Byte) (s : State) : (setStream p k l s).img =
    s.img := rfl
@[simp] theorem setStream_pending (p : Plane) (k : Kind) (l : List Byte) (s : State) : (setStream p k l s).pending =
    s.pending := rfl
@[simp] theorem setStream_reply (p : Plane) (k : Kind) (l : List Byte) (s : State) : (setStream p k l s).reply =
    s.reply := rfl

end Sys2Proof.Machine
end

