-- ==== Sys2Proof/Laws/Commands.lean ====
section
/-! SUPPORT. What the operations the commands share do, said once: the checks, the streams, the loops and their bounds,
packing, code tables. -/

namespace Sys2Proof.Machine

/-! ### Checks -/

theorem raiseIf_eq (c : Bool) (e : Err) (s : State) (go : State → Run) :
    raiseIf c e s go = if c = true then raise e s else go s := by
  cases c <;> rfl

/-- The check of `STQ` and `LDQ`: `E_RANGE` exactly when `BIDX` is no block. -/
theorem blockCheck_eq (s : State) (go : State → Run) :
    blockCheck s go =
      if s.blkw.toNat * s.blkh.toNat ≤ s.bidx.toNat then raise { code := .range, info := s.bidx.toNat } s else go s := by
  rw [blockCheck, raiseIf_eq]
  simp only [Nat.ble_eq, blockCount]

/-- The checks of the tile commands: `E_RANGE` exactly when `BIDX` is no block or the grid does not fit the image. -/
theorem tileChecks_eq (s : State) (go : State → Run) :
    tileChecks s go =
      if s.blkw.toNat * s.blkh.toNat ≤ s.bidx.toNat ∨ s.imgw.toNat < 8 * s.blkw.toNat ∨ s.imgh.toNat < 8 * s.blkh.toNat
      then raise { code := .range, info := s.bidx.toNat } s else go s := by
  simp only [tileChecks, raiseIf_eq, Bool.or_eq_true, Nat.ble_eq, Nat.blt_eq, blockCount]
  split
  · rename_i h; rw [if_pos (Or.inl h)]
  · rename_i h
    split
    · rename_i h2; rw [if_pos (Or.inr h2)]
    · rename_i h2; rw [if_neg (by tauto)]

/-! ### Runs of bytes -/

/-- Bytes a memory holds are what it reads as a run. -/
theorem Memory.readBytes_of_holds {m : Memory} {a : Nat} {bytes : List Byte} (h : holdsBytes m a bytes) :
    m.readBytes a bytes.length = bytes := by
  apply List.ext_getElem (Memory.length_readBytes _ _ _)
  intro i h1 h2
  have := Memory.readBytes_getD m a bytes.length i h2
  rw [h i h2, List.getD_eq_getElem _ _ h1, List.getD_eq_getElem _ _ h2] at this
  exact this

theorem holdsBytes_readBytes (m : Memory) (a n : Nat) : holdsBytes m a (m.readBytes a n) := by
  intro i hi
  rw [Memory.length_readBytes] at hi
  exact (Memory.readBytes_getD m a n i hi).symm

theorem holdsBytes_writeBytes (m : Memory) (a : Nat) (bytes : List Byte) : holdsBytes (m.writeBytes a bytes) a bytes := by
  intro i hi
  rw [Memory.read_writeBytes, if_pos (by omega), Nat.add_sub_cancel_left]
  rfl

theorem holdsBytes_cellsFrom (a : Nat) (bytes : List Byte) : holdsBytes (cellsFrom a bytes) a bytes := by
  intro i hi
  rw [read_cellsFrom, if_pos (by omega), Nat.add_sub_cancel_left]
  rfl

/-- The valid symbols of a stream are the bytes that its memory holds. -/
theorem streamSymbols_eq {s : State} {p : Plane} {k : Kind} {seq : List Byte}
    (hlen : seq.length = (s.slen.at p k).toNat) (h : holdsBytes (s.syms.at p k) 0 seq) : streamSymbols p k s = seq := by
  rw [streamSymbols, ← hlen, Memory.readBytes_of_holds h]

/-! ### Loops and their bounds (log 9) -/

@[simp] theorem forEach_nil {α : Type} (body : α → State → Run) (s : State) : forEach [] body s = .ok s := rfl

@[simp] theorem forEach_cons {α : Type} (a : α) (l : List α) (body : α → State → Run) (s : State) :
    forEach (a :: l) body s = (body a s).andThen (forEach l body) := rfl

theorem forEach_append {α : Type} (l m : List α) (body : α → State → Run) (s : State) :
    forEach (l ++ m) body s = (forEach l body s).andThen (forEach m body) := by
  induction l generalizing s with
  | nil => rfl
  | cons a l ih =>
    rw [List.cons_append, forEach_cons, forEach_cons, Run.andThen_assoc]
    congr 1
    funext t
    exact ih t

/-- Any two bounds of the pair loop that allow a pass per remaining zigzag position and one for the EOB agree: the
bound is never what ends the loop. -/
theorem pairLoop_bound (src : PairSource) {f g c r1 r2 : Nat} {q : Block Byte} (hc : c ≤ 63) (hf : 64 - c ≤ f)
    (hg : 64 - c ≤ g) : pairLoop src f c r1 r2 q = pairLoop src g c r1 r2 q := by
  induction f generalizing g c r1 r2 q with
  | zero => omega
  | succ f ih =>
    obtain ⟨g, rfl⟩ : ∃ k, g = k + 1 := ⟨g - 1, by omega⟩
    simp only [pairLoop]
    split
    · rfl
    · split
      · rfl
      · split
        · rfl
        · rename_i hz
          simp only [Nat.blt_eq, Nat.not_lt] at hz
          exact ih (by omega) (by omega) (by omega)

/-- A decoder that answers has read at least one bit, and none at or behind its limit. -/
theorem decodeFrom_progress {cbuf : Memory} {lim : Nat} {t : CodeTable} {left n acc pos pos' : Nat} {b : Byte}
    (h : decodeFrom cbuf lim t left n acc pos = .ok (b, pos')) : pos < pos' ∧ pos' ≤ 8 * lim := by
  induction left generalizing n acc pos with
  | zero => cases h
  | succ left ih =>
    simp only [decodeFrom] at h
    split at h
    · cases h
    · rename_i hb
      simp only [nextBit] at hb
      split at hb
      · cases hb
      · rename_i hlim
        simp only [Nat.ble_eq] at hlim
        split at h
        · cases h; omega
        · have := ih h; omega

theorem decodeOne_progress {cbuf : Memory} {lim : Nat} {t : CodeTable} {pos pos' : Nat} {b : Byte}
    (h : decodeOne cbuf lim t pos = .ok (b, pos')) : pos < pos' ∧ pos' ≤ 8 * lim := by
  simp only [decodeOne] at h
  split at h
  · cases h
  · exact decodeFrom_progress h

/-- Any two bounds of the pair decoder that allow a pass per bit left in the run segment, and one more, agree: the bound
is never what ends the loop. -/
theorem acLoop_bound (src : AcSource) {f g eobs pos1 pos2 : Nat} (hf : 8 * src.runLim < f + pos1)
    (hg : 8 * src.runLim < g + pos1) (hp : pos1 ≤ 8 * src.runLim) :
    acLoop src f eobs pos1 pos2 = acLoop src g eobs pos1 pos2 := by
  induction f generalizing g eobs pos1 pos2 with
  | zero => omega
  | succ f ih =>
    obtain ⟨g, rfl⟩ : ∃ k, g = k + 1 := ⟨g - 1, by omega⟩
    cases eobs with
    | zero => rfl
    | succ eobs =>
      simp only [acLoop]
      split
      · rfl
      · rename_i hr
        have := decodeOne_progress hr
        split
        · rfl
        · rw [ih (g := g) (by omega) (by omega) (by omega)]

/-! ### Bits -/

theorem length_codeBits (c : Code) : (codeBits c).length = c.len.toNat := by simp [codeBits]

theorem bitsOf_append (t : CodeTable) (a b : List Byte) : bitsOf t (a ++ b) = bitsOf t a ++ bitsOf t b := by
  simp [bitsOf]

theorem length_bitsOf_le (t : CodeTable) (seq : List Byte) : (bitsOf t seq).length ≤ 255 * seq.length := by
  induction seq with
  | nil => exact Nat.zero_le _
  | cons b seq ih =>
    have hb := (t.entry b.toNat).len.isLt
    have hsplit : bitsOf t (b :: seq) = codeBits (t.entry b.toNat) ++ bitsOf t seq := by simp [bitsOf]
    rw [hsplit, List.length_append, length_codeBits, List.length_cons]
    omega

theorem length_ownBits_le (seq : List Byte) : (ownBits seq).length ≤ 255 * seq.length := by
  unfold ownBits
  split
  · exact length_bitsOf_le _ _
  · rw [List.length_nil]; exact Nat.zero_le _

/-- A symbol that has a code has an entry in the table. -/
theorem CodeTable.mem_of_entry {t : CodeTable} {s : Nat} (h : (t.entry s).len ≠ 0#8) : (s, t.entry s) ∈ t := by
  induction t with
  | nil => exact absurd rfl h
  | cons e t ih =>
    obtain ⟨x, c⟩ := e
    by_cases hx : s = x
    · subst hx
      simp [CodeTable.entry, List.lookup]
    · have : CodeTable.entry ((x, c) :: t) s = CodeTable.entry t s := by
        simp [CodeTable.entry, List.lookup_cons, beq_false_of_ne hx]
      rw [this] at h ⊢
      exact List.mem_cons_of_mem _ (ih h)

/-- A table none of whose entries' codes begins another's is uniquely readable. -/
theorem uniquelyReadable_of_entries {t : CodeTable}
    (h : ∀ x ∈ t, ∀ y ∈ t, x.1 ≠ y.1 → ¬ codeBits x.2 <+: codeBits y.2) : uniquelyReadable t := fun a b hab ha hb =>
  h (a, t.entry a) (CodeTable.mem_of_entry ha) (b, t.entry b) (CodeTable.mem_of_entry hb) hab

/-- A block has at most one pair per zigzag position, and the EOB. -/
theorem length_acPairs_le (q : Block Byte) (run : Nat) (l : List (Fin 8 × Fin 8)) :
    (acPairs q run l).length ≤ l.length + 1 := by
  induction l generalizing run with
  | nil => rfl
  | cons c l ih =>
    obtain ⟨v, u⟩ := c
    rw [acPairs]
    split
    · exact Nat.le_succ_of_le (ih _)
    · exact Nat.succ_le_succ (ih _)

theorem length_blockPairs_le (q : Block Byte) : (blockPairs q).length ≤ 64 := length_acPairs_le q 0 zigzag

theorem length_dcSymbols (dcp : Byte) (l : List (Block Byte)) : (dcSymbols dcp l).length = l.length := by
  induction l generalizing dcp with
  | nil => rfl
  | cons q l ih => rw [dcSymbols, List.length_cons, List.length_cons, ih]

/-- A plane of `N` blocks gives at most `64 N` symbols of each kind (00_scope.md R7). -/
theorem length_symbolsOf_le (k : Kind) (l : List (Block Byte)) : (symbolsOf k l).length ≤ 64 * l.length := by
  have flat : ∀ f : Byte × Byte → Byte, (l.flatMap fun q => (blockPairs q).map f).length ≤ 64 * l.length := by
    intro f
    induction l with
    | nil => rfl
    | cons q l ih =>
      have := length_blockPairs_le q
      rw [List.flatMap_cons, List.length_append, List.length_map, List.length_cons]
      omega
  cases k
  · rw [symbolsOf, length_dcSymbols]; omega
  · exact flat Prod.fst
  · exact flat Prod.snd

theorem length_imageBlocks (s : State) (p : Plane) :
    (imageBlocks s p).length = s.imgw.toNat / 8 * (s.imgh.toNat / 8) := by
  rw [imageBlocks, List.length_map, List.length_range]

theorem byteCount_le {bits : List Bool} {n : Nat} (h : bits.length ≤ n) : byteCount bits ≤ (n + 7) / 8 :=
  Nat.div_le_div_right (Nat.add_le_add_right h 7)

/-- A segment of an image of `N` blocks has at most `64 N` codes of at most 255 bits. -/
theorem byteCount_imageBits_le (s : State) (p : Plane) (k : Kind) {n : Nat}
    (h : s.imgw.toNat / 8 * (s.imgh.toNat / 8) ≤ n) : byteCount (imageBits s p k) ≤ (255 * (64 * n) + 7) / 8 := by
  refine byteCount_le (Nat.le_trans (length_ownBits_le _) (Nat.mul_le_mul_left 255 ?_))
  refine Nat.le_trans (length_symbolsOf_le _ _) (Nat.mul_le_mul_left 64 ?_)
  rw [length_imageBlocks]
  exact h

theorem totalLength_le {len : Plane → Kind → Nat} {n : Nat} (h : ∀ p k, len p k ≤ n) :
    totalLength len ≤ 2320 + 9 * n := by
  have := h .y .dc; have := h .y .run; have := h .y .val
  have := h .u .dc; have := h .u .run; have := h .u .val
  have := h .v .dc; have := h .v .run; have := h .v .val
  simp only [totalLength, allStreams, List.map_cons, List.map_nil, List.sum_cons, List.sum_nil]
  omega

theorem length_packBytes (n : Nat) (bits : List Bool) : (packBytes n bits).length = n := by
  induction n generalizing bits with
  | zero => rfl
  | succ n ih => rw [packBytes, List.length_cons, ih]

theorem length_packBits (bits : List Bool) : (packBits bits).length = byteCount bits := length_packBytes _ _

theorem testBit_packByte (bits : List Bool) (i : Nat) : (packByte bits).testBit i = bits.getD i false := by
  induction bits generalizing i with
  | nil => simp [packByte]
  | cons b bits ih =>
    rw [packByte]
    cases i with
    | zero => cases b <;> simp [Nat.testBit_zero]
    | succ i =>
      have half : ((if b = true then 1 else 0) + 2 * packByte bits) / 2 = packByte bits := by split <;> omega
      rw [Nat.testBit_succ, List.getD_cons_succ, ← ih, half]

/-- Bit `n mod 8` of byte `n div 8` of packed bits is bit `n`, and the pad bits are 0 (45_huffman.md R151). -/
theorem packBytes_bit (count : Nat) (bits : List Bool) (n : Nat) (h : n < 8 * count) :
    ((packBytes count bits).getD (n / 8) 0#8).getLsbD (n % 8) = bits.getD n false := by
  induction count generalizing bits n with
  | zero => omega
  | succ count ih =>
    rw [packBytes]
    by_cases hn : n < 8
    · rw [Nat.div_eq_of_lt hn, Nat.mod_eq_of_lt hn, List.getD_cons_zero, BitVec.getLsbD_ofNat, testBit_packByte]
      simp [hn, List.getD_eq_getElem?_getD]
    · obtain ⟨m, rfl⟩ : ∃ m, n = m + 8 := ⟨n - 8, by omega⟩
      rw [show (m + 8) / 8 = m / 8 + 1 from by omega, List.getD_cons_succ, show (m + 8) % 8 = m % 8 from by omega,
        ih _ _ (by omega)]
      simp [List.getD_eq_getElem?_getD, List.getElem?_drop, Nat.add_comm]

/-- A memory that holds packed bytes holds their bits. -/
theorem holdsBits_of_packed {m : Memory} {a : Nat} {bits : List Bool} (h : holdsBytes m a (packBits bits)) :
    holdsBits m (8 * a) bits := by
  intro i hi
  have hb : i / 8 < (packBits bits).length := by rw [length_packBits, byteCount]; omega
  have hbit := packBytes_bit ((bits.length + 7) / 8) bits i (by omega)
  rw [bitAt, show (8 * a + i) / 8 = a + i / 8 from by omega, show (8 * a + i) % 8 = i % 8 from by omega, h _ hb]
  exact hbit

end Sys2Proof.Machine
end

