-- ==== Sys2Proof/Laws/HostPort.lean ====
section
/-! SUPPORT. What one step does, by the oldest pending host access; which offset names which register. -/

namespace Sys2Proof.Machine

theorem mem_of_lookup {α β : Type} [BEq α] [LawfulBEq α] {a : α} {b : β} {l : List (α × β)}
    (h : l.lookup a = some b) : (a, b) ∈ l := by
  induction l with
  | nil => simp at h
  | cons x l ih =>
    obtain ⟨x, y⟩ := x
    rw [List.lookup_cons] at h
    split at h
    · rename_i hx
      simp only [beq_iff_eq] at hx
      simp_all
    · exact List.mem_cons_of_mem _ (ih h)

theorem fieldsOf_toNat (w : Word) :
    w.toNat = (fieldsOf w).op.toNat + 256 * (fieldsOf w).p.toNat + 1024 * (fieldsOf w).k.toNat +
      4096 * (fieldsOf w).rsv.toNat := by
  simp only [fieldsOf, BitVec.extractLsb'_toNat, Nat.shiftRight_eq_div_pow]
  have := w.isLt
  omega

theorem regAt_regOffset (r : Reg) : regAt (BitVec.ofNat 9 (regOffset r)) = some r := by
  cases r with
  | aclen p a => cases p <;> cases a <;> decide
  | dcp p => cases p <;> decide
  | slen p k => cases p <;> cases k <;> decide
  | srd p k => cases p <;> cases k <;> decide
  | bslen p k => cases p <;> cases k <;> decide
  | _ => decide

theorem regAt_eq_cmd : ∀ off : BitVec 9, regAt off = some .cmd → off = 0x004#9 := by decide

theorem regAt_eq_status : ∀ off : BitVec 9, regAt off = some .status → off = 0x008#9 := by decide

/-- Every register stands at a multiple of 4. -/
theorem regOffset_aligned (r : Reg) : (BitVec.ofNat 9 (regOffset r)).toNat % 4 = 0 := by
  cases r with
  | aclen p a => cases p <;> cases a <;> rfl
  | dcp p => cases p <;> rfl
  | slen p k => cases p <;> cases k <;> rfl
  | srd p k => cases p <;> cases k <;> rfl
  | bslen p k => cases p <;> cases k <;> rfl
  | _ => rfl

theorem step_of_pending {s : State} {a : HostAccess} {rest : List HostAccess} (h : s.pending = a :: rest) :
    step s = serve a { s with pending := rest } := by
  rw [step, serveNext, h]

theorem step_of_idle {s : State} (h : s.pending = []) : step s = .next s := by
  rw [step, serveNext, h]

/-- A step that takes a write of a word to `CMD` starts, runs and ends its command (60_exceptions.md R194). -/
theorem step_of_command {s : State} {w : Word} {rest : List HostAccess} (h : s.pending = .writeReg 0x004#9 w :: rest) :
    step s = commandEnds (runWord w (commandStart w { s with pending := rest })) := by
  rw [step_of_pending h]
  rfl

@[simp] theorem commandEnds_next (s : State) : commandEnds (.next s) = .next (commandEnd s) := rfl

/-- Every command answers a next state. -/
theorem exec_answers (i : Instr) (s : State) : ∃ t, exec i s = .next t := by
  cases i <;> exact ⟨_, rfl⟩

/-- Every word answers a next state, legal or not, accepted or not. -/
theorem runWord_answers (w : Word) (s : State) : ∃ t, runWord w s = .next t := by
  simp only [runWord]
  split
  · exact exec_answers _ _
  · exact exec_answers _ _
  · split
    · exact ⟨_, rfl⟩
    · exact exec_answers _ _
  · split <;> exact ⟨_, rfl⟩

theorem writeReg_answers (r : Reg) (v : Word) (s : State) : ∃ t, writeReg r v s = .next t := by
  cases r
  case cmd =>
    obtain ⟨t, ht⟩ := runWord_answers v (commandStart v s)
    exact ⟨commandEnd t, by rw [writeReg, issue, ht]; rfl⟩
  all_goals exact ⟨_, rfl⟩

theorem writeAt_answers (off : BitVec 9) (v : Word) (s : State) : ∃ t, writeAt off v s = .next t := by
  simp only [writeAt]
  split
  · exact writeReg_answers _ _ _
  · exact ⟨_, rfl⟩

/-! ### Bus addresses -/

/-- The register block answers at its own bus addresses, whatever windows the platform has. -/
theorem busTarget_register (m : MemMap) (off : BitVec 9) : busTarget m (m.regBase + off.toNat) = some (.reg off) := by
  have h : off.toNat < 0x200 := off.isLt
  simp [busTarget, Nat.ble_eq, Nat.blt_eq, h]

/-- The bytes of an element come back from the lanes of a slot that carries them all. -/
theorem fromLanes_toLanes {lanes : List Nat} {bytes : List Byte} (h : ∀ k, k < bytes.length → k ∈ lanes) :
    fromLanes lanes bytes.length (toLanes lanes bytes) = bytes := by
  refine List.ext_getElem (by simp [fromLanes]) fun k _ hk => ?_
  have hi : lanes.idxOf k < lanes.length := List.idxOf_lt_length_iff.2 (h k hk)
  simp [fromLanes, toLanes, List.getD_eq_getElem?_getD, List.getElem?_eq_getElem hi, hk]

/-- A register value comes back from its four bytes. -/
theorem wordOfBytes_bytes (v : Word) :
    wordOfBytes [v.extractLsb' 0 8, v.extractLsb' 8 8, v.extractLsb' 16 8, v.extractLsb' 24 8] = v := by
  refine BitVec.eq_of_getLsbD_eq fun i hi => ?_
  show (v.extractLsb' 24 8 ++ v.extractLsb' 16 8 ++ v.extractLsb' 8 8 ++ v.extractLsb' 0 8).getLsbD i = v.getLsbD i
  simp only [BitVec.getLsbD_append, BitVec.getLsbD_extractLsb']
  by_cases h0 : i < 8
  · simp [h0]
  by_cases h1 : i < 16
  · simp [h0, show i - 8 < 8 by omega, show 8 + (i - 8) = i by omega]
  by_cases h2 : i < 24
  · simp [h0, show ¬ i - 8 < 8 by omega, show i - 8 - 8 < 8 by omega, show 16 + (i - 8 - 8) = i by omega]
  · simp [h0, show ¬ i - 8 < 8 by omega, show ¬ i - 8 - 8 < 8 by omega, show i - 8 - 8 - 8 < 8 by omega,
      show 24 + (i - 8 - 8 - 8) = i by omega]

/-- Every access that the engine takes part in answers a next state. -/
theorem serve_answers {a : HostAccess} {s : State} (h : servable s.cfg.memMap a) : ∃ t, serve a s = .next t := by
  cases a
  case busRead addr =>
    obtain ⟨g, hg, hr⟩ := h
    simp only [serve, HostAccess.wf, if_true, busRead, hg]
    cases g with
    | reg off => simp [hr off rfl]
    | slot lanes e => cases e <;> exact ⟨_, rfl⟩
  case busWrite addr bytes =>
    obtain ⟨g, hg, hr, hs⟩ := h
    simp only [serve, HostAccess.wf, if_true, busWrite, hg]
    cases g with
    | reg off =>
      obtain ⟨h1, h2⟩ := hr off rfl
      simp only [h1, h2, beq_self_eq_true, Bool.and_self, if_true]
      exact writeAt_answers _ _ _
    | slot lanes e => cases e <;> exact ⟨_, by simp [hs lanes _ rfl]; rfl⟩
  all_goals
    have h' : HostAccess.wf _ = true := h
    simp only [serve, h', if_true]
  case writeReg off v => exact writeAt_answers _ _ _
  all_goals exact ⟨_, rfl⟩

end Sys2Proof.Machine
end

