-- ==== Sys2Proof/Laws/PerInstr.lean ====
section
/-! SUPPORT. Facts about every instruction as syntax, one lemma per constructor. -/

namespace Sys2Proof.Laws.EncodedWordLegal

/-- The word of a command meets the six conditions of 30_encoding.md R73, and decodes to the command. -/
def Statement (i : Instr) : Prop := (fieldsOf (encode i)).legal = true ∧ decode (encode i) = .ok i

theorem nop : Statement .nop := ⟨rfl, rfl⟩

theorem reset : Statement .reset := ⟨rfl, rfl⟩

theorem clrerr : Statement .clrerr := ⟨rfl, rfl⟩

theorem cscFwd : Statement .cscFwd := ⟨rfl, rfl⟩

theorem cscInv : Statement .cscInv := ⟨rfl, rfl⟩

theorem tileIn : Statement .tileIn := ⟨rfl, rfl⟩

theorem tileOut : Statement .tileOut := ⟨rfl, rfl⟩

theorem fdct (p : Plane) : Statement (.fdct p) := by
  cases p <;> exact ⟨rfl, rfl⟩

theorem idct (p : Plane) : Statement (.idct p) := by
  cases p <;> exact ⟨rfl, rfl⟩

theorem quant : Statement .quant := ⟨rfl, rfl⟩

theorem dequant : Statement .dequant := ⟨rfl, rfl⟩

theorem stq (p : Plane) : Statement (.stq p) := by
  cases p <;> exact ⟨rfl, rfl⟩

theorem ldq (p : Plane) : Statement (.ldq p) := by
  cases p <;> exact ⟨rfl, rfl⟩

theorem ccRst (p : Plane) : Statement (.ccRst p) := by
  cases p <;> exact ⟨rfl, rfl⟩

theorem ccEnc (p : Plane) : Statement (.ccEnc p) := by
  cases p <;> exact ⟨rfl, rfl⟩

theorem ccDec (p : Plane) : Statement (.ccDec p) := by
  cases p <;> exact ⟨rfl, rfl⟩

theorem hufLen (p : Plane) (k : Kind) : Statement (.hufLen p k) := by
  cases p <;> cases k <;> exact ⟨rfl, rfl⟩

theorem hufCode (p : Plane) (k : Kind) : Statement (.hufCode p k) := by
  cases p <;> cases k <;> exact ⟨rfl, rfl⟩

theorem hufEnc (p : Plane) (k : Kind) : Statement (.hufEnc p k) := by
  cases p <;> cases k <;> exact ⟨rfl, rfl⟩

theorem hufDec (p : Plane) (k : Kind) : Statement (.hufDec p k) := by
  cases p <;> cases k <;> exact ⟨rfl, rfl⟩

theorem hufDecAc (p : Plane) : Statement (.hufDecAc p) := by
  cases p <;> exact ⟨rfl, rfl⟩

theorem frame : Statement .frame := ⟨rfl, rfl⟩

theorem deframeHdr : Statement .deframeHdr := ⟨rfl, rfl⟩

theorem compress : Statement .compress := ⟨rfl, rfl⟩

theorem decompress : Statement .decompress := ⟨rfl, rfl⟩

end Sys2Proof.Laws.EncodedWordLegal
end

