-- ==== Sys2Proof/Tests/Slice0.lean ====
section
/-! SUPPORT. Tests: words and examples of the spec (95_test_vectors.md and the commands' own rules), an ill-formed term for
each check, and a state that meets the hypotheses of each statement that has some. -/

namespace Sys2Proof.Tests

open Sys2Proof.Machine

set_option Elab.async false

/-! ### Well-formedness: each check refuses a term (30_encoding.md R73, 20_memory.md R56) -/

theorem test_legal_fields : CommandFields.legal { op := 0x42#8, p := 2#2, k := 2#2, rsv := 0#20 } = true := by decide
theorem test_reserved_bit_refused : CommandFields.legal { op := 0x60#8, p := 0#2, k := 0#2, rsv := 1#20 } = false := by
  decide
theorem test_unassigned_op_refused : CommandFields.legal { op := 0x03#8, p := 0#2, k := 0#2, rsv := 0#20 } = false := by
  decide
theorem test_plane_three_refused : CommandFields.legal { op := 0x20#8, p := 3#2, k := 0#2, rsv := 0#20 } = false := by
  decide
theorem test_kind_three_refused : CommandFields.legal { op := 0x40#8, p := 0#2, k := 3#2, rsv := 0#20 } = false := by
  decide
theorem test_plane_not_taken_refused : CommandFields.legal { op := 0x22#8, p := 1#2, k := 0#2, rsv := 0#20 } = false := by
  decide
theorem test_kind_not_taken_refused : CommandFields.legal { op := 0x20#8, p := 0#2, k := 1#2, rsv := 0#20 } = false := by
  decide
theorem test_misaligned_access_refused : (HostAccess.readReg 0x006#9).wf = false := by decide
theorem test_aligned_access_accepted : (HostAccess.readReg 0x1FC#9).wf = true := by decide

/-! ### Decoding: one word per command, written out from 30_encoding.md R71, R72 (`rsv`, `K`, `P`, `OP`) -/

theorem test_decode_nop : decode (0x00000#20 ++ 0b00#2 ++ 0b00#2 ++ 0b00000000#8) = .ok .nop := by decide
theorem test_decode_reset : decode (0x00000#20 ++ 0b00#2 ++ 0b00#2 ++ 0b00000001#8) = .ok .reset := by decide
theorem test_decode_clrerr : decode (0x00000#20 ++ 0b00#2 ++ 0b00#2 ++ 0b00000010#8) = .ok .clrerr := by decide
theorem test_decode_cscFwd : decode (0x00000#20 ++ 0b00#2 ++ 0b00#2 ++ 0b00010000#8) = .ok .cscFwd := by decide
theorem test_decode_cscInv : decode (0x00000#20 ++ 0b00#2 ++ 0b00#2 ++ 0b00010001#8) = .ok .cscInv := by decide
theorem test_decode_tileIn : decode (0x00000#20 ++ 0b00#2 ++ 0b00#2 ++ 0b00010010#8) = .ok .tileIn := by decide
theorem test_decode_tileOut : decode (0x00000#20 ++ 0b00#2 ++ 0b00#2 ++ 0b00010011#8) = .ok .tileOut := by decide
theorem test_decode_fdct : decode (0x00000#20 ++ 0b00#2 ++ 0b01#2 ++ 0b00100000#8) = .ok (.fdct .u) := by decide
theorem test_decode_idct : decode (0x00000#20 ++ 0b00#2 ++ 0b10#2 ++ 0b00100001#8) = .ok (.idct .v) := by decide
theorem test_decode_quant : decode (0x00000#20 ++ 0b00#2 ++ 0b00#2 ++ 0b00100010#8) = .ok .quant := by decide
theorem test_decode_dequant : decode (0x00000#20 ++ 0b00#2 ++ 0b00#2 ++ 0b00100011#8) = .ok .dequant := by decide
theorem test_decode_stq : decode (0x00000#20 ++ 0b00#2 ++ 0b01#2 ++ 0b00100100#8) = .ok (.stq .u) := by decide
theorem test_decode_ldq : decode (0x00000#20 ++ 0b00#2 ++ 0b10#2 ++ 0b00100101#8) = .ok (.ldq .v) := by decide
theorem test_decode_ccRst : decode (0x00000#20 ++ 0b00#2 ++ 0b01#2 ++ 0b00110000#8) = .ok (.ccRst .u) := by decide
theorem test_decode_ccEnc : decode (0x00000#20 ++ 0b00#2 ++ 0b10#2 ++ 0b00110001#8) = .ok (.ccEnc .v) := by decide
theorem test_decode_ccDec : decode (0x00000#20 ++ 0b00#2 ++ 0b00#2 ++ 0b00110010#8) = .ok (.ccDec .y) := by decide
theorem test_decode_hufLen : decode (0x00000#20 ++ 0b01#2 ++ 0b01#2 ++ 0b01000000#8) = .ok (.hufLen .u .run) := by decide
theorem test_decode_hufCode : decode (0x00000#20 ++ 0b10#2 ++ 0b00#2 ++ 0b01000001#8) = .ok (.hufCode .y .val) := by
  decide
theorem test_decode_hufEnc : decode (0x00000#20 ++ 0b10#2 ++ 0b10#2 ++ 0b01000010#8) = .ok (.hufEnc .v .val) := by decide
theorem test_decode_hufDec : decode (0x00000#20 ++ 0b00#2 ++ 0b10#2 ++ 0b01000011#8) = .ok (.hufDec .v .dc) := by decide
theorem test_decode_hufDecAc : decode (0x00000#20 ++ 0b00#2 ++ 0b01#2 ++ 0b01000100#8) = .ok (.hufDecAc .u) := by decide
theorem test_decode_frame : decode (0x00000#20 ++ 0b00#2 ++ 0b00#2 ++ 0b01010000#8) = .ok .frame := by decide
theorem test_decode_deframeHdr : decode (0x00000#20 ++ 0b00#2 ++ 0b00#2 ++ 0b01010001#8) = .ok .deframeHdr := by decide
theorem test_decode_compress : decode (0x00000#20 ++ 0b00#2 ++ 0b00#2 ++ 0b01100000#8) = .ok .compress := by decide
theorem test_decode_decompress : decode (0x00000#20 ++ 0b00#2 ++ 0b00#2 ++ 0b01100001#8) = .ok .decompress := by decide
theorem test_decodeTableWord : decodeTableWord 32 0x00000A42 = some (.hufEnc .v .val) := by decide

/-! ### One step of each command on a small state -/

/-- The state a command leaves. -/
def after (i : Instr) (s : State) : State :=
  match exec i s with
  | .next t => t
  | .fault _ => s
  | .refused _ => s

/-- The state one step leaves. -/
def stepped (s : State) : State :=
  match step s with
  | .next t => t
  | .fault _ => s
  | .refused _ => s

/-- The state after reset with one host access pending. -/
def asked (a : HostAccess) : State := { State.reset with pending := [a] }

/-- The error record. -/
def record (s : State) : Bool × ErrCode × Word := (s.err, s.errcode, s.errinfo)

/-- 40_control.md R90's example. -/
theorem test_nop : readReg .status (stepped (asked (.writeReg 0x004#9 0#32))) = 0b010#32 := by decide +kernel

/-- The placed word is fetched and run: 40_control.md R91, with the error of its example set before. -/
theorem test_reset_word :
    let t := stepped ({ State.reset with err := true, errcode := .magic, blkw := 2#8 }.withFetchWord 32 0x00000001)
    (readReg .status t, t.errcode, t.blkw) = (0b010#32, .none, 0#8) := by decide +kernel

/-- 40_control.md R92's example. -/
theorem test_clrerr :
    let t := stepped { asked (.writeReg 0x004#9 2#32) with err := true, errcode := .magic, errinfo := 5#32 }
    (readReg .status t, record t) = (0b010#32, false, .none, 0#32) := by decide +kernel

/-- 60_exceptions.md R195: a refused word changes `CMD` and `DONE` only. -/
theorem test_refused :
    let t := stepped { asked (.writeReg 0x004#9 0xFFFFFFFF#32) with err := true, errcode := .zz, errinfo := 5#32 }
    (readReg .status t, t.cmd, record t) = (0b110#32, 0xFFFFFFFF#32, true, .zz, 5#32) := by decide +kernel

/-- 30_encoding.md R75: an illegal word is `E_ILLCMD` with the word as information. -/
theorem test_illegal_word :
    let t := stepped (asked (.writeReg 0x004#9 0x00000320#32))
    (readReg .status t, record t) = (0b110#32, true, .illcmd, 0x320#32) := by decide +kernel

/-- 41_color.md R99's example. -/
theorem test_cscFwd : (after .cscFwd { State.reset with pix := 0x3264C8#24 }).yuv = 0xCB80FC#24 := by decide +kernel

/-- 41_color.md R100's example. -/
theorem test_cscInv : (after .cscInv { State.reset with yuv := 0xCB80FC#24 }).pix = 0x7C55C7#24 := by decide +kernel

/-- One pixel (200, 200, 200) at (8, 0) of a 16 by 8 image of black ones. -/
def onePixel : State :=
  { State.reset with
    blkw := 2#8, blkh := 1#8, imgw := 16#16, imgh := 8#16, bidx := 1#16
    img := [(24, 200#8), (25, 200#8), (26, 200#8)] }

/-- 41_color.md R101: the pixel is row 0, column 0 of block 1; grey 200 is (72, −128, −128), black is −128 three times. -/
theorem test_tileIn :
    let b := (after .tileIn onePixel).sb
    (b.y.at 0 0, b.u.at 0 0, b.v.at 0 0, b.y.at 0 1, b.y.at 1 0) = (72#8, 0x80#8, 0x80#8, 0x80#8, 0x80#8) := by
  decide +kernel

/-- 41_color.md R101: a block index out of range. -/
theorem test_tileIn_range : record (after .tileIn { onePixel with bidx := 2#16 }) = (true, .range, 2#32) := by
  decide +kernel

/-- 41_color.md R102's example, at two corners of the tile, and one pixel outside it. -/
theorem test_tileOut :
    let m := (after .tileOut { onePixel with sb := { y := Block.all 72#8, u := Block.all 0x80#8, v := Block.all 0x80#8 } }).img
    (m.readPixel 8 0, m.readPixel 15 7, m.readPixel 7 7) =
      ({ r := 200#8, g := 200#8, b := 200#8 }, { r := 200#8, g := 200#8, b := 200#8 }, { r := 0#8, g := 0#8, b := 0#8 }) := by
  decide +kernel

/-- 41_color.md R102: the grid does not fit the image. -/
theorem test_tileOut_range : record (after .tileOut { onePixel with imgw := 15#16 }) = (true, .range, 1#32) := by
  decide +kernel

/-- 42_dct.md R110's example: a horizontal ramp. -/
theorem test_fdct :
    let f : Block Byte := Block.make fun _ i => BitVec.ofInt 8 (16 * (i.val : Int) - 56)
    let c := (after (.fdct .u) { State.reset with sb := { y := Block.all 0#8, u := f, v := Block.all 0#8 } }).cb
    ((List.finRange 8).map fun u => (c.at 0 u).toInt, (c.at 1 1).toInt) = ([0, -292, 0, -30, 0, -9, 0, -2], 0) := by
  decide +kernel

/-- 42_dct.md R111's example. -/
theorem test_idct :
    let b := (after (.idct .v) { State.reset with cb := (Block.all 0#16).put 0 1 100#16 }).sb.v
    (List.finRange 8).map (fun i => (b.at 5 i).toInt) = [17, 15, 10, 3, -3, -10, -15, -17] := by decide +kernel

/-- 43_quant.md R122's example and its saturation. -/
theorem test_quant :
    let c := ((((Block.all 0#16).put 0 0 (half (-415))).put 0 1 (half (-30))).put 3 0 (half (-49))).put 0 2 (half 32767)
    let q := (after .quant { State.reset with cb := c }).qb
    ((q.at 0 0).toInt, (q.at 0 1).toInt, (q.at 3 0).toInt, (q.at 0 2).toInt) = (-26, -3, -4, 127) := by decide +kernel

/-- 43_quant.md R123's example. -/
theorem test_dequant :
    let q := (((Block.all 0#8).put 0 0 (byteOf (-26))).put 0 1 (byteOf (-3))).put 3 0 (byteOf (-4))
    let c := (after .dequant { State.reset with qb := q }).cb
    ((c.at 0 0).toInt, (c.at 0 1).toInt, (c.at 3 0).toInt) = (-416, -33, -56) := by decide +kernel

/-- 43_quant.md R124's example: block 3 of plane U. -/
theorem test_stq :
    let t := after (.stq .u) { State.reset with blkw := 2#8, blkh := 2#8, bidx := 3#16, qb := (Block.all 0#8).put 1 2 9#8 }
    (t.qp.u, t.qp.y) = ([(202, 9#8)], []) := by decide +kernel

/-- 43_quant.md R125: the same element back. -/
theorem test_ldq :
    (after (.ldq .u) { State.reset with
      blkw := 2#8, blkh := 2#8, bidx := 3#16, qp := { y := [], u := [(202, 9#8)], v := [] } }).qb.at 1 2 = 9#8 := by
  decide +kernel

/-- 44_coefcoder.md R132's example. -/
theorem test_ccRst :
    let t := after (.ccRst .u) { State.reset with
      slen := (PerStream.all 7#32).put .u .run 40#32, dcp := { y := 1#8, u := 0xE6#8, v := 2#8 } }
    (t.slen.u, t.slen.v.dc, t.dcp) = ({ dc := 0#32, run := 0#32, val := 0#32 }, 7#32, { y := 1#8, u := 0#8, v := 2#8 }) := by
  decide +kernel

/-- The block of 44_coefcoder.md R133's example. -/
def exampleBlock : Block Byte := (((Block.all 0#8).put 0 0 5#8).put 0 1 3#8).put 2 0 (byteOf (-2))

/-- 44_coefcoder.md R133's example. -/
theorem test_ccEnc :
    let t := after (.ccEnc .y) { State.reset with qb := exampleBlock, dcp := { y := 2#8, u := 0#8, v := 0#8 } }
    (t.syms.y, t.slen.y, t.dcp.y) =
      ({ dc := [(0, 3#8)], run := [(1, 1#8)], val := [(0, 3#8), (1, 254#8)] },
        { dc := 1#32, run := 3#32, val := 3#32 }, 5#8) := by decide +kernel

/-- 44_coefcoder.md R134's examples: pairs (3, 0), (0, 9), (0, 0), and `d` = 10 with the predictor at −3. -/
theorem test_ccDec :
    let t := after (.ccDec .y) { State.reset with
      syms := (((PerStream.all ([] : Memory)).put .y .dc [(0, 10#8)]).put .y .run [(0, 3#8)]).put .y .val [(1, 9#8)]
      slen := PerStream.all 3#32
      dcp := { y := 0xFD#8, u := 0#8, v := 0#8 } }
    (t.qb.at 0 0, t.qb.at 0 2, t.qb.at 1 1, t.srd.y) = (7#8, 9#8, 0#8, { dc := 1#32, run := 3#32, val := 3#32 }) := by
  decide +kernel

/-- 44_coefcoder.md R134's example: pairs (62, 5), (0, 7) raise `E_ZZ`. -/
theorem test_ccDec_zz :
    record (after (.ccDec .y) { State.reset with
      syms := ((PerStream.all ([] : Memory)).put .y .run [(0, 62#8)]).put .y .val [(0, 5#8), (1, 7#8)]
      slen := PerStream.all 3#32 }) = (true, .zz, 0#32) := by decide +kernel

/-- 45_huffman.md R148's example: four 5s and one 9. -/
theorem test_hufLen :
    let t := after (.hufLen .u .run) { State.reset with
      syms := (PerStream.all ([] : Memory)).put .u .run [(0, 5#8), (1, 5#8), (2, 9#8), (3, 5#8), (4, 5#8)]
      slen := PerStream.all 5#32 }
    let l := t.lt.u.run
    ([5, 9, 254, 255, 0, 253].map l.read, t.lt.y.dc) = ([1#8, 2#8, 9#8, 9#8, 10#8, 10#8], []) := by decide +kernel

/-- The codes of 45_huffman.md R150 example (a). -/
def exampleCodes : CodeTable :=
  [(65, { len := 2#8, code := 0b10#255 }), (66, { len := 1#8, code := 0#255 }), (67, { len := 3#8, code := 0b110#255 }),
    (68, { len := 3#8, code := 0b111#255 })]

/-- 45_huffman.md R150 example (a). -/
theorem test_hufCode :
    (after (.hufCode .v .dc) { State.reset with
      lt := (PerStream.all ([] : Memory)).put .v .dc [(65, 2#8), (66, 1#8), (67, 3#8), (68, 3#8)] }).ct.v.dc =
      exampleCodes := by decide +kernel

/-- 45_huffman.md R150 example (c). -/
theorem test_hufCode_table :
    record (after (.hufCode .v .dc) { State.reset with
      lt := (PerStream.all ([] : Memory)).put .v .dc [(0, 1#8), (1, 1#8), (2, 1#8)] }) = (true, .table, 2#32) := by
  decide +kernel

/-- 45_huffman.md R152's first example. -/
theorem test_hufEnc :
    let t := after (.hufEnc .y .val) { State.reset with
      syms := (PerStream.all ([] : Memory)).put .y .val [(0, 66#8), (1, 65#8), (2, 67#8), (3, 68#8), (4, 66#8)]
      slen := PerStream.all 5#32
      ct := PerStream.all exampleCodes }
    (t.bs.y.val, t.bslen.y.val) = ([(0, 0xDA#8), (1, 0x01#8)], 2#32) := by decide +kernel

/-- 45_huffman.md R152: the first symbol without a code. -/
theorem test_hufEnc_nocode :
    record (after (.hufEnc .y .val) { State.reset with
      syms := (PerStream.all ([] : Memory)).put .y .val [(0, 66#8), (1, 64#8)]
      slen := PerStream.all 3#32
      ct := PerStream.all exampleCodes }) = (true, .nocode, 1#32) := by decide +kernel

/-- The container buffer of 45_huffman.md R155's example. -/
def exampleSegment (count : Word) : State :=
  { State.reset with
    cbuf := [(100, 0xDA#8), (101, 0x01#8)], clen := 102#32, cptr := 100#32, count := count
    ct := PerStream.all exampleCodes }

/-- 45_huffman.md R155's example. -/
theorem test_hufDec :
    let t := after (.hufDec .u .dc) (exampleSegment 5#32)
    (t.syms.u.dc, t.slen.u.dc, t.cptr) =
      ([(0, 66#8), (1, 65#8), (2, 67#8), (3, 68#8), (4, 66#8)], 5#32, 102#32) := by decide +kernel

/-- 45_huffman.md R155's example: the twelfth symbol. -/
theorem test_hufDec_exhaust : record (after (.hufDec .u .dc) (exampleSegment 12#32)) = (true, .exhaust, 102#32) := by
  decide +kernel

/-- A code table with the one code 0 for symbol 0. -/
def zeroCode : CodeTable := [(0, { len := 1#8, code := 0#255 })]

/-- The state of 45_huffman.md R156's example, at `CPTR` = 10. -/
def zeroSegments : State :=
  { State.reset with
    clen := 12#32, cptr := 10#32, blkw := 1#8, blkh := 1#8, ct := PerStream.all zeroCode
    aclen := PerPlane.all { run := 1#16, val := 1#16 } }

/-- 45_huffman.md R156's example. -/
theorem test_hufDecAc :
    let t := after (.hufDecAc .v) zeroSegments
    (t.slen.v, t.syms.v, t.cptr, t.err) =
      ({ dc := 0#32, run := 1#32, val := 1#32 }, { dc := [], run := [], val := [] }, 12#32, false) := by decide +kernel

/-- 45_huffman.md R156: whole bytes of the run segment left over. -/
theorem test_hufDecAc_format :
    record (after (.hufDecAc .v) { zeroSegments with
      clen := 13#32, aclen := PerPlane.all { run := 2#16, val := 1#16 } }) = (true, .format, 11#32) := by decide +kernel

/-- The lengths of 46_container.md R171's example. -/
def exampleLengths : State :=
  { State.reset with
    blkw := 1#8, blkh := 1#8
    bslen := ((PerStream.all 1#32).put .y .run 3#32).put .y .val 8#32
    bs := (PerStream.all ([] : Memory)).put .y .val [(0, 0xAB#8)] }

/-- 46_container.md R171's example. -/
theorem test_frame :
    let t := after .frame exampleLengths
    (t.cbuf, t.clen, t.aclen.y) =
      ([(0, 0x49#8), (1, 0x4D#8), (2, 1#8), (3, 1#8), (4, 3#8), (6, 8#8), (8, 1#8), (10, 1#8), (12, 1#8), (14, 1#8),
        (2324, 0xAB#8)], 2338#32, { run := 3#16, val := 8#16 }) := by decide +kernel

/-- 46_container.md R171: the lowest count that cannot hold its length. -/
theorem test_frame_seglen :
    record (after .frame { State.reset with
      bslen := ((PerStream.all 0#32).put .v .run 65536#32).put .u .val 65536#32 }) = (true, .seglen, 3#32) := by
  decide +kernel

/-- The container of 46_container.md R171's example as `DEFRAME_HDR` finds it. -/
def exampleContainer (len : Word) : State :=
  { State.reset with
    clen := len
    cbuf := [(0, 0x49#8), (1, 0x4D#8), (2, 1#8), (3, 1#8), (4, 3#8), (6, 8#8), (8, 1#8), (10, 1#8), (12, 1#8),
      (14, 1#8), (272, 7#8)] }

/-- 46_container.md R172's example; offset 272 is entry 0 of the table of Y RUN. -/
theorem test_deframeHdr :
    let t := after .deframeHdr (exampleContainer 2338#32)
    (t.blkw, t.aclen.y, t.aclen.v, t.cptr, t.lt.y.run) =
      (1#8, { run := 3#16, val := 8#16 }, { run := 1#16, val := 1#16 }, 2320#32, [(0, 7#8)]) := by decide +kernel

/-- 46_container.md R172's example: 15 bytes of AC data are declared and none is present. -/
theorem test_deframeHdr_trunc : record (after .deframeHdr (exampleContainer 2320#32)) = (true, .trunc, 2320#32) := by
  decide +kernel

/-- 47_codec.md R181, 60_exceptions.md R191: the information word of `E_DIM`. -/
theorem test_compress_dim :
    record (after .compress { State.reset with imgw := 12#16, imgh := 8#16 }) = (true, .dim, 0x0008000C#32) := by
  decide +kernel

/-- 47_codec.md R184: a buffer without the magic. -/
theorem test_decompress_magic : record (after .decompress State.reset) = (true, .magic, 0#32) := by decide +kernel

/-! ### The host's side -/

/-- 20_memory.md R55: `PIX` holds R, G, B at its byte offsets 0, 1, 2. -/
theorem test_regByte : (regByte 0x3264C8#32 0, regByte 0x3264C8#32 1, regByte 0x3264C8#32 2) = (0xC8#8, 0x64#8, 0x32#8) := by
  decide

/-- 10_state.md R26: the last of the three arrays ends at 0x120. -/
theorem test_regAt : (regAt 0x120#9, regAt 0x124#9, regAt 0x0A0#9) = (some (.bslen .v .val), none, some (.slen .v .val)) := by
  decide

/-- A platform with the register block at bus address 0x1000, `CB` at 0 with the high byte first, two rows of four pixels of
`IMG` at 0x2000 with a filler byte behind each, and one element more than `LT[Y][DC]` has, at 0x3000. -/
def exampleMap : MemMap :=
  { regBase := 0x1000
    windows :=
      [{ base := 0, space := .cb, elements := 64, lanes := [1, 0], rowPitch := 0 },
        { base := 0x2000, space := .img, elements := 8, lanes := [0, 1, 2, 3], rowPitch := 4 },
        { base := 0x3000, space := .lt .y .dc, elements := 257, lanes := [0], rowPitch := 0 }] }

/-- A state of that platform with one host access pending. -/
def onBus (a : HostAccess) : State :=
  { asked a with cfg := { Config.defaults with memMap := exampleMap } }

/-- Element (1, 2) of `CB` stands in slot 10; pixel (2, 1) in slot 6, its filler ignored. -/
theorem test_busWrite :
    ((stepped (onBus (.busWrite 20 [0x12#8, 0x34#8]))).cb.at 1 2,
      (stepped (onBus (.busWrite 0x2018 [1#8, 2#8, 3#8, 9#8]))).img.readPixel 2 1) =
      (0x1234#16, { r := 1#8, g := 2#8, b := 3#8 }) := by decide +kernel

/-- 20_memory.md R55: `ID` over the bus, its least significant byte first. -/
theorem test_bus_register :
    ((stepped (onBus (.busRead 0x1000))).reply, (stepped (onBus (.busWrite 0x1018 [8#8, 1#8, 0#8, 0#8]))).imgw) =
      (some (.word 0x494D3301#32), 0x108#16) := by decide +kernel

/-- 30_encoding.md R83: `ENCBLK U` is four command words. -/
theorem test_pseudo :
    pseudoEncBlk .u = [commandAccess 0x120#32, commandAccess 0x22#32, commandAccess 0x124#32, commandAccess 0x131#32] := by
  decide

/-! ### States that meet the hypotheses of the statements, clause by clause at the edges -/

theorem hyps_LegalWordsMeetSixConditions :
    let w := 0x00000A42#32
    (w.extractLsb' 12 20 = 0#20 ∧ (w.extractLsb' 0 8).toNat ∈ [0x40, 0x41, 0x42, 0x43] ∧ w.extractLsb' 8 2 ≠ 3#2 ∧
      w.extractLsb' 10 2 ≠ 3#2) ∧ ¬ (0x00000320#32).extractLsb' 8 2 ≠ 3#2 := by decide

theorem hyps_StepRunsDecodedCommand :
    let s := asked (.writeReg 0x004#9 0x120#32)
    let t := { asked (.writeReg 0x004#9 1#32) with err := true }
    (s.pending = [.writeReg 0x004#9 0x120#32] ∧ decode 0x120#32 = .ok (.fdct .u) ∧ s.err = false) ∧
    (t.pending = [.writeReg 0x004#9 1#32] ∧ decode 1#32 = .ok .reset ∧ t.err = true) ∧ 0x120 < 2 ^ 32 := by
  exact ⟨⟨rfl, rfl, rfl⟩, ⟨rfl, rfl, rfl⟩, by decide⟩

theorem hyps_CommandStartsAndEnds :
    (asked (.writeReg 0x004#9 0x3#32)).err = false ∧ (∀ i, decode 0x3#32 ≠ .ok i) ∧
    (asked (.writeReg 0x004#9 0x60#32)).err = false ∧ decode 0x60#32 = .ok .compress ∧
    (asked (.writeReg 0x004#9 0x60#32)).pending = .writeReg 0x004#9 0x60#32 :: [] ∧
    { asked (.writeReg 0x004#9 0x3#32) with err := true }.err = true ∧ (0x3#32 ≠ 1#32 ∧ 0x3#32 ≠ 2#32) := by
  refine ⟨rfl, fun i h => ?_, rfl, rfl, rfl, rfl, by decide⟩
  have : decode 0x3#32 = .error .unassignedOp := rfl
  rw [this] at h
  cases h

theorem hyps_CommandsAreRefusedWhileError :
    let s := { asked (.writeReg 0x004#9 0#32) with err := true }
    let t := asked (.writeReg 0x020#9 5#32)
    (s.pending = [.writeReg 0x004#9 0#32] ∧ s.err = true ∧ s.busy = false ∧ 0#32 ≠ 1#32 ∧ 0#32 ≠ 2#32) ∧
    (t.pending = [.writeReg 0x020#9 5#32] ∧ (∀ w, HostAccess.writeReg 0x020#9 5#32 ≠ .writeReg 0x004#9 w) ∧
      HostAccess.writeReg 0x020#9 5#32 ≠ .readReg 0x008#9 ∧ HostAccess.writeReg 0x020#9 5#32 ≠ .assertReset ∧
      (∀ addr bytes, HostAccess.writeReg 0x020#9 5#32 ≠ .busWrite addr bytes) ∧
      (∀ addr, HostAccess.writeReg 0x020#9 5#32 ≠ .busRead addr) ∧
      step t = .next { t with pending := [], blkw := 5#8 }) ∧
    (busTarget exampleMap 0x1008 ≠ some (.reg 0x004#9) ∧ busTarget exampleMap 0x1004 = some (.reg 0x004#9) ∧
      step (onBus (.busWrite 0x1008 [0#8, 0#8, 0#8, 0#8])) = .next (stepped (onBus (.busWrite 0x1008
        [0#8, 0#8, 0#8, 0#8])))) := by
  refine ⟨⟨rfl, rfl, rfl, by decide, by decide⟩,
    ⟨rfl, fun w h => ?_, by decide, by decide, nofun, nofun, rfl⟩, by decide, by decide, rfl⟩
  injection h with h1
  exact absurd h1 (by decide)

theorem hyps_FirstErrorIsKept :
    let s := { asked (.writeReg 0x004#9 0#32) with err := true, errcode := .zz }
    s.err = true ∧ step s = .next (stepped s) := ⟨rfl, rfl⟩

theorem hyps_ResetLeavesResetValues :
    (asked .assertReset).pending = .assertReset :: [] ∧
    (asked (.writeReg 0x004#9 1#32)).pending = .writeReg 0x004#9 1#32 :: [] := ⟨rfl, rfl⟩

theorem hyps_NopChangesNothing : (asked (.writeReg 0x004#9 0#32)).pending = .writeReg 0x004#9 0#32 :: [] := rfl

/-- An idle engine without an error and with empty memories is safe. -/
theorem safe_of_empty (w : BitVec 16) : Safe { State.reset with imgw := w } where
  idle := rfl
  errorFree := fun _ => ⟨rfl, rfl⟩
  errorNamed := fun h => by cases h
  cbufCanonical := rfl
  cbufWithin := rfl
  imgCanonical := rfl
  imgWithin := rfl
  qpCanonical := fun p => by cases p <;> rfl
  qpWithin := fun p => by cases p <;> rfl
  symsCanonical := fun p k => by cases p <;> cases k <;> rfl
  symsWithin := fun p k => by cases p <;> cases k <;> rfl
  bsCanonical := fun p k => by cases p <;> cases k <;> rfl
  bsWithin := fun p k => by cases p <;> cases k <;> rfl
  ltCanonical := fun p k => by cases p <;> cases k <;> rfl
  ltWithin := fun p k => by cases p <;> cases k <;> rfl
  ctCanonical := fun p k => by cases p <;> cases k <;> rfl

theorem hyps_ClrerrClearsTheError :
    Safe { State.reset with imgw := 8#16 } ∧ { State.reset with imgw := 8#16 }.err = false ∧
    (asked (.writeReg 0x004#9 2#32)).pending = .writeReg 0x004#9 2#32 :: [] := ⟨safe_of_empty 8#16, rfl, rfl⟩

theorem hyps_StepKeepsSafe :
    Safe { State.reset with imgw := 8#16 } ∧
    step { State.reset with imgw := 8#16 } = .next { State.reset with imgw := 8#16 } := ⟨safe_of_empty 8#16, rfl⟩

theorem hyps_RegisterWritesReadBack :
    plainlyStored (.bslen .v .val) = true ∧ BitVec.ofNat 9 (regOffset (.bslen .v .val)) = 0x120#9 ∧
    (asked (.writeReg 0x120#9 5#32)).pending = .writeReg 0x120#9 5#32 :: [] ∧
    (asked (.readReg 0x120#9)).pending = .readReg 0x120#9 :: [] ∧ (0x1FC#9).toNat % 4 = 0 ∧
    (onBus (.busRead 0x11FC)).pending = .busRead (exampleMap.regBase + (0x1FC#9).toNat) :: [] ∧
    (onBus (.busWrite 0x1000 [5#8, 0#8, 0#8, 0#8])).pending =
      .busWrite (exampleMap.regBase + (0x000#9).toNat) [5#8, 0#8, 0#8, 0#8] :: [] := by decide

theorem hyps_FixedOffsetsIgnoreWrites :
    (∀ off ∈ [0x064#9, 0x07C#9, 0x0A4#9, 0x0BC#9, 0x0E4#9, 0x0FC#9, 0x124#9, 0x1FC#9],
      off.toNat % 4 = 0 ∧ (0x064 ≤ off.toNat ∧ off.toNat ≤ 0x07C ∨ 0x0A4 ≤ off.toNat ∧ off.toNat ≤ 0x0BC ∨
        0x0E4 ≤ off.toNat ∧ off.toNat ≤ 0x0FC ∨ 0x124 ≤ off.toNat ∧ off.toNat ≤ 0x1FC)) ∧
    (asked (.readReg 0x1FC#9)).pending = .readReg 0x1FC#9 :: [] ∧
    (asked (.writeReg 0x064#9 1#32)).pending = .writeReg 0x064#9 1#32 :: [] := by decide

theorem hyps_DoneDrivesTheInterrupt :
    let s := { asked (.writeReg 0x004#9 0x10#32) with ie := true }
    s.pending = .writeReg 0x004#9 0x10#32 :: [] ∧ 0x10#32 ≠ 1#32 ∧ step s = .next (stepped s) ∧
    (asked (.writeReg 0x008#9 2#32)).pending = .writeReg 0x008#9 2#32 :: [] ∧
    (asked (.writeReg 0x00C#9 1#32)).pending = .writeReg 0x00C#9 1#32 :: [] := by
  exact ⟨rfl, by decide, rfl, rfl, rfl⟩

theorem hyps_HostReadsChangeNothing :
    readsOnly (.readReg 0x1FC#9) = true ∧ servable State.reset.cfg.memMap (.readReg 0x1FC#9) ∧
    (asked (.readReg 0x1FC#9)).pending = .readReg 0x1FC#9 :: [] ∧ State.reset.pending = [] ∧
    readsOnly (.busRead 0x3100) = true ∧ servable exampleMap (.busRead 0x3100) ∧
    (onBus (.busRead 0x3100)).pending = .busRead 0x3100 :: [] := by
  refine ⟨rfl, rfl, rfl, rfl, rfl, ⟨.slot [0] none, by decide, fun off h => by cases h⟩, rfl⟩

theorem hyps_WindowReadsBackWrites :
    (asked (.writeByte (.s .v .val 4161599) 7#8)).pending = .writeByte (.s .v .val 4161599) 7#8 :: [] ∧
    inCapacity (.s .v .val 4161599) State.reset = true ∧ inCapacity (.s .v .val 4161600) State.reset = false ∧
    inCapacity (.cbuf 16777215) State.reset = true ∧ inCapacity (.cbuf 16777216) State.reset = false ∧
    inCapacity (.qp .y 65024 7 7) State.reset = true ∧ inCapacity (.qp .y 65025 0 0) State.reset = false ∧
    inCapacity (.bs .y .dc 4194303) State.reset = true ∧ inCapacity (.bs .y .dc 4194304) State.reset = false ∧
    (asked (.writePixel 65535#16 0#16 { r := 1#8, g := 2#8, b := 3#8 })).pending =
      .writePixel 65535#16 0#16 { r := 1#8, g := 2#8, b := 3#8 } :: [] ∧
    (asked (.writeCoef 7 7 0x8000#16)).pending = .writeCoef 7 7 0x8000#16 :: [] := by decide +kernel

/-- For the bus clauses of `WindowReadsBackWrites`: the last coefficient, the last pixel, the last element of a length
table and the slot behind it, and an address just below the register block. -/
theorem hyps_WindowReadsBackWrites_bus :
    (∀ w ∈ exampleMap.windows, ∀ k, k < spaceWidth w.space → k ∈ w.lanes) ∧
    (63 < 64 ∧ 126 = 0 + [1, 0].length * 63 ∧ 126 < exampleMap.regBase) ∧
    busTarget exampleMap 126 = some (.slot [1, 0] (some (.coef 7 7))) ∧
    busTarget exampleMap 0x201C = some (.slot [0, 1, 2, 3] (some (.pixel 3#16 1#16))) ∧
    busTarget exampleMap 0x30FF = some (.slot [0] (some (.byte (.lt .y .dc 255#8)))) ∧
    busTarget exampleMap 0x3100 = some (.slot [0] none) ∧
    exampleMap.regBase + 0x200 ≤ 0x2000 ∧ busTarget exampleMap 0xFFF = none := by decide +kernel

theorem hyps_StepStopsOnlyOnUnservableAccess :
    let m := State.reset.cfg.memMap
    (asked (.readReg 0x1FF#9)).pending = .readReg 0x1FF#9 :: [] ∧
    (¬ servable m (.readReg 0x1FF#9) ∧ touchesRegisters m (.readReg 0x1FF#9)) ∧
    (asked (.busRead 0x200)).pending = .busRead 0x200 :: [] ∧
    (¬ servable m (.busRead 0x200) ∧ ¬ touchesRegisters m (.busRead 0x200)) := by
  have h : busTarget State.reset.cfg.memMap 0x200 = none := by decide
  refine ⟨rfl, ⟨fun h => ?_, trivial⟩, rfl, fun ⟨g, hg, _⟩ => ?_, fun ⟨off, hg⟩ => ?_⟩
  · cases h
  · rw [h] at hg
    cases hg
  · rw [h] at hg
    cases hg

theorem hyps_CscFwdConvertsThePixel :
    { State.reset with pix := 0xFFFFFF#24 }.pix = (0xFF#8 ++ 0xFF#8 ++ 0xFF#8 : BitVec 24) ∧
    { State.reset with pix := 0x3264C8#24 }.pix = 0x3264C8#24 ∧ State.reset.cfg.cscMap = .clampThenShift := by decide

theorem hyps_CscInvConvertsTheSamples :
    (0x7F#8).toInt + 128 + ((0x81#8).toInt + 128) > 255 ∧
    194 * ((0x7F#8).toInt + 128) + 509 * ((0x7F#8).toInt + 128) > 1000 * ((0x80#8).toInt + 128) := by decide

theorem hyps_ColourMapsPreserve :
    let c : Pixel := { r := 200#8, g := 100#8, b := 255#8 }
    0 ≤ -299 * (c.r.toNat : Int) - 587 * (c.g.toNat : Int) + 886 * (c.b.toNat : Int) ∧
    0 ≤ 701 * (c.r.toNat : Int) - 587 * (c.g.toNat : Int) - 114 * (c.b.toNat : Int) := by decide

/-- For `TileInReadsTheTile` and `TileOutWritesTheTile`. -/
theorem hyps_tile_commands :
    onePixel.blkw.toNat * onePixel.blkh.toNat ≤ (2#16).toNat ∧
    onePixel.bidx.toNat < onePixel.blkw.toNat * onePixel.blkh.toNat ∧ (15#16).toNat < 8 * onePixel.blkw.toNat ∧
    8 * onePixel.blkw.toNat ≤ onePixel.imgw.toNat ∧ 8 * onePixel.blkh.toNat ≤ onePixel.imgh.toNat ∧
    (7#16).toNat < 8 * onePixel.blkh.toNat := by decide +kernel

theorem hyps_FdctOfConstantAndNegatedBlocks :
    let f : Block Byte := Block.make fun _ i => BitVec.ofInt 8 (16 * (i.val : Int) - 56)
    let g : Block Byte := Block.make fun _ i => BitVec.ofInt 8 (56 - 16 * (i.val : Int))
    (∀ j i, (Block.all 0x80#8 : Block Byte).at j i = 0x80#8) ∧ (∀ j i, (g.at j i).toInt = -(f.at j i).toInt) ∧
    ∀ j i : Fin 8, (f.at j i).toInt = 16 * (i.val : Int) - 56 := by decide +kernel

theorem hyps_IdctRoundsTheDoubleSum :
    ∀ v u : Fin 8, ¬(v = 0 ∧ u = 0) → ((Block.all 0#16).put 0 0 0x8000#16 : Block (BitVec 16)).at v u = 0#16 := by
  decide +kernel

theorem hyps_QuantErrorIsHalfAStep :
    exec .quant State.reset = .next (after .quant State.reset) ∧
    exec .dequant (after .quant State.reset) = .next (after .dequant (after .quant State.reset)) ∧
    sample8 (nearest (half 1016).toInt (quantStep 0 0)) = nearest (half 1016).toInt (quantStep 0 0) ∧
    sample8 (nearest (half (-1285)).toInt (quantStep 0 2)) = nearest (half (-1284)).toInt (quantStep 0 2) := by
  exact ⟨rfl, rfl, by decide +kernel, by decide +kernel⟩

/-- For `StqStoresTheBlock` and `LdqLoadsTheBlock`. -/
theorem hyps_stq_ldq :
    let s := { State.reset with blkw := 255#8, blkh := 255#8, bidx := 65024#16 }
    s.bidx.toNat < s.blkw.toNat * s.blkh.toNat ∧ s.blkw.toNat * s.blkh.toNat ≤ (65025#16).toNat ∧
    exec (.stq .v) s = .next (after (.stq .v) s) := by
  exact ⟨by decide, by decide, rfl⟩

theorem hyps_CcEncAppendsTheBlock :
    let m := (blockPairs (Block.all 0#8)).length
    (4161600 < (4161600#32).toNat + 1) ∧
    ((4161599#32).toNat + 1 ≤ 4161600 ∧ 4161600 < (4161600#32).toNat + m) ∧
    ((4161599#32).toNat + 1 ≤ 4161600 ∧ (4161599#32).toNat + m ≤ 4161600) := by decide +kernel

/-- A state whose streams of plane U hold the symbols of `exampleBlock`, from index 2 on, up to their end. -/
def exampleStreams : State :=
  { State.reset with
    syms := (((PerStream.all ([] : Memory)).put .u .dc [(2, 3#8)]).put .u .run [(3, 1#8)]).put .u .val
      [(2, 3#8), (3, 254#8)]
    slen := { y := { dc := 0#32, run := 0#32, val := 0#32 }, u := { dc := 3#32, run := 5#32, val := 5#32 },
              v := { dc := 0#32, run := 0#32, val := 0#32 } }
    srd := PerStream.all 2#32
    dcp := PerPlane.all 2#8 }

theorem hyps_CcDecDecodesABlock :
    let s := exampleStreams
    let pairs := blockPairs exampleBlock
    (s.srd.at .u .dc).toNat + 1 ≤ (s.slen.at .u .dc).toNat ∧ (s.srd.at .u .dc).toNat + 1 ≤ 4161600 ∧
    (s.srd.at .u .run).toNat + pairs.length ≤ (s.slen.at .u .run).toNat ∧
    (s.srd.at .u .run).toNat + pairs.length ≤ 4161600 ∧
    (s.srd.at .u .val).toNat + pairs.length ≤ (s.slen.at .u .val).toNat ∧
    (s.syms.at .u .dc).readBytes 2 1 = [exampleBlock.at 0 0 - s.dcp.get .u] ∧
    (s.syms.at .u .run).readBytes 2 pairs.length = pairs.map Prod.fst ∧
    (s.syms.at .u .val).readBytes 2 pairs.length = pairs.map Prod.snd := by decide +kernel

/-- The pairs of 44_coefcoder.md R134's example before the EOB: a run of 3 and the value 0, then the value 9. -/
def zeroPair : List (Byte × Byte) := [(3#8, 0#8), (0#8, 9#8)]

/-- A state whose streams of plane Y hold those pairs, the EOB, and then `next`, up to the last index of a stream. -/
def pairStreams (next : Byte × Byte) (runLen valLen : Word) : State :=
  { State.reset with
    syms := (((PerStream.all ([] : Memory)).put .y .dc [(7, 10#8)]).put .y .run [(4161597, 3#8), (4161599, next.1)]).put
      .y .val [(4161598, 9#8), (4161599, next.2)]
    slen := ((PerStream.all 8#32).put .y .run runLen).put .y .val valLen
    srd := ((PerStream.all 7#32).put .y .run 4161597#32).put .y .val 4161597#32 }

theorem hyps_CcDecDecodesABlock_pairs :
    let s := pairStreams (0#8, 0#8) 4161600#32 4161600#32
    let l := zeroPair
    (0#8, 0#8) ∉ l ∧ (acSequence l).length ≤ 63 ∧ (s.srd.at .y .dc).toNat + 1 ≤ (s.slen.at .y .dc).toNat ∧
    (s.srd.at .y .run).toNat + l.length + 1 ≤ (s.slen.at .y .run).toNat ∧
    (s.srd.at .y .run).toNat + l.length + 1 ≤ 4161600 ∧
    (s.srd.at .y .val).toNat + l.length + 1 ≤ (s.slen.at .y .val).toNat ∧
    (s.syms.at .y .dc).readBytes 7 1 = [10#8] ∧
    (s.syms.at .y .run).readBytes 4161597 3 = l.map Prod.fst ++ [0#8] ∧
    (s.syms.at .y .val).readBytes 4161597 3 = l.map Prod.snd ++ [0#8] := by decide +kernel

theorem hyps_CoefficientCoderIsLossless :
    let s := { State.reset with qb := exampleBlock, slen := PerStream.all 4161597#32 }
    (s.slen.at .y .dc).toNat + 1 ≤ 4161600 ∧ (s.slen.at .y .run).toNat + (blockPairs s.qb).length ≤ 4161600 ∧
    (s.slen.at .y .val).toNat + (blockPairs s.qb).length ≤ 4161600 ∧
    exec (.ccEnc .y) s = .next (after (.ccEnc .y) s) := by
  exact ⟨by decide, by decide +kernel, by decide +kernel, rfl⟩

theorem hyps_CcDecCommitsWholeOrNotAtAll :
    let s := { exampleStreams with syms := (PerStream.all ([] : Memory)).put .u .run [(2, 63#8)] }
    (s.slen.at .y .dc).toNat ≤ (s.srd.at .y .dc).toNat ∧
    (s.srd.at .u .dc).toNat < (s.slen.at .u .dc).toNat ∧ (s.srd.at .u .dc).toNat < 4161600 ∧
    (s.srd.at .u .run).toNat < (s.slen.at .u .run).toNat ∧ (s.srd.at .u .val).toNat < (s.slen.at .u .val).toNat ∧
    63 ≤ ((s.syms.at .u .run).read (s.srd.at .u .run).toNat).toNat ∧
    (5#32).toNat ≤ (5#32).toNat ∧ (s.slen.at .y .run).toNat ≤ (s.srd.at .y .run).toNat := by decide +kernel

/-- For the errors behind some pairs, in the order of the statement: the DC cursor at the capacity; a run stream, then a
value stream, that ends behind two pairs; two cursors that reach the capacity; a pair that leaves the 63 positions. -/
theorem hyps_CcDecCommitsWholeOrNotAtAll_pairs :
    let l := zeroPair
    let run := fun (s : State) => (s.srd.at .y .run).toNat + l.length
    let val := fun (s : State) => (s.srd.at .y .val).toNat + l.length
    let full := pairStreams (58#8, 1#8) 4161600#32 4161600#32
    let past := { pairStreams (0#8, 0#8) 4161601#32 4161601#32 with
      srd := ((PerStream.all 7#32).put .y .run 4161598#32).put .y .val 4161598#32 }
    ((4161600#32).toNat < (4161601#32).toNat ∧ 4161600 ≤ (4161600#32).toNat) ∧
    ((full.srd.at .y .dc).toNat < (full.slen.at .y .dc).toNat ∧ (full.srd.at .y .dc).toNat < 4161600 ∧
      (0#8, 0#8) ∉ l ∧ (acSequence l).length ≤ 63 ∧ run full ≤ 4161600 ∧ val full ≤ 4161600 ∧
      (full.syms.at .y .run).readBytes 4161597 2 = l.map Prod.fst ∧
      (full.syms.at .y .val).readBytes 4161597 2 = l.map Prod.snd) ∧
    (4161599#32).toNat ≤ run full ∧ (run full < (4161600#32).toNat ∧ (4161599#32).toNat ≤ val full) ∧
    (run past < (past.slen.at .y .run).toNat ∧ val past < (past.slen.at .y .val).toNat ∧ 4161600 ≤ run past ∧
      run past ≤ 4161600) ∧
    (run full < 4161600 ∧ val full < 4161600 ∧ (full.syms.at .y .run).read (run full) = 58#8 ∧
      62 < (acSequence l).length + (58#8).toNat) := by decide +kernel

/-- For the merges of `BuiltLengthsAreComplete`: two nodes of equal weight, in identity order. -/
theorem hyps_BuiltLengthsAreComplete :
    let pool : List HufNode := [{ weight := 2, id := 3, tree := .leaf 3 }, { weight := 2, id := 256, tree := .leaf 4 }]
    pool.Pairwise (fun x y => lowerNode x y = true) ∧ 2 ≤ pool.length ∧ ∀ x ∈ pool, x.id ≠ 256 + 1 := by decide

theorem hyps_OneSymbolGetsLengthOne : 0 < 1 ∧ 255 < 256 ∧ 255 ≠ (5#8).toNat := by decide

theorem hyps_HufLenBuildsTheTable :
    4161600 < (4161601#32).toNat ∧ ([66#8, 65#8] : List Byte).length = (2#32).toNat ∧
    holdsBytes [(0, 66#8), (1, 65#8)] 0 [66#8, 65#8] := by
  refine ⟨by decide, by decide, ?_⟩
  intro i hi
  have : i < 2 := hi
  interval_cases i <;> rfl

/-- The lengths of 45_huffman.md R150 examples (a) and (c), and two symbols of length 255, as functions. -/
def lengthsA : Nat → Nat
  | 65 => 2
  | 66 => 1
  | 67 => 3
  | 68 => 3
  | _ => 0

def lengthsC : Nat → Nat
  | 0 => 1
  | 1 => 1
  | 2 => 255
  | _ => 0

theorem hyps_CanonAssignsTheCodeSpace :
    (∀ s, lengthsA s ≤ 255) ∧ kraftSum lengthsA = 2 ^ 255 ∧ (∀ s, lengthsC s ≤ 255) ∧
    kraftSum lengthsC = 2 ^ 255 + 1 := by
  refine ⟨fun s => ?_, by decide +kernel, fun s => ?_, by decide +kernel⟩
  · unfold lengthsA; split <;> decide
  · unfold lengthsC; split <;> decide

theorem hyps_CanonicalCodesAreUniquelyReadable : canon lengthsA = .ok exampleCodes := by decide +kernel

theorem hyps_HufCodeBuildsTheCodes :
    kraftSum (fun sym => (Memory.read [(65, 2#8), (66, 1#8), (67, 3#8), (68, 3#8)] sym).toNat) ≤ 2 ^ 255 ∧
    2 ^ 255 < kraftSum fun sym => (Memory.read [(0, 1#8), (1, 1#8), (2, 255#8)] sym).toNat := by decide +kernel

theorem covers_exampleCodes : covers exampleCodes [66#8, 65#8, 67#8, 68#8, 66#8] := by
  intro b hb
  simp only [List.mem_cons, List.not_mem_nil, or_false] at hb
  rcases hb with rfl | rfl | rfl | rfl | rfl <;> decide

theorem uniquelyReadable_exampleCodes : uniquelyReadable exampleCodes :=
  uniquelyReadable_of_entries (by decide)

theorem hyps_HufEncPacksTheCodes :
    covers exampleCodes [66#8, 65#8, 67#8, 68#8, 66#8] ∧
    byteCount (bitsOf exampleCodes [66#8, 65#8, 67#8, 68#8, 66#8]) ≤ (2#32).toNat ∧
    (1#32).toNat < byteCount (bitsOf exampleCodes [66#8, 65#8, 67#8, 68#8, 66#8]) ∧
    (exampleCodes.entry (64#8).toNat).len = 0#8 ∧ covers exampleCodes ([66#8, 64#8].take 1) ∧
    4161600 < (4161601#32).toNat := by
  refine ⟨covers_exampleCodes, by decide +kernel, by decide +kernel, by decide, ?_, by decide⟩
  intro b hb
  exact covers_exampleCodes b (by simp at hb; simp [hb])

theorem holdsBits_example {m : Memory} {pos : Nat} {bits : List Bool}
    (h : (List.range bits.length).all (fun i => bitAt m (pos + i) == bits.getD i false) = true) :
    holdsBits m pos bits := by
  intro i hi
  have := List.all_eq_true.1 h i (List.mem_range.2 hi)
  simpa using this

theorem hyps_HufDecDecodesASegment :
    let s := exampleSegment 5#32
    let seq : List Byte := [66#8, 65#8, 67#8, 68#8, 66#8]
    let bits := bitsOf (s.ct.at .y .dc) seq
    s.clen.toNat ≤ s.cfg.cbufCap.toNat ∧ seq.length = s.count.toNat ∧ (s.ct.at .y .dc).wf = true ∧
    uniquelyReadable (s.ct.at .y .dc) ∧ covers (s.ct.at .y .dc) seq ∧ holdsBits s.cbuf (8 * s.cptr.toNat) bits ∧
    s.cptr.toNat + byteCount bits ≤ s.clen.toNat :=
  ⟨by decide, by decide, by decide, uniquelyReadable_exampleCodes, covers_exampleCodes,
    holdsBits_example (by decide +kernel), by decide +kernel⟩

theorem uniquelyReadable_zeroCode : uniquelyReadable zeroCode := uniquelyReadable_of_entries (by decide)

theorem covers_zeroCode : covers zeroCode [0#8] := by
  intro b hb
  rw [List.mem_singleton.1 hb]
  decide

theorem hyps_HufDecAcDecodesTwoSegments :
    let s := zeroSegments
    let t := bitsOf zeroCode [0#8]
    s.clen.toNat ≤ s.cfg.cbufCap.toNat ∧ s.cptr.toNat + (s.aclen.get .u).run.toNat + (s.aclen.get .u).val.toNat ≤
      s.clen.toNat ∧ zeroCode.wf = true ∧ uniquelyReadable zeroCode ∧ covers zeroCode [0#8] ∧
    (([0#8] : List Byte).zip [0#8]).count (0#8, 0#8) = s.blkw.toNat * s.blkh.toNat ∧
    (∀ x ∈ (([0#8] : List Byte).zip [0#8]).getLast?, x = (0#8, 0#8)) ∧ (s.aclen.get .u).run.toNat = byteCount t ∧
    (s.aclen.get .u).val.toNat = byteCount t ∧ holdsBits s.cbuf (8 * s.cptr.toNat) t ∧
    holdsBits s.cbuf (8 * (s.cptr.toNat + (s.aclen.get .u).run.toNat)) t :=
  ⟨by decide, by decide, by decide, uniquelyReadable_zeroCode, covers_zeroCode, by decide, by simp, by decide,
    by decide, holdsBits_example (by decide), holdsBits_example (by decide)⟩

theorem hyps_DecodersCommitWholeOrNotAtAll :
    let s := { zeroSegments with blkw := 0#8, count := 1#32 }
    let f := { s with aclen := PerPlane.all { run := 0#16, val := 2#16 } }
    s.cfg.cbufCap.toNat < (16777217#32).toNat ∧ 4161600 < (4161601#32).toNat ∧ s.clen.toNat ≤ s.cfg.cbufCap.toNat ∧
    0 < s.count.toNat ∧ s.count.toNat ≤ 4161600 ∧ State.reset.ct.at .y .dc = [] ∧ s.ct.at .y .dc ≠ [] ∧
    (s.ct.at .y .dc).wf = true ∧ s.clen.toNat ≤ (12#32).toNat ∧
    (11#32).toNat < s.cptr.toNat + (s.aclen.get .y).run.toNat + (s.aclen.get .y).val.toNat ∧
    s.cptr.toNat + (s.aclen.get .y).run.toNat + (s.aclen.get .y).val.toNat ≤ s.clen.toNat ∧
    s.blkw.toNat * s.blkh.toNat = 0 ∧ (s.aclen.get .y).run.toNat ≠ 0 ∧ (f.aclen.get .y).run.toNat = 0 ∧
    (f.aclen.get .y).val.toNat ≠ 0 ∧
    f.cptr.toNat + (f.aclen.get .y).run.toNat + (f.aclen.get .y).val.toNat ≤ f.clen.toNat := by decide +kernel

/-- A bit 1 begins no code of `zeroCode`. -/
theorem failsAt_zeroCode {m : Memory} {pos lim : Nat} (h : bitAt m pos = true) (hl : pos + 1 ≤ 8 * lim) :
    failsAt m zeroCode pos lim { code := .nomatch, info := pos / 8 } := by
  have one : ∀ b : Byte, (zeroCode.entry b.toNat).len ≠ 0#8 → codeBits (zeroCode.entry b.toNat) = [false] := by decide
  refine ⟨1, [true], ⟨⟨0#8, rfl⟩, by decide⟩, fun i hi => ?_, fun b hb => ?_,
    .inr (.inl ⟨Nat.one_pos, rfl, hl, rfl⟩)⟩
  · have : i = 0 := by simpa using hi
    simpa [this] using h
  · rw [one b hb]
    decide

/-- For the errors of `HUF_DEC` behind some symbols: the segment of 45_huffman.md R155 holds eleven symbols, and then its
bits are spent. -/
theorem hyps_DecodersCommitWholeOrNotAtAll_hufDec :
    let s := exampleSegment 12#32
    let seq : List Byte := [66#8, 65#8, 67#8, 68#8, 66#8, 66#8, 66#8, 66#8, 66#8, 66#8, 66#8]
    s.clen.toNat ≤ s.cfg.cbufCap.toNat ∧ s.count.toNat ≤ 4161600 ∧ seq.length < s.count.toNat ∧
    (s.ct.at .y .dc).wf = true ∧ uniquelyReadable (s.ct.at .y .dc) ∧
    reads s.cbuf (s.ct.at .y .dc) (8 * s.cptr.toNat) s.clen.toNat seq ∧
    failsAt s.cbuf (s.ct.at .y .dc) (8 * s.cptr.toNat + (bitsOf (s.ct.at .y .dc) seq).length) s.clen.toNat
      { code := .exhaust, info := 102 } := by
  have least : ∀ b : Byte, (exampleCodes.entry b.toNat).len ≠ 0#8 →
      (codeBits (exampleCodes.entry b.toNat)).isPrefixOf [] = false := by decide +kernel
  refine ⟨by decide, by decide, by decide, by decide, uniquelyReadable_exampleCodes,
    ⟨?_, holdsBits_example (by decide +kernel), .inr (by decide +kernel)⟩,
    3, [], ⟨⟨67#8, rfl⟩, by decide +kernel⟩, fun i hi => absurd hi (Nat.not_lt_zero i), fun b hb h => ?_,
    .inr (.inr ⟨by decide, .inl (by decide +kernel), rfl⟩)⟩
  · intro b hb
    simp only [List.mem_cons, List.not_mem_nil, or_false] at hb
    rcases hb with rfl | rfl | rfl | rfl | rfl | rfl | rfl | rfl | rfl | rfl | rfl <;> decide
  · exact Bool.noConfusion ((List.isPrefixOf_iff_prefix.2 h).symm.trans (least b hb))

/-- The segments of 45_huffman.md R156's example with the given bytes and lengths, for one block. -/
def acSegmentsOf (buf : Memory) (a b : BitVec 16) : State :=
  { zeroSegments with cbuf := buf, clen := 16#32, aclen := PerPlane.all { run := a, val := b } }

theorem reads_nil (m : Memory) (t : CodeTable) (pos lim : Nat) : reads m t pos lim [] :=
  ⟨nofun, fun i h => absurd h (Nat.not_lt_zero i), .inl rfl⟩

theorem reads_zero {m : Memory} {pos lim : Nat} (h : bitAt m pos = false) (hl : pos + 1 ≤ 8 * lim) :
    reads m zeroCode pos lim [0#8] := by
  refine ⟨covers_zeroCode, fun i hi => ?_, .inr hl⟩
  obtain rfl : i = 0 := Nat.lt_one_iff.1 hi
  exact h

/-- For the errors of `HUF_DEC_AC`: a bit 1 in the run segment, then in the value segment; a byte too many in either. -/
theorem hyps_DecodersCommitWholeOrNotAtAll_hufDecAc :
    let run := acSegmentsOf [(10, 1#8)] 1#16 1#16
    let val := acSegmentsOf [(11, 1#8)] 1#16 1#16
    let left := acSegmentsOf [] 2#16 1#16
    let long := acSegmentsOf [] 1#16 2#16
    (∀ s ∈ [run, val, left, long], s.clen.toNat ≤ s.cfg.cbufCap.toNat ∧
      s.cptr.toNat + (s.aclen.get .y).run.toNat + (s.aclen.get .y).val.toNat ≤ s.clen.toNat ∧
      s.ct.at .y .run = zeroCode ∧ s.ct.at .y .val = zeroCode ∧ s.blkw.toNat * s.blkh.toNat = 1) ∧
    zeroCode.wf = true ∧ uniquelyReadable zeroCode ∧
    (reads run.cbuf zeroCode 80 11 [] ∧ reads run.cbuf zeroCode 88 12 [] ∧
      failsAt run.cbuf zeroCode 80 11 { code := .nomatch, info := 10 }) ∧
    (reads val.cbuf zeroCode 80 11 [0#8] ∧ reads val.cbuf zeroCode 88 12 [] ∧
      failsAt val.cbuf zeroCode 88 12 { code := .nomatch, info := 11 }) ∧
    (reads left.cbuf zeroCode 80 12 [0#8] ∧ reads left.cbuf zeroCode 96 13 [0#8] ∧ (1 + 7) / 8 ≠ 2) ∧
    (reads long.cbuf zeroCode 80 11 [0#8] ∧ reads long.cbuf zeroCode 88 13 [0#8] ∧ (1 + 7) / 8 = 1 ∧
      (1 + 7) / 8 ≠ 2) ∧
    (([0#8] : List Byte).zip [0#8]).count (0#8, 0#8) = 1 ∧
    ∀ x ∈ (([0#8] : List Byte).zip [0#8]).getLast?, x = (0#8, 0#8) :=
  ⟨by decide, by decide, uniquelyReadable_zeroCode,
    ⟨reads_nil _ _ _ _, reads_nil _ _ _ _, failsAt_zeroCode (by decide) (by decide)⟩,
    ⟨reads_zero (by decide) (by decide), reads_nil _ _ _ _, failsAt_zeroCode (by decide) (by decide)⟩,
    ⟨reads_zero (by decide) (by decide), reads_zero (by decide) (by decide), by decide⟩,
    ⟨reads_zero (by decide) (by decide), reads_zero (by decide) (by decide), by decide, by decide⟩,
    by decide, by simp⟩

theorem ownBits_two (a b : Byte) : byteCount (ownBits [a, b]) ≤ 64 := by
  simpa only [List.length_cons, List.length_nil] using byteCount_le (length_ownBits_le [a, b])

theorem hyps_HuffmanRoundTrip :
    let s := { State.reset with slen := PerStream.all 2#32 }
    ([0#8, 0#8] : List Byte).length = (s.slen.at .y .dc).toNat ∧ ([0#8, 0#8] : List Byte).length ≤ 4161600 ∧
    holdsBytes (s.syms.at .y .dc) 0 [0#8, 0#8] ∧ byteCount (ownBits [0#8, 0#8]) ≤ s.cfg.bsCap.toNat ∧
    ∀ (m : Memory) (len : Word), len.toNat ≤ 64 → ∃ buf start, (∀ i, i < len.toNat → Memory.read buf (start + i) = m.read i) ∧
      start + len.toNat ≤ s.cfg.cbufCap.toNat := by
  refine ⟨by decide, by decide, ?_, ?_, fun m len h => ⟨m, 0, fun i _ => by rw [Nat.zero_add], ?_⟩⟩
  · intro i hi
    have : i < 2 := hi
    interval_cases i <;> rfl
  · exact (ownBits_two 0#8 0#8).trans (by decide)
  · have hc : State.reset.cfg.cbufCap.toNat = 16777216 := by decide
    show 0 + len.toNat ≤ State.reset.cfg.cbufCap.toNat
    omega

theorem hyps_DecodersReadOnlyTheContainer :
    let s := exampleSegment 5#32
    (∀ a, a < s.clen.toNat → Memory.read (s.cbuf ++ [(102, 1#8)]) a = s.cbuf.read a) ∧
    exec (.hufDec .y .dc) s = .next (after (.hufDec .y .dc) s) ∧
    exec (.hufDecAc .y) s = .next (after (.hufDecAc .y) s) ∧ exec .deframeHdr s = .next (after .deframeHdr s) := by
  refine ⟨fun a ha => ?_, rfl, rfl, rfl⟩
  refine Memory.read_append_left fun c hc => ?_
  rw [List.mem_singleton.1 hc]
  have : a < 102 := ha
  exact Nat.ne_of_gt this

theorem hyps_FrameWritesTheContainer :
    let s := exampleLengths
    let len := fun p k => (s.bslen.at p k).toNat
    (∀ p k, len p k ≤ s.cfg.bsCap.toNat) ∧ (∀ p a, len p (acKind a) ≤ 65535) ∧
    totalLength len ≤ s.cfg.cbufCap.toNat ∧ totalLength len = 2338 ∧ (2337#32).toNat < totalLength len ∧
    s.cfg.bsCap.toNat < (4194305#32).toNat ∧ 65535 < (65536#32).toNat ∧
    acNum .y .run < acNum .y .val := by
  refine ⟨fun p k => ?_, fun p a => ?_, by decide +kernel, by decide +kernel, by decide +kernel, by decide,
    by decide, by decide⟩
  · cases p <;> cases k <;> decide
  · cases p <;> cases a <;> decide

theorem hyps_DeframeHdrReadsTheHeader :
    let s := exampleContainer 2335#32
    let count := fun p a => (s.cbuf.read (4 + 2 * acNum p a)).toNat + 256 * (s.cbuf.read (5 + 2 * acNum p a)).toNat
    (2 ≤ s.clen.toNat ∧ s.cbuf.read 0 = 0x49#8 ∧ s.cbuf.read 1 = 0x4D#8) ∧ s.clen.toNat ≤ s.cfg.cbufCap.toNat ∧
    2320 + (acSegments.map fun t => count t.1 t.2).sum = 2335 ∧ 2335 ≤ s.clen.toNat ∧
    (2334#32).toNat < 2335 ∧ 2320 ≤ (2334#32).toNat ∧ (2319#32).toNat < 2320 ∧
    ¬ (2 ≤ (1#32).toNat) ∧ s.cfg.cbufCap.toNat < (16777217#32).toNat := by decide +kernel

/-- An 8 by 8 image, which every bound of `COMPRESS` admits, whatever its codes are. -/
def smallImage : State := { State.reset with imgw := 8#16, imgh := 8#16 }

theorem smallImage_len (p : Plane) (k : Kind) : byteCount (imageBits smallImage p k) ≤ 2041 :=
  Nat.le_trans (byteCount_imageBits_le smallImage p k (n := 1) (by decide)) (by decide)

/-- This state serves `CompressThenDecompressPreserves` as well. -/
theorem hyps_CompressWritesTheContainer :
    smallImage.imgw.toNat % 8 = 0 ∧ smallImage.imgh.toNat % 8 = 0 ∧ smallImage.imgw.toNat ≤ 2040 ∧
    smallImage.imgh.toNat ≤ 2040 ∧ (∀ p k, byteCount (imageBits smallImage p k) ≤ smallImage.cfg.bsCap.toNat) ∧
    (∀ p a, byteCount (imageBits smallImage p (acKind a)) ≤ 65535) ∧
    totalLength (fun p k => byteCount (imageBits smallImage p k)) ≤ smallImage.cfg.cbufCap.toNat :=
  ⟨by decide, by decide, by decide, by decide, fun p k => Nat.le_trans (smallImage_len p k) (by decide),
    fun p a => Nat.le_trans (smallImage_len p _) (by decide), Nat.le_trans (totalLength_le smallImage_len) (by decide)⟩

theorem hyps_FailingCompressKeepsTheBuffer :
    (2047#16).toNat % 8 ≠ 0 ∧ 2040 < (2048#16).toNat ∧
    ¬ ((2040#16).toNat % 8 ≠ 0 ∨ 2040 < (2040#16).toNat) ∧ State.reset.err = false := by decide

/-- A container of one block per plane, all zero, under a code with the one symbol 0. -/
def zeroContainer : Memory :=
  [(0, 0x49#8), (1, 0x4D#8), (2, 1#8), (3, 1#8), (4, 1#8), (6, 1#8), (8, 1#8), (10, 1#8), (12, 1#8), (14, 1#8),
    (16, 1#8), (272, 1#8), (528, 1#8), (784, 1#8), (1040, 1#8), (1296, 1#8), (1552, 1#8), (1808, 1#8), (2064, 1#8)]

theorem hyps_DecompressReadsTheContainer :
    HoldsContainer zeroContainer (2329#32).toNat 1 1 (fun _ => [Block.all 0#8]) (fun _ _ => zeroCode) where
  magicI := rfl
  magicM := rfl
  wide := rfl
  high := rfl
  count := fun _ => rfl
  tables := fun p k => by cases p <;> cases k <;> decide +kernel
  covered := fun p k => by
    have h : symbolsOf k [Block.all 0#8] = [0#8] := by cases k <;> decide +kernel
    rw [h]
    exact covers_zeroCode
  counts := fun p a => by cases p <;> cases a <;> decide +kernel
  segments := fun p k => by
    apply holdsBits_example
    cases p <;> cases k <;> decide +kernel
  length := by decide +kernel

theorem hyps_FailingDecompressKeepsTheImage :
    let s := exampleContainer 2334#32
    let count := fun p a => (s.cbuf.read (4 + 2 * acNum p a)).toNat + 256 * (s.cbuf.read (5 + 2 * acNum p a)).toNat
    (State.reset.err = false ∧ State.reset.clen.toNat ≤ State.reset.cfg.cbufCap.toNat ∧ State.reset.clen.toNat < 2) ∧
    s.err = false ∧ s.clen.toNat ≤ s.cfg.cbufCap.toNat ∧
    (2 ≤ s.clen.toNat ∧ s.cbuf.read 0 = 0x49#8 ∧ s.cbuf.read 1 = 0x4D#8) ∧ (2319#32).toNat < 2320 ∧
    2320 ≤ s.clen.toNat ∧ s.clen.toNat < 2320 + (acSegments.map fun t => count t.1 t.2).sum ∧
    s.cfg.cbufCap.toNat < (16777217#32).toNat := by decide +kernel

theorem hyps_CommandsWriteOnlyTheirSpaces :
    exec (.stq .u) State.reset = .next (after (.stq .u) State.reset) ∧ writesImg (.stq .u) = false ∧
    writesCbuf (.stq .u) = false ∧ writesQp .y (.stq .u) = false ∧ writesS .u .dc (.hufDecAc .u) = false ∧
    writesBs .y .dc (.hufEnc .y .run) = false ∧ writesLt .y .dc (.hufLen .u .dc) = false ∧
    writesCt .y .dc .decompress = true ∧ writesCt .y .dc .frame = false ∧ writesSb .v (.idct .u) = false ∧
    writesCb .quant = false ∧ writesQb .dequant = false := by
  exact ⟨rfl, by decide, by decide, by decide, by decide, by decide, by decide, by decide, by decide, by decide,
    by decide, by decide⟩

end Sys2Proof.Tests
end

/-! PROOFS. The register port (10_state.md R26, R45): which offsets name no register, what a step does with a register
access, and the obligation O13. -/

namespace Sys2Proof.Machine

/-! ### Which offsets name a register -/

theorem planeNum_le (p : Plane) : planeNum p ≤ 2 := by cases p <;> decide

theorem kindNum_le (k : Kind) : kindNum k ≤ 2 := by cases k <;> decide

theorem acNum_le (p : Plane) (a : AcKind) : acNum p a ≤ 5 := by cases p <;> cases a <;> decide

theorem regOffset_of_regAt {off : BitVec 9} {r : Reg} (h : regAt off = some r) : regOffset r = off.toNat := by
  have hfound := List.find?_some h
  exact Nat.eq_of_beq_eq_true hfound

/-- The registers end where the reserved ranges begin: `ACLEN` before `CLEN`, `DCP` below `0x064`, `SLEN` below `0x0A4`,
`SRD` below `0x0E4`, `BSLEN` below `0x124`. -/
theorem not_reservedOffset_regOffset (r : Reg) : ¬ reservedOffset (regOffset r) := by
  unfold reservedOffset
  cases r with
  | aclen p a => have := acNum_le p a; simp only [regOffset]; omega
  | dcp p => have := planeNum_le p; simp only [regOffset]; omega
  | slen p k => have := planeNum_le p; have := kindNum_le k; simp only [regOffset]; omega
  | srd p k => have := planeNum_le p; have := kindNum_le k; simp only [regOffset]; omega
  | bslen p k => have := planeNum_le p; have := kindNum_le k; simp only [regOffset]; omega
  | _ => simp [regOffset]

theorem regAt_of_reservedOffset {off : BitVec 9} (h : reservedOffset off.toNat) : regAt off = none := by
  cases hr : regAt off with
  | none => rfl
  | some r => exact absurd (regOffset_of_regAt hr ▸ h) (not_reservedOffset_regOffset r)

/-! ### What the port answers at an offset -/

theorem readAt_of_regAt {off : BitVec 9} {r : Reg} (h : regAt off = some r) (s : State) :
    readAt off s = readReg r s := by
  rw [readAt, h]

/-- 10_state.md R27. -/
theorem readAt_id (s : State) : readAt 0x000#9 s = 0x494D3301#32 := readAt_of_regAt (regAt_regOffset .id) s

theorem readAt_of_reservedOffset {off : BitVec 9} (h : reservedOffset off.toNat) (s : State) : readAt off s = 0#32 := by
  rw [readAt, regAt_of_reservedOffset h]

theorem writeAt_of_regAt {off : BitVec 9} {r : Reg} (h : regAt off = some r) (v : Word) (s : State) :
    writeAt off v s = writeReg r v s := by
  rw [writeAt, h]

theorem writeAt_of_reservedOffset {off : BitVec 9} (h : reservedOffset off.toNat) (v : Word) (s : State) :
    writeAt off v s = .next s := by
  rw [writeAt, regAt_of_reservedOffset h]

/-- `ID`, `ERRCODE` and `ERRINFO`: the registers that ignore a host write (10_state.md R45). -/
theorem writeAt_readOnly {off : BitVec 9} (h : off = 0x000#9 ∨ off = 0x010#9 ∨ off = 0x014#9) (v : Word) (s : State) :
    writeAt off v s = .next s := by
  obtain rfl | rfl | rfl := h
  · exact writeAt_of_regAt (regAt_regOffset .id) v s
  · exact writeAt_of_regAt (regAt_regOffset .errcode) v s
  · exact writeAt_of_regAt (regAt_regOffset .errinfo) v s

/-! ### A step that serves a register access -/

theorem step_of_readReg {s : State} {off : BitVec 9} {rest : List HostAccess} (haligned : off.toNat % 4 = 0)
    (h : s.pending = .readReg off :: rest) :
    step s = .next (replyWith (.word (readAt off { s with pending := rest })) { s with pending := rest }) := by
  rw [step_of_pending h]
  simp [serve, HostAccess.wf, haligned]

theorem step_of_writeReg {s : State} {off : BitVec 9} {v : Word} {rest : List HostAccess}
    (haligned : off.toNat % 4 = 0) (h : s.pending = .writeReg off v :: rest) :
    step s = writeAt off v { s with pending := rest } := by
  rw [step_of_pending h]
  simp [serve, HostAccess.wf, haligned]

/-- Settles O13: a reserved offset names no register, and the three read-only registers store nothing. -/
theorem fixedOffsetsIgnoreWrites : Obligations.FixedOffsetsIgnoreWrites := by
  refine ⟨fun off s rest haligned hreserved => ⟨fun hread => ?_, fun v hwrite => ?_⟩,
    fun off v s rest hoff hwrite => ?_, fun s rest hread => ?_⟩
  · rw [step_of_readReg haligned hread, readAt_of_reservedOffset hreserved]
    rfl
  · rw [step_of_writeReg haligned hwrite, writeAt_of_reservedOffset hreserved]
  · have haligned : off.toNat % 4 = 0 := by obtain rfl | rfl | rfl := hoff <;> rfl
    rw [step_of_writeReg haligned hwrite, writeAt_readOnly hoff]
  · rw [step_of_readReg rfl hread, readAt_id]
    rfl

end Sys2Proof.Machine

/-! PROOFS. The decoder (30_encoding.md R71 to R75): when each of its stages answers, and the obligation O2. -/

namespace Sys2Proof

/-! ### The operand fields -/

theorem planeOfBits_answers_iff (b : BitVec 2) : (∃ p, planeOfBits b = some p) ↔ b ≠ 3#2 := by
  rw [← Option.isSome_iff_exists]
  revert b
  decide

theorem kindOfBits_answers_iff (b : BitVec 2) : (∃ k, kindOfBits b = some k) ↔ b ≠ 3#2 := by
  rw [← Option.isSome_iff_exists]
  revert b
  decide

theorem eq_y_iff_of_planeOfBits {b : BitVec 2} {p : Plane} (h : planeOfBits b = some p) : p = .y ↔ b = 0#2 := by
  revert b p
  decide

theorem eq_dc_iff_of_kindOfBits {b : BitVec 2} {k : Kind} (h : kindOfBits b = some k) : k = .dc ↔ b = 0#2 := by
  revert b k
  decide

/-! ### The opcode map -/

/-- Commands of this shape list `P` among their operands. -/
def Shape.takesPlane : Shape → Bool
  | .bare _ => false
  | .plane _ | .planeKind _ => true

/-- Commands of this shape list `K` among their operands. -/
def Shape.takesKind : Shape → Bool
  | .bare _ | .plane _ => false
  | .planeKind _ => true

/-- A shape takes the operands that are not 0 or that its commands list (30_encoding.md R73). -/
theorem assemble_answers_iff (sh : Shape) (p : Plane) (k : Kind) :
    (∃ i, assemble sh p k = .ok i) ↔ (p = .y ∨ sh.takesPlane = true) ∧ (k = .dc ∨ sh.takesKind = true) := by
  cases sh with
  | bare i =>
    by_cases hp : p = .y
    · by_cases hk : k = .dc <;> simp [assemble, Shape.takesPlane, Shape.takesKind, hp, hk]
    · simp [assemble, Shape.takesPlane, hp]
  | plane mk => by_cases hk : k = .dc <;> simp [assemble, Shape.takesPlane, Shape.takesKind, hk]
  | planeKind mk => simp [assemble, Shape.takesPlane, Shape.takesKind]

theorem opTable_answers_iff (n : Nat) : (∃ sh, opTable.lookup n = some sh) ↔ n ∈ assignedOps := by
  have rows : assignedOps = opTable.map Prod.fst := rfl
  rw [rows, ← Option.isSome_iff_exists, List.lookup_isSome_iff, List.mem_map]
  simp only [beq_iff_eq, @eq_comm _ n]

theorem opTable_takesPlane {n : Nat} {sh : Shape} (h : opTable.lookup n = some sh) :
    sh.takesPlane = true ↔ n ∈ planeOps := by
  have rows : ∀ x ∈ opTable, x.2.takesPlane = true ↔ x.1 ∈ planeOps := by decide
  exact rows (n, sh) (Machine.mem_of_lookup h)

theorem opTable_takesKind {n : Nat} {sh : Shape} (h : opTable.lookup n = some sh) :
    sh.takesKind = true ↔ n ∈ kindOps := by
  have rows : ∀ x ∈ opTable, x.2.takesKind = true ↔ x.1 ∈ kindOps := by decide
  exact rows (n, sh) (Machine.mem_of_lookup h)

/-! ### The decoder -/

/-- The decoder answers the command that its stages make of the word, when each of them answers. -/
theorem decode_eq_ok_iff (w : Word) (i : Instr) :
    decode w = .ok i ↔ (fieldsOf w).rsv = 0#20 ∧ ∃ sh p k, opTable.lookup (fieldsOf w).op.toNat = some sh ∧
      planeOfBits (fieldsOf w).p = some p ∧ kindOfBits (fieldsOf w).k = some k ∧ assemble sh p k = .ok i := by
  rw [decode]
  by_cases hr : (fieldsOf w).rsv = 0#20
  · cases opTable.lookup (fieldsOf w).op.toNat with
    | none => simp [hr]
    | some sh => cases planeOfBits (fieldsOf w).p <;> cases kindOfBits (fieldsOf w).k <;> simp [hr]
  · simp [hr]

theorem CommandFields.legal_iff (f : CommandFields) :
    f.legal = true ↔ f.rsv = 0#20 ∧ f.op.toNat ∈ assignedOps ∧ f.p ≠ 3#2 ∧ f.k ≠ 3#2 ∧
      (f.p = 0#2 ∨ f.op.toNat ∈ planeOps) ∧ (f.k = 0#2 ∨ f.op.toNat ∈ kindOps) := by
  simp [legal, reservedZero, opAssigned, planeExists, kindExists, planeTaken, kindTaken, and_assoc]

/-- 30_encoding.md R73: the decoder answers a command exactly on the legal words. -/
theorem decode_answers_iff (w : Word) : (∃ i, decode w = .ok i) ↔ (fieldsOf w).legal = true := by
  rw [CommandFields.legal_iff]
  simp only [decode_eq_ok_iff]
  constructor
  · rintro ⟨i, hr, sh, p, k, hsh, hp, hk, hi⟩
    obtain ⟨hplane, hkind⟩ := (assemble_answers_iff sh p k).1 ⟨i, hi⟩
    rw [eq_y_iff_of_planeOfBits hp, opTable_takesPlane hsh] at hplane
    rw [eq_dc_iff_of_kindOfBits hk, opTable_takesKind hsh] at hkind
    exact ⟨hr, (opTable_answers_iff _).1 ⟨sh, hsh⟩, (planeOfBits_answers_iff _).1 ⟨p, hp⟩,
      (kindOfBits_answers_iff _).1 ⟨k, hk⟩, hplane, hkind⟩
  · rintro ⟨hr, hop, hp3, hk3, hplane, hkind⟩
    obtain ⟨sh, hsh⟩ := (opTable_answers_iff _).2 hop
    obtain ⟨p, hp⟩ := (planeOfBits_answers_iff _).2 hp3
    obtain ⟨k, hk⟩ := (kindOfBits_answers_iff _).2 hk3
    rw [← eq_y_iff_of_planeOfBits hp, ← opTable_takesPlane hsh] at hplane
    rw [← eq_dc_iff_of_kindOfBits hk, ← opTable_takesKind hsh] at hkind
    obtain ⟨i, hi⟩ := (assemble_answers_iff sh p k).2 ⟨hplane, hkind⟩
    exact ⟨i, hr, sh, p, k, hsh, hp, hk, hi⟩

/-- Settles O2: the statement's six conditions are `CommandFields.legal` written out, and a decoder that answers
gives one command only. -/
theorem legalWordsMeetSixConditions : Obligations.LegalWordsMeetSixConditions := by
  intro w op p k legal
  have hdecode : (∃ i, decode w = .ok i) ↔ legal :=
    (decode_answers_iff w).trans (fieldsOf w).legal_iff
  refine ⟨fun h => ?_, fun h => ?_⟩
  · obtain ⟨i, hi⟩ := hdecode.2 h
    exact ⟨i, hi, fun j hj => Except.ok.inj (hj.symm.trans hi)⟩
  · cases hd : decode w with
    | error e => exact ⟨e, rfl⟩
    | ok i => exact absurd (hdecode.1 ⟨i, hd⟩) h

end Sys2Proof

/-! PROOFS. The control commands `NOP` and `CLRERR` (40_control.md R90, R92): what each does, alone and as a step, and
the obligations O10 and O11. -/

namespace Sys2Proof.Machine

/-! ### The commands alone -/

@[simp] theorem exec_nop (s : State) : exec .nop s = .next s := rfl

@[simp] theorem exec_clrerr (s : State) : exec .clrerr s = .next (clearError s) := rfl

/-- 10_state.md R31: without an error, the error record of a safe state is already empty. -/
theorem clearError_of_safe {s : State} (hsafe : Safe s) (herr : s.err = false) : clearError s = s := by
  obtain ⟨hcode, hinfo⟩ := hsafe.errorFree herr
  rw [clearError, ← herr, ← hcode, ← hinfo]

/-! ### Their words, whatever `ERR` is -/

/-- With `ERR` = 1 the word is refused (60_exceptions.md R195), which for `NOP` is the same as running it. -/
theorem runWord_nop (s : State) : runWord (encode .nop) s = .next s := by
  rw [runWord, Laws.EncodedWordLegal.nop.2]
  show (if s.err then .next s else exec .nop s) = .next s
  rw [exec_nop, ite_self]

/-- `CLRERR` is accepted while `ERR` = 1 (60_exceptions.md R195). -/
theorem runWord_clrerr (s : State) : runWord (encode .clrerr) s = .next (clearError s) := by
  rw [runWord, Laws.EncodedWordLegal.clrerr.2]
  exact exec_clrerr s

/-! ### The commands as steps -/

theorem step_of_nop {s : State} {rest : List HostAccess} (h : s.pending = .writeReg 0x004#9 (encode .nop) :: rest) :
    step s = .next (commandEnd (commandStart (encode .nop) { s with pending := rest })) := by
  rw [step_of_command h, runWord_nop, commandEnds_next]

theorem step_of_clrerr {s : State} {rest : List HostAccess}
    (h : s.pending = .writeReg 0x004#9 (encode .clrerr) :: rest) :
    step s = .next (commandEnd (clearError (commandStart (encode .clrerr) { s with pending := rest }))) := by
  rw [step_of_command h, runWord_clrerr, commandEnds_next]

/-- Settles O10: `NOP` is the identity, accepted or refused, so a step leaves only the start and the end of R194. -/
theorem nopChangesNothing : Obligations.NopChangesNothing :=
  ⟨rfl, rfl, exec_nop, fun _ _ hnop => step_of_nop hnop⟩

/-- Settles O11: `CLRERR` is `clearError`, in the error state too, and a safe state without an error has nothing to
clear. -/
theorem clrerrClearsTheError : Obligations.ClrerrClearsTheError := by
  refine ⟨rfl, exec_clrerr, fun s hsafe herr => ?_, fun _ _ hclrerr => step_of_clrerr hclrerr⟩
  rw [exec_clrerr, clearError_of_safe hsafe herr]

end Sys2Proof.Machine

/-! PROOFS. The inverse colour map (41_color.md R98, R100): what `yuv2rgb` answers, what `CSC_INV` does with it, and the
obligation O19. -/

namespace Sys2Proof.Machine

/-! ### The limits of a channel -/

/-- 41_color.md R100: a sum past 255 saturates. -/
theorem channel_of_ge {x : Int} (h : 255 ≤ x) : channel x = 255 := by
  rw [channel]
  omega

theorem channel_of_nonpos {x : Int} (h : x ≤ 0) : channel x = 0 := by
  rw [channel]
  omega

theorem tdiv_nonpos {a b : Int} (ha : a ≤ 0) (hb : 0 ≤ b) : a.tdiv b ≤ 0 := by
  have hneg : 0 ≤ (-a).tdiv b := Int.tdiv_nonneg (by omega) hb
  rw [Int.neg_tdiv] at hneg
  omega

/-! ### The map and the command -/

/-- `yuv2rgb` in the terms of the claims (41_color.md R98). -/
theorem yuv2rgb_eq (t : Sample) :
    let py := t.y.toInt + 128
    let pu := t.u.toInt + 128
    let pv := t.v.toInt + 128
    yuv2rgb t =
      { r := byteOf (channel (py + pv))
        g := byteOf (channel ((1000 * py - 194 * pu - 509 * pv).tdiv 1000))
        b := byteOf (channel (py + pu)) } := by
  simp only [yuv2rgb, sval_eq_toInt, satu8_eq_channel, tdiv_eq]
  rfl

/-- Three channel values in one 24-bit register: `R + 256 G + 65536 B` (41_color.md R100). -/
theorem pack24_byteOf_channel (x y z : Int) :
    pack24 (byteOf (channel x)) (byteOf (channel y)) (byteOf (channel z)) =
      BitVec.ofInt 24 (channel x + 256 * channel y + 65536 * channel z) := by
  have carries (w : Int) : ((byteOf (channel w)).toNat : Int) = channel w :=
    toNat_byteOf (channel_range w).1 (channel_range w).2
  rw [pack24, ← BitVec.ofInt_natCast]
  push_cast
  rw [carries, carries, carries]

/-- The pixel of the three samples of `YUV`, as `PIX` holds it (41_color.md R100). -/
def pixelOfYuv (yuv : BitVec 24) : BitVec 24 :=
  let c := yuv2rgb { y := byte0 yuv, u := byte1 yuv, v := byte2 yuv }
  pack24 c.r c.g c.b

theorem exec_cscInv (s : State) : exec .cscInv s = .next { s with pix := pixelOfYuv s.yuv } := rfl

theorem pixelOfYuv_eq (yuv : BitVec 24) :
    let py := (yuv.extractLsb' 0 8).toInt + 128
    let pu := (yuv.extractLsb' 8 8).toInt + 128
    let pv := (yuv.extractLsb' 16 8).toInt + 128
    pixelOfYuv yuv = BitVec.ofInt 24 (channel (py + pv) + 256 * channel ((1000 * py - 194 * pu - 509 * pv).tdiv 1000) +
      65536 * channel (py + pu)) := by
  rw [pixelOfYuv, yuv2rgb_eq]
  exact pack24_byteOf_channel _ _ _

/-- Settles O19: `PIX` becomes the pixel of `YUV`, whose channels are limited to 0..255, and the rule's example is
evaluated. -/
theorem cscInvConvertsTheSamples : Obligations.CscInvConvertsTheSamples := by
  refine ⟨rfl, fun s => ⟨?_, fun hr => channel_of_ge (le_of_lt hr), fun hb => channel_of_ge (le_of_lt hb),
    fun hg => channel_of_nonpos (tdiv_nonpos (by omega) (by decide))⟩, fun s hyuv => ?_⟩
  · rw [exec_cscInv, pixelOfYuv_eq]
  · have example_pixel : pixelOfYuv 0xCB80FC#24 = 0x7C55C7#24 := by decide
    rw [exec_cscInv, hyuv, example_pixel]

end Sys2Proof.Machine

/-! PROOFS. The tile commands (41_color.md R101, R102): rows of pixels in `IMG`, the image with a tile written, when the
commands are refused, and the obligations O21 and O22. -/

namespace Sys2Proof.Machine

/-! ### Pixels and rows of pixels in memory -/

theorem holdsBytes_append {m : Memory} {a : Nat} {front back : List Byte} (h : holdsBytes m a (front ++ back)) :
    holdsBytes m a front ∧ holdsBytes m (a + front.length) back := by
  refine ⟨fun i hi => ?_, fun i hi => ?_⟩
  · rw [h i (by rw [List.length_append]; omega), List.getD_append _ _ _ _ hi]
  · rw [Nat.add_assoc, h _ (by rw [List.length_append]; omega), List.getD_append_right _ _ _ _ (by omega),
      Nat.add_sub_cancel_left]

@[simp] theorem length_pixelBytes (c : Pixel) : (pixelBytes c).length = 3 := rfl

theorem Memory.readPixel_of_holdsBytes {m : Memory} {x y : Nat} {c : Pixel}
    (h : holdsBytes m (pixelAddr x y) (pixelBytes c)) : m.readPixel x y = c := by
  have hr : m.read (pixelAddr x y) = c.r := h 0 (by simp)
  have hg : m.read (pixelAddr x y + 1) = c.g := h 1 (by simp)
  have hb : m.read (pixelAddr x y + 2) = c.b := h 2 (by simp)
  rw [Memory.readPixel, hr, hg, hb]

theorem pixelAddr_succ (x y : Nat) : pixelAddr (x + 1) y = pixelAddr x y + 3 := by
  simp only [pixelAddr]
  omega

/-- The bytes of consecutive pixels of one row (20_memory.md R50) read back as those pixels. -/
theorem Memory.readPixel_of_holdsRow {m : Memory} {x y i : Nat} {cs : List Pixel} {c : Pixel}
    (h : holdsBytes m (pixelAddr x y) (cs.flatMap pixelBytes)) (hc : cs[i]? = some c) : m.readPixel (x + i) y = c := by
  induction cs generalizing x i with
  | nil => simp at hc
  | cons d cs ih =>
    rw [List.flatMap_cons] at h
    obtain ⟨hhead, htail⟩ := holdsBytes_append h
    cases i with
    | zero =>
      obtain rfl : d = c := by simpa using hc
      exact Memory.readPixel_of_holdsBytes hhead
    | succ i =>
      have hnext : holdsBytes m (pixelAddr (x + 1) y) (cs.flatMap pixelBytes) := pixelAddr_succ x y ▸ htail
      rw [show x + (i + 1) = x + 1 + i from by omega]
      exact ih hnext hc

theorem length_flatMap_pixelBytes (cs : List Pixel) : (cs.flatMap pixelBytes).length = 3 * cs.length := by
  simp [List.length_flatMap, Nat.mul_comm]

theorem Memory.readPixel_writePixels {m : Memory} {x y i : Nat} {cs : List Pixel} {c : Pixel} (hc : cs[i]? = some c) :
    (m.writePixels x y cs).readPixel (x + i) y = c :=
  Memory.readPixel_of_holdsRow (holdsBytes_writeBytes _ _ _) hc

theorem Memory.read_writePixels_of_outside {m : Memory} {x y a : Nat} {cs : List Pixel}
    (h : a < pixelAddr x y ∨ pixelAddr x y + 3 * cs.length ≤ a) : (m.writePixels x y cs).read a = m.read a :=
  Memory.read_writeBytes_of_outside (by rwa [length_flatMap_pixelBytes])

/-- A row of pixels written below a pixel does not touch it. -/
theorem Memory.readPixel_writePixels_below {m : Memory} {x y x' y' : Nat} {cs : List Pixel}
    (h : pixelAddr x y + 3 ≤ pixelAddr x' y') : (m.writePixels x' y' cs).readPixel x y = m.readPixel x y := by
  simp only [Memory.readPixel]
  rw [Memory.read_writePixels_of_outside (by omega), Memory.read_writePixels_of_outside (by omega),
    Memory.read_writePixels_of_outside (by omega)]

/-! ### Rows one below the other -/

/-- `k` rows of pixels written one below the other, the first from pixel (`x`, `y`) on. -/
def writeRows (m : Memory) (x y : Nat) (row : Nat → List Pixel) (k : Nat) : Memory :=
  (List.range k).foldl (fun m j => m.writePixels x (y + j) (row j)) m

theorem writeRows_succ (m : Memory) (x y : Nat) (row : Nat → List Pixel) (k : Nat) :
    writeRows m x y row (k + 1) = (writeRows m x y row k).writePixels x (y + k) (row k) := by
  rw [writeRows, List.range_succ, List.foldl_append]
  rfl

/-- Two rows lie 65536 pixels apart, so a later row leaves an earlier one as it was written. -/
theorem readPixel_writeRows {m : Memory} {x y i j k : Nat} {row : Nat → List Pixel} {c : Pixel} (hj : j < k)
    (hi : i < 65536) (hc : (row j)[i]? = some c) : (writeRows m x y row k).readPixel (x + i) (y + j) = c := by
  induction k with
  | zero => omega
  | succ k ih =>
    rw [writeRows_succ]
    by_cases hjk : j = k
    · subst hjk
      exact Memory.readPixel_writePixels hc
    · have hbelow : pixelAddr (x + i) (y + j) + 3 ≤ pixelAddr x (y + k) := by
        simp only [pixelAddr]
        omega
      rw [Memory.readPixel_writePixels_below hbelow]
      exact ih (by omega)

theorem read_writeRows_of_outside {m : Memory} {x y a k : Nat} {row : Nat → List Pixel}
    (h : ∀ j < k, a < pixelAddr x (y + j) ∨ pixelAddr x (y + j) + 3 * (row j).length ≤ a) :
    (writeRows m x y row k).read a = m.read a := by
  induction k with
  | zero => rfl
  | succ k ih =>
    rw [writeRows_succ, Memory.read_writePixels_of_outside (h k (by omega))]
    exact ih fun j hj => h j (by omega)

/-! ### The image with a tile written -/

theorem tileWritten_eq (s : State) :
    tileWritten s = writeRows s.img (tileX s 0) (tileY s 0) (fun j => tileRow s.sb (Fin.ofNat 8 j)) 8 := rfl

theorem length_tileRow (sb : PerPlane (Block Byte)) (j : Fin 8) : (tileRow sb j).length = 8 := rfl

theorem tileRow_getElem? (sb : PerPlane (Block Byte)) (j i : Fin 8) :
    (tileRow sb j)[i.val]? = some (yuv2rgb { y := sb.y.at j i, u := sb.u.at j i, v := sb.v.at j i }) := by
  rw [tileRow, List.getElem?_map, List.getElem?_range i.isLt, Option.map_some]
  simp only [Fin.ofNat_eq_cast, Fin.cast_val_eq_self]

/-- 41_color.md R102: each pixel of the tile becomes the pixel of its samples. -/
theorem readPixel_tileWritten (s : State) (j i : Fin 8) :
    (tileWritten s).readPixel (tileX s i.val) (tileY s j.val) =
      yuv2rgb { y := s.sb.y.at j i, u := s.sb.u.at j i, v := s.sb.v.at j i } := by
  rw [tileWritten_eq]
  refine readPixel_writeRows j.isLt (by omega) ?_
  have hj : Fin.ofNat 8 j.val = j := Fin.cast_val_eq_self j
  rw [hj, tileRow_getElem?]

/-- A byte outside every pixel of a row of the tile is outside the run of bytes the row fills. -/
theorem outside_row {x y a : Nat}
    (h : ∀ i : Fin 8, a < pixelAddr (x + i.val) y ∨ pixelAddr (x + i.val) y + 3 ≤ a) :
    a < pixelAddr x y ∨ pixelAddr x y + 3 * 8 ≤ a := by
  have before (i : Nat) (hi : i < 8) (ha : pixelAddr x y ≤ a) : pixelAddr (x + i) y + 3 ≤ a := by
    induction i with
    | zero => have := h 0; simp only [Fin.val_zero, Nat.add_zero] at this ⊢; omega
    | succ i ih =>
      have hprev := ih (by omega)
      have := h ⟨i + 1, hi⟩
      simp only [← Nat.add_assoc, pixelAddr_succ] at this ⊢
      omega
  have hlast := before 7 (by decide)
  simp only [pixelAddr] at hlast ⊢
  omega

/-- 41_color.md R102: pixels outside the tile are untouched. -/
theorem read_tileWritten_of_outside {s : State} {a : Nat}
    (h : ∀ j i : Fin 8, a < pixelAddr (tileX s i.val) (tileY s j.val) ∨
      pixelAddr (tileX s i.val) (tileY s j.val) + 3 ≤ a) : (tileWritten s).read a = s.img.read a := by
  rw [tileWritten_eq]
  refine read_writeRows_of_outside fun j hj => ?_
  rw [length_tileRow]
  exact outside_row fun i => h ⟨j, hj⟩ i

/-! ### The commands -/

/-- The error a tile command records is its block index. -/
theorem errorEntry_range_bidx (s : State) :
    errorEntry { code := .range, info := s.bidx.toNat } s =
      { s with err := true, errcode := .range, errinfo := s.bidx.setWidth 32 } := by
  rw [errorEntry, wordOf, BitVec.ofNat_toNat]

/-- Everything the checks of a tile command can do (41_color.md R101, R102), in the cases of the claims. -/
theorem tileChecks_cases (s : State) (go : State → Run) :
    let n := s.bidx.toNat
    let bw := s.blkw.toNat
    let bh := s.blkh.toNat
    let refused := (tileChecks s go).state =
      { s with err := true, errcode := .range, errinfo := s.bidx.setWidth 32 }
    (bw * bh ≤ n → refused) ∧
    (n < bw * bh → s.imgw.toNat < 8 * bw ∨ s.imgh.toNat < 8 * bh → refused) ∧
    (n < bw * bh → 8 * bw ≤ s.imgw.toNat → 8 * bh ≤ s.imgh.toNat → tileChecks s go = go s) := by
  refine ⟨fun hn => ?_, fun _ hfit => ?_, fun hn hw hh => ?_⟩
  · rw [tileChecks_eq, if_pos (Or.inl hn), Run.state_raise, errorEntry_range_bidx]
  · rw [tileChecks_eq, if_pos (Or.inr hfit), Run.state_raise, errorEntry_range_bidx]
  · rw [tileChecks_eq, if_neg (by omega)]

/-- The three sample blocks of the tile `BIDX` (41_color.md R101). -/
def tileSamples (s : State) : PerPlane (Block Byte) :=
  { y := Block.make fun j i => (tileSample s j i).y
    u := Block.make fun j i => (tileSample s j i).u
    v := Block.make fun j i => (tileSample s j i).v }

theorem tileSamples_at (s : State) (j i : Fin 8) :
    { y := (tileSamples s).y.at j i, u := (tileSamples s).u.at j i, v := (tileSamples s).v.at j i } =
      tileSample s j i := by
  simp only [tileSamples, Block.at_make]

theorem exec_tileIn (s : State) :
    exec .tileIn s = .next (tileChecks s fun s => .ok { s with sb := tileSamples s }).state := rfl

theorem exec_tileOut (s : State) :
    exec .tileOut s = .next (tileChecks s fun s => .ok { s with img := tileWritten s }).state := rfl

/-- Settles O21: past the checks, `TILE_IN` stores the samples of the tile. -/
theorem tileInReadsTheTile : Obligations.TileInReadsTheTile := by
  refine ⟨rfl, fun s => ?_⟩
  obtain ⟨hnoBlock, hnoFit, hpass⟩ := tileChecks_cases s fun s => .ok { s with sb := tileSamples s }
  refine ⟨fun hn => ?_, fun hn hfit => ?_, fun hn hw hh => ⟨tileSamples s, ?_, tileSamples_at s⟩⟩
  · rw [exec_tileIn, hnoBlock hn]
  · rw [exec_tileIn, hnoFit hn hfit]
  · rw [exec_tileIn, hpass hn hw hh, Run.state_ok]

/-- Settles O22: past the checks, `TILE_OUT` writes the eight rows of the tile, which overlap nowhere. -/
theorem tileOutWritesTheTile : Obligations.TileOutWritesTheTile := by
  refine ⟨rfl, fun s => ?_⟩
  obtain ⟨hnoBlock, hnoFit, hpass⟩ := tileChecks_cases s fun s => .ok { s with img := tileWritten s }
  refine ⟨fun hn => ?_, fun hn hfit => ?_, fun hn hw hh =>
    ⟨tileWritten s, ?_, readPixel_tileWritten s, fun _ => read_tileWritten_of_outside⟩⟩
  · rw [exec_tileOut, hnoBlock hn]
  · rw [exec_tileOut, hnoFit hn hfit]
  · rw [exec_tileOut, hpass hn hw hh, Run.state_ok]

end Sys2Proof.Machine

/-! PROOFS. The quantiser and the quantised-plane store (43_quant.md R121 to R125): one coefficient quantised, a block of
a plane element by element, the check `STQ` and `LDQ` share, and the obligations O26, O30 and O31. -/

namespace Sys2Proof.Machine

/-! ### `QUANT` -/

/-- A limited value fits the byte that carries it (00_scope.md R10, R11). -/
theorem toInt_byteOf_sample8 (x : Int) : (byteOf (sample8 x)).toInt = sample8 x := by
  obtain ⟨hlo, hhi⟩ := sample8_range x
  rw [← sval_eq_toInt, sval_byteOf hlo hhi]

/-- One coefficient in the terms of the claims (43_quant.md R122). -/
theorem toInt_quantOne (v u : Fin 8) (c : BitVec 16) :
    (quantOne v u c).toInt = sample8 (nearest c.toInt (quantStep v u)) := by
  rw [quantOne, rhadiv_eq_nearest, sat8_eq_sample8, toInt_byteOf_sample8]

theorem exec_quant (s : State) :
    exec .quant s = .next { s with qb := Block.make fun v u => quantOne v u (s.cb.at v u) } := rfl

/-- Settles O26: every element of the block `QUANT` makes is its coefficient divided, rounded and limited; the 64 values
of the matrix are compared one by one. -/
theorem quantDividesByTheMatrix : Obligations.QuantDividesByTheMatrix := by
  refine ⟨rfl, by decide, fun s => ⟨_, exec_quant s, fun v u => ?_⟩⟩
  rw [Block.at_make, toInt_quantOne]

/-! ### Blocks of a quantised plane, element by element -/

theorem Memory.at_readBlock (m : Memory) (n : Nat) (v u : Fin 8) :
    (m.readBlock n).at v u = m.read (64 * n + 8 * v.val + u.val) := by
  rw [Memory.readBlock, Block.at_make, qpAddr]

/-- The elements of a stored block are the block's own (43_quant.md R124). -/
theorem Memory.read_writeBlock_element (m : Memory) (n : Nat) (b : Block Byte) (v u : Fin 8) :
    (m.writeBlock n b).read (64 * n + 8 * v.val + u.val) = b.at v u := by
  rw [← Memory.at_readBlock, Memory.readBlock_writeBlock_same]

/-- Storing a block leaves every byte outside it (43_quant.md R124). -/
theorem Memory.read_writeBlock_of_outside {m : Memory} {n a : Nat} {b : Block Byte}
    (h : a < 64 * n ∨ 64 * n + 64 ≤ a) : (m.writeBlock n b).read a = m.read a := by
  rw [Memory.read_writeBlock, if_neg (by omega)]

theorem Memory.readBlock_nil (n : Nat) : Memory.readBlock [] n = Block.all 0#8 := by
  refine Block.ext_at fun v u => ?_
  rw [Memory.at_readBlock, Memory.read_nil, Block.at_all, unlisted]

/-! ### The check of `STQ` and `LDQ` -/

theorem blockCheck_of_noBlock {s : State} {go : State → Run} (h : s.blkw.toNat * s.blkh.toNat ≤ s.bidx.toNat) :
    (blockCheck s go).state = { s with err := true, errcode := .range, errinfo := s.bidx.setWidth 32 } := by
  rw [blockCheck_eq, if_pos h, Run.state_raise, errorEntry_range_bidx]

theorem blockCheck_of_block {s : State} {go : State → Run} (h : s.bidx.toNat < s.blkw.toNat * s.blkh.toNat) :
    blockCheck s go = go s := by
  rw [blockCheck_eq, if_neg (Nat.not_le.2 h)]

/-! ### `STQ` and `LDQ` -/

theorem exec_stq (p : Plane) (s : State) : exec (.stq p) s = .next (cmdStq p s).state := rfl

theorem exec_ldq (p : Plane) (s : State) : exec (.ldq p) s = .next (cmdLdq p s).state := rfl

theorem exec_stq_of_noBlock {p : Plane} {s : State} (h : s.blkw.toNat * s.blkh.toNat ≤ s.bidx.toNat) :
    exec (.stq p) s = .next { s with err := true, errcode := .range, errinfo := s.bidx.setWidth 32 } := by
  rw [exec_stq, cmdStq, blockCheck_of_noBlock h]

theorem exec_ldq_of_noBlock {p : Plane} {s : State} (h : s.blkw.toNat * s.blkh.toNat ≤ s.bidx.toNat) :
    exec (.ldq p) s = .next { s with err := true, errcode := .range, errinfo := s.bidx.setWidth 32 } := by
  rw [exec_ldq, cmdLdq, blockCheck_of_noBlock h]

theorem exec_stq_of_block {p : Plane} {s : State} (h : s.bidx.toNat < s.blkw.toNat * s.blkh.toNat) :
    exec (.stq p) s = .next { s with qp := s.qp.set p ((s.qp.get p).writeBlock s.bidx.toNat s.qb) } := by
  rw [exec_stq, cmdStq, blockCheck_of_block h, Run.state_ok]

theorem exec_ldq_of_block {p : Plane} {s : State} (h : s.bidx.toNat < s.blkw.toNat * s.blkh.toNat) :
    exec (.ldq p) s = .next { s with qb := (s.qp.get p).readBlock s.bidx.toNat } := by
  rw [exec_ldq, cmdLdq, blockCheck_of_block h, Run.state_ok]

/-- 43_quant.md R125: `LDQ` after `STQ` restores the block, whatever `QB` held in between. -/
theorem exec_ldq_of_exec_stq {s t : State} {p : Plane} {q : Block Byte}
    (h : s.bidx.toNat < s.blkw.toNat * s.blkh.toNat) (hstq : exec (.stq p) s = .next t) :
    exec (.ldq p) { t with qb := q } = .next { t with qb := s.qb } := by
  rw [exec_stq_of_block h] at hstq
  obtain rfl := Host.Outcome.next.inj hstq
  rw [exec_ldq_of_block (s := { s with qp := _, qb := q }) h]
  simp only [PerPlane.get_set, if_true, Memory.readBlock_writeBlock_same]

theorem readBlock_reset (p : Plane) (n : Nat) : (State.reset.qp.get p).readBlock n = Block.all 0#8 := by
  have hempty : State.reset.qp.get p = [] := PerPlane.get_all [] p
  rw [hempty, Memory.readBlock_nil]

/-- Settles O30: past the check, `STQ` writes the block's 64 bytes of its plane. -/
theorem stqStoresTheBlock : Obligations.StqStoresTheBlock :=
  ⟨rfl, rfl, rfl, fun s _ => ⟨exec_stq_of_noBlock, fun h =>
    ⟨_, exec_stq_of_block h, Memory.read_writeBlock_element _ _ s.qb, fun _ => Memory.read_writeBlock_of_outside⟩⟩⟩

/-- Settles O31: past the check, `LDQ` reads the block's 64 bytes, which are the ones `STQ` stored, or the zeros of
reset. -/
theorem ldqLoadsTheBlock : Obligations.LdqLoadsTheBlock :=
  ⟨rfl, rfl, rfl, fun _ _ => ⟨exec_ldq_of_noBlock, fun h => ⟨_, exec_ldq_of_block h, Memory.at_readBlock _ _⟩⟩,
    fun _ _ _ _ => exec_ldq_of_exec_stq, readBlock_reset⟩

end Sys2Proof.Machine

/-! PROOFS. The coefficient coder (44_coefcoder.md): the start of a plane (R132) and the obligation O32. -/

namespace Sys2Proof.Machine

/-! ### `CC_RST` -/

/-- The word of every stream of a plane set to 0, as `CC_RST` sets lengths and cursors (44_coefcoder.md R132). -/
def zeroPlane (a : PerStream Word) (p : Plane) : PerStream Word :=
  a.set p { dc := 0#32, run := 0#32, val := 0#32 }

theorem at_zeroPlane (a : PerStream Word) (p q : Plane) (k : Kind) :
    (zeroPlane a p).at q k = if q = p then 0#32 else a.at q k := by
  rw [zeroPlane, PerPlane.at_set]
  by_cases hqp : q = p
  · rw [if_pos hqp.symm, if_pos hqp]
    cases k <;> rfl
  · rw [if_neg (Ne.symm hqp), if_neg hqp]

theorem exec_ccRst (p : Plane) (s : State) :
    exec (.ccRst p) s =
      .next { s with slen := zeroPlane s.slen p, srd := zeroPlane s.srd p, dcp := s.dcp.set p 0#8 } := rfl

/-- Settles O32: `CC_RST` zeroes the plane's stream lengths and read cursors stream by stream, and its predictor. -/
theorem ccRstStartsAPlane : Obligations.CcRstStartsAPlane :=
  ⟨rfl, rfl, rfl, fun s p => ⟨zeroPlane s.slen p, zeroPlane s.srd p, exec_ccRst p s,
    fun q k => ⟨at_zeroPlane s.slen p q k, at_zeroPlane s.srd p q k⟩⟩⟩

end Sys2Proof.Machine

/-! PROOFS. Canonical code assignment (45_huffman.md R149): the order of the symbols, the code space that the codes along
it take, and the obligation O42. -/

namespace Sys2Proof.Machine

/-! ### The order (length, symbol) -/

/-- `x` stands before `y` in the order (length, symbol) of 45_huffman.md R149. -/
def standsBefore (x y : Nat × Nat) : Bool := Nat.blt x.1 y.1 || (Nat.beq x.1 y.1 && Nat.blt x.2 y.2)

theorem standsBefore_iff {x y : Nat × Nat} : standsBefore x y = true ↔ x.1 < y.1 ∨ x.1 = y.1 ∧ x.2 < y.2 := by
  simp [standsBefore]

theorem standsBefore_irrefl (x : Nat × Nat) : standsBefore x x = false := by
  rw [← Bool.not_eq_true, standsBefore_iff]
  omega

theorem standsBefore_trans {x y z : Nat × Nat} (hxy : standsBefore x y = true) (hyz : standsBefore y z = true) :
    standsBefore x z = true := by
  rw [standsBefore_iff] at *
  omega

theorem standsBefore_asymm {x y : Nat × Nat} (h : standsBefore x y = true) : standsBefore y x = false := by
  rw [← Bool.not_eq_true, standsBefore_iff]
  rw [standsBefore_iff] at h
  omega

theorem standsBefore_of_not {x y : Nat × Nat} (hne : x.2 ≠ y.2) (h : ¬ standsBefore x y = true) :
    standsBefore y x = true := by
  rw [standsBefore_iff] at *
  omega

theorem length_le_of_standsBefore {x y : Nat × Nat} (h : standsBefore x y = true) : x.1 ≤ y.1 := by
  rw [standsBefore_iff] at h
  omega

theorem addByLength_cons (x y : Nat × Nat) (l : List (Nat × Nat)) :
    addByLength x (y :: l) = if standsBefore x y = true then x :: y :: l else y :: addByLength x l := rfl

theorem addByLength_perm (x : Nat × Nat) (l : List (Nat × Nat)) : (addByLength x l).Perm (x :: l) := by
  induction l with
  | nil => exact .refl _
  | cons y l ih =>
    rw [addByLength_cons]
    split
    · exact .refl _
    · exact (ih.cons y).trans (.swap x y l)

theorem addByLength_pairwise {x : Nat × Nat} {l : List (Nat × Nat)} (hx : ∀ y ∈ l, x.2 ≠ y.2)
    (hl : l.Pairwise (standsBefore · ·)) : (addByLength x l).Pairwise (standsBefore · ·) := by
  induction l with
  | nil => exact List.pairwise_singleton _ _
  | cons y l ih =>
    obtain ⟨hy, hl'⟩ := List.pairwise_cons.1 hl
    obtain ⟨hxy, hxl⟩ := List.forall_mem_cons.1 hx
    rw [addByLength_cons]
    split
    case isTrue hbefore =>
      exact hl.cons (List.forall_mem_cons.2 ⟨hbefore, fun z hz => standsBefore_trans hbefore (hy z hz)⟩)
    case isFalse hbefore =>
      refine (ih hxl hl').cons fun z hz => ?_
      obtain rfl | hz := List.mem_cons.1 ((addByLength_perm x l).mem_iff.1 hz)
      · exact standsBefore_of_not hxy hbefore
      · exact hy z hz

/-- One step of the construction of `order`: a symbol that has a length is inserted. -/
def addSymbol (len : Nat → Nat) (s : Nat) (l : List (Nat × Nat)) : List (Nat × Nat) :=
  if Nat.beq (len s) 0 then l else addByLength (len s, s) l

theorem addSymbol_eq (len : Nat → Nat) (s : Nat) (l : List (Nat × Nat)) :
    addSymbol len s l = if len s = 0 then l else addByLength (len s, s) l := by
  simp only [addSymbol, Nat.beq_eq]

theorem codeOrder_eq (len : Nat → Nat) : codeOrder len = (List.range 256).foldr (addSymbol len) [] := rfl

/-- The symbols of a list that have a length, with their lengths. -/
def codedSymbols (len : Nat → Nat) (l : List Nat) : List (Nat × Nat) :=
  (l.filter fun s => len s ≠ 0).map fun s => (len s, s)

theorem codedSymbols_cons (len : Nat → Nat) (s : Nat) (l : List Nat) :
    codedSymbols len (s :: l) = if len s = 0 then codedSymbols len l else (len s, s) :: codedSymbols len l := by
  by_cases hs : len s = 0 <;> simp [codedSymbols, hs]

theorem mem_codedSymbols {len : Nat → Nat} {l : List Nat} {x : Nat × Nat} :
    x ∈ codedSymbols len l ↔ x.2 ∈ l ∧ len x.2 ≠ 0 ∧ x.1 = len x.2 := by
  obtain ⟨n, s⟩ := x
  simp only [codedSymbols, List.mem_map, List.mem_filter, decide_eq_true_eq, Prod.mk.injEq]
  constructor
  · rintro ⟨r, ⟨hr, hlen⟩, rfl, rfl⟩
    exact ⟨hr, hlen, rfl⟩
  · rintro ⟨hs, hlen, rfl⟩
    exact ⟨s, ⟨hs, hlen⟩, rfl, rfl⟩

theorem foldr_addSymbol_perm (len : Nat → Nat) (l : List Nat) :
    (l.foldr (addSymbol len) []).Perm (codedSymbols len l) := by
  induction l with
  | nil => exact .refl _
  | cons s l ih =>
    rw [List.foldr_cons, addSymbol_eq, codedSymbols_cons]
    split
    · exact ih
    · exact (addByLength_perm _ _).trans (ih.cons _)

theorem foldr_addSymbol_pairwise (len : Nat → Nat) {l : List Nat} (hl : l.Nodup) :
    (l.foldr (addSymbol len) []).Pairwise (standsBefore · ·) := by
  induction l with
  | nil => exact .nil
  | cons s l ih =>
    obtain ⟨hs, hl⟩ := List.nodup_cons.1 hl
    rw [List.foldr_cons, addSymbol_eq]
    split
    · exact ih hl
    · refine addByLength_pairwise (fun y hy heq => hs ?_) (ih hl)
      obtain ⟨hmem, -, -⟩ := mem_codedSymbols.1 ((foldr_addSymbol_perm len l).mem_iff.1 hy)
      exact (show s = y.2 from heq) ▸ hmem

theorem codeOrder_perm (len : Nat → Nat) : (codeOrder len).Perm (codedSymbols len (List.range 256)) := by
  rw [codeOrder_eq]
  exact foldr_addSymbol_perm len _

theorem codeOrder_pairwise (len : Nat → Nat) : (codeOrder len).Pairwise (standsBefore · ·) := by
  rw [codeOrder_eq]
  exact foldr_addSymbol_pairwise len List.nodup_range

theorem mem_codeOrder {len : Nat → Nat} {x : Nat × Nat} :
    x ∈ codeOrder len ↔ x.2 < 256 ∧ len x.2 ≠ 0 ∧ x.1 = len x.2 := by
  rw [(codeOrder_perm len).mem_iff, mem_codedSymbols, List.mem_range]

/-! ### The code space that a list of symbols takes -/

/-- The share of the code space, in units of `2^−255`, of the symbols of a list (45_huffman.md R149). -/
def spaceOf (l : List (Nat × Nat)) : Nat := (l.map fun x => 2 ^ (255 - x.1)).sum

/-- The share of the symbols of a list that stand before `x`. -/
def spaceUpTo (l : List (Nat × Nat)) (x : Nat × Nat) : Nat := spaceOf (l.filter (standsBefore · x))

theorem spaceOf_cons (x : Nat × Nat) (l : List (Nat × Nat)) : spaceOf (x :: l) = 2 ^ (255 - x.1) + spaceOf l := rfl

theorem spaceOf_perm {l m : List (Nat × Nat)} (h : l.Perm m) : spaceOf l = spaceOf m := (h.map _).sum_eq

theorem spaceUpTo_head {x : Nat × Nat} {l : List (Nat × Nat)} (h : (x :: l).Pairwise (standsBefore · ·)) :
    spaceUpTo (x :: l) x = 0 := by
  have hnone : (x :: l).filter (standsBefore · x) = [] := by
    refine List.filter_eq_nil_iff.2 (List.forall_mem_cons.2 ⟨?_, fun y hy => ?_⟩)
    · simp [standsBefore_irrefl]
    · simp [standsBefore_asymm (List.rel_of_pairwise_cons h hy)]
  rw [spaceUpTo, hnone]
  rfl

theorem spaceUpTo_tail {x y : Nat × Nat} {l : List (Nat × Nat)} (h : (x :: l).Pairwise (standsBefore · ·))
    (hy : y ∈ l) : spaceUpTo (x :: l) y = 2 ^ (255 - x.1) + spaceUpTo l y := by
  rw [spaceUpTo, List.filter_cons_of_pos (p := (standsBefore · y)) (List.rel_of_pairwise_cons h hy), spaceOf_cons,
    spaceUpTo]

theorem spaceOf_filter_codedSymbols (len : Nat → Nat) (q : Nat × Nat → Bool) (l : List Nat) :
    spaceOf ((codedSymbols len l).filter q) =
      (l.map fun s => if len s ≠ 0 ∧ q (len s, s) = true then 2 ^ (255 - len s) else 0).sum := by
  induction l with
  | nil => rfl
  | cons s l ih =>
    rw [List.map_cons, List.sum_cons, ← ih, codedSymbols_cons]
    by_cases hs : len s = 0
    · simp [hs]
    · by_cases hq : q (len s, s) = true
      · simp [hs, hq, spaceOf_cons]
      · simp [hs, hq]

theorem spaceOf_codeOrder (len : Nat → Nat) : spaceOf (codeOrder len) = kraftSum len := by
  have h := spaceOf_filter_codedSymbols len (fun _ => true) (List.range 256)
  rw [List.filter_true] at h
  rw [spaceOf_perm (codeOrder_perm len), h, kraftSum]
  simp

theorem spaceUpTo_codeOrder (len : Nat → Nat) (s : Nat) :
    spaceUpTo (codeOrder len) (len s, s) = spaceBefore len s := by
  rw [spaceUpTo, spaceOf_perm ((codeOrder_perm len).filter _), spaceOf_filter_codedSymbols, spaceBefore]
  simp only [standsBefore_iff]

/-! ### The next code -/

/-- The share of the code space up to and with the previous symbol: where the next code begins. -/
def spaceTaken : Option (Nat × Nat) → Nat
  | none => 0
  | some (l, c) => (c + 1) * 2 ^ (255 - l)

/-- The next code, put at the top of 255 bits, begins where the codes before it end. -/
theorem nextCode_mul {prev : Option (Nat × Nat)} {l : Nat} (hprev : ∀ p ∈ prev, p.1 ≤ l) (hl : l ≤ 255) :
    nextCode prev l * 2 ^ (255 - l) = spaceTaken prev := by
  cases prev with
  | none => exact Nat.zero_mul _
  | some p =>
    have hp : p.1 ≤ l := hprev p rfl
    have hshift : (l - p.1) + (255 - l) = 255 - p.1 := by omega
    calc (p.2 + 1) * 2 ^ (l - p.1) * 2 ^ (255 - l) = (p.2 + 1) * 2 ^ ((l - p.1) + (255 - l)) := by
          rw [Nat.mul_assoc, ← Nat.pow_add]
      _ = (p.2 + 1) * 2 ^ (255 - p.1) := by rw [hshift]

theorem spaceTaken_nextCode {prev : Option (Nat × Nat)} {l : Nat} (hprev : ∀ p ∈ prev, p.1 ≤ l) (hl : l ≤ 255) :
    spaceTaken (some (l, nextCode prev l)) = spaceTaken prev + 2 ^ (255 - l) := by
  rw [spaceTaken, Nat.add_mul, nextCode_mul hprev hl, Nat.one_mul]

/-- A code of `l` bits is left exactly when the space is not used up. -/
theorem nextCode_lt_iff {prev : Option (Nat × Nat)} {l : Nat} (hprev : ∀ p ∈ prev, p.1 ≤ l) (hl : l ≤ 255) :
    nextCode prev l < 2 ^ l ↔ spaceTaken prev < 2 ^ 255 := by
  have hpow : 2 ^ 255 = 2 ^ l * 2 ^ (255 - l) := by rw [← Nat.pow_add, Nat.add_sub_cancel' hl]
  rw [hpow, ← nextCode_mul hprev hl, Nat.mul_lt_mul_right (Nat.two_pow_pos _)]

/-- A code that is left fits into the space: the space is used in whole shares. -/
theorem spaceTaken_nextCode_le {prev : Option (Nat × Nat)} {l : Nat} (hl : l ≤ 255) (hroom : nextCode prev l < 2 ^ l) :
    spaceTaken (some (l, nextCode prev l)) ≤ 2 ^ 255 :=
  calc (nextCode prev l + 1) * 2 ^ (255 - l) ≤ 2 ^ l * 2 ^ (255 - l) := Nat.mul_le_mul_right _ hroom
    _ = 2 ^ 255 := by rw [← Nat.pow_add, Nat.add_sub_cancel' hl]

/-! ### The assignment along the order -/

/-- The code `c` of length `l`, put at the top of 255 bits, is `start`. -/
def beginsAt (c : Code) (l start : Nat) : Prop := c.len.toNat = l ∧ c.code.toNat * 2 ^ (255 - l) = start

/-- What the assignment needs of a list of symbols that come after `prev`: they stand in the order of 45_huffman.md R149,
with the lengths of the table. -/
structure Assignable (len : Nat → Nat) (prev : Option (Nat × Nat)) (l : List (Nat × Nat)) : Prop where
  ordered : l.Pairwise (standsBefore · ·)
  lengths : ∀ x ∈ l, x.1 = len x.2
  bounded : ∀ x ∈ l, x.1 ≤ 255
  later : ∀ p ∈ prev, ∀ x ∈ l, p.1 ≤ x.1

section
variable {len : Nat → Nat} {prev : Option (Nat × Nat)} {x : Nat × Nat} {l : List (Nat × Nat)}

theorem Assignable.head_le (h : Assignable len prev (x :: l)) : x.1 ≤ 255 := h.bounded x List.mem_cons_self

theorem Assignable.prev_le_head (h : Assignable len prev (x :: l)) : ∀ p ∈ prev, p.1 ≤ x.1 := fun p hp =>
  h.later p hp x List.mem_cons_self

theorem Assignable.tail (h : Assignable len prev (x :: l)) (c : Nat) : Assignable len (some (x.1, c)) l where
  ordered := h.ordered.of_cons
  lengths y hy := h.lengths y (List.mem_cons_of_mem _ hy)
  bounded y hy := h.bounded y (List.mem_cons_of_mem _ hy)
  later p hp y hy := by
    obtain rfl := Option.some.inj hp
    exact length_le_of_standsBefore (x := x) (List.rel_of_pairwise_cons h.ordered hy)

theorem Assignable.head_notMem_tail (h : Assignable len prev (x :: l)) : (len x.2, x.2) ∉ l := fun hmem => by
  have hx : (len x.2, x.2) = x := Prod.ext (h.lengths x List.mem_cons_self).symm rfl
  have hself : standsBefore x x = true := List.rel_of_pairwise_cons h.ordered (hx ▸ hmem)
  rw [standsBefore_irrefl] at hself
  cases hself

theorem assignable_codeOrder (hlen : ∀ s, len s ≤ 255) : Assignable len none (codeOrder len) where
  ordered := codeOrder_pairwise len
  lengths x hx := (mem_codeOrder.1 hx).2.2
  bounded x hx := (mem_codeOrder.1 hx).2.2 ▸ hlen x.2
  later p hp := by cases hp

theorem assignCodes_of_full (hfull : 2 ^ x.1 ≤ nextCode prev x.1) :
    assignCodes prev (x :: l) = .error { code := .table, info := x.2 } :=
  if_pos (Nat.ble_eq_true_of_le hfull)

/-- The code that the assignment gives next. -/
def assignedCode (prev : Option (Nat × Nat)) (l : Nat) : Code :=
  { len := BitVec.ofNat 8 l, code := BitVec.ofNat 255 (nextCode prev l) }

theorem assignCodes_of_room (hroom : nextCode prev x.1 < 2 ^ x.1) :
    assignCodes prev (x :: l) =
      (assignCodes (some (x.1, nextCode prev x.1)) l).map ((x.2, assignedCode prev x.1) :: ·) := by
  rw [assignCodes, if_neg (by rw [Nat.ble_eq]; exact Nat.not_le.2 hroom)]
  cases assignCodes (some (x.1, nextCode prev x.1)) l <;> rfl

theorem beginsAt_assignedCode {n : Nat} (hprev : ∀ p ∈ prev, p.1 ≤ n) (hn : n ≤ 255)
    (hroom : nextCode prev n < 2 ^ n) : beginsAt (assignedCode prev n) n (spaceTaken prev) := by
  have hcode : nextCode prev n < 2 ^ 255 := Nat.lt_of_lt_of_le hroom (Nat.pow_le_pow_right (by decide) hn)
  refine ⟨Nat.mod_eq_of_lt (Nat.lt_succ_of_le hn), ?_⟩
  rw [assignedCode, BitVec.toNat_ofNat, Nat.mod_eq_of_lt hcode, nextCode_mul hprev hn]

/-- The assigned codes `t` of the symbols in `l`, where the space before `l` is `start`: each begins where the codes
before it end, and no other symbol has one. -/
def Assigned (len : Nat → Nat) (l : List (Nat × Nat)) (start : Nat) (t : List (Nat × Code)) : Prop :=
  ∀ s, ((len s, s) ∉ l → t.lookup s = none) ∧
    ((len s, s) ∈ l → ∃ c, t.lookup s = some c ∧ beginsAt c (len s) (start + spaceUpTo l (len s, s)))

theorem Assigned.cons {start : Nat} {c : Code} {t : List (Nat × Code)} (hl : Assignable len prev (x :: l))
    (hc : beginsAt c x.1 start) (ht : Assigned len l (start + 2 ^ (255 - x.1)) t) :
    Assigned len (x :: l) start ((x.2, c) :: t) := by
  intro s
  have hx : x = (len x.2, x.2) := Prod.ext (hl.lengths x List.mem_cons_self) rfl
  by_cases hs : s = x.2
  · subst hs
    rw [List.lookup_cons_self, ← hx, spaceUpTo_head hl.ordered, ← hl.lengths x List.mem_cons_self]
    exact ⟨fun hmem => absurd List.mem_cons_self hmem, fun _ => ⟨c, rfl, hc⟩⟩
  · have hne : (len s, s) ≠ x := fun h => hs (congrArg Prod.snd h)
    have hmem : (len s, s) ∈ x :: l ↔ (len s, s) ∈ l := by rw [List.mem_cons, or_iff_right hne]
    obtain ⟨hnone, hsome⟩ := ht s
    rw [List.lookup_cons, beq_false_of_ne hs, hmem]
    refine ⟨hnone, fun h => ?_⟩
    rw [spaceUpTo_tail hl.ordered h, ← Nat.add_assoc]
    exact hsome h

/-- Where the symbols take no more than the space that is left, the assignment gives each its share. -/
theorem assignCodes_succeeds (hl : Assignable len prev l) (hfits : spaceTaken prev + spaceOf l ≤ 2 ^ 255) :
    ∃ t, assignCodes prev l = .ok t ∧ Assigned len l (spaceTaken prev) t := by
  induction l generalizing prev with
  | nil => exact ⟨[], rfl, fun s => ⟨fun _ => rfl, fun h => by cases h⟩⟩
  | cons x l ih =>
    have hnext := spaceTaken_nextCode hl.prev_le_head hl.head_le
    rw [spaceOf_cons, ← Nat.add_assoc, ← hnext] at hfits
    have hshare : 0 < 2 ^ (255 - x.1) := Nat.two_pow_pos _
    have hroom := (nextCode_lt_iff hl.prev_le_head hl.head_le).2 (by omega)
    obtain ⟨t, ht, hassigned⟩ := ih (hl.tail _) hfits
    rw [assignCodes_of_room hroom, ht]
    rw [hnext] at hassigned
    exact ⟨_, rfl, hassigned.cons hl (beginsAt_assignedCode hl.prev_le_head hl.head_le hroom)⟩

/-- Where the symbols take more than the space that is left, the assignment fails with the first of them that finds the
space used up. -/
theorem assignCodes_fails (hl : Assignable len prev l) (hprev : spaceTaken prev ≤ 2 ^ 255)
    (hover : 2 ^ 255 < spaceTaken prev + spaceOf l) :
    ∃ x ∈ l, assignCodes prev l = .error { code := .table, info := x.2 } ∧
      2 ^ 255 ≤ spaceTaken prev + spaceUpTo l x ∧
      ∀ y ∈ l, standsBefore y x = true → spaceTaken prev + spaceUpTo l y < 2 ^ 255 := by
  induction l generalizing prev with
  | nil => exact absurd hover (Nat.not_lt.2 hprev)
  | cons x l ih =>
    have hhead := spaceUpTo_head hl.ordered
    have hiff := nextCode_lt_iff hl.prev_le_head hl.head_le
    rcases Nat.lt_or_ge (nextCode prev x.1) (2 ^ x.1) with hroom | hfull
    · have hnext := spaceTaken_nextCode hl.prev_le_head hl.head_le
      rw [spaceOf_cons, ← Nat.add_assoc, ← hnext] at hover
      obtain ⟨z, hz, herror, hused, hfirst⟩ :=
        ih (hl.tail _) (spaceTaken_nextCode_le hl.head_le hroom) hover
      rw [hnext, Nat.add_assoc, ← spaceUpTo_tail hl.ordered hz] at hused
      refine ⟨z, List.mem_cons_of_mem _ hz, ?_, hused, fun y hy hyz => ?_⟩
      · rw [assignCodes_of_room hroom, herror]
        rfl
      · obtain rfl | hy := List.mem_cons.1 hy
        · rw [hhead]
          exact hiff.1 hroom
        · rw [spaceUpTo_tail hl.ordered hy, ← Nat.add_assoc, ← hnext]
          exact hfirst y hy hyz
    · refine ⟨x, List.mem_cons_self, assignCodes_of_full hfull, ?_, fun y hy hyx => ?_⟩
      · rw [hhead]
        exact Nat.not_lt.1 fun h => Nat.not_lt.2 hfull (hiff.2 h)
      · obtain rfl | hy := List.mem_cons.1 hy
        · rw [standsBefore_irrefl] at hyx
          cases hyx
        · rw [standsBefore_asymm (List.rel_of_pairwise_cons hl.ordered hy)] at hyx
          cases hyx

end

/-! ### The table -/

/-- Picking the codes of the symbols in `l` out of `t` keeps what `t` says of them. -/
theorem lookup_filterMap_lookup (t : List (Nat × Code)) (l : List Nat) (s : Nat) :
    (l.filterMap fun r => (t.lookup r).map fun c => (r, c)).lookup s = if s ∈ l then t.lookup s else none := by
  induction l with
  | nil => rfl
  | cons r l ih =>
    rw [List.filterMap_cons]
    by_cases hr : s = r
    · subst hr
      cases hs : t.lookup s <;> simp [hs, ih]
    · cases hs : t.lookup r <;> simp [hr, ih, List.lookup_cons, beq_false_of_ne hr]

theorem entry_codeTableOf (t : List (Nat × Code)) {s : Nat} (hs : s < 256) :
    (codeTableOf t).entry s = (t.lookup s).getD { len := 0#8, code := 0#255 } := by
  rw [CodeTable.entry, codeTableOf, lookup_filterMap_lookup, if_pos (List.mem_range.2 hs)]

theorem canon_of_ok {len : Nat → Nat} {t : List (Nat × Code)} (h : assignCodes none (codeOrder len) = .ok t) :
    canon len = .ok (codeTableOf t) := by
  rw [canon, h]

theorem canon_of_error {len : Nat → Nat} {e : Err} (h : assignCodes none (codeOrder len) = .error e) :
    canon len = .error e := by
  rw [canon, h]

/-- 45_huffman.md R149: a table that is not over-subscribed has its codes, each the share of the symbols before it. -/
theorem canon_succeeds {len : Nat → Nat} (hlen : ∀ s, len s ≤ 255) (hkraft : kraftSum len ≤ 2 ^ 255) :
    ∃ t, canon len = .ok t ∧ ∀ s, s < 256 →
      (t.entry s).len.toNat = len s ∧
      (len s = 0 → (t.entry s).code = 0#255) ∧
      (len s ≠ 0 → (t.entry s).code.toNat * 2 ^ (255 - len s) = spaceBefore len s) := by
  have hfits : spaceTaken none + spaceOf (codeOrder len) ≤ 2 ^ 255 := by
    rwa [spaceOf_codeOrder, spaceTaken, Nat.zero_add]
  obtain ⟨t, ht, hassigned⟩ := assignCodes_succeeds (assignable_codeOrder hlen) hfits
  refine ⟨codeTableOf t, canon_of_ok ht, fun s hs => ?_⟩
  obtain ⟨hnone, hsome⟩ := hassigned s
  rw [entry_codeTableOf t hs]
  by_cases hzero : len s = 0
  · rw [hnone fun hmem => (mem_codeOrder.1 hmem).2.1 hzero]
    exact ⟨hzero.symm, fun _ => rfl, fun h => absurd hzero h⟩
  · obtain ⟨c, hlookup, hclen, hcode⟩ := hsome (mem_codeOrder.2 ⟨hs, hzero, rfl⟩)
    rw [spaceUpTo_codeOrder, spaceTaken, Nat.zero_add] at hcode
    rw [hlookup]
    exact ⟨hclen, fun h => absurd h hzero, fun _ => hcode⟩

/-- 45_huffman.md R149: an over-subscribed table fails with the first symbol for which no code is left. -/
theorem canon_fails {len : Nat → Nat} (hlen : ∀ s, len s ≤ 255) (hkraft : 2 ^ 255 < kraftSum len) :
    ∃ s, canon len = .error { code := .table, info := s } ∧ s < 256 ∧ len s ≠ 0 ∧
      2 ^ 255 ≤ spaceBefore len s ∧ ∀ r, r < 256 → codedBefore len r s → spaceBefore len r < 2 ^ 255 := by
  have hover : 2 ^ 255 < spaceTaken none + spaceOf (codeOrder len) := by
    rwa [spaceOf_codeOrder, spaceTaken, Nat.zero_add]
  obtain ⟨⟨n, s⟩, hmem, herror, hused, hfirst⟩ :=
    assignCodes_fails (assignable_codeOrder hlen) (Nat.zero_le _) hover
  obtain ⟨hs, hcoded, hn⟩ := mem_codeOrder.1 hmem
  obtain rfl : n = len s := hn
  rw [spaceUpTo_codeOrder, spaceTaken, Nat.zero_add] at hused
  refine ⟨s, canon_of_error herror, hs, hcoded, hused, fun r hr ⟨hrcoded, hrs⟩ => ?_⟩
  have hspace := hfirst (len r, r) (mem_codeOrder.2 ⟨hr, hrcoded, rfl⟩) (standsBefore_iff.2 hrs)
  rwa [spaceUpTo_codeOrder, spaceTaken, Nat.zero_add] at hspace

/-- Settles O42: the assignment keeps account of the code space along the order (length, symbol), so it ends exactly when
the space suffices, and fails where it is used up. -/
theorem canonAssignsTheCodeSpace : Obligations.CanonAssignsTheCodeSpace := fun _ hlen =>
  ⟨canon_succeeds hlen, canon_fails hlen⟩

end Sys2Proof.Machine

/-! PROOFS. The container framer (46_container.md R171, R172; layout 30_encoding.md R77 to R79): pieces of a list of
pieces in memory, where the parts of a container stand, the checks of `FRAME` and `DEFRAME_HDR`, and the obligations O51 and
O52. -/

namespace Sys2Proof.Machine

/-! ### Pieces one after another -/

theorem read_of_holds_readBytes {m src : Memory} {a b n i : Nat} (h : holdsBytes m a (src.readBytes b n)) (hi : i < n) :
    m.read (a + i) = src.read (b + i) := by
  rw [h i (by rwa [Memory.length_readBytes])]
  exact Memory.readBytes_getD src b n i hi

/-- Of pieces that stand one after another in the order of a key, each begins behind the pieces of smaller keys. -/
theorem holdsBytes_piece {α : Type} {l : List α} {key : α → Nat} {piece : α → List Byte} {m : Memory} {a : Nat}
    (hordered : l.Pairwise fun x y => key x < key y) (h : holdsBytes m a (l.flatMap piece)) {t : α} (ht : t ∈ l) :
    holdsBytes m (a + ((l.filter fun x => Nat.blt (key x) (key t)).map fun x => (piece x).length).sum) (piece t) := by
  induction l generalizing a with
  | nil => simp at ht
  | cons x l ih =>
    obtain ⟨hx, hl⟩ := List.pairwise_cons.1 hordered
    rw [List.flatMap_cons] at h
    obtain ⟨hhead, htail⟩ := holdsBytes_append h
    obtain rfl | ht := List.mem_cons.1 ht
    · have hnone : (t :: l).filter (fun x => Nat.blt (key x) (key t)) = [] := by
        refine List.filter_eq_nil_iff.2 fun y hy => ?_
        obtain rfl | hy := List.mem_cons.1 hy
        · simp
        · have := hx y hy
          simp only [Nat.blt_eq]
          omega
      rwa [hnone]
    · have hxt : Nat.blt (key x) (key t) = true := by simpa using hx t ht
      rw [List.filter_cons_of_pos (p := fun x => Nat.blt (key x) (key t)) hxt, List.map_cons, List.sum_cons,
        ← Nat.add_assoc]
      exact ih hl htail ht

/-- Pieces of one size: a piece's place is the size times the number of the pieces of smaller keys. -/
theorem holdsBytes_piece_of_length {α : Type} {l : List α} {key : α → Nat} {piece : α → List Byte} {m : Memory}
    {a size : Nat} (hordered : l.Pairwise fun x y => key x < key y) (hsize : ∀ x, (piece x).length = size)
    (h : holdsBytes m a (l.flatMap piece)) {t : α} (ht : t ∈ l) :
    holdsBytes m (a + (l.filter fun x => Nat.blt (key x) (key t)).length * size) (piece t) := by
  have hpiece := holdsBytes_piece hordered h ht
  simpa only [hsize, List.map_const', List.sum_replicate, smul_eq_mul] using hpiece

/-! ### The order of the streams and of the AC segments -/

theorem mem_allStreams (p : Plane) (k : Kind) : (p, k) ∈ allStreams := by cases p <;> cases k <;> decide

theorem mem_acSegments (p : Plane) (a : AcKind) : (p, a) ∈ acSegments := by cases p <;> cases a <;> decide

theorem allStreams_ordered : allStreams.Pairwise fun t u => streamNum t.1 t.2 < streamNum u.1 u.2 := by decide

theorem acSegments_ordered : acSegments.Pairwise fun t u => acNum t.1 t.2 < acNum u.1 u.2 := by decide

theorem allStreams_before (p : Plane) (k : Kind) :
    (allStreams.filter fun t => Nat.blt (streamNum t.1 t.2) (streamNum p k)).length = streamNum p k := by
  cases p <;> cases k <;> rfl

theorem acSegments_before (p : Plane) (a : AcKind) :
    (acSegments.filter fun t => Nat.blt (acNum t.1 t.2) (acNum p a)).length = acNum p a := by
  cases p <;> cases a <;> rfl

/-! ### The parts of the container -/

/-- The lengths of the nine segments. -/
def segmentLengths (s : State) (p : Plane) (k : Kind) : Nat := (s.bslen.at p k).toNat

theorem containerLength_eq (s : State) : containerLength s = totalLength (segmentLengths s) := rfl

theorem countBytes_eq (c : Word) : countBytes c = lowHigh c.toNat := by
  have hlow : c.extractLsb' 0 8 = BitVec.ofNat 8 c.toNat := by
    simp [← BitVec.toNat_inj]
  have hhigh : c.extractLsb' 8 8 = BitVec.ofNat 8 (c.toNat / 256) := by
    simp [← BitVec.toNat_inj, Nat.shiftRight_eq_div_pow]
  rw [countBytes, lowHigh, hlow, hhigh]

theorem length_countBytes (c : Word) : (countBytes c).length = 2 := rfl

theorem length_fileHeader (s : State) : (fileHeader s).length = 16 := rfl

theorem length_tableBytes (s : State) : (tableBytes s).length = 2304 := by
  simp [tableBytes, allStreams]

theorem length_containerBytes (s : State) : (containerBytes s).length = totalLength (segmentLengths s) := by
  have hpayload : (payloadBytes s).length = (allStreams.map fun t => segmentLengths s t.1 t.2).sum := by
    simp only [payloadBytes, List.length_flatMap, Memory.length_readBytes, segmentLengths]
  rw [containerBytes, List.length_append, List.length_append, length_fileHeader, length_tableBytes, hpayload,
    totalLength]

section
variable {s : State} {m : Memory} (h : holdsBytes m 0 (containerBytes s))
include h

/-- 30_encoding.md R77 to R79: the header, the tables and the segments of a container, each at its offset. -/
theorem container_parts :
    holdsBytes m 0 (fileHeader s) ∧ holdsBytes m 16 (tableBytes s) ∧ holdsBytes m 2320 (payloadBytes s) := by
  obtain ⟨hfront, hpayload⟩ := holdsBytes_append h
  obtain ⟨hheader, htables⟩ := holdsBytes_append hfront
  rw [List.length_append, length_fileHeader, length_tableBytes] at hpayload
  exact ⟨hheader, htables, hpayload⟩

theorem container_beginning : holdsBytes m 0 [0x49#8, 0x4D#8, s.blkw, s.blkh] :=
  (holdsBytes_append (container_parts h).1).1

theorem container_count (p : Plane) (a : AcKind) :
    holdsBytes m (4 + 2 * acNum p a) (lowHigh (segmentLengths s p (acKind a))) := by
  have hcounts := (holdsBytes_append (container_parts h).1).2
  have hpiece := holdsBytes_piece_of_length acSegments_ordered (fun _ => length_countBytes _) hcounts
    (mem_acSegments p a)
  rw [acSegments_before, countBytes_eq, Nat.mul_comm] at hpiece
  exact hpiece

theorem container_table (p : Plane) (k : Kind) {sym : Nat} (hsym : sym < 256) :
    m.read (16 + 768 * planeNum p + 256 * kindNum k + sym) = (s.lt.at p k).read sym := by
  obtain ⟨-, htables, -⟩ := container_parts h
  have hpiece := holdsBytes_piece_of_length allStreams_ordered (fun _ => Memory.length_readBytes _ _ _) htables
    (mem_allStreams p k)
  have hread := read_of_holds_readBytes hpiece hsym
  have hplace : 16 + streamNum p k * 256 = 16 + 768 * planeNum p + 256 * kindNum k := by
    rw [streamNum]
    omega
  rwa [allStreams_before, hplace, Nat.zero_add] at hread

theorem container_segment (p : Plane) (k : Kind) {n : Nat} (hn : n < segmentLengths s p k) :
    m.read (segmentStart (segmentLengths s) p k + n) = (s.bs.at p k).read n := by
  obtain ⟨-, -, hpayload⟩ := container_parts h
  have hpiece := holdsBytes_piece allStreams_ordered hpayload (mem_allStreams p k)
  have hread := read_of_holds_readBytes hpiece hn
  simp only [Memory.length_readBytes, Nat.zero_add] at hread
  exact hread

end

theorem segmentCounts_toNat {s : State} {p : Plane} {a : AcKind} (hcount : segmentLengths s p (acKind a) ≤ 65535) :
    (((segmentCounts s).get p).get a).toNat = segmentLengths s p (acKind a) := by
  have hget : ((segmentCounts s).get p).get a = (s.bslen.at p (acKind a)).extractLsb' 0 16 := by
    rw [segmentCounts, PerPlane.get_make]
    cases a <;> rfl
  rw [hget, BitVec.extractLsb'_toNat, Nat.shiftRight_zero]
  exact Nat.mod_eq_of_lt (Nat.lt_succ_of_le hcount)

/-! ### Checks of a bound -/

theorem blt_eq_false_iff {a b : Nat} : Nat.blt a b = false ↔ b ≤ a := by
  rw [← Bool.not_eq_true, Nat.blt_eq, Nat.not_lt]

theorem raiseIf_of_lt {a b : Nat} (h : a < b) (e : Err) (s : State) (go : State → Run) :
    raiseIf (Nat.blt a b) e s go = raise e s := by
  rw [Nat.blt_eq.mpr h, raiseIf_true]

theorem raiseIf_of_le {a b : Nat} (h : b ≤ a) (e : Err) (s : State) (go : State → Run) :
    raiseIf (Nat.blt a b) e s go = go s := by
  rw [blt_eq_false_iff.2 h, raiseIf_false]

/-- The error of a check whose information word is a register or a capacity. -/
theorem errorEntry_word (c : ErrCode) (w : Word) (s : State) :
    errorEntry { code := c, info := w.toNat } s = { s with err := true, errcode := c, errinfo := w } := by
  rw [errorEntry, wordOf, BitVec.ofNat_toNat, BitVec.setWidth_eq]

/-! ### `FRAME` -/

theorem exec_frame (s : State) : exec .frame s = .next (cmdFrame s).state := rfl

theorem segmentOverCap_iff (s : State) :
    (allStreams.any fun t => Nat.blt s.cfg.bsCap.toNat (s.bslen.at t.1 t.2).toNat) = true ↔
      ∃ p k, s.cfg.bsCap.toNat < segmentLengths s p k := by
  simp only [List.any_eq_true, Nat.blt_eq]
  exact ⟨fun ⟨t, _, ht⟩ => ⟨t.1, t.2, ht⟩, fun ⟨p, k, hpk⟩ => ⟨(p, k), mem_allStreams p k, hpk⟩⟩

/-- The AC segments before the first in header order that is too long are those of lower numbers. -/
theorem longSegment_eq_some {s : State} {p : Plane} {a : AcKind} (hlong : 65535 < segmentLengths s p (acKind a))
    (hfirst : ∀ p' a', acNum p' a' < acNum p a → segmentLengths s p' (acKind a') ≤ 65535) :
    longSegment s = some (p, a) := by
  obtain ⟨front, back, hsplit⟩ := List.append_of_mem (mem_acSegments p a)
  have hordered := acSegments_ordered
  rw [hsplit, List.pairwise_append] at hordered
  obtain ⟨-, -, hbefore⟩ := hordered
  refine List.find?_eq_some_iff_append.2 ⟨Nat.blt_eq.mpr hlong, front, back, hsplit, fun t ht => ?_⟩
  have hshort := hfirst t.1 t.2 (hbefore t ht (p, a) List.mem_cons_self)
  exact (Bool.not_eq_true' _).mpr (blt_eq_false_iff.2 hshort)

theorem longSegment_eq_none {s : State} (hcounts : ∀ p a, segmentLengths s p (acKind a) ≤ 65535) :
    longSegment s = none :=
  List.find?_eq_none.2 fun t _ => Bool.eq_false_iff.1 (blt_eq_false_iff.2 (hcounts t.1 t.2))

/-- The container buffer after `FRAME`. -/
def framedBuffer (s : State) : Memory := s.cbuf.writeBytes 0 (containerBytes s)

theorem holdsBytes_framedBuffer (s : State) : holdsBytes (framedBuffer s) 0 (containerBytes s) :=
  holdsBytes_writeBytes _ _ _

theorem read_framedBuffer_behind {s : State} {a : Nat} (ha : totalLength (segmentLengths s) ≤ a) :
    (framedBuffer s).read a = s.cbuf.read a :=
  Memory.read_writeBytes_of_outside (.inr (by rwa [length_containerBytes, Nat.zero_add]))

theorem exec_frame_of_segmentOverCap {s : State} (h : ∃ p k, s.cfg.bsCap.toNat < segmentLengths s p k) :
    exec .frame s = .next { s with err := true, errcode := .cap, errinfo := s.cfg.bsCap } := by
  rw [exec_frame, cmdFrame, (segmentOverCap_iff s).2 h, raiseIf_true, Run.state_raise, capError, errorEntry_word]

section
variable {s : State} (hcap : ∀ p k, segmentLengths s p k ≤ s.cfg.bsCap.toNat)
include hcap

theorem segmentOverCap_eq_false :
    (allStreams.any fun t => Nat.blt s.cfg.bsCap.toNat (s.bslen.at t.1 t.2).toNat) = false := by
  rw [← Bool.not_eq_true, segmentOverCap_iff]
  exact fun ⟨p, k, hpk⟩ => Nat.not_lt.2 (hcap p k) hpk

theorem exec_frame_of_longSegment {p : Plane} {a : AcKind} (h : longSegment s = some (p, a)) :
    exec .frame s = .next { s with err := true, errcode := .seglen, errinfo := BitVec.ofNat 32 (acNum p a) } := by
  rw [exec_frame, cmdFrame, segmentOverCap_eq_false hcap, raiseIf_false, h]
  rfl

theorem exec_frame_of_totalOverCap (h : longSegment s = none)
    (htotal : s.cfg.cbufCap.toNat < totalLength (segmentLengths s)) :
    exec .frame s = .next { s with err := true, errcode := .cap, errinfo := s.cfg.cbufCap } := by
  simp only [exec_frame, cmdFrame, segmentOverCap_eq_false hcap, raiseIf_false, h, containerLength_eq,
    raiseIf_of_lt htotal, Run.state_raise, capError, errorEntry_word]

theorem exec_frame_of_fits (h : longSegment s = none) (htotal : totalLength (segmentLengths s) ≤ s.cfg.cbufCap.toNat) :
    exec .frame s = .next { s with
      cbuf := framedBuffer s
      aclen := segmentCounts s
      clen := BitVec.ofNat 32 (totalLength (segmentLengths s)) } := by
  simp only [exec_frame, cmdFrame, segmentOverCap_eq_false hcap, raiseIf_false, h, containerLength_eq,
    raiseIf_of_le htotal, Run.state_ok, framedBuffer, wordOf]

end

/-- Settles O51: past the three checks, `FRAME` writes the container's parts one after another from the start of
`CBUF`. -/
theorem frameWritesTheContainer : Obligations.FrameWritesTheContainer := by
  refine ⟨rfl, fun s => ⟨exec_frame_of_segmentOverCap, fun hcap p a hlong hfirst =>
    exec_frame_of_longSegment hcap (longSegment_eq_some hlong hfirst), fun hcap hcounts => ?_⟩⟩
  have hnone := longSegment_eq_none hcounts
  refine ⟨exec_frame_of_totalOverCap hcap hnone, fun htotal =>
    ⟨framedBuffer s, segmentCounts s, exec_frame_of_fits hcap hnone htotal, ?_⟩⟩
  have hbuffer := holdsBytes_framedBuffer s
  exact ⟨container_beginning hbuffer, fun p a => ⟨segmentCounts_toNat (hcounts p a), container_count hbuffer p a⟩,
    fun p k _ => container_table hbuffer p k, fun p k _ => container_segment hbuffer p k,
    fun _ => read_framedBuffer_behind⟩

/-! ### `DEFRAME_HDR` -/

theorem exec_deframeHdr (s : State) : exec .deframeHdr s = .next (cmdDeframeHdr s).state := rfl

theorem badMagic_eq_false_iff (s : State) :
    badMagic s = false ↔ 2 ≤ s.clen.toNat ∧ s.cbuf.read 0 = 0x49#8 ∧ s.cbuf.read 1 = 0x4D#8 := by
  simp [badMagic, ← Bool.not_eq_true, and_assoc, Nat.succ_le_iff]

theorem headerCount_lt (m : Memory) (p : Plane) (a : AcKind) : headerCount m p a < 2 ^ 16 := by
  have hlow := (m.read (4 + 2 * acNum p a)).isLt
  have hhigh := (m.read (5 + 2 * acNum p a)).isLt
  rw [headerCount]
  omega

/-- The six counts of a container's header (46_container.md R172). -/
def headerCounts (m : Memory) : PerPlane (PerAc (BitVec 16)) :=
  PerPlane.make fun p =>
    { run := BitVec.ofNat 16 (headerCount m p .run), val := BitVec.ofNat 16 (headerCount m p .val) }

theorem headerCounts_toNat (m : Memory) (p : Plane) (a : AcKind) :
    (((headerCounts m).get p).get a).toNat = headerCount m p a := by
  have hget : ((headerCounts m).get p).get a = BitVec.ofNat 16 (headerCount m p a) := by
    rw [headerCounts, PerPlane.get_make]
    cases a <;> rfl
  rw [hget, BitVec.toNat_ofNat, Nat.mod_eq_of_lt (headerCount_lt m p a)]

/-- The nine length tables of a container (30_encoding.md R78). -/
def headerTables (m : Memory) : PerStream Memory :=
  PerPlane.makeStreams fun p k => cellsFrom 0 (m.readBytes (tableOffset p k) 256)

theorem read_headerTables (m : Memory) (p : Plane) (k : Kind) (sym : Nat) :
    ((headerTables m).at p k).read sym =
      if sym < 256 then m.read (16 + 768 * planeNum p + 256 * kindNum k + sym) else 0#8 := by
  rw [headerTables, PerPlane.at_makeStreams]
  split
  · rename_i hsym
    have hread := read_of_holds_readBytes (holdsBytes_cellsFrom 0 (m.readBytes (tableOffset p k) 256)) hsym
    rwa [Nat.zero_add] at hread
  · rename_i hsym
    rw [read_cellsFrom, if_neg (by rw [Memory.length_readBytes]; omega), unlisted]

theorem exec_deframeHdr_of_overCap {s : State} (h : s.cfg.cbufCap.toNat < s.clen.toNat) :
    exec .deframeHdr s = .next { s with err := true, errcode := .cap, errinfo := s.cfg.cbufCap } := by
  rw [exec_deframeHdr, cmdDeframeHdr, raiseIf_of_lt h, Run.state_raise, capError, errorEntry_word]

section
variable {s : State} (hcap : s.clen.toNat ≤ s.cfg.cbufCap.toNat)
include hcap

theorem exec_deframeHdr_of_badMagic (h : badMagic s = true) :
    exec .deframeHdr s = .next { s with err := true, errcode := .magic, errinfo := 0#32 } := by
  rw [exec_deframeHdr, cmdDeframeHdr, raiseIf_of_le hcap, h, raiseIf_true]
  rfl

variable (hmagic : badMagic s = false)
include hmagic

/-- 46_container.md R172: the header is cut off, or the AC segments it declares are. -/
theorem exec_deframeHdr_of_short (h : s.clen.toNat < 2320 + declaredAc s.cbuf) :
    exec .deframeHdr s = .next { s with err := true, errcode := .trunc, errinfo := s.clen } := by
  rw [exec_deframeHdr, cmdDeframeHdr, raiseIf_of_le hcap, hmagic, raiseIf_false, hdrBytes]
  by_cases hheader : s.clen.toNat < 2320
  · rw [raiseIf_of_lt hheader, Run.state_raise, errorEntry_word]
  · rw [raiseIf_of_le (Nat.not_lt.1 hheader), raiseIf_of_lt h, Run.state_raise, errorEntry_word]

theorem exec_deframeHdr_of_whole (h : 2320 + declaredAc s.cbuf ≤ s.clen.toNat) :
    exec .deframeHdr s = .next { s with
      blkw := s.cbuf.read 2
      blkh := s.cbuf.read 3
      aclen := headerCounts s.cbuf
      lt := headerTables s.cbuf
      cptr := 2320#32 } := by
  have hheader : 2320 ≤ s.clen.toNat := Nat.le_of_add_right_le h
  rw [exec_deframeHdr, cmdDeframeHdr, raiseIf_of_le hcap, hmagic, raiseIf_false, hdrBytes, raiseIf_of_le hheader,
    raiseIf_of_le h]
  rfl

end

/-- Settles O52: the checks of `DEFRAME_HDR` in their order, and what it reads past them. -/
theorem deframeHdrReadsTheHeader : Obligations.DeframeHdrReadsTheHeader := by
  refine ⟨rfl, fun s => ⟨exec_deframeHdr_of_overCap, fun hcap => ⟨fun hmagic => ?_, fun hmagic hshort => ?_,
    fun hmagic _ hshort => ?_, fun hmagic hwhole => ?_⟩⟩⟩
  · rw [← badMagic_eq_false_iff, Bool.not_eq_false] at hmagic
    exact exec_deframeHdr_of_badMagic hcap hmagic
  · exact exec_deframeHdr_of_short hcap ((badMagic_eq_false_iff s).2 hmagic) (Nat.lt_add_right _ hshort)
  · exact exec_deframeHdr_of_short hcap ((badMagic_eq_false_iff s).2 hmagic) hshort
  · exact ⟨headerCounts s.cbuf, headerTables s.cbuf,
      exec_deframeHdr_of_whole hcap ((badMagic_eq_false_iff s).2 hmagic) hwhole, headerCounts_toNat s.cbuf,
      read_headerTables s.cbuf⟩

end Sys2Proof.Machine

/-! PROOFS. Commands and the host's side (10_state.md R28 to R30, 60_exceptions.md R194): the part of the state that no
command but `RESET` writes. -/

namespace Sys2Proof.Machine

/-! ### What no command but `RESET` writes -/

/-- The part of the state that belongs to the host and to the start and end of a command: no pseudocode but that of
`RESET` writes it (10_state.md R28 to R30, 60_exceptions.md R194). -/
def hostSide (s : State) : Config × Word × Bool × Bool × Bool × List HostAccess × Option Reply :=
  (s.cfg, s.cmd, s.busy, s.done, s.ie, s.pending, s.reply)

theorem hostSide_eq_iff {s t : State} :
    hostSide s = hostSide t ↔ s.cfg = t.cfg ∧ s.cmd = t.cmd ∧ s.busy = t.busy ∧ s.done = t.done ∧ s.ie = t.ie ∧
      s.pending = t.pending ∧ s.reply = t.reply := by
  simp only [hostSide, Prod.mk.injEq]

theorem hostSide_raiseIf {c : Bool} {e : Err} {s : State} {go : State → Run}
    (hgo : hostSide (go s).state = hostSide s) : hostSide (raiseIf c e s go).state = hostSide s :=
  raiseIf_keeps (P := fun t => hostSide t = hostSide s) rfl fun _ => hgo

theorem hostSide_withResult {α : Type} {r : Except Err α} {s : State} {go : α → State → Run}
    (hgo : ∀ a, hostSide (go a s).state = hostSide s) : hostSide (withResult r s go).state = hostSide s :=
  withResult_keeps (P := fun t => hostSide t = hostSide s) (fun _ _ => rfl) fun a _ => hgo a

theorem hostSide_andThen {r : Run} {s : State} {go : State → Run} (hr : hostSide r.state = hostSide s)
    (hgo : ∀ t, hostSide (go t).state = hostSide t) : hostSide (r.andThen go).state = hostSide s :=
  Run.andThen_keeps (P := fun t => hostSide t = hostSide s) hr fun t _ ht => (hgo t).trans ht

theorem hostSide_forEach {α : Type} {l : List α} {body : α → State → Run}
    (hbody : ∀ a t, hostSide (body a t).state = hostSide t) (s : State) :
    hostSide (forEach l body s).state = hostSide s :=
  forEach_keeps (P := fun t => hostSide t = hostSide s) (fun a _ t ht => (hbody a t).trans ht) rfl

/-! ### The unit commands -/

section
variable (p : Plane) (k : Kind) (s : State)

theorem hostSide_tileChecks {go : State → Run} (hgo : hostSide (go s).state = hostSide s) :
    hostSide (tileChecks s go).state = hostSide s :=
  hostSide_raiseIf (hostSide_raiseIf hgo)

theorem hostSide_cmdTileIn : hostSide (cmdTileIn s).state = hostSide s := by
  rw [cmdTileIn]
  exact hostSide_tileChecks s rfl

theorem hostSide_cmdTileOut : hostSide (cmdTileOut s).state = hostSide s := by
  rw [cmdTileOut]
  exact hostSide_tileChecks s (by simp only [Run.state_ok, hostSide])

theorem hostSide_cmdFdct : hostSide (cmdFdct p s).state = hostSide s := rfl

theorem hostSide_cmdIdct : hostSide (cmdIdct p s).state = hostSide s := rfl

theorem hostSide_cmdQuant : hostSide (cmdQuant s).state = hostSide s := rfl

theorem hostSide_cmdDequant : hostSide (cmdDequant s).state = hostSide s := rfl

theorem hostSide_cmdStq : hostSide (cmdStq p s).state = hostSide s := by
  rw [cmdStq, blockCheck]
  exact hostSide_raiseIf rfl

theorem hostSide_cmdLdq : hostSide (cmdLdq p s).state = hostSide s := by
  rw [cmdLdq, blockCheck]
  exact hostSide_raiseIf rfl

theorem hostSide_cmdCcRst : hostSide (cmdCcRst p s).state = hostSide s := rfl

theorem hostSide_cmdCcEnc : hostSide (cmdCcEnc p s).state = hostSide s := by
  rw [cmdCcEnc]
  exact hostSide_raiseIf (hostSide_raiseIf (by simp [hostSide]))

theorem hostSide_cmdCcDec : hostSide (cmdCcDec p s).state = hostSide s := hostSide_withResult fun _ => rfl

theorem hostSide_cmdHufLen : hostSide (cmdHufLen p k s).state = hostSide s := hostSide_raiseIf rfl

theorem hostSide_cmdHufCode : hostSide (cmdHufCode p k s).state = hostSide s := hostSide_withResult fun _ => rfl

theorem hostSide_cmdHufEnc : hostSide (cmdHufEnc p k s).state = hostSide s := by
  refine hostSide_raiseIf ?_
  dsimp only
  split
  · rfl
  · exact hostSide_raiseIf rfl

theorem hostSide_cmdHufDec : hostSide (cmdHufDec p k s).state = hostSide s :=
  hostSide_raiseIf (hostSide_raiseIf (hostSide_withResult fun _ => rfl))

theorem hostSide_cmdHufDecAc : hostSide (cmdHufDecAc p s).state = hostSide s :=
  hostSide_raiseIf (hostSide_raiseIf (hostSide_withResult fun _ => hostSide_raiseIf (hostSide_raiseIf rfl)))

theorem hostSide_cmdFrame : hostSide (cmdFrame s).state = hostSide s := by
  refine hostSide_raiseIf ?_
  split
  · rfl
  · exact hostSide_raiseIf rfl

theorem hostSide_cmdDeframeHdr : hostSide (cmdDeframeHdr s).state = hostSide s :=
  hostSide_raiseIf (hostSide_raiseIf (hostSide_raiseIf (hostSide_raiseIf rfl)))

/-! ### The pipeline commands -/

theorem hostSide_encodePlane : hostSide (encodePlane p s).state = hostSide s :=
  hostSide_andThen (hostSide_andThen (hostSide_andThen (hostSide_cmdFdct p s) hostSide_cmdQuant) (hostSide_cmdStq p))
    (hostSide_cmdCcEnc p)

theorem hostSide_encodeBlock (n : Nat) : hostSide (encodeBlock n s).state = hostSide s :=
  hostSide_andThen (hostSide_cmdTileIn { s with bidx := BitVec.ofNat 16 n })
    (hostSide_forEach hostSide_encodePlane)

theorem hostSide_encodeStream (t : Plane × Kind) : hostSide (encodeStream t s).state = hostSide s :=
  hostSide_andThen (hostSide_andThen (hostSide_cmdHufLen t.1 t.2 s) (hostSide_cmdHufCode t.1 t.2))
    (hostSide_cmdHufEnc t.1 t.2)

theorem hostSide_compressStages (n : Nat) : hostSide (compressStages n s).state = hostSide s :=
  hostSide_andThen
    (hostSide_andThen
      (hostSide_andThen (hostSide_forEach hostSide_cmdCcRst s)
        (hostSide_forEach fun n t => hostSide_encodeBlock t n))
      (hostSide_forEach fun x t => hostSide_encodeStream t x))
    hostSide_cmdFrame

theorem hostSide_cmdCompress : hostSide (cmdCompress s).state = hostSide s :=
  hostSide_raiseIf (hostSide_compressStages (setGrid s) _)

theorem hostSide_decodePlane : hostSide (decodePlane p s).state = hostSide s :=
  hostSide_andThen
    (hostSide_andThen (hostSide_forEach (hostSide_cmdHufCode p) s)
      fun t => hostSide_cmdHufDec p .dc { t with count := wordOf (blockCount t) })
    (hostSide_cmdHufDecAc p)

theorem hostSide_decodeCoefs (n : Nat) : hostSide (decodeCoefs p n s).state = hostSide s :=
  hostSide_andThen (hostSide_cmdCcDec p { s with bidx := BitVec.ofNat 16 n }) (hostSide_cmdStq p)

theorem hostSide_decodePlaneCoefs : hostSide (decodePlaneCoefs p s).state = hostSide s :=
  hostSide_forEach (fun n t => hostSide_decodeCoefs p t n) { s with dcp := s.dcp.set p 0#8 }

theorem hostSide_rebuildPlane : hostSide (rebuildPlane p s).state = hostSide s :=
  hostSide_andThen (hostSide_andThen (hostSide_cmdLdq p s) hostSide_cmdDequant) (hostSide_cmdIdct p)

theorem hostSide_rebuildBlock (n : Nat) : hostSide (rebuildBlock n s).state = hostSide s :=
  hostSide_andThen (hostSide_forEach hostSide_rebuildPlane { s with bidx := BitVec.ofNat 16 n }) hostSide_cmdTileOut

theorem hostSide_decompressParse : hostSide (decompressParse s).state = hostSide s :=
  hostSide_andThen
    (hostSide_andThen
      (hostSide_andThen (hostSide_cmdDeframeHdr s) (hostSide_forEach hostSide_decodePlane))
      fun _ => hostSide_raiseIf rfl)
    (hostSide_forEach hostSide_decodePlaneCoefs)

theorem hostSide_decompressImage : hostSide (decompressImage s).state = hostSide s :=
  hostSide_forEach (fun n t => hostSide_rebuildBlock t n) (setImageSize s)

theorem hostSide_cmdDecompress : hostSide (cmdDecompress s).state = hostSide s :=
  hostSide_andThen (hostSide_decompressParse s) hostSide_decompressImage

end

/-! ### Every command -/

/-- The pseudocode of every command but `RESET` leaves the host's side alone. -/
theorem hostSide_exec {i : Instr} {s t : State} (hi : i ≠ .reset) (h : exec i s = .next t) :
    hostSide t = hostSide s := by
  cases i with
  | reset => exact absurd rfl hi
  | nop => cases h; rfl
  | clrerr => cases h; rfl
  | cscFwd => cases h; rfl
  | cscInv => cases h; rfl
  | tileIn => cases h; exact hostSide_cmdTileIn s
  | tileOut => cases h; exact hostSide_cmdTileOut s
  | fdct p => cases h; exact hostSide_cmdFdct p s
  | idct p => cases h; exact hostSide_cmdIdct p s
  | quant => cases h; exact hostSide_cmdQuant s
  | dequant => cases h; exact hostSide_cmdDequant s
  | stq p => cases h; exact hostSide_cmdStq p s
  | ldq p => cases h; exact hostSide_cmdLdq p s
  | ccRst p => cases h; exact hostSide_cmdCcRst p s
  | ccEnc p => cases h; exact hostSide_cmdCcEnc p s
  | ccDec p => cases h; exact hostSide_cmdCcDec p s
  | hufLen p k => cases h; exact hostSide_cmdHufLen p k s
  | hufCode p k => cases h; exact hostSide_cmdHufCode p k s
  | hufEnc p k => cases h; exact hostSide_cmdHufEnc p k s
  | hufDec p k => cases h; exact hostSide_cmdHufDec p k s
  | hufDecAc p => cases h; exact hostSide_cmdHufDecAc p s
  | frame => cases h; exact hostSide_cmdFrame s
  | deframeHdr => cases h; exact hostSide_cmdDeframeHdr s
  | compress => cases h; exact hostSide_cmdCompress s
  | decompress => cases h; exact hostSide_cmdDecompress s

end Sys2Proof.Machine

/-! PROOFS. The life of a command (60_exceptions.md R194): which command a word is, what `runWord` answers to it, and the
obligation O5. -/

namespace Sys2Proof

/-! ### A word decodes to no command but its own -/

theorem planeCode_of_planeOfBits {b : BitVec 2} {p : Plane} (h : planeOfBits b = some p) : planeCode p = b.toNat := by
  revert b p
  decide

theorem kindCode_of_kindOfBits {b : BitVec 2} {k : Kind} (h : kindOfBits b = some k) : kindCode k = b.toNat := by
  revert b k
  decide

/-- Row by row of 30_encoding.md R72, the encoder gives the word of the operands the decoder has put together. -/
theorem encode_of_assemble {n : Nat} {sh : Shape} {p : Plane} {k : Kind} {i : Instr} (hsh : opTable.lookup n = some sh)
    (hi : assemble sh p k = .ok i) : encode i = commandWord n (planeCode p) (kindCode k) := by
  have rows : ∀ x ∈ opTable, ∀ j ∈ (assemble x.2 p k).toOption,
      encode j = commandWord x.1 (planeCode p) (kindCode k) := by
    cases p <;> cases k <;> decide
  exact rows (n, sh) (Machine.mem_of_lookup hsh) i (by rw [hi]; rfl)

theorem eq_encode_of_decode {w : Word} {i : Instr} (h : decode w = .ok i) : w = encode i := by
  obtain ⟨hrsv, sh, p, k, hsh, hp, hk, hi⟩ := (decode_eq_ok_iff w i).1 h
  have hword : w.toNat = (fieldsOf w).op.toNat + 256 * planeCode p + 1024 * kindCode k := by
    simpa [hrsv, planeCode_of_planeOfBits hp, kindCode_of_kindOfBits hk] using Machine.fieldsOf_toNat w
  rw [encode_of_assemble hsh hi, commandWord, ← hword, BitVec.ofNat_toNat, BitVec.setWidth_eq]

end Sys2Proof

namespace Sys2Proof.Machine

/-! ### What a word runs -/

/-- `RESET` is accepted while `ERR` = 1 (60_exceptions.md R195). -/
theorem runWord_reset (s : State) : runWord (encode .reset) s = exec .reset s := by
  rw [runWord, Laws.EncodedWordLegal.reset.2]

theorem runWord_of_legal {w : Word} {i : Instr} {s : State} (herr : s.err = false) (h : decode w = .ok i) :
    runWord w s = exec i s := by
  rw [runWord, h]
  cases i <;> simp only [herr, Bool.false_eq_true, if_false]

theorem runWord_of_illegal {w : Word} {s : State} (herr : s.err = false) (h : ∀ i, decode w ≠ .ok i) :
    runWord w s = .next (errorEntry { code := .illcmd, info := w.toNat } s) := by
  rw [runWord]
  cases hd : decode w with
  | ok i => exact absurd hd (h i)
  | error e => simp only [herr, Bool.false_eq_true, if_false]

/-- 60_exceptions.md R195: a word that is refused, legal or not. -/
theorem runWord_refused {w : Word} {s : State} (herr : s.err = true) (hreset : w ≠ encode .reset)
    (hclrerr : w ≠ encode .clrerr) : runWord w s = .next s := by
  rw [runWord]
  cases hd : decode w with
  | error e => simp only [herr, if_true]
  | ok i =>
    cases i
    case reset => exact absurd (eq_encode_of_decode hd) hreset
    case clrerr => exact absurd (eq_encode_of_decode hd) hclrerr
    all_goals simp only [herr, if_true]

/-- A word that is not `RESET`'s leaves the host's side alone, whatever becomes of it. -/
theorem hostSide_runWord {w : Word} {s t : State} (hreset : w ≠ encode .reset) (h : runWord w s = .next t) :
    hostSide t = hostSide s := by
  by_cases hclrerr : w = encode .clrerr
  · rw [hclrerr, runWord_clrerr] at h
    cases h
    rfl
  cases herr : s.err with
  | true =>
    rw [runWord_refused herr hreset hclrerr] at h
    cases h
    rfl
  | false =>
    cases hd : decode w with
    | error e =>
      rw [runWord_of_illegal herr (by simp [hd])] at h
      cases h
      rfl
    | ok i =>
      rw [runWord_of_legal herr hd] at h
      exact hostSide_exec (fun hi => hreset (hi ▸ eq_encode_of_decode hd)) h

/-! ### The step that takes a write to `CMD`, branch by branch of R194 -/

section
variable {s : State} {w : Word} {rest : List HostAccess} (hpending : s.pending = .writeReg 0x004#9 w :: rest)
include hpending

/-- 60_exceptions.md R195. -/
theorem step_of_refused (herr : s.err = true) (hreset : w ≠ encode .reset) (hclrerr : w ≠ encode .clrerr) :
    step s = .next (commandEnd (commandStart w { s with pending := rest })) := by
  have hrefused : (commandStart w { s with pending := rest }).err = true := herr
  rw [step_of_command hpending, runWord_refused hrefused hreset hclrerr, commandEnds_next]

theorem step_of_illegal (herr : s.err = false) (hillegal : ∀ i, decode w ≠ .ok i) :
    step s = .next (commandEnd (errorEntry { code := .illcmd, info := w.toNat }
      (commandStart w { s with pending := rest }))) := by
  have hfree : (commandStart w { s with pending := rest }).err = false := herr
  rw [step_of_command hpending, runWord_of_illegal hfree hillegal, commandEnds_next]

theorem step_of_legal (herr : s.err = false) {i : Instr} (hlegal : decode w = .ok i) :
    step s = commandEnds (exec i (commandStart w { s with pending := rest })) := by
  have hfree : (commandStart w { s with pending := rest }).err = false := herr
  rw [step_of_command hpending, runWord_of_legal hfree hlegal]

/-- After any word the engine is idle with `DONE` = 1, and `CMD` holds the word unless a `RESET` has cleared it. -/
theorem step_of_command_ends :
    ∃ t, step s = .next t ∧ t.busy = false ∧ t.done = true ∧ t.cmd = (if w = encode .reset then 0#32 else w) ∧
      t.pending = rest := by
  rw [step_of_command hpending]
  by_cases hreset : w = encode .reset
  · rw [if_pos hreset, hreset, runWord_reset]
    exact ⟨_, rfl, rfl, rfl, rfl, rfl⟩
  · obtain ⟨t, ht⟩ := runWord_answers w (commandStart w { s with pending := rest })
    obtain ⟨-, hcmd, -, -, -, hrest, -⟩ := hostSide_eq_iff.1 (hostSide_runWord hreset ht)
    rw [if_neg hreset, ht]
    exact ⟨commandEnd t, rfl, rfl, rfl, hcmd, hrest⟩

end

/-- Settles O5: `runWord` has an equation for each branch of R194, and every branch ends in `step_of_command_ends`. -/
theorem commandStartsAndEnds : Obligations.CommandStartsAndEnds := by
  intro s w rest hpending u
  have hstep : step s = commandEnds (runWord w u) := step_of_command hpending
  refine ⟨fun hreset => ?_, fun hclrerr => ?_, fun hreset hclrerr herr => step_of_refused hpending herr hreset hclrerr,
    fun herr hillegal => ?_, fun herr i hlegal => step_of_legal hpending herr hlegal, step_of_command_ends hpending⟩
  · exact hstep.trans (congrArg commandEnds (hreset ▸ runWord_reset u))
  · exact hstep.trans (congrArg commandEnds (hclrerr ▸ runWord_clrerr u))
  · rw [step_of_illegal hpending herr hillegal, errorEntry, wordOf_toNat]
    rfl

end Sys2Proof.Machine

/-! PROOFS. The error state (60_exceptions.md R195): no host access but a command and a read of `STATUS` depends on `ERR`,
and the obligation O6. -/

namespace Sys2Proof.Machine

/-- The state with another value of `STATUS.ERR`, the rest as it is. -/
def setErr (e : Bool) (s : State) : State := { s with err := e }

/-- An answer with another value of `STATUS.ERR` in its next state. -/
def answerWithErr (e : Bool) : Host.Outcome State Fault Refusal → Host.Outcome State Fault Refusal
  | .next t => .next (setErr e t)
  | .fault f => .fault f
  | .refused r => .refused r

@[simp] theorem answerWithErr_next (e : Bool) (t : State) : answerWithErr e (.next t) = .next (setErr e t) := rfl

@[simp] theorem answerWithErr_fault (e : Bool) (f : Fault) : answerWithErr e (.fault f) = .fault f := rfl

/-! ### Registers -/

/-- `STATUS` is the one register that shows `ERR`. -/
theorem readReg_setErr {r : Reg} (hr : r ≠ .status) (e : Bool) (s : State) :
    readReg r (setErr e s) = readReg r s := by
  cases r
  case status => exact absurd rfl hr
  all_goals rfl

theorem readAt_setErr {off : BitVec 9} (hoff : off ≠ 0x008#9) (e : Bool) (s : State) :
    readAt off (setErr e s) = readAt off s := by
  cases hr : regAt off with
  | none => rw [readAt, readAt, hr]
  | some r =>
    rw [readAt_of_regAt hr, readAt_of_regAt hr, readReg_setErr fun h => hoff (regAt_eq_status off (h ▸ hr))]

theorem storeReg_setErr (r : Reg) (v : Word) (e : Bool) (s : State) :
    storeReg r v (setErr e s) = setErr e (storeReg r v s) := by
  cases r
  case status => exact (apply_ite (setErr e) (v.getLsbD 1 = true) { s with done := false } s).symm
  all_goals rfl

/-- Only a write to `CMD` does more than store. -/
theorem writeReg_of_ne_cmd {r : Reg} (hr : r ≠ .cmd) (v : Word) (s : State) : writeReg r v s = .next (storeReg r v s) := by
  cases r
  case cmd => exact absurd rfl hr
  all_goals rfl

theorem writeAt_setErr {off : BitVec 9} (hoff : off ≠ 0x004#9) (v : Word) (e : Bool) (s : State) :
    writeAt off v (setErr e s) = answerWithErr e (writeAt off v s) := by
  cases hr : regAt off with
  | none => rw [writeAt, writeAt, hr]; rfl
  | some r =>
    have hcmd : r ≠ .cmd := fun h => hoff (regAt_eq_cmd off (h ▸ hr))
    rw [writeAt_of_regAt hr, writeAt_of_regAt hr, writeReg_of_ne_cmd hcmd, writeReg_of_ne_cmd hcmd, storeReg_setErr,
      answerWithErr_next]

/-! ### The memory window -/

theorem windowRead_setErr (l : ByteLoc) (e : Bool) (s : State) : windowRead l (setErr e s) = windowRead l s := by
  cases l <;> rfl

theorem storeByte_setErr (l : ByteLoc) (b : Byte) (e : Bool) (s : State) :
    storeByte l b (setErr e s) = setErr e (storeByte l b s) := by
  cases l <;> rfl

theorem windowWrite_setErr (l : ByteLoc) (b : Byte) (e : Bool) (s : State) :
    windowWrite l b (setErr e s) = setErr e (windowWrite l b s) := by
  have hcap : inCapacity l (setErr e s) = inCapacity l s := by cases l <;> rfl
  rw [windowWrite, windowWrite, hcap, storeByte_setErr, apply_ite (setErr e)]

theorem elementBytes_setErr (x : Element) (e : Bool) (s : State) : elementBytes x (setErr e s) = elementBytes x s := by
  cases x with
  | byte l => exact congrArg (fun b => [b]) (windowRead_setErr l e s)
  | _ => rfl

theorem storeElement_setErr (x : Element) (bytes : List Byte) (e : Bool) (s : State) :
    storeElement x bytes (setErr e s) = setErr e (storeElement x bytes s) := by
  cases x with
  | byte l => exact windowWrite_setErr l _ e s
  | _ => rfl

/-! ### The bus -/

theorem busRead_setErr {addr : Nat} {s : State} (h : busTarget s.cfg.memMap addr ≠ some (.reg 0x008#9)) (e : Bool) :
    busRead addr (setErr e s) = answerWithErr e (busRead addr s) := by
  have hmap : (setErr e s).cfg = s.cfg := rfl
  rw [busRead, busRead, hmap]
  cases hg : busTarget s.cfg.memMap addr with
  | none => rfl
  | some g =>
    cases g with
    | reg off =>
      have hoff : off ≠ 0x008#9 := fun h8 => h (h8 ▸ hg)
      dsimp only
      rw [readAt_setErr hoff, apply_ite (answerWithErr e)]
      rfl
    | slot lanes x =>
      cases x with
      | none => rfl
      | some x => dsimp only; rw [elementBytes_setErr]; rfl

theorem busWrite_setErr {addr : Nat} {bytes : List Byte} {s : State}
    (h : busTarget s.cfg.memMap addr ≠ some (.reg 0x004#9)) (e : Bool) :
    busWrite addr bytes (setErr e s) = answerWithErr e (busWrite addr bytes s) := by
  have hmap : (setErr e s).cfg = s.cfg := rfl
  rw [busWrite, busWrite, hmap]
  cases hg : busTarget s.cfg.memMap addr with
  | none => rfl
  | some g =>
    cases g with
    | reg off =>
      have hoff : off ≠ 0x004#9 := fun h4 => h (h4 ▸ hg)
      dsimp only
      rw [writeAt_setErr hoff, apply_ite (answerWithErr e), answerWithErr_fault]
    | slot lanes x =>
      dsimp only
      rw [apply_ite (answerWithErr e), answerWithErr_fault]
      cases x with
      | none => rfl
      | some x => dsimp only; rw [storeElement_setErr, answerWithErr_next]

/-! ### Any access -/

/-- The access neither runs a command nor resets the engine nor reads `STATUS`, the bus's forms of these included
(60_exceptions.md R195). -/
def blindToErr (m : MemMap) : HostAccess → Prop
  | .readReg off => off ≠ 0x008#9
  | .writeReg off _ => off ≠ 0x004#9
  | .assertReset => False
  | .busRead addr => busTarget m addr ≠ some (.reg 0x008#9)
  | .busWrite addr _ => busTarget m addr ≠ some (.reg 0x004#9)
  | _ => True

/-- Such an access is answered alike whatever `ERR` is, and leaves `ERR` as it finds it. -/
theorem serve_setErr {a : HostAccess} {s : State} (h : blindToErr s.cfg.memMap a) (e : Bool) :
    serve a (setErr e s) = answerWithErr e (serve a s) := by
  unfold serve
  rw [apply_ite (answerWithErr e), answerWithErr_fault]
  congr 1
  cases a with
  | readReg off => dsimp only; rw [readAt_setErr h]; rfl
  | writeReg off v => exact writeAt_setErr h v e s
  | readByte l => dsimp only; rw [windowRead_setErr]; rfl
  | writeByte l b => dsimp only; rw [windowWrite_setErr]; rfl
  | assertReset => exact absurd h id
  | busRead addr => exact busRead_setErr h e
  | busWrite addr bytes => exact busWrite_setErr h e
  | _ => rfl

/-- Settles O6: refused words leave only the start and the end of R194, and every other access is blind to `ERR`. -/
theorem commandsAreRefusedWhileError : Obligations.CommandsAreRefusedWhileError := by
  refine ⟨fun s w rest hpending herr hbusy hreset hclrerr => ?_,
    fun s t a rest e hpending hcmd hstatus hreset hbuscmd hbusstatus ht => ?_⟩
  · rw [step_of_refused hpending herr hreset hclrerr]
    simp only [commandEnd, commandStart, hbusy]
  · have hblind : blindToErr s.cfg.memMap a := by
      cases a with
      | readReg off => exact fun h => hstatus (h ▸ rfl)
      | writeReg off v => exact fun h => hcmd v (h ▸ rfl)
      | assertReset => exact hreset rfl
      | busRead addr => exact hbusstatus addr rfl
      | busWrite addr bytes => exact hbuscmd addr bytes rfl
      | _ => trivial
    rw [step_of_pending hpending] at ht
    have hserve := serve_setErr (s := { s with pending := rest }) hblind e
    rw [ht] at hserve
    rw [step_of_pending (s := { s with err := e }) hpending]
    exact hserve

end Sys2Proof.Machine

/-! PROOFS. Encoding and the first claims on a command's life (30_encoding.md R71 to R75, 60_exceptions.md R194, R196): the
obligations O1, O3, O4 and O7; the zigzag sequence (44_coefcoder.md R131) and the obligation O33. -/

namespace Sys2Proof

open Laws in
/-- Row by row of 30_encoding.md R72, the decoder answers the command that the encoder was given. -/
theorem decode_encode (i : Instr) : decode (encode i) = .ok i := by
  cases i with
  | nop => exact EncodedWordLegal.nop.2
  | reset => exact EncodedWordLegal.reset.2
  | clrerr => exact EncodedWordLegal.clrerr.2
  | cscFwd => exact EncodedWordLegal.cscFwd.2
  | cscInv => exact EncodedWordLegal.cscInv.2
  | tileIn => exact EncodedWordLegal.tileIn.2
  | tileOut => exact EncodedWordLegal.tileOut.2
  | fdct p => exact (EncodedWordLegal.fdct p).2
  | idct p => exact (EncodedWordLegal.idct p).2
  | quant => exact EncodedWordLegal.quant.2
  | dequant => exact EncodedWordLegal.dequant.2
  | stq p => exact (EncodedWordLegal.stq p).2
  | ldq p => exact (EncodedWordLegal.ldq p).2
  | ccRst p => exact (EncodedWordLegal.ccRst p).2
  | ccEnc p => exact (EncodedWordLegal.ccEnc p).2
  | ccDec p => exact (EncodedWordLegal.ccDec p).2
  | hufLen p k => exact (EncodedWordLegal.hufLen p k).2
  | hufCode p k => exact (EncodedWordLegal.hufCode p k).2
  | hufEnc p k => exact (EncodedWordLegal.hufEnc p k).2
  | hufDec p k => exact (EncodedWordLegal.hufDec p k).2
  | hufDecAc p => exact (EncodedWordLegal.hufDecAc p).2
  | frame => exact EncodedWordLegal.frame.2
  | deframeHdr => exact EncodedWordLegal.deframeHdr.2
  | compress => exact EncodedWordLegal.compress.2
  | decompress => exact EncodedWordLegal.decompress.2

/-- Settles O1: a word decodes to no command but its own, and every command's word decodes. -/
theorem decodingAndEncodingAgree : Obligations.DecodingAndEncodingAgree := fun _ i =>
  ⟨eq_encode_of_decode, fun hw => hw ▸ decode_encode i⟩

/-- Settles O3: the decoder is evaluated on each word. -/
theorem sampleWordsDecode : Obligations.SampleWordsDecode := by
  unfold Obligations.SampleWordsDecode
  decide

end Sys2Proof

namespace Sys2Proof.Machine

/-- Settles O4: an accepted word runs its command in either error state, by the branches of R194. -/
theorem stepRunsDecodedCommand : Obligations.StepRunsDecodedCommand := by
  refine ⟨fun s w rest i hpending hdecode haccepted => ?_, fun t => rfl, fun s w hw => ?_⟩
  · obtain herr | rfl | rfl := haccepted
    · exact step_of_legal hpending herr hdecode
    · rw [step_of_command hpending, eq_encode_of_decode hdecode, runWord_reset]
      rfl
    · rw [step_of_command hpending, eq_encode_of_decode hdecode, runWord_clrerr]
      rfl
  · rw [State.withFetchWord, Nat.mod_eq_of_lt hw]
    rfl

/-- Settles O7: `errorEntry` written out, its information word cut to the register's 32 bits. -/
theorem errorEntryRecords : Obligations.ErrorEntryRecords := fun e _ =>
  ⟨wordOf e.info, BitVec.toNat_ofNat _ _, rfl⟩

/-- Settles O33: the 63 entries of the sequence are compared one with another. -/
theorem zigzagVisitsEachAcPositionOnce : Obligations.ZigzagVisitsEachAcPositionOnce := by
  refine ⟨rfl, by decide, by decide, by decide⟩

/-! ### The state after reset -/

/-- Settles O60: after reset nothing runs, no error is recorded, and every memory and table is empty. -/
theorem resetIsSafe : Obligations.ResetIsSafe where
  idle := rfl
  errorFree _ := ⟨rfl, rfl⟩
  errorNamed herr := by cases herr
  cbufCanonical := rfl
  cbufWithin := rfl
  imgCanonical := rfl
  imgWithin := rfl
  qpCanonical p := by cases p <;> rfl
  qpWithin p := by cases p <;> rfl
  symsCanonical p k := by cases p <;> cases k <;> rfl
  symsWithin p k := by cases p <;> cases k <;> rfl
  bsCanonical p k := by cases p <;> cases k <;> rfl
  bsWithin p k := by cases p <;> cases k <;> rfl
  ltCanonical p k := by cases p <;> cases k <;> rfl
  ltWithin p k := by cases p <;> cases k <;> rfl
  ctCanonical p k := by cases p <;> cases k <;> rfl

end Sys2Proof.Machine

/-! PROOFS. The host's side (10_state.md R26 to R45, 60_exceptions.md R198, R200, R204): when a step stops, reads, the error
record, reset, registers and the interrupt, and the obligations O8, O9, O12, O14, O15 and O17. -/

namespace Sys2Proof.Machine

/-! ### When a step stops (logs 6 and 14) -/

/-- The fault of an access that the engine takes no part in. -/
theorem serve_of_not_servable {a : HostAccess} {s : State} (h : ¬ servable s.cfg.memMap a) :
    (touchesRegisters s.cfg.memMap a → serve a s = .fault .registerAccessMisaligned) ∧
    (¬ touchesRegisters s.cfg.memMap a → serve a s = .fault .busAccessUnmapped) := by
  cases a with
  | busRead addr =>
    simp only [servable, touchesRegisters, serve, HostAccess.wf, if_true, busRead] at h ⊢
    cases hg : busTarget s.cfg.memMap addr with
    | none => simp
    | some g => cases g <;> simp_all
  | busWrite addr bytes =>
    simp only [servable, touchesRegisters, serve, HostAccess.wf, if_true, busWrite] at h ⊢
    cases hg : busTarget s.cfg.memMap addr with
    | none => simp
    | some g => cases g <;> simp_all
  | readReg off =>
    have hwf : HostAccess.wf (.readReg off) = false := Bool.not_eq_true _ ▸ h
    exact ⟨fun _ => by rw [serve, hwf]; rfl, fun hreg => absurd trivial hreg⟩
  | writeReg off v =>
    have hwf : HostAccess.wf (.writeReg off v) = false := Bool.not_eq_true _ ▸ h
    exact ⟨fun _ => by rw [serve, hwf]; rfl, fun hreg => absurd trivial hreg⟩
  | _ => exact absurd rfl h

/-- Settles O17: a servable access is answered, any other stops the machine with the fault of its kind. -/
theorem stepStopsOnlyOnUnservableAccess : Obligations.StepStopsOnlyOnUnservableAccess := by
  intro s
  cases hp : s.pending with
  | nil => simp [step_of_idle hp]
  | cons a rest =>
    rw [step_of_pending hp]
    by_cases ha : servable s.cfg.memMap a
    · obtain ⟨t, ht⟩ := serve_answers (s := { s with pending := rest }) ha
      simp [ht, ha]
    · obtain ⟨hreg, hbus⟩ := serve_of_not_servable (s := { s with pending := rest }) ha
      by_cases htouch : touchesRegisters s.cfg.memMap a
      · simp [hreg htouch, ha, htouch, eq_comm]
      · simp [hbus htouch, ha, htouch, eq_comm]

/-! ### Reads -/

theorem serve_readsOnly {a : HostAccess} {s : State} (hread : readsOnly a = true) (h : servable s.cfg.memMap a) :
    ∃ r, serve a s = .next (replyWith r s) := by
  cases a with
  | readReg off =>
    have haligned : HostAccess.wf (.readReg off) = true := h
    exact ⟨_, by rw [serve, haligned]; rfl⟩
  | busRead addr =>
    obtain ⟨g, hg, hr⟩ := h
    simp only [serve, HostAccess.wf, if_true, busRead, hg]
    cases g with
    | reg off => exact ⟨_, by simp [hr off rfl]; rfl⟩
    | slot lanes e => cases e <;> exact ⟨_, rfl⟩
  | readByte l => exact ⟨_, rfl⟩
  | readCoef v u => exact ⟨_, rfl⟩
  | readCode p k sym => exact ⟨_, rfl⟩
  | readPixel x y => exact ⟨_, rfl⟩
  | _ => cases hread

/-- Settles O15: a read that the engine takes part in only records its answer, and an idle step is the identity. -/
theorem hostReadsChangeNothing : Obligations.HostReadsChangeNothing := by
  refine ⟨fun s a rest hread hserv hpending => ?_, fun s => step_of_idle⟩
  rw [step_of_pending hpending]
  exact serve_readsOnly (s := { s with pending := rest }) hread hserv

/-! ### The error record -/

/-- `ERR`, `ERRCODE` and `ERRINFO` (10_state.md R29, R31). -/
def errorRecord (s : State) : Bool × ErrCode × Word := (s.err, s.errcode, s.errinfo)

/-- The record without an error (60_exceptions.md R198). -/
def noErrorRecord : Bool × ErrCode × Word := (false, .none, 0#32)

theorem errorRecord_storeReg (r : Reg) (v : Word) (s : State) : errorRecord (storeReg r v s) = errorRecord s := by
  cases r
  case status => rw [storeReg, writeStatus]; split <;> rfl
  all_goals rfl

theorem errorRecord_windowWrite (l : ByteLoc) (b : Byte) (s : State) :
    errorRecord (windowWrite l b s) = errorRecord s := by
  rw [windowWrite]
  split
  · cases l <;> rfl
  · rfl

theorem errorRecord_storeElement (e : Element) (bytes : List Byte) (s : State) :
    errorRecord (storeElement e bytes s) = errorRecord s := by
  cases e with
  | byte l => exact errorRecord_windowWrite l _ s
  | _ => rfl

/-- A word of `RESET` or `CLRERR`, the two that leave the error state (60_exceptions.md R195). -/
def leavesErrorState (w : Word) : Prop := w = 0x00000001#32 ∨ w = 0x00000002#32

/-- While an error is recorded, a word keeps the record, or is one of the two that clear it. -/
theorem errorRecord_issue {w : Word} {s t : State} (herr : s.err = true) (h : issue w s = .next t) :
    errorRecord t = errorRecord s ∨ leavesErrorState w ∧ errorRecord t = noErrorRecord := by
  rw [issue] at h
  by_cases hreset : w = encode .reset
  · rw [hreset, runWord_reset] at h
    cases h
    exact .inr ⟨.inl hreset, rfl⟩
  by_cases hclrerr : w = encode .clrerr
  · rw [hclrerr, runWord_clrerr] at h
    cases h
    exact .inr ⟨.inr hclrerr, rfl⟩
  rw [runWord_refused (s := commandStart w s) herr hreset hclrerr] at h
  cases h
  exact .inl rfl

theorem errorRecord_writeAt {off : BitVec 9} {v : Word} {s t : State} (herr : s.err = true)
    (h : writeAt off v s = .next t) :
    errorRecord t = errorRecord s ∨ off = 0x004#9 ∧ leavesErrorState v ∧ errorRecord t = noErrorRecord := by
  cases hr : regAt off with
  | none =>
    rw [writeAt, hr] at h
    cases h
    exact .inl rfl
  | some r =>
    rw [writeAt_of_regAt hr] at h
    by_cases hcmd : r = .cmd
    · subst hcmd
      exact (errorRecord_issue herr h).imp_right fun h => ⟨regAt_eq_cmd off hr, h⟩
    · rw [writeReg_of_ne_cmd hcmd] at h
      cases h
      exact .inl (errorRecord_storeReg r v s)

/-- An access that clears the error record: the reset input, or a word of `RESET` or `CLRERR`, written by offset or by bus
address. -/
def clearsErrorRecord (m : MemMap) (a : HostAccess) : Prop :=
  (∃ w, a = .writeReg 0x004#9 w ∧ leavesErrorState w) ∨ a = .assertReset ∨
    ∃ addr bytes, a = .busWrite addr bytes ∧ busTarget m addr = some (.reg 0x004#9) ∧ leavesErrorState (wordOfBytes bytes)

theorem errorRecord_busWrite {addr : Nat} {bytes : List Byte} {s t : State} (herr : s.err = true)
    (h : busWrite addr bytes s = .next t) :
    errorRecord t = errorRecord s ∨ busTarget s.cfg.memMap addr = some (.reg 0x004#9) ∧
      leavesErrorState (wordOfBytes bytes) ∧ errorRecord t = noErrorRecord := by
  rw [busWrite] at h
  cases hg : busTarget s.cfg.memMap addr with
  | none => simp [hg] at h
  | some g =>
    simp only [hg] at h
    cases g with
    | reg off =>
      simp only at h
      split at h
      · exact (errorRecord_writeAt herr h).imp_right fun ⟨hoff, hw⟩ => ⟨hoff ▸ rfl, hw⟩
      · cases h
    | slot lanes e =>
      simp only at h
      split at h
      · left
        cases e with
        | none => cases h; rfl
        | some e => cases h; exact errorRecord_storeElement _ _ s
      · cases h

/-- While an error is recorded, an access keeps the record, or is one of those that clear it. -/
theorem errorRecord_serve {a : HostAccess} {s t : State} (herr : s.err = true) (h : serve a s = .next t) :
    errorRecord t = errorRecord s ∨ clearsErrorRecord s.cfg.memMap a ∧ errorRecord t = noErrorRecord := by
  unfold serve at h
  split at h
  case isFalse => cases h
  cases a with
  | writeReg off v =>
    exact (errorRecord_writeAt herr h).imp_right fun ⟨hoff, hw, ht⟩ => ⟨.inl ⟨v, hoff ▸ rfl, hw⟩, ht⟩
  | assertReset => cases h; exact .inr ⟨.inr (.inl rfl), rfl⟩
  | busWrite addr bytes =>
    exact (errorRecord_busWrite herr h).imp_right fun ⟨hg, hw, ht⟩ => ⟨.inr (.inr ⟨addr, bytes, rfl, hg, hw⟩), ht⟩
  | busRead addr =>
    dsimp only at h
    rw [busRead] at h
    split at h
    · split at h <;> cases h
      exact .inl rfl
    all_goals cases h
    all_goals exact .inl rfl
  | writeByte l b => cases h; exact .inl (errorRecord_windowWrite l b s)
  | _ => cases h; exact .inl rfl

/-- Settles O8: every access keeps the record while an error is recorded, but those the statement lists. -/
theorem firstErrorIsKept : Obligations.FirstErrorIsKept := by
  intro s t herr hstep
  cases hp : s.pending with
  | nil =>
    rw [step_of_idle hp] at hstep
    cases hstep
    exact .inl ⟨herr, rfl, rfl⟩
  | cons a rest =>
    rw [step_of_pending hp] at hstep
    obtain hkept | ⟨ha, hcleared⟩ := errorRecord_serve (s := { s with pending := rest }) herr hstep
    · simp only [errorRecord, Prod.mk.injEq] at hkept
      exact .inl (herr ▸ hkept)
    · simp only [errorRecord, noErrorRecord, Prod.mk.injEq] at hcleared
      refine .inr ⟨⟨rest, ?_⟩, hcleared⟩
      obtain ⟨w, rfl, rfl | rfl⟩ | rfl | ⟨addr, bytes, rfl, hw⟩ := ha
      · exact .inl rfl
      · exact .inr (.inl rfl)
      · exact .inr (.inr (.inl rfl))
      · exact .inr (.inr (.inr ⟨addr, bytes, rfl, hw⟩))

/-! ### Reset -/

/-- 10_state.md R43, whatever `DONE` is. -/
theorem atReset_resetOver (cfg : Config) (cbuf img : Memory) (pending : List HostAccess) (reply : Option Reply)
    (done : Bool) : AtReset { State.resetOver cfg cbuf img pending reply with done := done } where
  registers r hr := by
    cases r with
    | status => exact absurd rfl hr
    | aclen p a => cases p <;> cases a <;> rfl
    | dcp p => cases p <;> rfl
    | slen p k => cases p <;> cases k <;> rfl
    | srd p k => cases p <;> cases k <;> rfl
    | bslen p k => cases p <;> cases k <;> rfl
    | _ => rfl
  busy := rfl
  err := rfl
  sb p j i := by simp [State.resetOver]
  cb v u := by simp [State.resetOver]
  qb v u := by simp [State.resetOver]
  lt p k a := by simp [State.resetOver, unlisted]
  ct p k a := by simp [State.resetOver, CodeTable.entry]
  syms p k a := by simp [State.resetOver, unlisted]
  bs p k a := by simp [State.resetOver, unlisted]
  qp p a := by simp [State.resetOver, unlisted]

theorem atReset_engineReset (s : State) : AtReset (engineReset s) :=
  atReset_resetOver s.cfg s.cbuf s.img s.pending s.reply false

theorem atReset_commandEnd_engineReset (s : State) : AtReset (commandEnd (engineReset s)) :=
  atReset_resetOver s.cfg s.cbuf s.img s.pending s.reply true

theorem exec_reset (s : State) : exec .reset s = .next (engineReset s) := rfl

theorem step_of_assertReset {s : State} {rest : List HostAccess} (h : s.pending = .assertReset :: rest) :
    step s = .next (engineReset { s with pending := rest }) := step_of_pending h

theorem step_of_reset {s : State} {rest : List HostAccess}
    (h : s.pending = .writeReg 0x004#9 (encode .reset) :: rest) :
    step s = .next (commandEnd (engineReset { s with pending := rest })) := by
  rw [step_of_command h, runWord_reset, exec_reset, commandEnds_next]
  rfl

/-- Settles O9: power-up, the reset input and `RESET` end in the same reset values; the command then sets `DONE`. -/
theorem resetLeavesResetValues : Obligations.ResetLeavesResetValues := by
  refine ⟨⟨atReset_resetOver _ _ _ _ _ false, rfl, rfl⟩, fun s rest h => ?_, fun s rest h => ?_, rfl, fun s => ?_⟩
  · exact ⟨_, step_of_assertReset h, atReset_engineReset _, rfl, rfl, rfl, rfl, rfl, rfl, rfl⟩
  · exact ⟨_, step_of_reset h, atReset_commandEnd_engineReset _, rfl, rfl, rfl, rfl, rfl, rfl, rfl⟩
  · exact ⟨_, exec_reset s, atReset_engineReset s, rfl, rfl, rfl, rfl, rfl, rfl⟩

/-! ### Registers -/

/-- Everything that is no register, and what the host's accesses leave behind. -/
def besideRegisters (s : State) :=
  (s.cfg, s.pending, s.reply, s.sb, s.cb, s.qb, s.lt, s.ct, s.syms, s.bs, s.qp, s.cbuf, s.img)

theorem besideRegisters_storeReg (r : Reg) (v : Word) (s : State) :
    besideRegisters (storeReg r v s) = besideRegisters s := by
  cases r
  case status => rw [storeReg, writeStatus]; split <;> rfl
  all_goals rfl

/-- Keeping the low `n` bits of a word is masking it to them. -/
theorem setWidth_setWidth_eq_and (v : Word) {n : Nat} (hn : n ≤ 32) :
    (v.setWidth n).setWidth 32 = v &&& BitVec.ofNat 32 (2 ^ n - 1) := by
  have hpow : 2 ^ n ≤ 2 ^ 32 := Nat.pow_le_pow_right (by decide) hn
  have hpos : 0 < 2 ^ n := Nat.two_pow_pos n
  have hmod : v.toNat % 2 ^ n < 2 ^ n := Nat.mod_lt _ hpos
  apply BitVec.eq_of_toNat_eq
  rw [BitVec.toNat_and, BitVec.toNat_setWidth, BitVec.toNat_setWidth, BitVec.toNat_ofNat,
    Nat.mod_eq_of_lt (show 2 ^ n - 1 < 2 ^ 32 by omega), Nat.and_two_pow_sub_one_eq_mod,
    Nat.mod_eq_of_lt (Nat.lt_of_lt_of_le hmod hpow)]

theorem wordOf_bit_getLsbD (v : Word) : wordOf (bit (v.getLsbD 0)) = v &&& 1#32 := by
  apply BitVec.eq_of_toNat_eq
  rw [BitVec.toNat_and, show (1#32).toNat = 2 ^ 1 - 1 from rfl, Nat.and_two_pow_sub_one_eq_mod, BitVec.getLsbD,
    Nat.testBit_zero, bit]
  rcases Nat.mod_two_eq_zero_or_one v.toNat with h | h <;> simp [h, wordOf]

theorem and_allBits (v : Word) : v &&& 0xFFFFFFFF#32 = v := BitVec.and_allOnes

/-- 10_state.md R26: what a plainly stored register reads as after a write. -/
theorem readReg_storeReg_same {r : Reg} (hr : plainlyStored r = true) (v : Word) (s : State) :
    readReg r (storeReg r v s) = v &&& usedBits r := by
  have half : (v.setWidth 16).setWidth 32 = v &&& 0xFFFF#32 := setWidth_setWidth_eq_and v (by decide)
  have byte : (v.setWidth 8).setWidth 32 = v &&& 0xFF#32 := setWidth_setWidth_eq_and v (by decide)
  have triple : (v.setWidth 24).setWidth 32 = v &&& 0xFFFFFF#32 := setWidth_setWidth_eq_and v (by decide)
  cases r with
  | id | cmd | status | errcode | errinfo => cases hr
  | ctrl => exact wordOf_bit_getLsbD v
  | imgw | imgh | bidx => exact half
  | blkw | blkh => exact byte
  | pix | yuv => exact triple
  | clen | cptr | count => exact (and_allBits v).symm
  | aclen p a => simpa [readReg, storeReg, usedBits] using half
  | dcp p => simpa [readReg, storeReg, usedBits] using byte
  | slen p k | srd p k | bslen p k => simpa [readReg, storeReg, usedBits] using (and_allBits v).symm

/-- A write to a register leaves every other register, a `STATUS` write but for `DONE`. -/
theorem readReg_storeReg_other {r q : Reg} (hr : plainlyStored r = true) (hq : q ≠ r) (v : Word) (s : State) :
    readReg q (storeReg r v s) = readReg q s := by
  cases r
  case id | cmd | status | errcode | errinfo => cases hr
  case aclen p a =>
    cases q
    case aclen p' a' =>
      by_cases hp : p = p'
      · subst hp
        have ha : a ≠ a' := fun ha => hq (ha ▸ rfl)
        simp [readReg, storeReg, ha]
      · simp [readReg, storeReg, hp]
    all_goals rfl
  case dcp p =>
    cases q
    case dcp p' =>
      have hp : p ≠ p' := fun hp => hq (hp ▸ rfl)
      simp [readReg, storeReg, hp]
    all_goals rfl
  case slen p k =>
    cases q
    case slen p' k' =>
      have hpk : ¬(p = p' ∧ k = k') := fun h => hq (by rw [h.1, h.2])
      simp [readReg, storeReg, hpk]
    all_goals rfl
  case srd p k =>
    cases q
    case srd p' k' =>
      have hpk : ¬(p = p' ∧ k = k') := fun h => hq (by rw [h.1, h.2])
      simp [readReg, storeReg, hpk]
    all_goals rfl
  case bslen p k =>
    cases q
    case bslen p' k' =>
      have hpk : ¬(p = p' ∧ k = k') := fun h => hq (by rw [h.1, h.2])
      simp [readReg, storeReg, hpk]
    all_goals rfl
  all_goals cases q <;> simp_all [readReg, storeReg, statusWord, ctrlWord, writeCtrl]

theorem plainlyStored_ne_cmd {r : Reg} (hr : plainlyStored r = true) : r ≠ .cmd := by
  rintro rfl
  cases hr

theorem step_of_writeReg_regOffset {r : Reg} {v : Word} {s : State} {rest : List HostAccess} (hr : r ≠ .cmd)
    (h : s.pending = .writeReg (BitVec.ofNat 9 (regOffset r)) v :: rest) :
    step s = .next (storeReg r v { s with pending := rest }) := by
  rw [step_of_writeReg (regOffset_aligned r) h, writeAt_of_regAt (regAt_regOffset r), writeReg_of_ne_cmd hr]

theorem step_of_readReg_regOffset {r : Reg} {s : State} {rest : List HostAccess}
    (h : s.pending = .readReg (BitVec.ofNat 9 (regOffset r)) :: rest) :
    step s = .next (replyWith (.word (readReg r { s with pending := rest })) { s with pending := rest }) := by
  rw [step_of_readReg (regOffset_aligned r) h, readAt_of_regAt (regAt_regOffset r)]

/-- The pending accesses are no register. -/
theorem readReg_pending (r : Reg) (s : State) (l : List HostAccess) : readReg r { s with pending := l } = readReg r s := by
  cases r <;> rfl

section
variable {s : State} {off : BitVec 9} {rest : List HostAccess} (haligned : off.toNat % 4 = 0)
include haligned

/-- 20_memory.md R58: a bus read of a register is the read at its offset. -/
theorem step_of_busRead_register (h : s.pending = .busRead (s.cfg.memMap.regBase + off.toNat) :: rest) :
    step s = step { s with pending := .readReg off :: rest } := by
  rw [step_of_readReg (s := { s with pending := .readReg off :: rest }) haligned rfl, step_of_pending h]
  simp [serve, HostAccess.wf, busRead, busTarget_register, haligned]

/-- 20_memory.md R55, R58: a bus write of a register's four bytes is the write at its offset. -/
theorem step_of_busWrite_register {v : Word} (h : s.pending = .busWrite (s.cfg.memMap.regBase + off.toNat)
    [v.extractLsb' 0 8, v.extractLsb' 8 8, v.extractLsb' 16 8, v.extractLsb' 24 8] :: rest) :
    step s = step { s with pending := .writeReg off v :: rest } := by
  rw [step_of_writeReg (s := { s with pending := .writeReg off v :: rest }) haligned rfl, step_of_pending h]
  simp [serve, HostAccess.wf, busWrite, busTarget_register, haligned, wordOfBytes_bytes]

end

/-- Settles O12: the store and the read of each register, the offset that names it, and the bus address of the offset. -/
theorem registerWritesReadBack : Obligations.RegisterWritesReadBack := by
  refine ⟨fun r v s rest hr hpending => ?_, fun r s rest hpending => ?_, fun off v s rest haligned =>
    ⟨step_of_busRead_register haligned, step_of_busWrite_register haligned⟩⟩
  · have hkept := besideRegisters_storeReg r v { s with pending := rest }
    simp only [besideRegisters, Prod.mk.injEq] at hkept
    obtain ⟨hcfg, hrest, hreply, hsb, hcb, hqb, hlt, hct, hsyms, hbs, hqp, hcbuf, himg⟩ := hkept
    refine ⟨_, step_of_writeReg_regOffset (plainlyStored_ne_cmd hr) hpending, readReg_storeReg_same hr v _,
      fun q hq => ?_, hrest, hcfg, hreply, hsb, hcb, hqb, hlt, hct, hsyms, hbs, hqp, hcbuf, himg⟩
    rw [readReg_storeReg_other hr hq, readReg_pending]
  · rw [step_of_readReg_regOffset hpending, readReg_pending]
    rfl

/-! ### `STATUS`, `CTRL` and the interrupt -/

theorem bit_le (b : Bool) : bit b ≤ 1 := by cases b <;> decide

/-- 10_state.md R29: bits 31:3 of `STATUS` read 0. -/
theorem statusWord_getLsbD_high (s : State) (n : Nat) : (statusWord s).getLsbD (n + 3) = false := by
  have := bit_le s.busy
  have := bit_le s.done
  have := bit_le s.err
  rw [statusWord, BitVec.getLsbD, toNat_wordOf (by omega)]
  refine Nat.testBit_lt_two_pow (Nat.lt_of_lt_of_le (m := 2 ^ 3) (by omega) (Nat.pow_le_pow_right (by decide) (by omega)))

theorem statusWord_getLsbD_low (s : State) :
    (statusWord s).getLsbD 0 = s.busy ∧ (statusWord s).getLsbD 1 = s.done ∧ (statusWord s).getLsbD 2 = s.err := by
  rw [statusWord]
  generalize s.busy = a, s.done = b, s.err = c
  revert a b c
  decide

theorem writeStatus_eq (v : Word) (s : State) : writeStatus v s = { s with done := s.done && !v.getLsbD 1 } := by
  rw [writeStatus]
  cases v.getLsbD 1 <;> simp

theorem step_of_command_irq {s t : State} {w : Word} {rest : List HostAccess}
    (hpending : s.pending = .writeReg 0x004#9 w :: rest) (hreset : w ≠ encode .reset) (hstep : step s = .next t) :
    t.ie = s.ie ∧ irq t = s.ie := by
  rw [step_of_command hpending] at hstep
  obtain ⟨u, hu⟩ := runWord_answers w (commandStart w { s with pending := rest })
  obtain ⟨-, -, -, -, hie, -, -⟩ := hostSide_eq_iff.1 (hostSide_runWord hreset hu)
  rw [hu] at hstep
  cases hstep
  exact ⟨hie, by rw [irq]; exact (Bool.and_true _).trans hie⟩

/-- Settles O14: the bits of `STATUS`, the two writes, and the interrupt at the end of a command. -/
theorem doneDrivesTheInterrupt : Obligations.DoneDrivesTheInterrupt := by
  refine ⟨fun s n => ?_, fun s v rest hpending => ?_, fun s v rest hpending => ?_, fun s => rfl,
    fun s t w rest => step_of_command_irq⟩
  · obtain ⟨hbusy, hdone, herr⟩ := statusWord_getLsbD_low s
    match n with
    | 0 => exact hbusy
    | 1 => exact hdone
    | 2 => exact herr
    | n + 3 => exact statusWord_getLsbD_high s n
  · rw [step_of_writeReg_regOffset (r := .status) (by decide) hpending, storeReg, writeStatus_eq]
  · exact step_of_writeReg_regOffset (r := .ctrl) (by decide) hpending

end Sys2Proof.Machine

/-! PROOFS. The memory window (20_memory.md R50, R52) and its bus form (R58, log 14): what a byte element reads as after a
write, what stands at a bus address, and the obligation O16. -/

namespace Sys2Proof.Machine

/-! ### Byte elements -/

/-- Elements of a quantised plane have addresses of their own (20_memory.md R50). -/
theorem qpAddr_inj {n n' : Nat} {v v' u u' : Fin 8} (h : qpAddr n v u = qpAddr n' v' u') : n = n' ∧ v = v' ∧ u = u' := by
  have := v.isLt; have := v'.isLt; have := u.isLt; have := u'.isLt
  simp only [qpAddr] at h
  exact ⟨by omega, Fin.ext (by omega), Fin.ext (by omega)⟩

theorem loadByte_storeByte_same (l : ByteLoc) (b : Byte) (s : State) : loadByte l (storeByte l b s) = b := by
  cases l <;> simp [loadByte, storeByte, Memory.read_write]

/-- Places of a stream memory are told apart by the stream and the address. -/
theorem read_at_put_write {a : PerStream Memory} {p p' : Plane} {k k' : Kind} {n n' : Nat} {b : Byte}
    (h : ¬(p = p' ∧ k = k' ∧ n' = n)) : ((a.put p k ((a.at p k).write n b)).at p' k').read n' = (a.at p' k').read n' := by
  rw [PerPlane.at_put]
  split
  · rename_i hpk
    obtain ⟨rfl, rfl⟩ := hpk
    rw [Memory.read_write, if_neg fun hn => h ⟨rfl, rfl, hn⟩]
  · rfl

theorem loadByte_storeByte_other {l l' : ByteLoc} (h : l' ≠ l) (b : Byte) (s : State) :
    loadByte l' (storeByte l b s) = loadByte l' s := by
  cases l with
  | cbuf a =>
    cases l' with
    | cbuf a' =>
      have ha : a' ≠ a := fun ha => h (ha ▸ rfl)
      simp [loadByte, storeByte, Memory.read_write, ha]
    | _ => rfl
  | s p k n =>
    cases l' with
    | s p' k' n' => exact read_at_put_write fun ⟨hp, hk, hn⟩ => h (by rw [hp, hk, hn])
    | _ => rfl
  | bs p k n =>
    cases l' with
    | bs p' k' n' => exact read_at_put_write fun ⟨hp, hk, hn⟩ => h (by rw [hp, hk, hn])
    | _ => rfl
  | lt p k sym =>
    cases l' with
    | lt p' k' sym' =>
      exact read_at_put_write fun ⟨hp, hk, hsym⟩ => h (by rw [hp, hk, BitVec.eq_of_toNat_eq hsym])
    | _ => rfl
  | qp p n v u =>
    cases l' with
    | qp p' n' v' u' =>
      simp only [loadByte, storeByte, PerPlane.get_set]
      split
      · rename_i hp
        rw [Memory.read_write, if_neg, hp]
        intro haddr
        obtain ⟨hn, hv, hu⟩ := qpAddr_inj haddr
        exact h (by rw [hp, hn, hv, hu])
      · rfl
    | _ => rfl
  | sb p j i =>
    cases l' with
    | sb p' j' i' =>
      simp only [loadByte, storeByte, PerPlane.get_set]
      split
      · rename_i hp
        rw [Block.at_put, if_neg fun hji => h (by rw [hp, hji.1, hji.2]), hp]
      · rfl
    | _ => rfl
  | qb v u =>
    cases l' with
    | qb v' u' =>
      have hvu : ¬(v = v' ∧ u = u') := fun hvu => h (by rw [hvu.1, hvu.2])
      simp only [loadByte, storeByte, Block.at_put, if_neg hvu]
    | _ => rfl

theorem readReg_storeByte (r : Reg) (l : ByteLoc) (b : Byte) (s : State) : readReg r (storeByte l b s) = readReg r s := by
  cases l <;> cases r <;> rfl

/-- What no byte element is part of. -/
def besideBytes (s : State) := (s.cb, s.ct, s.img, s.cfg, s.pending, s.reply)

theorem besideBytes_storeByte (l : ByteLoc) (b : Byte) (s : State) : besideBytes (storeByte l b s) = besideBytes s := by
  cases l <;> rfl

/-- The accesses still pending are no element. -/
theorem loadByte_pending (l : ByteLoc) (s : State) (rest : List HostAccess) :
    loadByte l { s with pending := rest } = loadByte l s := by
  cases l <;> rfl

theorem inCapacity_pending (l : ByteLoc) (s : State) (rest : List HostAccess) :
    inCapacity l { s with pending := rest } = inCapacity l s := by
  cases l <;> rfl

theorem windowRead_eq (l : ByteLoc) (s : State) (rest : List HostAccess) :
    windowRead l { s with pending := rest } = if inCapacity l s then loadByte l s else 0#8 := by
  rw [windowRead, inCapacity_pending, loadByte_pending]

/-- 20_memory.md R50: the capacity of each space. -/
theorem inCapacity_spaces (s : State) :
    (∀ a, inCapacity (.cbuf a) s = true ↔ a < s.cfg.cbufCap.toNat) ∧
    (∀ p k n, inCapacity (.s p k n) s = true ↔ n < 4161600) ∧
    (∀ p k n, inCapacity (.bs p k n) s = true ↔ n < s.cfg.bsCap.toNat) ∧
    (∀ p n v u, inCapacity (.qp p n v u) s = true ↔ n < 65025) ∧
    (∀ p k sym, inCapacity (.lt p k sym) s = true) ∧ (∀ p j i, inCapacity (.sb p j i) s = true) ∧
    (∀ v u, inCapacity (.qb v u) s = true) := by
  simp [inCapacity, sCap, qpBlocks]

section
variable {s : State} {l : ByteLoc} {b : Byte} {rest : List HostAccess}
  (hpending : s.pending = .writeByte l b :: rest)
include hpending

/-- 20_memory.md R52: a byte written inside its space reads back, and no other element, register or wider space
changes. -/
theorem step_of_writeByte_inside (hin : inCapacity l s = true) :
    ∃ t, step s = .next t ∧ loadByte l t = b ∧ (∀ l', l' ≠ l → loadByte l' t = loadByte l' s) ∧
      (∀ r, readReg r t = readReg r s) ∧ t.cb = s.cb ∧ t.ct = s.ct ∧ t.img = s.img ∧ t.cfg = s.cfg ∧
      t.pending = rest ∧ t.reply = s.reply := by
  have hkept := besideBytes_storeByte l b { s with pending := rest }
  simp only [besideBytes, Prod.mk.injEq] at hkept
  refine ⟨storeByte l b { s with pending := rest }, ?_, loadByte_storeByte_same l b _, fun l' hl => ?_, fun r => ?_, hkept⟩
  · rw [step_of_pending hpending]
    exact congrArg Host.Outcome.next (if_pos ((inCapacity_pending l s rest).trans hin))
  · rw [loadByte_storeByte_other hl, loadByte_pending]
  · rw [readReg_storeByte, readReg_pending]

theorem step_of_writeByte_outside (hout : inCapacity l s = false) : step s = .next { s with pending := rest } := by
  rw [step_of_pending hpending]
  exact congrArg Host.Outcome.next (if_neg (by rw [inCapacity_pending, hout]; decide))

end

/-! ### What stands at a bus address -/

theorem spaceWidth_pos (sp : Space) : 0 < spaceWidth sp := by cases sp <;> exact Nat.succ_pos _

theorem windowCarries_iff (w : BusWindow) :
    windowCarries w = true ↔ ∀ k, k < spaceWidth w.space → k ∈ w.lanes := by
  simp [windowCarries]

/-- Element `n` of a window stands `n` slots from its base. -/
theorem windowTarget_slot {w : BusWindow} {n : Nat} (hn : n < w.elements)
    (hlanes : ∀ k, k < spaceWidth w.space → k ∈ w.lanes) :
    windowTarget w (w.base + w.lanes.length * n) = some (.slot w.lanes (elementAt w.space w.rowPitch n)) := by
  have hlen : 0 < w.lanes.length := List.length_pos_of_mem (hlanes 0 (spaceWidth_pos w.space))
  have hcarries := (windowCarries_iff w).2 hlanes
  have hindex : w.lanes.length * n / w.lanes.length = n := Nat.mul_div_cancel_left n hlen
  simp [windowTarget, hcarries, hindex, hn]

theorem busTarget_first_window {m : MemMap} {w : BusWindow} {ws : List BusWindow} {n addr : Nat}
    (hm : m.windows = w :: ws) (hn : n < w.elements) (hlanes : ∀ k, k < spaceWidth w.space → k ∈ w.lanes)
    (haddr : addr = w.base + w.lanes.length * n) (hout : addr < m.regBase ∨ m.regBase + 0x200 ≤ addr) :
    busTarget m addr = some (.slot w.lanes (elementAt w.space w.rowPitch n)) := by
  have hreg : (Nat.ble m.regBase addr && Nat.blt (addr - m.regBase) 0x200) = false := by
    rw [← Bool.not_eq_true, Bool.and_eq_true, Nat.ble_eq, Nat.blt_eq]
    omega
  rw [busTarget, hreg, hm, List.findSome?_cons, haddr, windowTarget_slot hn hlanes]
  rfl

theorem elementWidth_of_elementBelow {limit n width : Nat} {e e' : Element} (he : elementWidth e = width)
    (h : elementBelow limit n e = some e') : elementWidth e' = width := by
  rw [elementBelow] at h
  split at h
  · cases h; exact he
  · cases h

/-- Every element of a space has the space's number of bytes (20_memory.md R50). -/
theorem elementWidth_of_elementAt {sp : Space} {pitch n : Nat} {e : Element} (h : elementAt sp pitch n = some e) :
    elementWidth e = spaceWidth sp := by
  cases sp with
  | img =>
    rw [elementAt] at h
    split at h
    · cases h; rfl
    · cases h
  | cbuf | s | bs | qp => cases h; rfl
  | lt | ct | sb | cb | qb => exact elementWidth_of_elementBelow rfl h

theorem lanes_of_windowTarget {w : BusWindow} {addr : Nat} {lanes : List Nat} {e : Element}
    (h : windowTarget w addr = some (.slot lanes (some e))) : ∀ k, k < elementWidth e → k ∈ lanes := by
  simp only [windowTarget] at h
  split at h
  · rename_i hw
    simp only [Bool.and_eq_true] at hw
    obtain ⟨⟨⟨hcarries, -⟩, -⟩, -⟩ := hw
    simp only [Option.some.injEq, BusTarget.slot.injEq] at h
    obtain ⟨rfl, he⟩ := h
    rw [elementWidth_of_elementAt he]
    exact (windowCarries_iff w).1 hcarries
  · cases h

/-- A slot that stands at a bus address carries every byte of its element. -/
theorem lanes_of_busTarget {m : MemMap} {addr : Nat} {lanes : List Nat} {e : Element}
    (h : busTarget m addr = some (.slot lanes (some e))) : ∀ k, k < elementWidth e → k ∈ lanes := by
  rw [busTarget] at h
  split at h
  · cases h
  · obtain ⟨w, -, hw⟩ := List.exists_of_findSome?_eq_some h
    exact lanes_of_windowTarget hw

/-! ### Bus accesses to elements -/

section
variable {s : State} {addr : Nat} {lanes : List Nat} {e : Element} {rest : List HostAccess}
  (htarget : busTarget s.cfg.memMap addr = some (.slot lanes (some e)))
include htarget

/-- A bus write of a slot whose lanes carry the bytes of its element writes those bytes. -/
theorem step_of_busWrite_slot {bytes : List Byte} (hlen : bytes.length = elementWidth e)
    (hpending : s.pending = .busWrite addr (toLanes lanes bytes) :: rest) :
    step s = .next (storeElement e bytes { s with pending := rest }) := by
  have hbytes : fromLanes lanes (elementWidth e) (toLanes lanes bytes) = bytes :=
    hlen ▸ fromLanes_toLanes (hlen ▸ lanes_of_busTarget htarget)
  have hslot : (toLanes lanes bytes).length = lanes.length := List.length_map _
  rw [step_of_pending hpending]
  simp [serve, HostAccess.wf, busWrite, htarget, hslot, hbytes]

/-- A code table is not host writable (log 7). -/
theorem step_of_busWrite_code {p : Plane} {k : Kind} {sym : Byte} {bytes : List Byte} (he : e = .code p k sym)
    (hpending : s.pending = .busWrite addr (toLanes lanes bytes) :: rest) : step s = .next { s with pending := rest } := by
  have hslot : (toLanes lanes bytes).length = lanes.length := List.length_map _
  rw [step_of_pending hpending]
  simp [serve, HostAccess.wf, busWrite, htarget, hslot, he, storeElement]

theorem step_of_busRead_slot (hpending : s.pending = .busRead addr :: rest) :
    step s = .next (replyWith (.bytes (toLanes lanes (elementBytes e { s with pending := rest })))
      { s with pending := rest }) := by
  rw [step_of_pending hpending]
  simp [serve, HostAccess.wf, busRead, htarget]

end

section
variable {s : State} {addr : Nat} {lanes : List Nat} {rest : List HostAccess}
  (htarget : busTarget s.cfg.memMap addr = some (.slot lanes none))
include htarget

/-- 20_memory.md R52: behind a space's end. -/
theorem step_of_busWrite_behind {bytes : List Byte} (hlen : bytes.length = lanes.length)
    (hpending : s.pending = .busWrite addr bytes :: rest) : step s = .next { s with pending := rest } := by
  rw [step_of_pending hpending]
  simp [serve, HostAccess.wf, busWrite, htarget, hlen]

theorem step_of_busRead_behind (hpending : s.pending = .busRead addr :: rest) :
    step s = .next { s with pending := rest, reply := some (.bytes (lanes.map fun _ => 0#8)) } := by
  rw [step_of_pending hpending]
  simp [serve, HostAccess.wf, busRead, htarget, toLanes, replyWith]

end

/-- A coefficient comes back from its two bytes. -/
theorem coef_of_bytes (c : BitVec 16) : c.extractLsb' 8 8 ++ c.extractLsb' 0 8 = c := by
  refine BitVec.eq_of_getLsbD_eq fun i hi => ?_
  simp only [BitVec.getLsbD_append, BitVec.getLsbD_extractLsb']
  by_cases h0 : i < 8
  · simp [h0]
  · simp [h0, show i - 8 < 8 by omega, show 8 + (i - 8) = i by omega]

/-- Settles O16: each access is one equation of `step`; the bus forms go through the lanes. -/
theorem windowReadsBackWrites : Obligations.WindowReadsBackWrites := by
  refine ⟨inCapacity_spaces, fun s l b rest h => ⟨step_of_writeByte_inside h, step_of_writeByte_outside h⟩,
    fun s l rest h => ?_, fun s v u c rest h => ⟨s.cb.put v u c, step_of_pending h, fun v' u' => ?_⟩,
    fun s x y c rest h => ⟨s.img.writePixels x.toNat y.toNat [c], step_of_pending h,
      Memory.readPixel_writePixels (i := 0) rfl, fun a ha => Memory.read_writePixels_of_outside ha⟩,
    fun s v u rest h => step_of_pending h, fun s x y rest h => step_of_pending h,
    fun s p k sym rest h => step_of_pending h, fun m w ws n addr => busTarget_first_window,
    fun s addr lanes e rest htarget => ⟨fun l b he hbus => ?_, fun v u c he hbus => ?_, fun x y c he hbus => ?_,
      fun p k sym bytes => step_of_busWrite_code htarget, fun hbus => ?_⟩,
    fun s addr lanes rest htarget =>
      ⟨fun bytes hbus hlen => step_of_busWrite_behind htarget hlen hbus, step_of_busRead_behind htarget⟩⟩
  · rw [step_of_pending h, ← windowRead_eq l s rest]
    rfl
  · rw [Block.at_put]
    exact if_congr (by rw [eq_comm, @eq_comm _ u]) rfl rfl
  · subst he
    exact step_of_busWrite_slot htarget rfl hbus
  · subst he
    rw [step_of_busWrite_slot htarget rfl hbus]
    exact congrArg (fun c => Host.Outcome.next { s with pending := rest, cb := s.cb.put v u c }) (coef_of_bytes c)
  · subst he
    exact step_of_busWrite_slot htarget rfl hbus
  · refine ⟨_, step_of_busRead_slot htarget hbus, fun l he => ?_, fun v u he => ?_, fun x y he => ?_, fun p k sym he => ?_⟩
    · rw [he, ← windowRead_eq l s rest]
      rfl
    all_goals rw [he]; rfl

end Sys2Proof.Machine

/-! PROOFS. The forward colour map (41_color.md R97, R99) and what the two maps preserve (R103): the obligations O18 and
O20. -/

namespace Sys2Proof.Machine

/-! ### The scaled components -/

/-- The scaled, truncated luminance of a pixel (41_color.md R97). -/
def scaledY (c : Pixel) : Int := (299 * (c.r.toNat : Int) + 587 * (c.g.toNat : Int) + 114 * (c.b.toNat : Int)).tdiv 1000

/-- The scaled, truncated difference of blue and luminance. -/
def scaledU (c : Pixel) : Int := (-299 * (c.r.toNat : Int) - 587 * (c.g.toNat : Int) + 886 * (c.b.toNat : Int)).tdiv 1000

/-- The scaled, truncated difference of red and luminance. -/
def scaledV (c : Pixel) : Int := (701 * (c.r.toNat : Int) - 587 * (c.g.toNat : Int) - 114 * (c.b.toNat : Int)).tdiv 1000

theorem rgb2yuv_eq (m : CscMap) (c : Pixel) :
    rgb2yuv m c = { y := cscMap m (scaledY c), u := cscMap m (scaledU c), v := cscMap m (scaledV c) } := by
  simp only [rgb2yuv, tdiv_eq, scaledY, scaledU, scaledV]
  rfl

theorem tdiv_1000_mono {a b : Int} (h : a ≤ b) : a.tdiv 1000 ≤ b.tdiv 1000 := Int.tdiv_le_tdiv (by decide) h

theorem scaledY_range (c : Pixel) : 0 ≤ scaledY c ∧ scaledY c ≤ 255 := by
  have := c.r.isLt; have := c.g.isLt; have := c.b.isLt
  have hlo : (0 : Int).tdiv 1000 ≤ scaledY c := tdiv_1000_mono (by omega)
  have hhi : scaledY c ≤ (255000 : Int).tdiv 1000 := tdiv_1000_mono (by omega)
  exact ⟨hlo, hhi⟩

theorem scaledU_range (c : Pixel) : -225 ≤ scaledU c ∧ scaledU c ≤ 225 := by
  have := c.r.isLt; have := c.g.isLt; have := c.b.isLt
  have hlo : (-225930 : Int).tdiv 1000 ≤ scaledU c := tdiv_1000_mono (by omega)
  have hhi : scaledU c ≤ (225930 : Int).tdiv 1000 := tdiv_1000_mono (by omega)
  exact ⟨hlo, hhi⟩

theorem scaledV_range (c : Pixel) : -178 ≤ scaledV c ∧ scaledV c ≤ 178 := by
  have := c.r.isLt; have := c.g.isLt; have := c.b.isLt
  have hlo : (-178755 : Int).tdiv 1000 ≤ scaledV c := tdiv_1000_mono (by omega)
  have hhi : scaledV c ≤ (178755 : Int).tdiv 1000 := tdiv_1000_mono (by omega)
  exact ⟨hlo, hhi⟩

/-! ### `CSC_MAP` -/

/-- The spec's value of `CSC_MAP` (41_color.md R97). -/
theorem cscMap_clampThenShift (t : Int) : cscMap .clampThenShift t = byteOf (channel t - 128) := by
  rw [cscMap, satu8_eq_channel]

theorem toInt_cscMap_clampThenShift (t : Int) : (cscMap .clampThenShift t).toInt = channel t - 128 := by
  have := channel_range t
  rw [cscMap_clampThenShift, ← sval_eq_toInt, sval_byteOf (by omega) (by omega)]

theorem cscMap_listed (samples : Vector Byte 481) (n : Fin 481) :
    cscMap (.listed samples) (n.val - 225 : Int) = samples[n] := by
  simp [cscMap]

/-- Three bytes of a 24-bit register, one behind the other. -/
theorem pack24_eq_append (a b c : Byte) : pack24 a b c = c ++ b ++ a := by
  have ha := a.isLt; have hb := b.isLt; have hc := c.isLt
  apply BitVec.eq_of_toNat_eq
  rw [pack24, BitVec.toNat_ofNat, BitVec.toNat_append, BitVec.toNat_append, ← Nat.shiftLeft_add_eq_or_of_lt ha,
    ← Nat.shiftLeft_add_eq_or_of_lt hb, Nat.shiftLeft_eq, Nat.shiftLeft_eq]
  omega

theorem pack24_byteOf (x y z : Int) :
    pack24 (byteOf x) (byteOf y) (byteOf z) = BitVec.ofInt 24 (x % 256 + 256 * (y % 256) + 65536 * (z % 256)) := by
  have carries (w : Int) : ((byteOf w).toNat : Int) = w % 256 := by
    rw [byteOf, BitVec.toNat_ofInt]
    omega
  rw [pack24, ← BitVec.ofInt_natCast]
  push_cast
  rw [carries, carries, carries]

/-! ### `CSC_FWD` -/

/-- The pixel in `PIX` (41_color.md R99). -/
def pixelOfPix (pix : BitVec 24) : Pixel := { r := byte0 pix, g := byte1 pix, b := byte2 pix }

theorem exec_cscFwd (s : State) :
    exec .cscFwd s = .next { s with
      yuv := pack24 (cscMap s.cfg.cscMap (scaledY (pixelOfPix s.pix))) (cscMap s.cfg.cscMap (scaledU (pixelOfPix s.pix)))
        (cscMap s.cfg.cscMap (scaledV (pixelOfPix s.pix))) } := by
  have hexec : exec .cscFwd s = .next { s with
      yuv := pack24 (rgb2yuv s.cfg.cscMap (pixelOfPix s.pix)).y (rgb2yuv s.cfg.cscMap (pixelOfPix s.pix)).u
        (rgb2yuv s.cfg.cscMap (pixelOfPix s.pix)).v } := rfl
  rw [hexec, rgb2yuv_eq]

/-- A pixel with three equal channels (41_color.md R103). -/
def grey (g : Byte) : Pixel := { r := g, g := g, b := g }

theorem scaled_grey (g : Byte) : scaledY (grey g) = g.toNat ∧ scaledU (grey g) = 0 ∧ scaledV (grey g) = 0 := by
  have hy : 299 * (g.toNat : Int) + 587 * (g.toNat : Int) + 114 * (g.toNat : Int) = (g.toNat : Int) * 1000 := by ring
  have hu : -299 * (g.toNat : Int) - 587 * (g.toNat : Int) + 886 * (g.toNat : Int) = 0 := by ring
  have hv : 701 * (g.toNat : Int) - 587 * (g.toNat : Int) - 114 * (g.toNat : Int) = 0 := by ring
  refine ⟨?_, ?_, ?_⟩
  · rw [scaledY, grey, hy, Int.mul_tdiv_cancel _ (by decide)]
  · rw [scaledU, grey, hu, Int.zero_tdiv]
  · rw [scaledV, grey, hv, Int.zero_tdiv]

theorem channel_of_byte (b : Byte) : channel (b.toNat : Int) = b.toNat := by
  have := b.isLt
  rw [channel]
  omega

theorem byteOf_sub_128 (g : Byte) : byteOf ((g.toNat : Int) - 128) = g - 128#8 := by
  have := g.isLt
  apply BitVec.eq_of_toNat_eq
  rw [byteOf, BitVec.toNat_ofInt, BitVec.toNat_sub, BitVec.toNat_ofNat]
  omega

theorem rgb2yuv_grey (g : Byte) :
    rgb2yuv .clampThenShift (grey g) = { y := g - 128#8, u := 0x80#8, v := 0x80#8 } := by
  obtain ⟨hy, hu, hv⟩ := scaled_grey g
  have hzero : cscMap .clampThenShift 0 = 0x80#8 := by decide
  rw [rgb2yuv_eq, hy, hu, hv, hzero, cscMap_clampThenShift, channel_of_byte, byteOf_sub_128]

theorem pixelOfPix_grey (g : Byte) : pixelOfPix (g ++ g ++ g) = grey g := by
  rw [← pack24_eq_append, pixelOfPix, byte0_pack24, byte1_pack24, byte2_pack24, grey]

theorem exec_cscFwd_grey {s : State} {g : Byte} (hmap : s.cfg.cscMap = .clampThenShift) (hpix : s.pix = g ++ g ++ g) :
    exec .cscFwd s = .next { s with yuv := 0x80#8 ++ 0x80#8 ++ (g - 128#8) } := by
  have hgrey := rgb2yuv_grey g
  rw [rgb2yuv_eq, Sample.mk.injEq] at hgrey
  obtain ⟨hy, hu, hv⟩ := hgrey
  rw [exec_cscFwd, hmap, hpix, pixelOfPix_grey, hy, hu, hv, pack24_eq_append]

/-- Settles O18: the samples of the scaled components, whose ranges follow from the channels', and the rule's example. -/
theorem cscFwdConvertsThePixel : Obligations.CscFwdConvertsThePixel := by
  refine ⟨rfl, fun s => ?_, cscMap_listed, fun s g => exec_cscFwd_grey, fun s hmap hpix => ?_⟩
  · have hy := scaledY_range (pixelOfPix s.pix)
    have hu := scaledU_range (pixelOfPix s.pix)
    have hv := scaledV_range (pixelOfPix s.pix)
    refine ⟨?_, fun hmap => ?_, hu.1, Int.le_trans (by decide) hv.1, hy.1, hy.2, Int.le_trans hu.2 (by decide),
      Int.le_trans hv.2 (by decide)⟩
    · rw [exec_cscFwd, pack24_eq_append]
      rfl
    · rw [exec_cscFwd, hmap, cscMap_clampThenShift, cscMap_clampThenShift, cscMap_clampThenShift, pack24_byteOf]
      rfl
  · have example_samples : pack24 (cscMap .clampThenShift (scaledY (pixelOfPix 0x3264C8#24)))
        (cscMap .clampThenShift (scaledU (pixelOfPix 0x3264C8#24)))
        (cscMap .clampThenShift (scaledV (pixelOfPix 0x3264C8#24))) = 0xCB80FC#24 := by decide
    rw [exec_cscFwd, hmap, hpix, example_samples]

/-! ### What the two maps preserve -/

theorem byteOf_toNat (b : Byte) : byteOf (b.toNat : Int) = b := by
  rw [byteOf, BitVec.ofInt_natCast, BitVec.ofNat_toNat, BitVec.setWidth_eq]

/-- The pixel that comes back, in the terms of the limited components (41_color.md R97, R98). -/
theorem yuv2rgb_rgb2yuv (c : Pixel) :
    let py := channel (scaledY c)
    let pu := channel (scaledU c)
    let pv := channel (scaledV c)
    yuv2rgb (rgb2yuv .clampThenShift c) =
      { r := byteOf (channel (py + pv))
        g := byteOf (channel ((1000 * py - 194 * pu - 509 * pv).tdiv 1000))
        b := byteOf (channel (py + pu)) } := by
  simp only [yuv2rgb_eq, rgb2yuv_eq, toInt_cscMap_clampThenShift, Int.sub_add_cancel]

theorem yuv2rgb_rgb2yuv_grey (g : Byte) : yuv2rgb (rgb2yuv .clampThenShift (grey g)) = grey g := by
  obtain ⟨hy, hu, hv⟩ := scaled_grey g
  have hzero : channel 0 = 0 := rfl
  have hscale : (1000 * (g.toNat : Int)).tdiv 1000 = g.toNat := Int.mul_tdiv_cancel_left _ (by decide)
  rw [yuv2rgb_rgb2yuv, hy, hu, hv]
  simp [channel_of_byte, hzero, hscale, byteOf_toNat, grey]

/-- Where no component is limited, a channel comes back within 1: the truncations of the luminance and of the difference
lose less than 1 each, in the same direction. -/
theorem channel_error {t : Int} {b : Byte} (hlo : (b.toNat : Int) - 1 ≤ t) (hhi : t ≤ b.toNat) :
    ((byteOf (channel t)).toNat - b.toNat : Int).natAbs ≤ 1 := by
  have := b.isLt
  have hrange := channel_range t
  rw [toNat_byteOf hrange.1 hrange.2, channel]
  omega

theorem channel_of_range {x : Int} (hlo : 0 ≤ x) (hhi : x ≤ 255) : channel x = x := by
  rw [channel]
  omega

/-- Truncation keeps a quotient inside integer bounds, the upper one not below 0. -/
theorem tdiv_1000_bounds {a lo hi : Int} (hpos : 0 ≤ hi) (hlo : 1000 * lo < a) (hhi : a < 1000 * (hi + 1)) :
    lo ≤ a.tdiv 1000 ∧ a.tdiv 1000 ≤ hi := by
  rcases lt_or_ge a 0 with hneg | hnonneg
  · have hflip : a.tdiv 1000 = -(-a / 1000) := by
      rw [← Int.tdiv_eq_ediv_of_nonneg (by omega), Int.neg_tdiv, Int.neg_neg]
    omega
  · have hfloor : a.tdiv 1000 = a / 1000 := Int.tdiv_eq_ediv_of_nonneg hnonneg
    omega

theorem yuv2rgb_rgb2yuv_error {c : Pixel}
    (hu : 0 ≤ -299 * (c.r.toNat : Int) - 587 * (c.g.toNat : Int) + 886 * (c.b.toNat : Int))
    (hv : 0 ≤ 701 * (c.r.toNat : Int) - 587 * (c.g.toNat : Int) - 114 * (c.b.toNat : Int)) :
    ((yuv2rgb (rgb2yuv .clampThenShift c)).r.toNat - c.r.toNat : Int).natAbs ≤ 1 ∧
    ((yuv2rgb (rgb2yuv .clampThenShift c)).g.toNat - c.g.toNat : Int).natAbs ≤ 1 ∧
    ((yuv2rgb (rgb2yuv .clampThenShift c)).b.toNat - c.b.toNat : Int).natAbs ≤ 1 := by
  have hr := c.r.isLt; have hg := c.g.isLt; have hb := c.b.isLt
  have hyr := scaledY_range c
  have hur := scaledU_range c
  have hvr := scaledV_range c
  have hy0 : scaledY c = (299 * (c.r.toNat : Int) + 587 * (c.g.toNat : Int) + 114 * (c.b.toNat : Int)) / 1000 :=
    Int.tdiv_eq_ediv_of_nonneg (by omega)
  have hu0 : scaledU c = (-299 * (c.r.toNat : Int) - 587 * (c.g.toNat : Int) + 886 * (c.b.toNat : Int)) / 1000 :=
    Int.tdiv_eq_ediv_of_nonneg hu
  have hv0 : scaledV c = (701 * (c.r.toNat : Int) - 587 * (c.g.toNat : Int) - 114 * (c.b.toNat : Int)) / 1000 :=
    Int.tdiv_eq_ediv_of_nonneg hv
  rw [yuv2rgb_rgb2yuv]
  dsimp only
  rw [channel_of_range hyr.1 hyr.2, channel_of_range (x := scaledU c) (by omega) (by omega),
    channel_of_range (x := scaledV c) (by omega) (by omega)]
  generalize scaledY c = y at *
  generalize scaledU c = u at *
  generalize scaledV c = v at *
  refine ⟨channel_error (by omega) (by omega), ?_, channel_error (by omega) (by omega)⟩
  have hlo : 1000 * ((c.g.toNat : Int) - 1) < 1000 * y - 194 * u - 509 * v := by omega
  have hhi : 1000 * y - 194 * u - 509 * v < 1000 * ((c.g.toNat : Int) + 1) := by omega
  obtain ⟨h1, h2⟩ := tdiv_1000_bounds (by omega) hlo hhi
  exact channel_error h1 h2

/-- 41_color.md R103: the ranges of the three samples. -/
theorem rgb2yuv_range (c : Pixel) :
    (-128 ≤ (rgb2yuv .clampThenShift c).y.toInt ∧ (rgb2yuv .clampThenShift c).y.toInt ≤ 127) ∧
    (-128 ≤ (rgb2yuv .clampThenShift c).u.toInt ∧ (rgb2yuv .clampThenShift c).u.toInt ≤ 97) ∧
    (-128 ≤ (rgb2yuv .clampThenShift c).v.toInt ∧ (rgb2yuv .clampThenShift c).v.toInt ≤ 50) := by
  have hy := scaledY_range c
  have hu := scaledU_range c
  have hv := scaledV_range c
  rw [rgb2yuv_eq]
  simp only [toInt_cscMap_clampThenShift, channel]
  omega

/-- Settles O20: greys have no colour difference, the truncations lose less than 1, and one pixel is evaluated that does
not come back. -/
theorem colourMapsPreserve : Obligations.ColourMapsPreserve :=
  ⟨yuv2rgb_rgb2yuv_grey, rgb2yuv_range, fun _ => yuv2rgb_rgb2yuv_error,
    ⟨{ r := 0xC8#8, g := 0x64#8, b := 0x32#8 }, by decide⟩, fun _ => ⟨⟨_, rfl, rfl⟩, ⟨_, rfl, rfl⟩⟩⟩

end Sys2Proof.Machine

/-! PROOFS. The transform (42_dct.md R108 to R112) and the quantiser's arithmetic (43_quant.md R122, R123, R126): sums of
eight, rounding to the nearest, bounds by the sums of magnitudes, and the obligations O23, O24, O25, O27, O28 and O29. -/

namespace Sys2Proof.Machine

/-! ### Sums of eight -/

theorem mul_sum8 (c : Int) (f : Fin 8 → Int) : c * sum8 f = sum8 fun i => c * f i := by
  simp only [sum8]
  ring

theorem sum8_mul (f : Fin 8 → Int) (c : Int) : (sum8 fun i => f i * c) = sum8 f * c := by
  simp only [sum8]
  ring

theorem sum8_neg (f : Fin 8 → Int) : (sum8 fun i => -f i) = -sum8 f := by
  simp only [sum8]
  ring

theorem sum8_zero : (sum8 fun _ => 0) = 0 := rfl

/-- The sum of the magnitudes of eight numbers. -/
def magnitudes8 (f : Fin 8 → Int) : Nat :=
  (f 0).natAbs + (f 1).natAbs + (f 2).natAbs + (f 3).natAbs + (f 4).natAbs + (f 5).natAbs + (f 6).natAbs + (f 7).natAbs

theorem natAbs_sum8_mul_le {f g : Fin 8 → Int} {n : Nat} (h : ∀ i, (g i).natAbs ≤ n) :
    (sum8 fun i => f i * g i).natAbs ≤ magnitudes8 f * n := by
  have term (i : Fin 8) : (f i * g i).natAbs ≤ (f i).natAbs * n := by
    rw [Int.natAbs_mul]
    exact Nat.mul_le_mul_left _ (h i)
  have := term 0; have := term 1; have := term 2; have := term 3
  have := term 4; have := term 5; have := term 6; have := term 7
  simp only [sum8, magnitudes8, Nat.add_mul]
  omega

/-! ### Rounding to the nearest -/

theorem nearest_neg (x : Int) (d : Nat) : nearest (-x) d = -nearest x d := by
  rw [nearest, nearest, Int.sign_neg, Int.natAbs_neg, Int.neg_mul]

theorem nearest_zero {d : Nat} : nearest 0 d = 0 := by
  rw [nearest, Int.sign_zero, Int.zero_mul]

theorem natAbs_nearest_le {x : Int} {n d : Nat} (h : x.natAbs ≤ n) :
    (nearest x d).natAbs ≤ (2 * n + d) / (2 * d) := by
  have hsign : x.sign.natAbs ≤ 1 := by
    rw [Int.natAbs_sign]
    split <;> decide
  rw [nearest, Int.natAbs_mul, Int.natAbs_natCast]
  calc x.sign.natAbs * ((2 * x.natAbs + d) / (2 * d)) ≤ 1 * ((2 * x.natAbs + d) / (2 * d)) :=
        Nat.mul_le_mul_right _ hsign
    _ ≤ (2 * n + d) / (2 * d) := by
        rw [Nat.one_mul]
        exact Nat.div_le_div_right (by omega)

/-- An integer closer than half a step is the nearest. -/
theorem nearest_eq_of_close {x q : Int} {d : Nat} (hd : 0 < d) (h : 2 * (d * q - x).natAbs < d) : nearest x d = q := by
  have herror := nearest_error x hd
  have hstep : ((d : Int) * (nearest x d - q)).natAbs < d * 1 := by
    rw [Int.mul_sub]
    generalize (d : Int) * nearest x d = a at *
    generalize (d : Int) * q = b at *
    omega
  rw [Int.natAbs_mul, Int.natAbs_natCast, Nat.mul_lt_mul_left hd] at hstep
  omega

/-! ### The table of constants -/

/-- The sum of a row of the table of 42_dct.md R108 is 0 but for row 0. -/
theorem sum8_dctK (k : Fin 8) : sum8 (dctK k) = if k = 0 then 6074001000 else 0 := by
  revert k
  decide

/-- The sum of the magnitudes of a row of the table. -/
def rowMagnitude (k : Fin 8) : Nat := magnitudes8 (dctK k)

theorem rowMagnitude_le (k : Fin 8) : rowMagnitude k ≤ 6074001000 := by
  revert k
  decide

/-! ### `FDCT` -/

theorem fdctSum_eq (f : Block Byte) (v u : Fin 8) :
    fdctSum f v u = sum64 fun j i => dctK v j * dctK u i * (f.at j i).toInt := by
  simp only [fdctSum, fdctRows, Block.at_make, sum64, mul_sum8, sval_eq_toInt, Int.mul_assoc]

theorem natAbs_toInt_byte_le (b : Byte) : b.toInt.natAbs ≤ 128 := by
  have hrange := sval_range b
  rw [sval_eq_toInt] at hrange
  omega

/-- The exact sum is within the magnitudes of its two rows times 128. -/
theorem natAbs_fdctSum_le (f : Block Byte) (v u : Fin 8) :
    (fdctSum f v u).natAbs ≤ rowMagnitude v * (rowMagnitude u * 128) := by
  refine natAbs_sum8_mul_le fun j => ?_
  rw [fdctRows, Block.at_make]
  refine natAbs_sum8_mul_le fun i => ?_
  rw [sval_eq_toInt]
  exact natAbs_toInt_byte_le _

/-- The bound on the magnitude of a coefficient (42_dct.md R109). -/
def coefBound (v u : Fin 8) : Nat := (2 * (rowMagnitude v * (rowMagnitude u * 128)) + 2 ^ 62) / (2 * 2 ^ 62)

theorem coefBound_le (v u : Fin 8) : coefBound v u ≤ 1024 := by
  have hrows : rowMagnitude v * (rowMagnitude u * 128) ≤ 6074001000 * (6074001000 * 128) :=
    Nat.mul_le_mul (rowMagnitude_le v) (Nat.mul_le_mul_right _ (rowMagnitude_le u))
  rw [coefBound]
  omega

theorem natAbs_nearest_fdctSum_le (f : Block Byte) (v u : Fin 8) :
    (nearest (fdctSum f v u) (2 ^ 62)).natAbs ≤ coefBound v u :=
  natAbs_nearest_le (natAbs_fdctSum_le f v u)

/-- A coefficient is the exact sum rounded once; it fits its 16 bits (42_dct.md R109). -/
theorem toInt_fdct (f : Block Byte) (v u : Fin 8) : ((fdct f).at v u).toInt = nearest (fdctSum f v u) (2 ^ 62) := by
  have hbound := Nat.le_trans (natAbs_nearest_fdctSum_le f v u) (coefBound_le v u)
  rw [fdct, Block.at_make, rha_eq_nearest _ (by decide), toInt_half (by omega) (by omega)]

theorem natAbs_toInt_fdct_le (f : Block Byte) (v u : Fin 8) : ((fdct f).at v u).toInt.natAbs ≤ coefBound v u := by
  rw [toInt_fdct]
  exact natAbs_nearest_fdctSum_le f v u

theorem exec_fdct (p : Plane) (s : State) : exec (.fdct p) s = .next { s with cb := fdct (s.sb.get p) } := rfl

/-- Settles O23: the two passes are one double sum, bounded by the magnitudes of the constants. -/
theorem fdctRoundsTheDoubleSum : Obligations.FdctRoundsTheDoubleSum := by
  refine ⟨by decide, fun s p => ⟨fdct (s.sb.get p), exec_fdct p s, fun v u => ⟨?_, ?_⟩⟩⟩
  · rw [toInt_fdct, fdctSum_eq]
  · have hbound := Nat.le_trans (natAbs_toInt_fdct_le (s.sb.get p) v u) (coefBound_le v u)
    omega

/-! ### Blocks of the rule's corner cases -/

/-- Where all rows of a block give the same row sums, the column pass sums the constants of its row. -/
theorem fdctSum_of_equal_rows {f : Block Byte} {u : Fin 8} {x : Int}
    (h : ∀ j, (sum8 fun i => dctK u i * (f.at j i).toInt) = x) (v : Fin 8) :
    fdctSum f v u = if v = 0 then 6074001000 * x else 0 := by
  have hrows (j : Fin 8) : (fdctRows f).at j u = x := by
    rw [fdctRows, Block.at_make, ← h j]
    simp only [sval_eq_toInt]
  simp only [fdctSum, hrows, sum8_mul, sum8_dctK, ite_mul, Int.zero_mul]

theorem toInt_fdct_constant {f : Block Byte} {c : Byte} (h : ∀ j i, f.at j i = c) (v u : Fin 8) :
    ((fdct f).at v u).toInt = if v = 0 ∧ u = 0 then 8 * c.toInt else 0 := by
  have hc := natAbs_toInt_byte_le c
  have hrows (j : Fin 8) : (sum8 fun i => dctK u i * (f.at j i).toInt) = if u = 0 then 6074001000 * c.toInt else 0 := by
    simp only [h, sum8_mul, sum8_dctK, ite_mul, Int.zero_mul]
  rw [toInt_fdct, fdctSum_of_equal_rows hrows]
  by_cases hv : v = 0
  · by_cases hu : u = 0
    · rw [if_pos hv, if_pos hu, if_pos ⟨hv, hu⟩]
      exact nearest_eq_of_close (by decide) (by omega)
    · rw [if_pos hv, if_neg hu, if_neg fun h => hu h.2, Int.mul_zero, nearest_zero]
  · rw [if_neg hv, if_neg fun h => hv h.1, nearest_zero]

theorem toInt_fdct_negated {f g : Block Byte} (h : ∀ j i, (g.at j i).toInt = -(f.at j i).toInt) (v u : Fin 8) :
    ((fdct g).at v u).toInt = -((fdct f).at v u).toInt := by
  have hsum : fdctSum g v u = -fdctSum f v u := by
    simp only [fdctSum_eq, sum64, h, Int.mul_neg, sum8_neg]
  rw [toInt_fdct, toInt_fdct, hsum, nearest_neg]

theorem toInt_fdct_ramp {f : Block Byte} (h : ∀ j i : Fin 8, (f.at j i).toInt = 16 * (i.val : Int) - 56)
    (v u : Fin 8) :
    ((fdct f).at v u).toInt = if v = 0 then [0, -292, 0, -30, 0, -9, 0, -2].getD u.val 0 else 0 := by
  have row : ∀ u : Fin 8, nearest (6074001000 * sum8 fun i => dctK u i * (16 * (i.val : Int) - 56)) (2 ^ 62) =
      [0, -292, 0, -30, 0, -9, 0, -2].getD u.val 0 := by decide
  rw [toInt_fdct, fdctSum_of_equal_rows fun j => by simp only [h]; rfl]
  split
  · exact row u
  · exact nearest_zero

/-- Settles O24: a constant block and the ramp have equal rows, and rounding is odd. -/
theorem fdctOfConstantAndNegatedBlocks : Obligations.FdctOfConstantAndNegatedBlocks :=
  ⟨fun _ _ => toInt_fdct_constant, fun _ _ => toInt_fdct_negated, fun _ => toInt_fdct_ramp⟩

/-! ### `IDCT` -/

theorem idctSum_eq (c : Block (BitVec 16)) (j i : Fin 8) :
    idctSum c j i = sum64 fun v u => dctK v j * dctK u i * (c.at v u).toInt := by
  simp only [idctSum, idctRows, Block.at_make, sum64, mul_sum8, Int.mul_assoc]

theorem toInt_idct (c : Block (BitVec 16)) (j i : Fin 8) :
    ((idct c).at j i).toInt = sample8 (nearest (idctSum c j i) (2 ^ 62)) := by
  rw [idct, Block.at_make, rha_eq_nearest _ (by decide), sat8_eq_sample8, toInt_byteOf_sample8]

theorem dctK_zero (n : Fin 8) : dctK 0 n = 759250125 := by
  revert n
  decide

/-- A block with only a DC coefficient has one term left in each sum. -/
theorem idctSum_of_dcOnly {c : Block (BitVec 16)} (h : ∀ v u : Fin 8, ¬(v = 0 ∧ u = 0) → c.at v u = 0#16)
    (j i : Fin 8) : idctSum c j i = 576460752312515625 * (c.at 0 0).toInt := by
  have hzero (v u : Fin 8) (hvu : ¬(v = 0 ∧ u = 0)) : (c.at v u).toInt = 0 := by rw [h v u hvu]; rfl
  have hrow (v : Fin 8) (hv : v ≠ 0) : (sum8 fun u => dctK v j * dctK u i * (c.at v u).toInt) = 0 := by
    simp only [hzero v _ fun hvu => hv hvu.1, Int.mul_zero, sum8_zero]
  have hfirst : (sum8 fun u => dctK 0 j * dctK u i * (c.at 0 u).toInt) = 576460752312515625 * (c.at 0 0).toInt := by
    have hrest (u : Fin 8) (hu : u ≠ 0) : (c.at 0 u).toInt = 0 := hzero 0 u fun hvu => hu hvu.2
    simp [sum8, hrest, dctK_zero]
  rw [idctSum_eq, sum64, sum8, hfirst, hrow 1 (by decide), hrow 2 (by decide), hrow 3 (by decide), hrow 4 (by decide),
    hrow 5 (by decide), hrow 6 (by decide), hrow 7 (by decide)]
  simp

/-- The square of the DC constant is 2^59 and too little more to move a rounding to eighths. -/
theorem nearest_dc_term (d : BitVec 16) : nearest (576460752312515625 * d.toInt) (2 ^ 62) = nearest d.toInt 8 := by
  have hlo := BitVec.le_toInt d
  have hhi := BitVec.toInt_lt (x := d)
  have hsign : (576460752312515625 * d.toInt).sign = d.toInt.sign := by
    rw [Int.sign_mul]
    exact Int.one_mul _
  have hquot : (2 * (576460752312515625 * d.toInt).natAbs + 2 ^ 62) / (2 * 2 ^ 62) = (2 * d.toInt.natAbs + 8) / (2 * 8) := by
    omega
  rw [nearest, nearest, hsign, hquot]

theorem exec_idct (p : Plane) (s : State) : exec (.idct p) s = .next { s with sb := s.sb.set p (idct s.cb) } := rfl

/-- Settles O25: the two passes are one double sum, of which a DC-only block leaves one term. -/
theorem idctRoundsTheDoubleSum : Obligations.IdctRoundsTheDoubleSum := by
  refine fun s p => ⟨idct s.cb, exec_idct p s, fun j i => ?_, fun hdc j i => ?_⟩
  · rw [toInt_idct, idctSum_eq]
  · rw [toInt_idct, idctSum_of_dcOnly hdc, nearest_dc_term]

/-! ### The quantiser -/

/-- The largest quotient that the bounds of the coefficients allow is 95 (43_quant.md R122). -/
theorem quotientBound_le (v u : Fin 8) : (2 * coefBound v u + quantStep v u) / (2 * quantStep v u) ≤ 95 := by
  revert v u
  decide

/-- Settles O27: the bound on each coefficient, divided by its step. -/
theorem fdctOutputNeverSaturates : Obligations.FdctOutputNeverSaturates := fun f v u =>
  Nat.le_trans (natAbs_nearest_le (natAbs_toInt_fdct_le f v u)) (quotientBound_le v u)

theorem quantStep_range (v u : Fin 8) : 0 < quantStep v u ∧ quantStep v u ≤ 121 := by
  revert v u
  decide

/-- 43_quant.md R123: the product of a coefficient and its step fits 16 bits. -/
theorem toInt_dequantOne (v u : Fin 8) (q : Byte) : (dequantOne v u q).toInt = q.toInt * (quantStep v u : Int) := by
  have hproduct : (q.toInt * (quantStep v u : Int)).natAbs ≤ 128 * 121 := by
    rw [Int.natAbs_mul, Int.natAbs_natCast]
    exact Nat.mul_le_mul (natAbs_toInt_byte_le q) (quantStep_range v u).2
  rw [dequantOne, sval_eq_toInt, toInt_half (by omega) (by omega)]

theorem exec_dequant (s : State) :
    exec .dequant s = .next { s with cb := Block.make fun v u => dequantOne v u (s.qb.at v u) } := rfl

/-- Settles O28: each product, and a block of ones, which `QUANT` makes zeros. -/
theorem dequantMultipliesByTheMatrix : Obligations.DequantMultipliesByTheMatrix := by
  refine ⟨rfl, fun s => ⟨_, exec_dequant s, fun v u => ?_⟩,
    ⟨{ State.reset with cb := Block.all 1#16 }, _, _, exec_quant _, exec_dequant _, by decide⟩⟩
  rw [Block.at_make, toInt_dequantOne]

/-- Settles O29: without saturation the two commands round to the nearest multiple of the step. -/
theorem quantErrorIsHalfAStep : Obligations.QuantErrorIsHalfAStep := by
  intro s t u hquant hdequant v w hfits
  rw [exec_quant] at hquant
  cases hquant
  rw [exec_dequant] at hdequant
  cases hdequant
  have herror := nearest_error (s.cb.at v w).toInt (quantStep_range v w).1
  simp only [Block.at_make, toInt_dequantOne, toInt_quantOne, hfits]
  rwa [Int.mul_comm]

end Sys2Proof.Machine

/-! PROOFS. The coefficient coder (44_coefcoder.md R130 to R135): the pairs of a block and the coefficients they stand for,
`CC_ENC`, the pair loop of `CC_DEC` over any list of pairs, and the obligations O34 to O38. -/

namespace Sys2Proof.Machine

/-! ### The pairs of a block -/

/-- The pairs of `acPairs` without the EOB. -/
def acRuns (q : Block Byte) (run : Nat) : List (Fin 8 × Fin 8) → List (Byte × Byte)
  | [] => []
  | (v, u) :: rest =>
    if q.at v u == 0#8 then acRuns q (run + 1) rest else (BitVec.ofNat 8 run, q.at v u) :: acRuns q 0 rest

theorem acPairs_eq (q : Block Byte) (run : Nat) (ps : List (Fin 8 × Fin 8)) :
    acPairs q run ps = acRuns q run ps ++ [(0#8, 0#8)] := by
  induction ps generalizing run with
  | nil => rfl
  | cons c ps ih =>
    obtain ⟨v, u⟩ := c
    rw [acPairs, acRuns]
    split
    · exact ih _
    · rw [ih, List.cons_append]

theorem acSequence_cons (x : Byte × Byte) (l : List (Byte × Byte)) :
    acSequence (x :: l) = List.replicate x.1.toNat 0#8 ++ x.2 :: acSequence l := by
  simp [acSequence]

theorem length_acSequence (l : List (Byte × Byte)) : (acSequence l).length = (l.map fun x => x.1.toNat + 1).sum := by
  simp [acSequence, List.length_flatMap]

theorem acRuns_values (q : Block Byte) (run : Nat) (ps : List (Fin 8 × Fin 8)) :
    (acRuns q run ps).map Prod.snd = (ps.map fun c => q.at c.1 c.2).filter (fun x => x != 0#8) := by
  induction ps generalizing run with
  | nil => rfl
  | cons c ps ih =>
    obtain ⟨v, u⟩ := c
    rw [acRuns]
    by_cases h : q.at v u = 0#8 <;> simp [h, ih]

theorem toNat_ofNat_8 {n : Nat} (h : n ≤ 63) : (BitVec.ofNat 8 n).toNat = n := by
  rw [BitVec.toNat_ofNat]
  omega

/-- With `run` zeros already counted before the positions `ps`: each run stays inside them, and no value is 0. -/
theorem acRuns_bounds {q : Block Byte} {run : Nat} {ps : List (Fin 8 × Fin 8)} (h : run + ps.length ≤ 63) :
    ∀ x ∈ acRuns q run ps, x.1.toNat ≤ 62 ∧ x.2 ≠ 0#8 := by
  induction ps generalizing run with
  | nil => simp [acRuns]
  | cons c ps ih =>
    obtain ⟨v, u⟩ := c
    rw [List.length_cons] at h
    rw [acRuns]
    split
    · exact ih (by omega)
    · rename_i hq
      refine List.forall_mem_cons.2 ⟨⟨?_, by simpa using hq⟩, ih (by omega)⟩
      rw [toNat_ofNat_8 (by omega)]
      omega

/-- The zeros counted and the coefficients at the positions are what the pairs stand for, and zeros. -/
theorem acRuns_sequence {q : Block Byte} {run : Nat} {ps : List (Fin 8 × Fin 8)} (h : run + ps.length ≤ 63) :
    ∃ n, List.replicate run 0#8 ++ ps.map (fun c => q.at c.1 c.2) =
      acSequence (acRuns q run ps) ++ List.replicate n 0#8 := by
  induction ps generalizing run with
  | nil => exact ⟨run, by simp [acRuns, acSequence]⟩
  | cons c ps ih =>
    obtain ⟨v, u⟩ := c
    rw [List.length_cons] at h
    rw [acRuns, List.map_cons]
    by_cases hq : q.at v u = 0#8
    · obtain ⟨n, hn⟩ := ih (run := run + 1) (by omega)
      refine ⟨n, ?_⟩
      rw [if_pos (beq_iff_eq.2 hq), ← hn, List.replicate_succ', hq]
      simp
    · obtain ⟨n, hn⟩ := ih (run := 0) (by omega)
      refine ⟨n, ?_⟩
      rw [List.replicate_zero, List.nil_append] at hn
      rw [if_neg (by simpa using hq), acSequence_cons, toNat_ofNat_8 (by omega), hn]
      simp

theorem length_acRuns_le (q : Block Byte) (run : Nat) (ps : List (Fin 8 × Fin 8)) :
    (acRuns q run ps).length ≤ ps.length := by
  have := length_acPairs_le q run ps
  rw [acPairs_eq, List.length_append, List.length_singleton] at this
  omega

/-- The pairs of a block before its EOB. -/
def blockRuns (q : Block Byte) : List (Byte × Byte) := acRuns q 0 zigzag

theorem blockPairs_eq (q : Block Byte) : blockPairs q = blockRuns q ++ [(0#8, 0#8)] := acPairs_eq q 0 zigzag

theorem length_blockPairs (q : Block Byte) : (blockPairs q).length = (blockRuns q).length + 1 := by
  rw [blockPairs_eq, List.length_append, List.length_singleton]

theorem blockRuns_bounds (q : Block Byte) : ∀ x ∈ blockRuns q, x.1.toNat ≤ 62 ∧ x.2 ≠ 0#8 :=
  acRuns_bounds (run := 0) (ps := zigzag) (by decide)

theorem eob_notMem_blockRuns (q : Block Byte) : (0#8, 0#8) ∉ blockRuns q := fun h => (blockRuns_bounds q _ h).2 rfl

theorem length_acOf (q : Block Byte) : (acOf q).length = 63 := by
  rw [acOf, List.length_map]
  rfl

/-- A block's AC coefficients are what its pairs stand for, and zeros up to the last position. -/
theorem acOf_eq_blockRuns (q : Block Byte) : (acSequence (blockRuns q)).length ≤ 63 ∧
    acOf q = acSequence (blockRuns q) ++ List.replicate (63 - (acSequence (blockRuns q)).length) 0#8 := by
  obtain ⟨n, hn⟩ := acRuns_sequence (q := q) (run := 0) (ps := zigzag) (by decide)
  rw [List.replicate_zero, List.nil_append] at hn
  have hac : acOf q = acSequence (blockRuns q) ++ List.replicate n 0#8 := hn
  have hlen := length_acOf q
  rw [hac, List.length_append, List.length_replicate] at hlen
  obtain rfl : n = 63 - (acSequence (blockRuns q)).length := by omega
  exact ⟨by omega, hac⟩

/-- Settles O34: the pairs before the EOB, by induction on the zigzag positions. -/
theorem blockPairsEndInOneEob : Obligations.BlockPairsEndInOneEob := by
  intro q
  obtain ⟨hlen, hac⟩ := acOf_eq_blockRuns q
  exact ⟨blockRuns q, blockPairs_eq q, acRuns_values q 0 zigzag, blockRuns_bounds q, hac,
    length_acSequence _ ▸ hlen, length_acRuns_le q 0 zigzag⟩

/-! ### Bytes modulo 256 -/

theorem byteOf_add (x y : Int) : byteOf (x + y) = byteOf x + byteOf y := by
  simp only [byteOf, BitVec.ofInt_add]

theorem byteOf_sub (x y : Int) : byteOf (x - y) = byteOf x - byteOf y := by
  rw [BitVec.eq_sub_iff_add_eq, ← byteOf_add, Int.sub_add_cancel]

/-- The DC difference wraps (44_coefcoder.md R133). -/
theorem byteOf_sval_sub (a b : Byte) : byteOf (sval a - sval b) = a - b := by
  rw [byteOf_sub, byteOf_sval, byteOf_sval]

/-- The accumulation wraps (44_coefcoder.md R134). -/
theorem byteOf_sval_add (a b : Byte) : byteOf (sval a + sval b) = a + b := by
  rw [byteOf_add, byteOf_sval, byteOf_sval]

/-- The wrap of the difference is undone by the wrap of the accumulation (44_coefcoder.md R135). -/
theorem dc_wrap_undone {a b : Int} (hlo : -128 ≤ b) (hhi : b ≤ 127) :
    sval (byteOf (a + sval (byteOf (b - a)))) = b := by
  rw [byteOf_add, byteOf_sval, ← byteOf_add, Int.add_comm, Int.sub_add_cancel, sval_byteOf hlo hhi]

theorem wordOf_toNat_add (w : Word) (n : Nat) : wordOf (w.toNat + n) = w + BitVec.ofNat 32 n := by
  rw [wordOf, BitVec.ofNat_add, BitVec.ofNat_toNat, BitVec.setWidth_eq]

/-! ### `CC_ENC` -/

theorem exec_ccEnc (p : Plane) (s : State) : exec (.ccEnc p) s = .next (cmdCcEnc p s).state := rfl

theorem errorEntry_sCap (s : State) :
    errorEntry (capError sCap) s = { s with err := true, errcode := .cap, errinfo := 4161600#32 } := rfl

/-- The streams of a plane with the block in `QB` appended (44_coefcoder.md R133). -/
def encodedStream (s : State) (p : Plane) : Kind → Memory
  | .dc => (s.syms.at p .dc).writeBytes (s.slen.at p .dc).toNat [s.qb.at 0 0 - s.dcp.get p]
  | .run => (s.syms.at p .run).writeBytes (s.slen.at p .run).toNat ((blockPairs s.qb).map Prod.fst)
  | .val => (s.syms.at p .val).writeBytes (s.slen.at p .val).toNat ((blockPairs s.qb).map Prod.snd)

/-- Three values for the kinds of one plane. -/
def putKinds {α : Type} (a : PerStream α) (p : Plane) (x : Kind → α) : PerStream α :=
  ((a.put p .dc (x .dc)).put p .run (x .run)).put p .val (x .val)

/-- The lengths or cursors of a plane's streams, moved by one DC symbol and `n` pairs. -/
def advanced (a : PerStream Word) (p : Plane) (n : Nat) : PerStream Word :=
  ((a.put p .dc (a.at p .dc + 1#32)).put p .run (a.at p .run + BitVec.ofNat 32 n)).put p .val
    (a.at p .val + BitVec.ofNat 32 n)

/-- What `CC_ENC p` leaves when the block fits. -/
def encodedState (p : Plane) (s : State) : State :=
  { s with
    syms := putKinds s.syms p (encodedStream s p)
    slen := advanced s.slen p (blockPairs s.qb).length
    dcp := s.dcp.set p (s.qb.at 0 0) }

theorem cmdCcEnc_of_dcOver {p : Plane} {s : State} (h : 4161600 < (s.slen.at p .dc).toNat + 1) :
    cmdCcEnc p s = raise (capError sCap) s := by
  rw [cmdCcEnc]
  exact raiseIf_of_lt h _ _ _

/-- The check of the two AC streams of `CC_ENC`. -/
def acOver (p : Plane) (s : State) : Prop :=
  4161600 < (s.slen.at p .run).toNat + (blockPairs s.qb).length ∨
    4161600 < (s.slen.at p .val).toNat + (blockPairs s.qb).length

theorem cmdCcEnc_of_acOver {p : Plane} {s : State} (hdc : (s.slen.at p .dc).toNat + 1 ≤ 4161600) (h : acOver p s) :
    cmdCcEnc p s = raise (capError sCap) s := by
  rw [cmdCcEnc]
  dsimp only
  rw [raiseIf_of_le (a := sCap) hdc, raiseIf_eq, if_pos]
  simpa only [Bool.or_eq_true, Nat.blt_eq, acOver, sCap] using h

theorem cmdCcEnc_of_fits {p : Plane} {s : State} (hdc : (s.slen.at p .dc).toNat + 1 ≤ 4161600)
    (hrun : (s.slen.at p .run).toNat + (blockPairs s.qb).length ≤ 4161600)
    (hval : (s.slen.at p .val).toNat + (blockPairs s.qb).length ≤ 4161600) :
    cmdCcEnc p s = .ok (encodedState p s) := by
  have hac : (Nat.blt sCap ((s.slen.at p .run).toNat + (blockPairs s.qb).length) ||
      Nat.blt sCap ((s.slen.at p .val).toNat + (blockPairs s.qb).length)) = false := by
    rw [Bool.or_eq_false_iff]
    exact ⟨blt_eq_false_iff.2 hrun, blt_eq_false_iff.2 hval⟩
  rw [cmdCcEnc]
  dsimp only
  rw [raiseIf_of_le (a := sCap) hdc, hac, raiseIf_false]
  simp [appendSymbols, encodedState, encodedStream, putKinds, advanced, dcSymbol, byteOf_sval_sub, wordOf_toNat_add]

/-- Settles O35: the two checks, and past them one run of bytes written behind each stream. -/
theorem ccEncAppendsTheBlock : Obligations.CcEncAppendsTheBlock := by
  refine fun s p => ⟨fun hdc => ?_, fun hdc hac => ?_, fun hdc hrun hval => ⟨encodedStream s p, ?_,
    holdsBytes_writeBytes _ _ _, holdsBytes_writeBytes _ _ _, holdsBytes_writeBytes _ _ _,
    fun a ha => Memory.read_writeBytes_of_outside ha, fun a ha => Memory.read_writeBytes_of_outside ?_,
    fun a ha => Memory.read_writeBytes_of_outside ?_⟩⟩
  · rw [exec_ccEnc, cmdCcEnc_of_dcOver hdc, Run.state_raise, errorEntry_sCap]
  · rw [exec_ccEnc, cmdCcEnc_of_acOver hdc hac, Run.state_raise, errorEntry_sCap]
  · rw [exec_ccEnc, cmdCcEnc_of_fits hdc hrun hval]
    rfl
  · rwa [List.length_map]
  · rwa [List.length_map]

/-! ### The positions of the zigzag sequence -/

theorem length_zigzag : zigzag.length = 63 := rfl

theorem zigzagAt_eq_getElem {t : Nat} (h : t < zigzag.length) : zigzagAt t = zigzag[t] :=
  List.getD_eq_getElem _ _ h

theorem zigzag_nodup : zigzag.Nodup := by decide

theorem mem_zigzag_iff (v u : Fin 8) : (v, u) ∈ zigzag ↔ ¬(v = 0 ∧ u = 0) := by
  revert v u
  decide

theorem zigzagAt_ne_dc {t : Nat} (h : t < 63) : ¬((zigzagAt t).1 = 0 ∧ (zigzagAt t).2 = 0) := by
  rw [← mem_zigzag_iff, zigzagAt_eq_getElem h]
  exact List.getElem_mem _

/-- Replacing the coefficient at a zigzag position replaces that entry of the sequence. -/
theorem acOf_put (q : Block Byte) {t : Nat} (ht : t < 63) (b : Byte) :
    acOf (q.put (zigzagAt t).1 (zigzagAt t).2 b) = (acOf q).set t b := by
  refine List.ext_getElem (by rw [List.length_set, length_acOf, length_acOf]) fun i hi _ => ?_
  rw [length_acOf] at hi
  have hinj : (zigzag[t].1 = zigzag[i].1 ∧ zigzag[t].2 = zigzag[i].2) ↔ t = i := by
    rw [← Prod.ext_iff]
    exact zigzag_nodup.getElem_inj_iff
  simp only [List.getElem_set, acOf, List.getElem_map, Block.at_put, zigzagAt_eq_getElem ht]
  exact if_congr hinj rfl rfl

/-- A block is its DC coefficient and its AC sequence. -/
theorem Block.ext_acOf {q r : Block Byte} (hdc : q.at 0 0 = r.at 0 0) (hac : acOf q = acOf r) : q = r := by
  refine Block.ext_at fun v u => ?_
  by_cases hvu : v = 0 ∧ u = 0
  · rw [hvu.1, hvu.2, hdc]
  · exact (List.map_inj_left.1 hac) (v, u) ((mem_zigzag_iff v u).2 hvu)

/-! ### The pair loop -/

/-- The block that the pairs of a list leave, placed from zigzag position `c` on. -/
def placePairs : (c : Nat) → List (Byte × Byte) → Block Byte → Block Byte
  | _, [], q => q
  | c, x :: l, q =>
    placePairs (c + x.1.toNat + 1) l (q.put (zigzagAt (c + x.1.toNat)).1 (zigzagAt (c + x.1.toNat)).2 x.2)

theorem placePairs_dc {c : Nat} {l : List (Byte × Byte)} {q : Block Byte} (h : c + (acSequence l).length ≤ 63) :
    (placePairs c l q).at 0 0 = q.at 0 0 := by
  induction l generalizing c q with
  | nil => rfl
  | cons x l ih =>
    rw [acSequence_cons, List.length_append, List.length_replicate, List.length_cons] at h
    rw [placePairs, ih (by omega), Block.at_put, if_neg (zigzagAt_ne_dc (by omega))]

/-- Setting the entry behind a run of zeros of the padding makes the run and the entry part of the sequence. -/
theorem set_in_padding (front : List Byte) {n run : Nat} (h : run < n) (b : Byte) :
    (front ++ List.replicate n 0#8).set (front.length + run) b =
      (front ++ (List.replicate run 0#8 ++ [b])) ++ List.replicate (n - (run + 1)) 0#8 := by
  obtain ⟨m, rfl⟩ : ∃ m, n = run + (m + 1) := ⟨n - run - 1, by omega⟩
  rw [show run + (m + 1) - (run + 1) = m from by omega, List.set_append_right _ _ (by omega), Nat.add_sub_cancel_left,
    List.replicate_add, List.set_append_right _ _ (by simp), List.length_replicate, Nat.sub_self, List.replicate_succ,
    List.set_cons_zero]
  simp

/-- A block filled up to position `c` is, after the pairs, filled up to where they end. -/
theorem acOf_placePairs {front : List Byte} {l : List (Byte × Byte)} {q : Block Byte}
    (hq : acOf q = front ++ List.replicate (63 - front.length) 0#8) (h : front.length + (acSequence l).length ≤ 63) :
    acOf (placePairs front.length l q) =
      front ++ acSequence l ++ List.replicate (63 - (front.length + (acSequence l).length)) 0#8 := by
  induction l generalizing front q with
  | nil => simpa [acSequence, placePairs] using hq
  | cons x l ih =>
    rw [acSequence_cons, List.length_append, List.length_replicate, List.length_cons] at h
    have hset := set_in_padding front (n := 63 - front.length) (run := x.1.toNat) (by omega) x.2
    rw [← hq, ← acOf_put q (by omega)] at hset
    have hlen : (front ++ (List.replicate x.1.toNat 0#8 ++ [x.2])).length = front.length + x.1.toNat + 1 := by
      simp [Nat.add_assoc]
    rw [placePairs, ← hlen, ih (by rw [hset, hlen]; congr 2; omega) (by omega), acSequence_cons]
    simp [Nat.add_assoc, Nat.add_comm, Nat.add_left_comm]

theorem acOf_dcBlock (dc : Byte) : acOf (dcBlock dc) = [] ++ List.replicate (63 - ([] : List Byte).length) 0#8 := by
  refine List.eq_replicate_iff.2 ⟨length_acOf _, fun b hb => ?_⟩
  obtain ⟨⟨v, u⟩, hc, rfl⟩ := List.mem_map.1 hb
  rw [dcBlock, Block.at_put, if_neg, Block.at_all]
  exact fun h => (mem_zigzag_iff v u).1 hc ⟨h.1.symm, h.2.symm⟩

theorem acOf_placePairs_dcBlock {dc : Byte} {l : List (Byte × Byte)} (h : (acSequence l).length ≤ 63) :
    acOf (placePairs 0 l (dcBlock dc)) = acSequence l ++ List.replicate (63 - (acSequence l).length) 0#8 := by
  have hplaced := acOf_placePairs (l := l) (acOf_dcBlock dc) (by simpa using h)
  simpa using hplaced

theorem dcBlock_dc (dc : Byte) : (dcBlock dc).at 0 0 = dc := by
  rw [dcBlock, Block.at_put, if_pos ⟨rfl, rfl⟩]

theorem readSymbol_of_lt {n : Nat} (h : n < 4161600) (m : Memory) : readSymbol m n = .ok (m.read n) := by
  rw [readSymbol, if_neg]
  simpa [sCap] using h

theorem readSymbol_of_ge {n : Nat} (h : 4161600 ≤ n) (m : Memory) : readSymbol m n = .error (capError sCap) := by
  rw [readSymbol, if_pos]
  simpa [sCap] using h

section
variable {src : PairSource} {r1 r2 : Nat}

theorem readPair_of_noRun (h : src.runLen ≤ r1) : readPair src r1 r2 = .error { code := .stream, info := 1 } := by
  rw [readPair, if_pos (Nat.ble_eq_true_of_le h)]

theorem readPair_of_noVal (h1 : r1 < src.runLen) (h2 : src.valLen ≤ r2) :
    readPair src r1 r2 = .error { code := .stream, info := 2 } := by
  rw [readPair, if_neg (by simpa using h1), if_pos (Nat.ble_eq_true_of_le h2)]

theorem readPair_of_capped (h1 : r1 < src.runLen) (h2 : r2 < src.valLen) (hcap : 4161600 ≤ r1 ∨ 4161600 ≤ r2) :
    readPair src r1 r2 = .error (capError sCap) := by
  rw [readPair, if_neg (by simpa using h1), if_neg (by simpa using h2)]
  rcases Nat.lt_or_ge r1 4161600 with hr | hr
  · rw [readSymbol_of_lt hr, readSymbol_of_ge (by omega)]
  · rw [readSymbol_of_ge hr]

theorem readPair_of_lt (h1 : r1 < src.runLen) (h2 : r2 < src.valLen) (hc1 : r1 < 4161600) (hc2 : r2 < 4161600) :
    readPair src r1 r2 = .ok (src.runs.read r1, src.vals.read r2) := by
  rw [readPair, if_neg (by simpa using h1), if_neg (by simpa using h2), readSymbol_of_lt hc1, readSymbol_of_lt hc2]

variable {fuel c : Nat} {q : Block Byte}

theorem pairLoop_of_error {e : Err} (h : readPair src r1 r2 = .error e) :
    pairLoop src (fuel + 1) c r1 r2 q = .error e := by
  rw [pairLoop, h]

theorem pairLoop_of_eob (h : readPair src r1 r2 = .ok (0#8, 0#8)) :
    pairLoop src (fuel + 1) c r1 r2 q = .ok (q, r1 + 1, r2 + 1) := by
  rw [pairLoop, h]
  rfl

variable {run val : Byte}

/-- A pair that leaves the 63 positions (44_coefcoder.md R134). -/
theorem pairLoop_of_leaving (h : readPair src r1 r2 = .ok (run, val)) (hne : ¬(run = 0#8 ∧ val = 0#8))
    (hc : 62 < c + run.toNat) : pairLoop src (fuel + 1) c r1 r2 q = .error { code := .zz, info := src.block } := by
  rw [pairLoop, h]
  simp [hne, hc]

theorem pairLoop_of_pair (h : readPair src r1 r2 = .ok (run, val)) (hne : ¬(run = 0#8 ∧ val = 0#8))
    (hc : c + run.toNat ≤ 62) :
    pairLoop src (fuel + 1) c r1 r2 q = pairLoop src fuel (c + run.toNat + 1) (r1 + 1) (r2 + 1)
      (q.put (zigzagAt (c + run.toNat)).1 (zigzagAt (c + run.toNat)).2 val) := by
  rw [pairLoop, h]
  simp [hne, hc]

end

theorem holdsBytes_cons {m : Memory} {a : Nat} {b : Byte} {l : List Byte} (h : holdsBytes m a (b :: l)) :
    m.read a = b ∧ holdsBytes m (a + 1) l := by
  obtain ⟨hhead, htail⟩ := holdsBytes_append (front := [b]) h
  exact ⟨hhead 0 Nat.zero_lt_one, htail⟩

/-- The pairs at the cursors can be read: they lie inside the streams and the capacity. -/
def pairsInside (src : PairSource) (r1 r2 : Nat) (l : List (Byte × Byte)) : Prop :=
  l = [] ∨ r1 + l.length ≤ src.runLen ∧ r1 + l.length ≤ 4161600 ∧ r2 + l.length ≤ src.valLen ∧ r2 + l.length ≤ 4161600

/-- The loop passes over pairs that are no EOB and stay inside the positions, placing each value. -/
theorem pairLoop_pairs {src : PairSource} {fuel c r1 r2 : Nat} {l : List (Byte × Byte)} {q : Block Byte}
    (heob : (0#8, 0#8) ∉ l) (hpositions : c + (acSequence l).length ≤ 63) (hfuel : 64 - c ≤ fuel)
    (hinside : pairsInside src r1 r2 l)
    (hruns : holdsBytes src.runs r1 (l.map Prod.fst)) (hvals : holdsBytes src.vals r2 (l.map Prod.snd)) :
    ∃ fuel', 64 - (c + (acSequence l).length) ≤ fuel' ∧ pairLoop src fuel c r1 r2 q =
      pairLoop src fuel' (c + (acSequence l).length) (r1 + l.length) (r2 + l.length) (placePairs c l q) := by
  induction l generalizing fuel c r1 r2 q with
  | nil => exact ⟨fuel, hfuel, rfl⟩
  | cons x l ih =>
    obtain ⟨run, val⟩ := x
    rw [acSequence_cons, List.length_append, List.length_replicate, List.length_cons] at hpositions ⊢
    dsimp only at hpositions ⊢
    obtain hnil | ⟨h1, hc1, h2, hc2⟩ := hinside
    · cases hnil
    rw [List.length_cons] at h1 hc1 h2 hc2
    obtain ⟨hrun, hruns⟩ := holdsBytes_cons hruns
    obtain ⟨hval, hvals⟩ := holdsBytes_cons hvals
    obtain ⟨hne, heob⟩ := List.ne_and_not_mem_of_not_mem_cons heob
    obtain ⟨fuel, rfl⟩ : ∃ f, fuel = f + 1 := ⟨fuel - 1, by omega⟩
    have hread : readPair src r1 r2 = .ok (run, val) := by
      rw [readPair_of_lt (by omega) (by omega) (by omega) (by omega), hrun, hval]
    have hpair : ¬(run = 0#8 ∧ val = 0#8) := fun h => hne (by rw [h.1, h.2])
    obtain ⟨fuel', hfuel', heq⟩ := ih (fuel := fuel) (c := c + run.toNat + 1) (r1 := r1 + 1) (r2 := r2 + 1)
      (q := q.put (zigzagAt (c + run.toNat)).1 (zigzagAt (c + run.toNat)).2 val) heob (by omega) (by omega)
      (.inr ⟨by omega, by omega, by omega, by omega⟩) hruns hvals
    refine ⟨fuel', by omega, ?_⟩
    rw [pairLoop_of_pair hread hpair (by omega), heq, placePairs, List.length_cons]
    congr 1 <;> omega

/-! ### `CC_DEC` -/

theorem exec_ccDec (p : Plane) (s : State) : exec (.ccDec p) s = .next (cmdCcDec p s).state := rfl

section
variable {p : Plane} {s : State}

theorem decodeDc_of_noSymbol (h : (s.slen.at p .dc).toNat ≤ (s.srd.at p .dc).toNat) :
    decodeDc p s = .error { code := .stream, info := 0 } := by
  rw [decodeDc]
  exact if_pos (Nat.ble_eq_true_of_le h)

theorem decodeDc_of_capped (h : (s.srd.at p .dc).toNat < (s.slen.at p .dc).toNat)
    (hcap : 4161600 ≤ (s.srd.at p .dc).toNat) : decodeDc p s = .error (capError sCap) := by
  rw [decodeDc]
  rw [if_neg (by simpa using h), readSymbol_of_ge hcap]

theorem decodeDc_of_lt (h : (s.srd.at p .dc).toNat < (s.slen.at p .dc).toNat)
    (hcap : (s.srd.at p .dc).toNat < 4161600) :
    decodeDc p s = .ok (s.dcp.get p + (s.syms.at p .dc).read (s.srd.at p .dc).toNat) := by
  rw [decodeDc]
  rw [if_neg (by simpa using h), readSymbol_of_lt hcap]
  dsimp only
  rw [byteOf_sval_add]

theorem cmdCcDec_of_dcError {e : Err} (h : decodeDc p s = .error e) : cmdCcDec p s = raise e s := by
  rw [cmdCcDec, decodeBlock, h]
  rfl

/-- The pair loop of `CC_DEC p`, once the DC coefficient is known. -/
def blockLoop (p : Plane) (s : State) (dc : Byte) : Except Err (Block Byte × Nat × Nat) :=
  pairLoop (pairSource p s) 64 0 (s.srd.at p .run).toNat (s.srd.at p .val).toNat (dcBlock dc)

theorem cmdCcDec_of_loopError {dc : Byte} {e : Err} (hdc : decodeDc p s = .ok dc)
    (h : blockLoop p s dc = .error e) : cmdCcDec p s = raise e s := by
  rw [cmdCcDec, decodeBlock, hdc]
  dsimp only
  rw [← blockLoop, h]
  rfl

theorem set_eq_puts {α : Type} (a : PerStream α) (p : Plane) (x y z : α) :
    a.set p { dc := x, run := y, val := z } = ((a.put p .dc x).put p .run y).put p .val z := by
  cases p <;> rfl

theorem cmdCcDec_of_block {dc : Byte} {q : Block Byte} {n : Nat} (hdc : decodeDc p s = .ok dc)
    (h : blockLoop p s dc = .ok (q, (s.srd.at p .run).toNat + n, (s.srd.at p .val).toNat + n)) :
    cmdCcDec p s = .ok { s with qb := q, dcp := s.dcp.set p dc, srd := advanced s.srd p n } := by
  rw [cmdCcDec, decodeBlock, hdc]
  dsimp only
  rw [← blockLoop, h, withResult_ok, set_eq_puts, wordOf_toNat_add, wordOf_toNat_add, wordOf_toNat_add]
  rfl

/-- The pairs at the read cursors of a plane. -/
structure PairsAtCursors (p : Plane) (s : State) (l : List (Byte × Byte)) : Prop where
  noEob : (0#8, 0#8) ∉ l
  positions : (acSequence l).length ≤ 63
  inside : pairsInside (pairSource p s) (s.srd.at p .run).toNat (s.srd.at p .val).toNat l
  runs : holdsBytes (s.syms.at p .run) (s.srd.at p .run).toNat (l.map Prod.fst)
  vals : holdsBytes (s.syms.at p .val) (s.srd.at p .val).toNat (l.map Prod.snd)

variable {l : List (Byte × Byte)} (hl : PairsAtCursors p s l)
include hl

/-- The loop of `CC_DEC` behind the pairs at the cursors, with a pass left. -/
theorem blockLoop_pairs (dc : Byte) :
    ∃ fuel, blockLoop p s dc = pairLoop (pairSource p s) (fuel + 1) (acSequence l).length
      ((s.srd.at p .run).toNat + l.length) ((s.srd.at p .val).toNat + l.length) (placePairs 0 l (dcBlock dc)) := by
  have hpositions : 0 + (acSequence l).length ≤ 63 := Nat.zero_add _ ▸ hl.positions
  obtain ⟨fuel, hfuel, heq⟩ := pairLoop_pairs (fuel := 64) (q := dcBlock dc) hl.noEob hpositions (by decide) hl.inside hl.runs hl.vals
  obtain ⟨fuel, rfl⟩ : ∃ f, fuel = f + 1 := ⟨fuel - 1, by omega⟩
  exact ⟨fuel, by rw [blockLoop, heq, Nat.zero_add]⟩

/-- An error of the next pass of the loop is the command's. -/
theorem cmdCcDec_of_nextError {dc : Byte} {e : Err} (hdc : decodeDc p s = .ok dc)
    (h : readPair (pairSource p s) ((s.srd.at p .run).toNat + l.length) ((s.srd.at p .val).toNat + l.length) = .error e) :
    cmdCcDec p s = raise e s := by
  obtain ⟨fuel, heq⟩ := blockLoop_pairs hl dc
  exact cmdCcDec_of_loopError hdc (heq.trans (pairLoop_of_error h))

theorem cmdCcDec_of_nextLeaves {dc run val : Byte} (hdc : decodeDc p s = .ok dc)
    (h : readPair (pairSource p s) ((s.srd.at p .run).toNat + l.length) ((s.srd.at p .val).toNat + l.length) =
      .ok (run, val))
    (hne : ¬(run = 0#8 ∧ val = 0#8)) (hleaves : 62 < (acSequence l).length + run.toNat) :
    cmdCcDec p s = raise { code := .zz, info := (s.srd.at p .dc).toNat } s := by
  obtain ⟨fuel, heq⟩ := blockLoop_pairs hl dc
  exact cmdCcDec_of_loopError hdc (heq.trans (pairLoop_of_leaving h hne hleaves))

theorem cmdCcDec_of_nextEob {dc : Byte} (hdc : decodeDc p s = .ok dc)
    (h : readPair (pairSource p s) ((s.srd.at p .run).toNat + l.length) ((s.srd.at p .val).toNat + l.length) =
      .ok (0#8, 0#8)) :
    cmdCcDec p s = .ok { s with
      qb := placePairs 0 l (dcBlock dc)
      dcp := s.dcp.set p dc
      srd := advanced s.srd p (l.length + 1) } := by
  obtain ⟨fuel, heq⟩ := blockLoop_pairs hl dc
  exact cmdCcDec_of_block hdc (heq.trans (pairLoop_of_eob h))

end

section
variable {s : State} {p : Plane} {diff : Byte} {l : List (Byte × Byte)}
  (heob : (0#8, 0#8) ∉ l) (hpositions : (acSequence l).length ≤ 63)
  (hd : (s.srd.at p .dc).toNat + 1 ≤ (s.slen.at p .dc).toNat) (hdcap : (s.srd.at p .dc).toNat + 1 ≤ 4161600)
  (hr : (s.srd.at p .run).toNat + l.length + 1 ≤ (s.slen.at p .run).toNat)
  (hrcap : (s.srd.at p .run).toNat + l.length + 1 ≤ 4161600)
  (hv : (s.srd.at p .val).toNat + l.length + 1 ≤ (s.slen.at p .val).toNat)
  (hvcap : (s.srd.at p .val).toNat + l.length + 1 ≤ 4161600)
  (hdiff : holdsBytes (s.syms.at p .dc) (s.srd.at p .dc).toNat [diff])
  (hruns : holdsBytes (s.syms.at p .run) (s.srd.at p .run).toNat (l.map Prod.fst ++ [0#8]))
  (hvals : holdsBytes (s.syms.at p .val) (s.srd.at p .val).toNat (l.map Prod.snd ++ [0#8]))
include heob hpositions hd hdcap hr hrcap hv hvcap hdiff hruns hvals

/-- 44_coefcoder.md R134: pairs that an EOB ends. -/
theorem cmdCcDec_of_pairs :
    cmdCcDec p s = .ok { s with
      qb := placePairs 0 l (dcBlock (s.dcp.get p + diff))
      dcp := s.dcp.set p (s.dcp.get p + diff)
      srd := advanced s.srd p (l.length + 1) } := by
  obtain ⟨hruns, hrunEob⟩ := holdsBytes_append hruns
  obtain ⟨hvals, hvalEob⟩ := holdsBytes_append hvals
  have hdc : decodeDc p s = .ok (s.dcp.get p + diff) := by
    rw [decodeDc_of_lt hd hdcap, (holdsBytes_cons hdiff).1]
  refine cmdCcDec_of_nextEob ⟨heob, hpositions, .inr ⟨?_, ?_, ?_, ?_⟩, hruns, hvals⟩ hdc ?_
  · exact Nat.le_of_succ_le hr
  · exact Nat.le_of_succ_le hrcap
  · exact Nat.le_of_succ_le hv
  · exact Nat.le_of_succ_le hvcap
  · have hrun : (s.syms.at p .run).read ((s.srd.at p .run).toNat + l.length) = 0#8 := by
      simpa using (holdsBytes_cons hrunEob).1
    have hval : (s.syms.at p .val).read ((s.srd.at p .val).toNat + l.length) = 0#8 := by
      simpa using (holdsBytes_cons hvalEob).1
    rw [readPair_of_lt (src := pairSource p s) hr hv hrcap hvcap]
    exact congrArg Except.ok (Prod.ext hrun hval)

end

section
variable {s : State} {p : Plane} {q : Block Byte}
  (hd : (s.srd.at p .dc).toNat + 1 ≤ (s.slen.at p .dc).toNat) (hdcap : (s.srd.at p .dc).toNat + 1 ≤ 4161600)
  (hr : (s.srd.at p .run).toNat + (blockPairs q).length ≤ (s.slen.at p .run).toNat)
  (hrcap : (s.srd.at p .run).toNat + (blockPairs q).length ≤ 4161600)
  (hv : (s.srd.at p .val).toNat + (blockPairs q).length ≤ (s.slen.at p .val).toNat)
  (hvcap : (s.srd.at p .val).toNat + (blockPairs q).length ≤ 4161600)
  (hdiff : holdsBytes (s.syms.at p .dc) (s.srd.at p .dc).toNat [q.at 0 0 - s.dcp.get p])
  (hruns : holdsBytes (s.syms.at p .run) (s.srd.at p .run).toNat ((blockPairs q).map Prod.fst))
  (hvals : holdsBytes (s.syms.at p .val) (s.srd.at p .val).toNat ((blockPairs q).map Prod.snd))
include hd hdcap hr hrcap hv hvcap hdiff hruns hvals

/-- 44_coefcoder.md R134, R135: the symbols of a block give the block. -/
theorem cmdCcDec_of_block_symbols :
    cmdCcDec p s = .ok { s with
      qb := q
      dcp := s.dcp.set p (q.at 0 0)
      srd := advanced s.srd p (blockPairs q).length } := by
  obtain ⟨hpositions, hac⟩ := acOf_eq_blockRuns q
  rw [length_blockPairs] at hr hrcap hv hvcap
  rw [blockPairs_eq, List.map_append] at hruns hvals
  have hdc : s.dcp.get p + (q.at 0 0 - s.dcp.get p) = q.at 0 0 := by
    rw [BitVec.add_comm, BitVec.sub_add_cancel]
  have hblock : placePairs 0 (blockRuns q) (dcBlock (q.at 0 0)) = q := by
    refine Block.ext_acOf ?_ ?_
    · rw [placePairs_dc (by rwa [Nat.zero_add]), dcBlock_dc]
    · rw [acOf_placePairs_dcBlock hpositions, ← hac]
  rw [cmdCcDec_of_pairs (eob_notMem_blockRuns q) hpositions hd hdcap hr hrcap hv hvcap hdiff hruns hvals, hdc, hblock,
    length_blockPairs]

end

/-- Settles O36: a block's symbols are pairs that an EOB ends, and the coefficients they stand for are the block's. -/
theorem ccDecDecodesABlock : Obligations.CcDecDecodesABlock := by
  refine ⟨fun s p q hd hdcap hr hrcap hv hvcap hdiff hruns hvals => ?_,
    fun s p diff l heob hpositions hd hdcap hr hrcap hv hvcap hdiff hruns hvals =>
      ⟨placePairs 0 l (dcBlock (s.dcp.get p + diff)), ?_, ?_, acOf_placePairs_dcBlock hpositions⟩⟩
  · rw [exec_ccDec, cmdCcDec_of_block_symbols hd hdcap hr hrcap hv hvcap hdiff hruns hvals]
    rfl
  · rw [exec_ccDec, cmdCcDec_of_pairs heob hpositions hd hdcap hr hrcap hv hvcap hdiff hruns hvals]
    rfl
  · rw [placePairs_dc (by rwa [Nat.zero_add]), dcBlock_dc]

/-! ### Encoding, then decoding -/

theorem at_putKinds {α : Type} (a : PerStream α) (p : Plane) (x : Kind → α) (k : Kind) :
    (putKinds a p x).at p k = x k := by
  cases k <;> simp [putKinds]

/-- How far a stream of a kind moves for one block. -/
def advance (n : Nat) : Kind → Nat
  | .dc => 1
  | .run | .val => n

theorem at_advanced (a : PerStream Word) (p : Plane) (n : Nat) (k : Kind) :
    (advanced a p n).at p k = a.at p k + BitVec.ofNat 32 (advance n k) := by
  cases k <;> simp [advanced, advance]

theorem toNat_at_advanced {a : PerStream Word} {p : Plane} {n : Nat} {k : Kind}
    (h : (a.at p k).toNat + advance n k ≤ 4161600) :
    ((advanced a p n).at p k).toNat = (a.at p k).toNat + advance n k := by
  rw [at_advanced, BitVec.toNat_add, BitVec.toNat_ofNat]
  omega

theorem cmdCcDec_of_encodedState {s : State} {p : Plane} {q : Block Byte}
    (hdc : (s.slen.at p .dc).toNat + 1 ≤ 4161600)
    (hrun : (s.slen.at p .run).toNat + (blockPairs s.qb).length ≤ 4161600)
    (hval : (s.slen.at p .val).toNat + (blockPairs s.qb).length ≤ 4161600) :
    cmdCcDec p { encodedState p s with qb := q, dcp := s.dcp, srd := s.slen } =
      .ok { encodedState p s with qb := s.qb, srd := (encodedState p s).slen } := by
  have hstream (k : Kind) : (encodedState p s).syms.at p k = encodedStream s p k := at_putKinds _ _ _ _
  have hdcLen := toNat_at_advanced (k := .dc) (n := (blockPairs s.qb).length) hdc
  have hrunLen := toNat_at_advanced (k := .run) hrun
  have hvalLen := toNat_at_advanced (k := .val) hval
  exact cmdCcDec_of_block_symbols (s := { encodedState p s with qb := q, dcp := s.dcp, srd := s.slen }) (q := s.qb)
    (Nat.le_of_eq hdcLen.symm) hdc (Nat.le_of_eq hrunLen.symm) hrun (Nat.le_of_eq hvalLen.symm) hval
    (hstream .dc ▸ holdsBytes_writeBytes _ _ _) (hstream .run ▸ holdsBytes_writeBytes _ _ _)
    (hstream .val ▸ holdsBytes_writeBytes _ _ _)

theorem count_eob_blockPairs (q : Block Byte) : (blockPairs q).count (0#8, 0#8) = 1 := by
  rw [blockPairs_eq, List.count_append, List.count_eq_zero.2 (eob_notMem_blockRuns q), Nat.zero_add]
  rfl

/-- Settles O37: what `CC_ENC` appended is what `CC_DEC` reads. -/
theorem coefficientCoderIsLossless : Obligations.CoefficientCoderIsLossless := by
  refine ⟨fun s t p q hdc hrun hval henc => ?_, fun a b _ _ => dc_wrap_undone, by decide, count_eob_blockPairs⟩
  rw [exec_ccEnc, cmdCcEnc_of_fits hdc hrun hval] at henc
  obtain rfl := Host.Outcome.next.inj henc
  refine ⟨?_, ?_⟩
  · rw [exec_ccDec, Run.state_ok, cmdCcDec_of_encodedState hdc hrun hval]
    rfl
  · exact (PerPlane.get_set _ _ _ _).trans (if_pos rfl)

/-! ### The errors of `CC_DEC` -/

/-- The errors `CC_DEC` can raise (44_coefcoder.md R134). -/
def ccDecError (e : Err) : Prop := e.code = .stream ∨ e.code = .zz ∨ e.code = .cap

theorem ccDecError_of_readSymbol {m : Memory} {n : Nat} {e : Err} (h : readSymbol m n = .error e) : ccDecError e := by
  rw [readSymbol] at h
  split at h
  · cases h
    exact .inr (.inr rfl)
  · cases h

theorem ccDecError_of_decodeDc {p : Plane} {s : State} {e : Err} (h : decodeDc p s = .error e) : ccDecError e := by
  simp only [decodeDc] at h
  split at h
  · cases h
    exact .inl rfl
  · split at h
    · rename_i hread
      cases h
      exact ccDecError_of_readSymbol hread
    · cases h

theorem ccDecError_of_readPair {src : PairSource} {r1 r2 : Nat} {e : Err} (h : readPair src r1 r2 = .error e) :
    ccDecError e := by
  rw [readPair] at h
  split at h
  · cases h
    exact .inl rfl
  split at h
  · cases h
    exact .inl rfl
  split at h
  · rename_i hread
    cases h
    exact ccDecError_of_readSymbol hread
  · rename_i hread
    cases h
    exact ccDecError_of_readSymbol hread
  · cases h

theorem ccDecError_of_pairLoop {src : PairSource} {fuel c r1 r2 : Nat} {q : Block Byte} {e : Err}
    (h : pairLoop src fuel c r1 r2 q = .error e) : ccDecError e := by
  induction fuel generalizing c r1 r2 q with
  | zero =>
    cases h
    exact .inr (.inl rfl)
  | succ fuel ih =>
    cases hread : readPair src r1 r2 with
    | error e' =>
      rw [pairLoop_of_error hread] at h
      cases h
      exact ccDecError_of_readPair hread
    | ok x =>
      obtain ⟨run, val⟩ := x
      by_cases heob : run = 0#8 ∧ val = 0#8
      · obtain ⟨rfl, rfl⟩ := heob
        rw [pairLoop_of_eob hread] at h
        cases h
      rcases Nat.lt_or_ge 62 (c + run.toNat) with hc | hc
      · rw [pairLoop_of_leaving hread heob hc] at h
        cases h
        exact .inr (.inl rfl)
      · rw [pairLoop_of_pair hread heob hc] at h
        exact ih h

/-- Everything `CC_DEC` can do: commit the block, the predictor and the cursors, or raise. -/
theorem cmdCcDec_cases (p : Plane) (s : State) :
    (∃ q d c, cmdCcDec p s = .ok { s with qb := q, dcp := s.dcp.set p d, srd := s.srd.set p c }) ∨
      ∃ e, cmdCcDec p s = raise e s ∧ ccDecError e := by
  cases hdc : decodeDc p s with
  | error e => exact .inr ⟨e, cmdCcDec_of_dcError hdc, ccDecError_of_decodeDc hdc⟩
  | ok dc =>
    cases hloop : blockLoop p s dc with
    | error e => exact .inr ⟨e, cmdCcDec_of_loopError hdc hloop, ccDecError_of_pairLoop hloop⟩
    | ok x =>
      refine .inl ⟨x.1, dc,
        { dc := wordOf ((s.srd.at p .dc).toNat + 1), run := wordOf x.2.1, val := wordOf x.2.2 }, ?_⟩
      rw [cmdCcDec, decodeBlock, hdc]
      dsimp only
      rw [← blockLoop, hloop]
      rfl

theorem exec_ccDec_of_raise {p : Plane} {s : State} {e : Err} (h : cmdCcDec p s = raise e s) :
    exec (.ccDec p) s = .next { s with err := true, errcode := e.code, errinfo := wordOf e.info } := by
  rw [exec_ccDec, h]
  rfl

theorem exec_ccDec_of_zz {p : Plane} {s : State}
    (h : cmdCcDec p s = raise { code := .zz, info := (s.srd.at p .dc).toNat } s) :
    exec (.ccDec p) s = .next { s with err := true, errcode := .zz, errinfo := s.srd.at p .dc } := by
  rw [exec_ccDec_of_raise h, wordOf_toNat]

/-- Settles O38: the loop passes over the pairs given, and its next pass decides the error; its first pass is the case of
no pairs. -/
theorem ccDecCommitsWholeOrNotAtAll : Obligations.CcDecCommitsWholeOrNotAtAll := by
  have nopairs (s : State) (p : Plane) : PairsAtCursors p s [] :=
    ⟨List.not_mem_nil, Nat.zero_le _, .inl rfl, fun i hi => absurd hi (Nat.not_lt_zero i),
      fun i hi => absurd hi (Nat.not_lt_zero i)⟩
  refine ⟨fun s p => ?_, fun s p => ⟨fun hd => ?_, fun hd hdcap => ⟨fun hr => ?_, fun hr hv => ?_,
    fun hr hrcap hv hvcap hrun => ?_⟩⟩, fun s p l => ⟨fun hd hdcap => ?_,
    fun hd hdcap heob hpositions hinside hruns hvals => ?_⟩⟩
  · obtain ⟨q, d, c, h⟩ | ⟨e, h, he⟩ := cmdCcDec_cases p s
    · exact ⟨_, exec_ccDec p s, .inl ⟨q, d, c, by rw [h, Run.state_ok]⟩⟩
    · exact ⟨_, exec_ccDec p s, .inr ⟨e, by rw [h, Run.state_raise], he⟩⟩
  · exact exec_ccDec_of_raise (cmdCcDec_of_dcError (decodeDc_of_noSymbol hd))
  · exact exec_ccDec_of_raise (cmdCcDec_of_nextError (nopairs s p) (decodeDc_of_lt hd hdcap) (readPair_of_noRun hr))
  · exact exec_ccDec_of_raise (cmdCcDec_of_nextError (nopairs s p) (decodeDc_of_lt hd hdcap) (readPair_of_noVal hr hv))
  · have hread := readPair_of_lt (src := pairSource p s) hr hv hrcap hvcap
    refine exec_ccDec_of_zz (cmdCcDec_of_nextLeaves (nopairs s p) (decodeDc_of_lt hd hdcap) hread ?_ ?_)
    · rintro ⟨hzero, -⟩
      have hzero' : (s.syms.at p .run).read (s.srd.at p .run).toNat = 0#8 := hzero
      rw [hzero'] at hrun
      exact absurd hrun (by decide)
    · have hrun' : 63 ≤ ((pairSource p s).runs.read (s.srd.at p .run).toNat).toNat := hrun
      have hnone : (acSequence []).length = 0 := rfl
      omega
  · exact exec_ccDec_of_raise (cmdCcDec_of_dcError (decodeDc_of_capped hd hdcap))
  · have hl : PairsAtCursors p s l := ⟨heob, hpositions, hinside, hruns, hvals⟩
    have hdc := decodeDc_of_lt hd hdcap
    refine ⟨fun hr => ?_, fun hr hv => ?_, fun hr hv hcap => ?_, fun hr hv hrcap hvcap hne hleaves => ?_⟩
    · exact exec_ccDec_of_raise (cmdCcDec_of_nextError hl hdc (readPair_of_noRun hr))
    · exact exec_ccDec_of_raise (cmdCcDec_of_nextError hl hdc (readPair_of_noVal hr hv))
    · exact exec_ccDec_of_raise (cmdCcDec_of_nextError hl hdc (readPair_of_capped hr hv hcap))
    · exact exec_ccDec_of_zz (cmdCcDec_of_nextLeaves hl hdc (readPair_of_lt hr hv hrcap hvcap) hne hleaves)

end Sys2Proof.Machine

/-! PROOFS. The length table (45_huffman.md R146 to R148, R158 (c)): pools in node order, merges, the leaves and depths of
merge trees, pools of waiting zero-count nodes, and the obligations O39, O40 and O41. -/

namespace Sys2Proof.Machine

/-! ### The order of nodes -/

theorem lowerNode_iff {x y : HufNode} :
    lowerNode x y = true ↔ x.weight < y.weight ∨ x.weight = y.weight ∧ x.id < y.id := by
  simp [lowerNode]

theorem lowerNode_trans {x y z : HufNode} (hxy : lowerNode x y = true) (hyz : lowerNode y z = true) :
    lowerNode x z = true := by
  rw [lowerNode_iff] at *
  omega

theorem lowerNode_asymm {x y : HufNode} (hxy : lowerNode x y = true) : ¬ lowerNode y x = true := by
  rw [lowerNode_iff] at *
  omega

theorem lowerNode_of_not {x y : HufNode} (hne : x.id ≠ y.id) (h : ¬ lowerNode x y = true) : lowerNode y x = true := by
  rw [lowerNode_iff] at *
  omega

/-- A pool in ascending node order. -/
def Ascending (pool : List HufNode) : Prop := pool.Pairwise fun x y => lowerNode x y = true

theorem addNode_perm (x : HufNode) (pool : List HufNode) : (addNode x pool).Perm (x :: pool) := by
  induction pool with
  | nil => exact .refl _
  | cons y pool ih =>
    rw [addNode]
    split
    · exact .refl _
    · exact (ih.cons y).trans (.swap x y pool)

theorem addNode_ascending {x : HufNode} {pool : List HufNode} (hx : ∀ y ∈ pool, x.id ≠ y.id) (hpool : Ascending pool) :
    Ascending (addNode x pool) := by
  induction pool with
  | nil => exact List.pairwise_singleton _ _
  | cons y pool ih =>
    obtain ⟨hy, hpool'⟩ := List.pairwise_cons.1 hpool
    obtain ⟨hxy, hxpool⟩ := List.forall_mem_cons.1 hx
    rw [addNode]
    split
    case isTrue hlower =>
      exact hpool.cons (List.forall_mem_cons.2 ⟨hlower, fun z hz => lowerNode_trans hlower (hy z hz)⟩)
    case isFalse hlower =>
      refine (ih hxpool hpool').cons fun z hz => ?_
      obtain rfl | hz := List.mem_cons.1 ((addNode_perm x pool).mem_iff.1 hz)
      · exact lowerNode_of_not hxy hlower
      · exact hy z hz

/-! ### The pool of leaves -/

/-- The leaf of a symbol, with its count (45_huffman.md R146). -/
def leafNode (seq : List Byte) (s : Nat) : HufNode :=
  { weight := seq.count (BitVec.ofNat 8 s), id := s, tree := .leaf s }

theorem leafPool_eq (seq : List Byte) :
    leafPool seq = (List.range 256).foldr (fun s pool => addNode (leafNode seq s) pool) [] := rfl

theorem foldr_addNode_perm (seq : List Byte) (l : List Nat) :
    (l.foldr (fun s pool => addNode (leafNode seq s) pool) []).Perm (l.map (leafNode seq)) := by
  induction l with
  | nil => exact .refl _
  | cons s l ih => exact (addNode_perm _ _).trans (ih.cons _)

theorem foldr_addNode_ascending (seq : List Byte) {l : List Nat} (hl : l.Nodup) :
    Ascending (l.foldr (fun s pool => addNode (leafNode seq s) pool) []) := by
  induction l with
  | nil => exact .nil
  | cons s l ih =>
    obtain ⟨hs, hl⟩ := List.nodup_cons.1 hl
    refine addNode_ascending (fun y hy heq => hs ?_) (ih hl)
    obtain ⟨r, hr, rfl⟩ := List.mem_map.1 ((foldr_addNode_perm seq l).mem_iff.1 hy)
    exact (show s = r from heq) ▸ hr

theorem leafPool_perm (seq : List Byte) : (leafPool seq).Perm ((List.range 256).map (leafNode seq)) :=
  foldr_addNode_perm seq _

theorem leafPool_ascending (seq : List Byte) : Ascending (leafPool seq) :=
  foldr_addNode_ascending seq List.nodup_range

/-- An ascending arrangement of the leaves is the pool the builder starts from. -/
theorem leafPool_eq_of_ascending {seq : List Byte} {l : List Nat} (hl : l.Perm (List.range 256))
    (hascending : Ascending (l.map (leafNode seq))) : leafPool seq = l.map (leafNode seq) :=
  ((leafPool_perm seq).trans (hl.map _).symm).eq_of_pairwise
    (fun _ _ _ _ hxy hyx => absurd hyx (lowerNode_asymm hxy)) (leafPool_ascending seq) hascending

/-! ### Merges -/

/-- The parent of the two lowest nodes in merge `t` (45_huffman.md R147). -/
def parentNode (t : Nat) (a b : HufNode) : HufNode :=
  { weight := a.weight + b.weight, id := 256 + t, tree := .node a.tree b.tree }

theorem mergeNodes_cons (t : Nat) (a b : HufNode) (rest : List HufNode) :
    mergeNodes t (a :: b :: rest) = addNode (parentNode t a b) rest := rfl

theorem mergeFrom_succ (count t : Nat) (pool : List HufNode) :
    mergeFrom (count + 1) t pool = mergeFrom count (t + 1) (mergeNodes t pool) := rfl

theorem mergeFrom_add (m n t : Nat) (pool : List HufNode) :
    mergeFrom (m + n) t pool = mergeFrom n (t + m) (mergeFrom m t pool) := by
  induction m generalizing t pool with
  | zero => rw [Nat.zero_add, Nat.add_zero, mergeFrom]
  | succ m ih => rw [Nat.succ_add, mergeFrom_succ, ih, mergeFrom_succ, Nat.succ_add_eq_add_succ]

/-- 45_huffman.md R147: a merge takes the two lowest nodes and keeps the order. -/
theorem mergeNodes_takes_lowest {t : Nat} {pool : List HufNode} (hpool : Ascending pool) (hlen : 2 ≤ pool.length)
    (hfresh : ∀ x ∈ pool, x.id ≠ 256 + t) :
    ∃ a b rest, pool.Perm (a :: b :: rest) ∧ (∀ x ∈ b :: rest, lowerNode a x = true) ∧
      (∀ x ∈ rest, lowerNode b x = true) ∧ (mergeNodes t pool).Perm (parentNode t a b :: rest) ∧
      Ascending (mergeNodes t pool) := by
  match pool, hlen with
  | a :: b :: rest, _ =>
    obtain ⟨ha, htail⟩ := List.pairwise_cons.1 hpool
    obtain ⟨hb, hrest⟩ := List.pairwise_cons.1 htail
    refine ⟨a, b, rest, .refl _, ha, hb, addNode_perm _ _, addNode_ascending (fun x hx heq => ?_) hrest⟩
    exact hfresh x (List.mem_cons_of_mem _ (List.mem_cons_of_mem _ hx)) heq.symm

theorem length_mergeNodes (t : Nat) (pool : List HufNode) (hlen : 2 ≤ pool.length) :
    (mergeNodes t pool).length + 1 = pool.length := by
  match pool, hlen with
  | a :: b :: rest, _ => rw [mergeNodes_cons, (addNode_perm _ _).length_eq, List.length_cons, List.length_cons,
      List.length_cons]

theorem length_mergeFrom {count t : Nat} {pool : List HufNode} (hlen : pool.length = count + 1) :
    (mergeFrom count t pool).length = 1 := by
  induction count generalizing t pool with
  | zero => exact hlen
  | succ count ih =>
    have hmerged := length_mergeNodes t pool (by omega)
    exact ih (by omega)

/-! ### The leaves of a merge tree and their depths -/

/-- The symbols at the leaves of a tree. -/
def leaves : HufTree → List Nat
  | .leaf s => [s]
  | .node a b => leaves a ++ leaves b

theorem map_fst_leafDepths (t : HufTree) (d : Nat) : (leafDepths t d).map Prod.fst = leaves t := by
  induction t generalizing d with
  | leaf s => rfl
  | node a b iha ihb => rw [leafDepths, List.map_append, iha, ihb, leaves]

theorem length_leaves_pos (t : HufTree) : 0 < (leaves t).length := by
  induction t with
  | leaf s => exact Nat.zero_lt_one
  | node a b iha ihb => rw [leaves, List.length_append]; omega

/-- A leaf is at most as deep as there are other leaves. -/
theorem leafDepth_bounds {t : HufTree} {d : Nat} {x : Nat × Nat} (hx : x ∈ leafDepths t d) :
    d ≤ x.2 ∧ x.2 < d + (leaves t).length := by
  induction t generalizing d with
  | leaf s =>
    obtain rfl := List.mem_singleton.1 hx
    exact ⟨le_refl d, Nat.lt_succ_self d⟩
  | node a b iha ihb =>
    have hla := length_leaves_pos a
    have hlb := length_leaves_pos b
    rw [leaves, List.length_append]
    rcases List.mem_append.1 hx with hx | hx
    · have := iha hx; omega
    · have := ihb hx; omega

/-- The leaves below a node at depth `d` share out the `2^(n − d)` of it. -/
theorem sum_leafDepths {t : HufTree} {d n : Nat} (h : d + (leaves t).length ≤ n + 1) :
    ((leafDepths t d).map fun x => 2 ^ (n - x.2)).sum = 2 ^ (n - d) := by
  induction t generalizing d with
  | leaf s => simp [leafDepths]
  | node a b iha ihb =>
    have hla := length_leaves_pos a
    have hlb := length_leaves_pos b
    rw [leaves, List.length_append] at h
    rw [leafDepths, List.map_append, List.sum_append, iha (by omega), ihb (by omega), ← Nat.two_mul, ← Nat.pow_succ']
    congr 1
    omega

/-- The symbols at all leaves of a pool. -/
def poolLeaves (pool : List HufNode) : List Nat := pool.flatMap fun y => leaves y.tree

theorem poolLeaves_perm {p q : List HufNode} (h : p.Perm q) : (poolLeaves p).Perm (poolLeaves q) :=
  h.flatMap_right _

theorem poolLeaves_mergeNodes (t : Nat) (pool : List HufNode) : (poolLeaves (mergeNodes t pool)).Perm (poolLeaves pool) := by
  match pool with
  | [] | [a] => exact .refl _
  | a :: b :: rest =>
    rw [mergeNodes_cons]
    refine (poolLeaves_perm (addNode_perm _ _)).trans (.of_eq ?_)
    simp [poolLeaves, parentNode, leaves]

theorem poolLeaves_mergeFrom (count t : Nat) (pool : List HufNode) :
    (poolLeaves (mergeFrom count t pool)).Perm (poolLeaves pool) := by
  induction count generalizing t pool with
  | zero => exact .refl _
  | succ count ih => exact (ih _ _).trans (poolLeaves_mergeNodes t pool)

theorem poolLeaves_leafPool (seq : List Byte) : (poolLeaves (leafPool seq)).Perm (List.range 256) := by
  refine (poolLeaves_perm (leafPool_perm seq)).trans (.of_eq ?_)
  simp [poolLeaves, leafNode, leaves, List.flatMap_map]

theorem exists_root (seq : List Byte) :
    ∃ root, mergeFrom 255 0 (leafPool seq) = [root] ∧ (leaves root.tree).Perm (List.range 256) := by
  have hlen : (leafPool seq).length = 255 + 1 := by
    rw [(leafPool_perm seq).length_eq, List.length_map, List.length_range]
  obtain ⟨root, hroot⟩ := List.length_eq_one_iff.1 (length_mergeFrom (t := 0) hlen)
  have hleaves := (poolLeaves_mergeFrom 255 0 (leafPool seq)).trans (poolLeaves_leafPool seq)
  rw [hroot] at hleaves
  exact ⟨root, hroot, by simpa [poolLeaves] using hleaves⟩

/-! ### The lengths -/

theorem lookup_of_mem {l : List (Nat × Nat)} (hl : (l.map Prod.fst).Nodup) {x : Nat × Nat} (hx : x ∈ l) :
    l.lookup x.1 = some x.2 := by
  induction l with
  | nil => simp at hx
  | cons y l ih =>
    obtain ⟨hy, hl⟩ := List.nodup_cons.1 hl
    obtain rfl | hx := List.mem_cons.1 hx
    · exact List.lookup_cons_self
    · have hne : x.1 ≠ y.1 := fun heq => hy (heq ▸ List.mem_map_of_mem hx)
      rw [List.lookup_cons, beq_false_of_ne hne]
      exact ih hl hx

/-- What the builder ends with: one tree over all symbols, whose leaves' depths are the lengths (45_huffman.md R147). -/
structure BuiltTree (seq : List Byte) (root : HufNode) : Prop where
  merged : mergeFrom 255 0 (leafPool seq) = [root]
  symbols : (leaves root.tree).Perm (List.range 256)

section
variable {seq : List Byte} {root : HufNode} (h : BuiltTree seq root)
include h

theorem BuiltTree.hufDepths_eq : hufDepths seq = leafDepths root.tree 0 := by
  unfold hufDepths
  rw [h.merged]

theorem BuiltTree.length_leaves : (leaves root.tree).length = 256 := by
  rw [h.symbols.length_eq, List.length_range]

theorem BuiltTree.nodup : ((leafDepths root.tree 0).map Prod.fst).Nodup := by
  rw [map_fst_leafDepths]
  exact h.symbols.nodup_iff.2 List.nodup_range

theorem BuiltTree.depth_bounds {x : Nat × Nat} (hx : x ∈ leafDepths root.tree 0) : 1 ≤ x.2 ∧ x.2 ≤ 255 := by
  have hlen := h.length_leaves
  cases htree : root.tree with
  | leaf s => rw [htree] at hlen; cases hlen
  | node a b =>
    have hbounds := leafDepth_bounds hx
    rw [htree, leafDepths] at hx
    refine ⟨?_, by omega⟩
    rcases List.mem_append.1 hx with hx | hx
    · exact (leafDepth_bounds hx).1
    · exact (leafDepth_bounds hx).1

theorem BuiltTree.exists_depth {s : Nat} (hs : s < 256) : ∃ d, (s, d) ∈ leafDepths root.tree 0 := by
  have hmem : s ∈ leaves root.tree := h.symbols.mem_iff.2 (List.mem_range.2 hs)
  rw [← map_fst_leafDepths root.tree 0] at hmem
  obtain ⟨x, hx, rfl⟩ := List.mem_map.1 hmem
  exact ⟨x.2, hx⟩

theorem BuiltTree.builtLengths_eq {x : Nat × Nat} (hx : x ∈ leafDepths root.tree 0) :
    builtLengths seq x.1 = x.2 := by
  have hs : x.1 < 256 := by
    have hmem := List.mem_map_of_mem (f := Prod.fst) hx
    rw [map_fst_leafDepths, h.symbols.mem_iff, List.mem_range] at hmem
    exact hmem
  have hentry : (huflen seq).getD x.1 0#8 = BitVec.ofNat 8 x.2 := by
    rw [huflen, h.hufDepths_eq, List.getD_eq_getElem?_getD, List.getElem?_map, List.getElem?_range hs, Option.map_some,
      Option.getD_some, lookup_of_mem h.nodup hx, Option.getD_some]
  have hbounds := h.depth_bounds hx
  rw [builtLengths, hentry, BitVec.toNat_ofNat]
  omega

theorem BuiltTree.lookup_eq {s : Nat} (hs : s < 256) :
    (leafDepths root.tree 0).lookup s = some (builtLengths seq s) := by
  obtain ⟨d, hd⟩ := h.exists_depth hs
  rw [lookup_of_mem h.nodup hd, h.builtLengths_eq hd]

theorem BuiltTree.builtLengths_bounds {s : Nat} (hs : s < 256) : 1 ≤ builtLengths seq s ∧ builtLengths seq s ≤ 255 := by
  obtain ⟨d, hd⟩ := h.exists_depth hs
  have heq : builtLengths seq s = d := h.builtLengths_eq hd
  rw [heq]
  exact h.depth_bounds hd

/-- 45_huffman.md R147: the code is complete. -/
theorem BuiltTree.kraftSum_eq : kraftSum (builtLengths seq) = 2 ^ 255 := by
  have hdepths : (leafDepths root.tree 0).map (fun x => 2 ^ (255 - x.2)) =
      (leaves root.tree).map fun s => 2 ^ (255 - builtLengths seq s) := by
    rw [← map_fst_leafDepths root.tree 0, List.map_map]
    exact List.map_congr_left fun x hx => by rw [Function.comp_apply, h.builtLengths_eq hx]
  have hcoded : ∀ s ∈ List.range 256,
      (if builtLengths seq s = 0 then 0 else 2 ^ (255 - builtLengths seq s)) = 2 ^ (255 - builtLengths seq s) := by
    intro s hs
    have hpos := (h.builtLengths_bounds (List.mem_range.1 hs)).1
    exact if_neg (Nat.ne_of_gt hpos)
  calc kraftSum (builtLengths seq) = ((List.range 256).map fun s => 2 ^ (255 - builtLengths seq s)).sum := by
        rw [kraftSum, List.map_congr_left hcoded]
    _ = ((leafDepths root.tree 0).map fun x => 2 ^ (255 - x.2)).sum := by
        rw [hdepths, (h.symbols.map _).sum_eq]
    _ = 2 ^ 255 := by
        rw [sum_leafDepths (Nat.le_of_eq ((Nat.zero_add _).trans h.length_leaves)), Nat.sub_zero]

end

theorem exists_builtTree (seq : List Byte) : ∃ root, BuiltTree seq root := by
  obtain ⟨root, hmerged, hsymbols⟩ := exists_root seq
  exact ⟨root, hmerged, hsymbols⟩

theorem length_huflen (seq : List Byte) : (huflen seq).length = 256 := by
  rw [huflen, List.length_map, List.length_range]

/-- Settles O39: the pool stays in order, its leaves are always all the symbols, and below the last node they share out
the code space. -/
theorem builtLengthsAreComplete : Obligations.BuiltLengthsAreComplete := by
  intro seq
  obtain ⟨root, h⟩ := exists_builtTree seq
  exact ⟨length_huflen seq, fun s => h.builtLengths_bounds, h.kraftSum_eq, leafPool_ascending seq, leafPool_perm seq,
    ⟨root, h.merged, fun s => h.lookup_eq⟩, fun _ _ => lowerNode_iff, mergeFrom_succ,
    fun t pool => mergeNodes_takes_lowest⟩

/-! ### Zero-count nodes wait in line -/

/-- Nodes of weight 0 that stand before merge `t`: each has an identity below the next parent's. -/
def Waiting (t : Nat) (pool : List HufNode) : Prop := ∀ y ∈ pool, y.weight = 0 ∧ y.id < 256 + t

/-- Nodes that have a count. -/
def Counted (pool : List HufNode) : Prop := ∀ y ∈ pool, 0 < y.weight

theorem Waiting.append {t : Nat} {p q : List HufNode} (hp : Waiting t p) (hq : Waiting t q) : Waiting t (p ++ q) :=
  fun y hy => (List.mem_append.1 hy).elim (hp y) (hq y)

theorem Waiting.mono {t t' : Nat} {p : List HufNode} (h : Waiting t p) (ht : t ≤ t') : Waiting t' p :=
  fun y hy => ⟨(h y hy).1, Nat.lt_of_lt_of_le (h y hy).2 (Nat.add_le_add_left ht 256)⟩

/-- A parent of weight 0 joins the line behind the waiting nodes, before those that have a count. -/
theorem addNode_behind_waiting {t : Nat} {x : HufNode} {line heavy : List HufNode} (hx : x.weight = 0)
    (hid : x.id = 256 + t) (hline : Waiting t line) (hheavy : Counted heavy) :
    addNode x (line ++ heavy) = line ++ (x :: heavy) := by
  induction line with
  | nil =>
    cases heavy with
    | nil => rfl
    | cons y heavy =>
      have hy := hheavy y List.mem_cons_self
      have hlower : lowerNode x y = true := lowerNode_iff.2 (.inl (by omega))
      exact if_pos hlower
  | cons y line ih =>
    obtain ⟨hy, hline⟩ := List.forall_mem_cons.1 hline
    have hlower : ¬ lowerNode x y = true := by rw [lowerNode_iff]; omega
    rw [List.cons_append, addNode, if_neg hlower, ih hline, List.cons_append]

/-- One round: the merges pair up the front of the line, and the pairs join its end. -/
theorem mergeFrom_round {P Q : HufTree → Prop} (hPQ : ∀ a b, P a → P b → Q (.node a b)) {heavy : List HufNode}
    (hheavy : Counted heavy) {k t : Nat} {front back : List HufNode} (hlen : front.length = 2 * k)
    (hfront : Waiting t front) (hback : Waiting t back) (hP : ∀ y ∈ front, P y.tree) :
    ∃ pairs : List HufNode, pairs.length = k ∧ mergeFrom k t (front ++ back ++ heavy) = back ++ pairs ++ heavy ∧
      Waiting (t + k) (back ++ pairs) ∧ ∀ y ∈ pairs, Q y.tree := by
  induction k generalizing t front back with
  | zero =>
    obtain rfl := List.length_eq_zero_iff.1 hlen
    exact ⟨[], rfl, by simp [mergeFrom], by simpa using hback, by simp⟩
  | succ k ih =>
    match front, hlen with
    | a :: b :: front, hlen =>
      obtain ⟨ha, hfront⟩ := List.forall_mem_cons.1 hfront
      obtain ⟨hb, hfront⟩ := List.forall_mem_cons.1 hfront
      obtain ⟨hPa, hP⟩ := List.forall_mem_cons.1 hP
      obtain ⟨hPb, hP⟩ := List.forall_mem_cons.1 hP
      have hweight : (parentNode t a b).weight = 0 := by rw [parentNode, ha.1, hb.1]
      have hjoin : mergeNodes t (a :: b :: front ++ back ++ heavy) =
          front ++ (back ++ [parentNode t a b]) ++ heavy := by
        rw [List.cons_append, List.cons_append, List.cons_append, List.cons_append, mergeNodes_cons,
          addNode_behind_waiting hweight rfl (Waiting.append hfront hback) hheavy]
        simp
      have hparent : Waiting (t + 1) [parentNode t a b] :=
        List.forall_mem_singleton.2 ⟨hweight, Nat.lt_succ_self (256 + t)⟩
      obtain ⟨pairs, hpairs, hmerge, hwaiting, hQ⟩ := ih (t := t + 1) (front := front)
        (back := back ++ [parentNode t a b]) (by simp only [List.length_cons] at hlen; omega)
        (Waiting.mono hfront t.le_succ) (Waiting.append (Waiting.mono hback t.le_succ) hparent) hP
      refine ⟨parentNode t a b :: pairs, by rw [List.length_cons, hpairs], ?_, ?_,
        List.forall_mem_cons.2 ⟨hPQ _ _ hPa hPb, hQ⟩⟩
      · rw [mergeFrom_succ, hjoin, hmerge]
        simp
      · rw [show t + (k + 1) = t + 1 + k from by omega]
        simpa using hwaiting

/-- Every leaf of a tree is `h` levels below its root, and one more where the symbol is marked. -/
def Levelled (mark : Nat → Bool) (h : Nat) (tree : HufTree) : Prop :=
  ∀ d, ∀ x ∈ leafDepths tree d, x.2 = d + h + bit (mark x.1)

theorem Levelled.node {mark : Nat → Bool} {h : Nat} {a b : HufTree} (ha : Levelled mark h a) (hb : Levelled mark h b) :
    Levelled mark (h + 1) (.node a b) := by
  intro d x hx
  rcases List.mem_append.1 hx with hx | hx
  · have := ha (d + 1) x hx; omega
  · have := hb (d + 1) x hx; omega

/-- Rounds that pair up `2 ^ m` trees of one height leave one tree, `m` levels higher. -/
theorem mergeFrom_doubling {mark : Nat → Bool} {heavy : List HufNode} (hheavy : Counted heavy) {m h t : Nat}
    {line : List HufNode} (hlen : line.length = 2 ^ m) (hline : Waiting t line)
    (hlevel : ∀ y ∈ line, Levelled mark h y.tree) :
    ∃ z, mergeFrom (2 ^ m - 1) t (line ++ heavy) = z :: heavy ∧ z.weight = 0 ∧ Levelled mark (h + m) z.tree := by
  induction m generalizing h t line with
  | zero =>
    obtain ⟨z, rfl⟩ := List.length_eq_one_iff.1 hlen
    exact ⟨z, rfl, (hline z List.mem_cons_self).1, hlevel z List.mem_cons_self⟩
  | succ m ih =>
    obtain ⟨pairs, hpairs, hmerge, hwaiting, hlevel'⟩ := mergeFrom_round (P := Levelled mark h)
      (Q := Levelled mark (h + 1)) (fun _ _ => Levelled.node) hheavy (k := 2 ^ m) (back := []) (by rw [hlen, Nat.pow_succ']) hline
      (by simp [Waiting]) hlevel
    obtain ⟨z, hz, hweight, hzlevel⟩ := ih hpairs (by simpa using hwaiting) hlevel'
    have hpos : 0 < 2 ^ m := Nat.two_pow_pos m
    refine ⟨z, ?_, hweight, by rwa [Nat.add_assoc, Nat.add_comm 1 m] at hzlevel⟩
    rw [show 2 ^ (m + 1) - 1 = 2 ^ m + (2 ^ m - 1) from by rw [Nat.pow_succ']; omega, mergeFrom_add]
    simp only [List.append_nil, List.nil_append] at hmerge
    rw [hmerge, hz]

/-- The leaves of between 128 and 256 symbols without a count become one tree: the marked ones, which the first round pairs
up, 8 levels below its root, the others 7. -/
theorem mergeFrom_zeros {seq : List Byte} {mark : Nat → Bool} {heavy : List HufNode} (hheavy : Counted heavy) {k : Nat}
    {front back : List Nat} (hfront : front.length = 2 * k) (hlen : back.length + k = 128)
    (hsmall : ∀ s ∈ front ++ back, s < 256) (hzero : ∀ s ∈ front ++ back, (leafNode seq s).weight = 0)
    (hmark : ∀ s ∈ front, mark s = true) (hunmarked : ∀ s ∈ back, mark s = false) :
    ∃ z, mergeFrom (k + 127) 0 ((front ++ back).map (leafNode seq) ++ heavy) = z :: heavy ∧ z.weight = 0 ∧
      Levelled mark 7 z.tree := by
  have hwaiting : Waiting 0 ((front ++ back).map (leafNode seq)) := by
    intro y hy
    obtain ⟨s, hs, rfl⟩ := List.mem_map.1 hy
    exact ⟨hzero s hs, hsmall s hs⟩
  rw [List.map_append] at hwaiting ⊢
  have hfrontWaiting : Waiting 0 (front.map (leafNode seq)) := fun y hy => hwaiting y (List.mem_append_left _ hy)
  have hbackWaiting : Waiting 0 (back.map (leafNode seq)) := fun y hy => hwaiting y (List.mem_append_right _ hy)
  have hpair : ∀ a b : HufTree, (∃ s ∈ front, a = .leaf s) → (∃ s ∈ front, b = .leaf s) →
      Levelled mark 0 (.node a b) := by
    rintro _ _ ⟨r, hr, rfl⟩ ⟨s, hs, rfl⟩ d x hx
    rcases List.mem_pair.1 hx with rfl | rfl
    · simp [hmark r hr, bit]
    · simp [hmark s hs, bit]
  have hleaf : ∀ y ∈ front.map (leafNode seq), ∃ s ∈ front, y.tree = .leaf s := by
    intro y hy
    obtain ⟨s, hs, rfl⟩ := List.mem_map.1 hy
    exact ⟨s, hs, rfl⟩
  obtain ⟨pairs, hpairs, hmerge, hline, hlevel⟩ := mergeFrom_round hpair hheavy
    (by rwa [List.length_map]) hfrontWaiting hbackWaiting hleaf
  have hback : ∀ y ∈ back.map (leafNode seq), Levelled mark 0 y.tree := by
    intro y hy d x hx
    obtain ⟨s, hs, rfl⟩ := List.mem_map.1 hy
    obtain rfl := List.mem_singleton.1 hx
    simp [hunmarked s hs, bit]
  obtain ⟨z, hz, hweight, hzlevel⟩ := mergeFrom_doubling (mark := mark) (m := 7) (h := 0) hheavy
    (by rw [List.length_append, List.length_map, hpairs, hlen]; rfl) hline
    fun y hy => (List.mem_append.1 hy).elim (hback y) (hlevel y)
  exact ⟨z, by rw [mergeFrom_add, hmerge]; exact hz, hweight, hzlevel⟩

/-! ### The rules' corner cases -/

/-- The leaves of symbols without a count, in the order of the symbols, then those that have one. -/
theorem leafPool_eq_zeros_heavy {seq : List Byte} {zeros heavy : List Nat} (hperm : (zeros ++ heavy).Perm (List.range 256))
    (hzeros : zeros.Pairwise (· < ·)) (hzero : ∀ s ∈ zeros, (leafNode seq s).weight = 0)
    (hcounted : Counted (heavy.map (leafNode seq))) (hheavy : Ascending (heavy.map (leafNode seq))) :
    leafPool seq = zeros.map (leafNode seq) ++ heavy.map (leafNode seq) := by
  rw [← List.map_append]
  refine leafPool_eq_of_ascending hperm ?_
  rw [List.map_append, Ascending, List.pairwise_append]
  refine ⟨List.pairwise_map.2 (hzeros.imp_of_mem fun hr hs hlt => ?_), hheavy, fun x hx y hy => ?_⟩
  · exact lowerNode_iff.2 (.inr ⟨by rw [hzero _ hr, hzero _ hs], hlt⟩)
  · obtain ⟨s, hs, rfl⟩ := List.mem_map.1 hx
    have hy := hcounted y hy
    exact lowerNode_iff.2 (.inl (by rw [hzero s hs]; exact hy))

/-- The symbols that are not in a list. -/
def otherSymbols (rest : List Nat) : List Nat := (List.range 256).filter fun s => !rest.contains s

theorem mem_otherSymbols {rest : List Nat} {s : Nat} : s ∈ otherSymbols rest ↔ s < 256 ∧ s ∉ rest := by
  simp [otherSymbols]

theorem otherSymbols_append_perm {rest : List Nat} (hnodup : rest.Nodup) (hsmall : ∀ s ∈ rest, s < 256) :
    (otherSymbols rest ++ rest).Perm (List.range 256) := by
  have hothers : (otherSymbols rest).Nodup := List.nodup_range.filter _
  refine (List.perm_ext_iff_of_nodup ?_ List.nodup_range).2 fun s => ?_
  · exact hothers.append hnodup fun s hs hrest => (mem_otherSymbols.1 hs).2 hrest
  · rw [List.mem_append, mem_otherSymbols, List.mem_range]
    by_cases hs : s ∈ rest
    · simp [hs, hsmall s hs]
    · simp [hs]

/-- A sequence of as many distinct symbols as `back` names: once all symbols without a count are one tree, those in `back`
are 7 levels below its root and the others 8. -/
theorem mergeFrom_leafPool {seq : List Byte} {back heavy : List Nat} (hnodup : (back ++ heavy).Nodup)
    (hsmall : ∀ s ∈ back ++ heavy, s < 256) (hlen : back.length = heavy.length) (hfew : heavy.length ≤ 128)
    (hlast : ∀ s, s < 256 → s ∉ back ++ heavy → ∀ b ∈ back, s < b) (hback : back.Pairwise (· < ·))
    (hzero : ∀ s, s < 256 → s ∉ heavy → (leafNode seq s).weight = 0)
    (hcounted : Counted (heavy.map (leafNode seq))) (hheavy : Ascending (heavy.map (leafNode seq))) :
    ∃ z, mergeFrom (255 - heavy.length) 0 (leafPool seq) = z :: heavy.map (leafNode seq) ∧ z.weight = 0 ∧
      Levelled (fun s => !back.contains s) 7 z.tree := by
  have hperm := otherSymbols_append_perm hnodup hsmall
  have hfront : (otherSymbols (back ++ heavy)).length = 2 * (128 - heavy.length) := by
    have hall := hperm.length_eq
    rw [List.length_append, List.length_append, List.length_range] at hall
    omega
  have hzeros : ∀ s ∈ otherSymbols (back ++ heavy) ++ back, s < 256 ∧ s ∉ heavy := by
    intro s hs
    rcases List.mem_append.1 hs with hs | hs
    · obtain ⟨hlt, hrest⟩ := mem_otherSymbols.1 hs
      exact ⟨hlt, fun h => hrest (List.mem_append_right _ h)⟩
    · exact ⟨hsmall s (List.mem_append_left _ hs), fun h => (List.disjoint_of_nodup_append hnodup) hs h⟩
  have hascending : (otherSymbols (back ++ heavy) ++ back).Pairwise (· < ·) := by
    rw [List.pairwise_append]
    refine ⟨List.pairwise_lt_range.filter _, hback, fun s hs b hb => ?_⟩
    obtain ⟨hlt, hrest⟩ := mem_otherSymbols.1 hs
    exact hlast s hlt hrest b hb
  have hweight : ∀ s ∈ otherSymbols (back ++ heavy) ++ back, (leafNode seq s).weight = 0 := fun s hs =>
    hzero s (hzeros s hs).1 (hzeros s hs).2
  have hpool := leafPool_eq_zeros_heavy ((List.append_assoc _ _ _).symm ▸ hperm) hascending hweight hcounted hheavy
  rw [hpool, show 255 - heavy.length = 128 - heavy.length + 127 from by omega]
  refine mergeFrom_zeros hcounted hfront (by omega) (fun s hs => (hzeros s hs).1) hweight (fun s hs => ?_)
    fun s hs => ?_
  · obtain ⟨-, hrest⟩ := mem_otherSymbols.1 hs
    simpa using fun h => hrest (List.mem_append_left _ h)
  · simpa using hs

/-- The length of a symbol whose leaf stands in one part of the built tree, but not in the other. -/
theorem BuiltTree.length_of_levelled {seq : List Byte} {root : HufNode} (h : BuiltTree seq root) {mark : Nat → Bool}
    {z : HufTree} {d s : Nat} {others : List (Nat × Nat)} (hz : Levelled mark 7 z)
    (hroot : leafDepths root.tree 0 = leafDepths z d ++ others) (hs : s < 256) (hothers : ∀ x ∈ others, x.1 ≠ s) :
    builtLengths seq s = d + 7 + bit (mark s) := by
  obtain ⟨n, hn⟩ := h.exists_depth hs
  have heq : builtLengths seq s = n := h.builtLengths_eq hn
  rw [hroot] at hn
  rcases List.mem_append.1 hn with hn | hn
  · rw [heq]
    exact hz d _ hn
  · exact absurd rfl (hothers _ hn)

theorem builtLengths_nil {s : Nat} (hs : s < 256) : builtLengths [] s = 8 := by
  obtain ⟨root, h⟩ := exists_builtTree []
  obtain ⟨z, hmerge, -, hlevel⟩ := mergeFrom_leafPool (seq := []) (back := []) (heavy := []) .nil (by simp) rfl (by decide)
    (by simp) .nil (fun _ _ _ => rfl) (by simp [Counted]) .nil
  obtain rfl : z = root := by
    have hmerged := hmerge.symm.trans h.merged
    simpa using hmerged
  exact h.length_of_levelled hlevel (d := 0) (others := []) (by simp) hs (by simp)

/-- The last symbol other than `x`. -/
def lastBeside (x : Nat) : Nat := if x = 255 then 254 else 255

theorem lt_lastBeside {x s b : Nat} (hs : s < 256) (hrest : ¬s = lastBeside x ∧ ¬s = x) (hb : b = lastBeside x) :
    s < b := by
  obtain ⟨hlast, hx⟩ := hrest
  rw [hb, lastBeside]
  rw [lastBeside] at hlast
  by_cases h : x = 255
  · rw [if_pos h] at hlast ⊢
    omega
  · rw [if_neg h] at hlast ⊢
    omega

section
variable (x : Byte) {n : Nat} (hn : 0 < n)
include hn

omit hn in
theorem weight_replicate_other {s : Nat} (hs : s < 256) (hne : s ∉ [x.toNat]) :
    (leafNode (List.replicate n x) s).weight = 0 := by
  refine List.count_eq_zero.2 fun hmem => hne ?_
  have hx := (List.mem_replicate.1 hmem).2
  rw [List.mem_singleton, ← hx, BitVec.toNat_ofNat, Nat.mod_eq_of_lt hs]

theorem counted_replicate : Counted ([x.toNat].map (leafNode (List.replicate n x))) := by
  refine List.forall_mem_singleton.2 ?_
  simpa [leafNode, List.count_pos_iff] using hn

/-- 45_huffman.md R148: the tree of a stream of one distinct symbol. -/
theorem exists_builtTree_replicate : ∃ root z, BuiltTree (List.replicate n x) root ∧
    Levelled (fun s => !([lastBeside x.toNat].contains s)) 7 z ∧
    leafDepths root.tree 0 = leafDepths z 1 ++ [(x.toNat, 1)] := by
  have hx := x.isLt
  obtain ⟨root, h⟩ := exists_builtTree (List.replicate n x)
  obtain ⟨z, hmerge, -, hlevel⟩ := mergeFrom_leafPool (seq := List.replicate n x) (back := [lastBeside x.toNat])
    (heavy := [x.toNat]) (by simp [lastBeside]; split <;> omega)
    (by simp [lastBeside]; split <;> omega) rfl (Nat.le_of_ble_eq_true rfl)
    (fun s hs hrest b hb => lt_lastBeside hs (by simpa using hrest) (by simpa using hb)) (List.pairwise_singleton _ _)
    (fun s => weight_replicate_other x) (counted_replicate x hn) (List.pairwise_singleton _ _)
  refine ⟨root, z.tree, h, hlevel, ?_⟩
  have hmerged := h.merged
  rw [show (255 : Nat) = 255 - [x.toNat].length + 1 from rfl, mergeFrom_add, hmerge] at hmerged
  obtain rfl : parentNode _ z (leafNode (List.replicate n x) x.toNat) = root := List.head_eq_of_cons_eq hmerged
  rfl

theorem builtLengths_replicate_same : builtLengths (List.replicate n x) x.toNat = 1 := by
  obtain ⟨root, z, h, -, hroot⟩ := exists_builtTree_replicate x hn
  exact h.builtLengths_eq (x := (x.toNat, 1)) (by simp [hroot])

theorem builtLengths_replicate_other {s : Nat} (hs : s < 256) (hne : s ≠ x.toNat) :
    builtLengths (List.replicate n x) s = if s = lastBeside x.toNat then 8 else 9 := by
  obtain ⟨root, z, h, hlevel, hroot⟩ := exists_builtTree_replicate x hn
  rw [h.length_of_levelled hlevel hroot hs (by simpa using hne.symm)]
  by_cases hlast : s = lastBeside x.toNat <;> simp [hlast, bit]

end

theorem huflen_eq (seq : List Byte) : huflen seq = (List.range 256).map fun s => BitVec.ofNat 8 (builtLengths seq s) := by
  refine List.ext_getElem (by rw [length_huflen, List.length_map, List.length_range]) fun s hs _ => ?_
  rw [List.getElem_map, List.getElem_range, builtLengths, List.getD_eq_getElem _ _ hs, BitVec.ofNat_toNat,
    BitVec.setWidth_eq]

/-- A table whose entries are given symbol by symbol. -/
theorem huflen_eq_of_lengths {seq : List Byte} {table : List Byte} (hlen : table.length = 256)
    (h : ∀ s, s < 256 → table.getD s 0#8 = BitVec.ofNat 8 (builtLengths seq s)) : huflen seq = table := by
  rw [huflen_eq]
  refine List.ext_getElem (by rw [List.length_map, List.length_range, hlen]) fun s hs htable => ?_
  rw [List.length_map, List.length_range] at hs
  rw [List.getElem_map, List.getElem_range, ← h s hs, List.getD_eq_getElem _ _ htable]

theorem huflen_nil : huflen [] = List.replicate 256 8#8 :=
  huflen_eq_of_lengths List.length_replicate fun s hs => by
    rw [builtLengths_nil hs, List.getD_eq_getElem _ _ (by rwa [List.length_replicate]), List.getElem_replicate]

/-- 45_huffman.md R148: the table of a one-symbol sequence, its symbol not the last one. -/
theorem huflen_single {x : Byte} (hx : x.toNat < 255) :
    huflen [x] = List.replicate x.toNat 9#8 ++ [1#8] ++ List.replicate (254 - x.toNat) 9#8 ++ [8#8] := by
  have hbeside : lastBeside x.toNat = 255 := if_neg (Nat.ne_of_lt hx)
  refine huflen_eq_of_lengths ?_ fun s hs => ?_
  · simp only [List.length_append, List.length_replicate, List.length_singleton]
    omega
  rw [show [x] = List.replicate 1 x from rfl, List.getD_eq_getElem?_getD, List.getElem?_append, List.getElem?_append,
    List.getElem?_append]
  simp only [List.length_append, List.length_replicate, List.length_singleton, List.getElem?_replicate]
  by_cases hsame : s = x.toNat
  · rw [hsame, builtLengths_replicate_same x Nat.one_pos, if_pos (by omega), if_pos (by omega), if_neg (by omega),
      Nat.sub_self]
    rfl
  rw [builtLengths_replicate_other x Nat.one_pos hs hsame, hbeside]
  by_cases hlast : s = 255
  · rw [if_neg (by omega), if_pos hlast, hlast, show 255 - (x.toNat + 1 + (254 - x.toNat)) = 0 from by omega]
    rfl
  rw [if_neg hlast, if_pos (by omega)]
  by_cases hlow : s < x.toNat
  · rw [if_pos (by omega), if_pos hlow, if_pos hlow]
    rfl
  · rw [if_neg (by omega), if_pos (by omega)]
    rfl

/-- The two-symbol sequence of the rule's example (45_huffman.md R148). -/
def fourFivesOneNine : List Byte := [5#8, 5#8, 5#8, 5#8, 9#8]

theorem weight_fourFivesOneNine {s : Nat} (hs : s < 256) (hne : s ∉ [9, 5]) :
    (leafNode fourFivesOneNine s).weight = 0 := by
  refine List.count_eq_zero.2 fun hmem => hne ?_
  have hvalue : BitVec.ofNat 8 s = 5#8 ∨ BitVec.ofNat 8 s = 9#8 := by simpa [fourFivesOneNine, or_assoc] using hmem
  rcases hvalue with h | h <;>
  · have := congrArg BitVec.toNat h
    rw [BitVec.toNat_ofNat, Nat.mod_eq_of_lt hs] at this
    simp [this]

theorem weight_nine : (leafNode fourFivesOneNine 9).weight = 1 := rfl

theorem weight_five : (leafNode fourFivesOneNine 5).weight = 4 := rfl

theorem counted_fourFivesOneNine : Counted ([9, 5].map (leafNode fourFivesOneNine)) :=
  List.forall_mem_cons.2 ⟨Nat.one_pos, List.forall_mem_singleton.2 (by rw [weight_five]; decide)⟩

theorem ascending_fourFivesOneNine : Ascending ([9, 5].map (leafNode fourFivesOneNine)) :=
  List.pairwise_pair.2 (lowerNode_iff.2 (.inl (by rw [weight_nine, weight_five]; decide)))

theorem builtLengths_fourFivesOneNine {s : Nat} (hs : s < 256) :
    builtLengths fourFivesOneNine s = if s = 5 then 1 else if s = 9 then 2 else if 254 ≤ s then 9 else 10 := by
  obtain ⟨root, h⟩ := exists_builtTree fourFivesOneNine
  obtain ⟨z, hmerge, hweight, hlevel⟩ := mergeFrom_leafPool (seq := fourFivesOneNine) (back := [254, 255])
    (heavy := [9, 5]) (by decide) (by decide) rfl (by decide)
    (fun s hs hrest b hb => by simp at hrest hb; omega) (by decide)
    (fun s => weight_fourFivesOneNine) counted_fourFivesOneNine
    ascending_fourFivesOneNine
  have hmerged := h.merged
  rw [show (255 : Nat) = 255 - [9, 5].length + 2 from rfl, mergeFrom_add, hmerge] at hmerged
  have hlower : lowerNode (parentNode 253 z (leafNode fourFivesOneNine 9)) (leafNode fourFivesOneNine 5) = true :=
    lowerNode_iff.2 (.inl (by rw [parentNode, hweight, weight_nine, weight_five]; exact Nat.lt_of_sub_eq_succ rfl))
  have hroot : leafDepths root.tree 0 = leafDepths z.tree 2 ++ [(9, 2), (5, 1)] := by
    have hfirst : addNode (parentNode 253 z (leafNode fourFivesOneNine 9)) [leafNode fourFivesOneNine 5] =
        [parentNode 253 z (leafNode fourFivesOneNine 9), leafNode fourFivesOneNine 5] := by
      rw [addNode, if_pos hlower]
    rw [mergeFrom_succ, List.map_cons, mergeNodes_cons, List.map_cons, List.map_nil] at hmerged
    erw [hfirst] at hmerged
    rw [mergeFrom_succ, mergeNodes_cons] at hmerged
    obtain rfl := List.head_eq_of_cons_eq hmerged
    simp [parentNode, leafDepths, leafNode]
  by_cases h5 : s = 5
  · rw [if_pos h5, h5]
    exact h.builtLengths_eq (x := (5, 1)) (by simp [hroot])
  rw [if_neg h5]
  by_cases h9 : s = 9
  · rw [if_pos h9, h9]
    exact h.builtLengths_eq (x := (9, 2)) (by simp [hroot])
  rw [if_neg h9, h.length_of_levelled hlevel hroot hs (by simp [Ne.symm h5, Ne.symm h9])]
  by_cases hlast : 254 ≤ s
  · have hback : s = 254 ∨ s = 255 := by omega
    rw [if_pos hlast]
    simp [hback, bit]
  · have hback : ¬(s = 254 ∨ s = 255) := by omega
    rw [if_neg hlast]
    simp [not_or.1 hback, bit]

/-- Settles O40: the FIFO argument of `mergeFrom_leafPool`, with the rule's streams put in. -/
theorem oneSymbolGetsLengthOne : Obligations.OneSymbolGetsLengthOne := by
  refine ⟨fun x n hn => builtLengths_replicate_same x hn, fun x n s hn hs hne => ?_, huflen_nil, huflen_single (by decide),
    huflen_single (by decide), fun s hs => builtLengths_fourFivesOneNine hs⟩
  · rw [builtLengths_replicate_other x hn hs hne]
    by_cases h : s = lastBeside x.toNat
    · exact .inl (if_pos h)
    · exact .inr (if_neg h)

/-! ### HUF_LEN (45_huffman.md R148) -/

theorem exec_hufLen (p : Plane) (k : Kind) (s : State) : exec (.hufLen p k) s = .next (cmdHufLen p k s).state := rfl

/-- Settles O41. -/
theorem hufLenBuildsTheTable : Obligations.HufLenBuildsTheTable := by
  refine fun s p k => ⟨fun h => ?_, fun seq hlen hcap hsyms => ?_⟩
  · rw [exec_hufLen, cmdHufLen, raiseIf_of_lt (a := sCap) h]
    rfl
  · refine ⟨cellsFrom 0 (huflen seq), ?_, holdsBytes_cellsFrom 0 _, fun a ha => ?_⟩
    · rw [exec_hufLen, cmdHufLen, raiseIf_of_le (a := sCap) (hlen ▸ hcap), streamSymbols_eq hlen hsyms]
      rfl
    · rw [read_cellsFrom, if_neg (by rw [length_huflen]; omega)]
      rfl

end Sys2Proof.Machine

/-! PROOFS. Canonical codes (45_huffman.md R149, R150, 30_encoding.md R81): the value of a bit sequence, the shares of the
code space do not overlap, and the obligations O43 and O44. -/

namespace Sys2Proof.Machine

/-! ### The value of a bit sequence -/

/-- The value of bits read most significant first behind an accumulated value (45_huffman.md R154). -/
def bitsValue (acc : Nat) (bits : List Bool) : Nat := bits.foldl (fun a b => 2 * a + if b then 1 else 0) acc

@[simp] theorem bitsValue_nil (acc : Nat) : bitsValue acc [] = acc := rfl

@[simp] theorem bitsValue_cons (acc : Nat) (b : Bool) (bits : List Bool) :
    bitsValue acc (b :: bits) = bitsValue (2 * acc + if b then 1 else 0) bits := rfl

theorem bitsValue_append (acc : Nat) (front back : List Bool) :
    bitsValue acc (front ++ back) = bitsValue (bitsValue acc front) back := List.foldl_append

theorem bitsValue_eq_mul_add (acc : Nat) (bits : List Bool) :
    bitsValue acc bits = acc * 2 ^ bits.length + bitsValue 0 bits := by
  induction bits generalizing acc with
  | nil => simp
  | cons b bits ih =>
    rw [bitsValue_cons, bitsValue_cons, ih, ih (2 * 0 + _), List.length_cons, Nat.pow_succ]
    ring

theorem bitsValue_lt (bits : List Bool) : bitsValue 0 bits < 2 ^ bits.length := by
  induction bits with
  | nil => simp
  | cons b bits ih =>
    rw [bitsValue_cons, bitsValue_eq_mul_add, List.length_cons, Nat.pow_succ]
    cases b <;> simp <;> omega

theorem bitsValue_inj {a b : List Bool} (hlen : a.length = b.length) (h : bitsValue 0 a = bitsValue 0 b) : a = b := by
  induction a generalizing b with
  | nil => exact (List.length_eq_zero_iff.1 hlen.symm).symm
  | cons x a ih =>
    cases b with
    | nil => simp at hlen
    | cons y b =>
      replace hlen : a.length = b.length := Nat.succ.inj hlen
      rw [bitsValue_cons, bitsValue_cons, bitsValue_eq_mul_add, bitsValue_eq_mul_add (2 * 0 + _), hlen] at h
      have ha := bitsValue_lt a
      have hb := bitsValue_lt b
      rw [hlen] at ha
      cases x <;> cases y <;> simp at h
      · rw [ih hlen h]
      · omega
      · omega
      · rw [ih hlen h]

theorem bitsValue_testBits (x n : Nat) :
    bitsValue 0 ((List.range n).map fun i => x.testBit (n - 1 - i)) = x % 2 ^ n := by
  induction n generalizing x with
  | zero => simp [Nat.mod_one]
  | succ n ih =>
    have hhigh : (List.range n).map (fun i => x.testBit (n + 1 - 1 - i)) =
        (List.range n).map fun i => (x / 2).testBit (n - 1 - i) := by
      refine List.map_congr_left fun i hi => ?_
      have hi := List.mem_range.1 hi
      rw [← Nat.testBit_succ, show n + 1 - 1 - i = (n - 1 - i).succ from by omega]
    rw [List.range_succ, List.map_append, bitsValue_append, hhigh, ih, List.map_singleton, bitsValue_cons, bitsValue_nil,
      show n + 1 - 1 - n = 0 from by omega, Nat.pow_succ', Nat.mod_mul, Nat.testBit_zero]
    have hbit := Nat.mod_two_eq_zero_or_one x
    by_cases h : x % 2 = 1 <;> simp [h] <;> omega

theorem bitsValue_codeBits {c : Code} (hcode : c.code.toNat < 2 ^ c.len.toNat) :
    bitsValue 0 (codeBits c) = c.code.toNat :=
  (bitsValue_testBits c.code.toNat c.len.toNat).trans (Nat.mod_eq_of_lt hcode)

/-! ### Shares of the code space -/

theorem sum_map_add_le {l : List Nat} {f g : Nat → Nat} {d x : Nat} (hle : ∀ y ∈ l, f y ≤ g y) (hx : x ∈ l)
    (hroom : f x + d ≤ g x) : (l.map f).sum + d ≤ (l.map g).sum := by
  induction l with
  | nil => cases hx
  | cons y l ih =>
    obtain ⟨hhead, htail⟩ := List.forall_mem_cons.1 hle
    rw [List.map_cons, List.sum_cons, List.map_cons, List.sum_cons]
    rcases List.mem_cons.1 hx with rfl | hx
    · have := List.sum_le_sum (l := l) htail
      omega
    · have := ih htail hx
      omega

section
variable {len : Nat → Nat} {r s : Nat}

/-- The share of a symbol lies below that of every symbol after it. -/
theorem spaceBefore_add_le (hr : r < 256) (h : codedBefore len r s) :
    spaceBefore len r + 2 ^ (255 - len r) ≤ spaceBefore len s := by
  obtain ⟨hcoded, hbefore⟩ := h
  refine sum_map_add_le (fun i _ => ?_) (List.mem_range.2 hr) ?_
  · by_cases hi : len i ≠ 0 ∧ (len i < len r ∨ len i = len r ∧ i < r)
    · rw [if_pos hi, if_pos ⟨hi.1, by omega⟩]
    · rw [if_neg hi]
      exact Nat.zero_le _
  · rw [if_neg (by omega), if_pos ⟨hcoded, hbefore⟩, Nat.zero_add]

/-- The share of a symbol lies in the code space that all symbols take. -/
theorem spaceBefore_add_le_kraftSum (hs : s < 256) (hcoded : len s ≠ 0) :
    spaceBefore len s + 2 ^ (255 - len s) ≤ kraftSum len := by
  refine sum_map_add_le (fun i _ => ?_) (List.mem_range.2 hs) ?_
  · by_cases hi : len i ≠ 0 ∧ (len i < len s ∨ len i = len s ∧ i < s)
    · rw [if_pos hi, if_neg hi.1]
    · rw [if_neg hi]
      exact Nat.zero_le _
  · rw [if_neg (by omega), if_neg hcoded, Nat.zero_add]

end

/-! ### The tables that `canon` answers -/

/-- `canon` answers a table exactly when the lengths are not over-subscribed. -/
theorem kraftSum_le_of_canon {len : Nat → Nat} {t : CodeTable} (hlen : ∀ s, len s ≤ 255) (h : canon len = .ok t) :
    kraftSum len ≤ 2 ^ 255 := by
  by_contra hover
  obtain ⟨s, herror, -⟩ := canon_fails hlen (Nat.lt_of_not_le hover)
  rw [h] at herror
  cases herror

theorem assigned_of_canon {len : Nat → Nat} {t : CodeTable} (hlen : ∀ s, len s ≤ 255) (h : canon len = .ok t) :
    ∃ codes, t = codeTableOf codes ∧ Assigned len (codeOrder len) 0 codes := by
  have hfits : spaceTaken none + spaceOf (codeOrder len) ≤ 2 ^ 255 := by
    rw [spaceOf_codeOrder, spaceTaken, Nat.zero_add]
    exact kraftSum_le_of_canon hlen h
  obtain ⟨codes, hcodes, hassigned⟩ := assignCodes_succeeds (assignable_codeOrder hlen) hfits
  rw [canon_of_ok hcodes] at h
  exact ⟨codes, (Except.ok.inj h).symm, hassigned⟩

/-- What `canon` says of a symbol: it has a code exactly when it has a length, and the code is its share. -/
theorem lookup_of_canon {len : Nat → Nat} {t : CodeTable} (hlen : ∀ s, len s ≤ 255) (h : canon len = .ok t) {s : Nat}
    {c : Code} (hc : t.lookup s = some c) : s < 256 ∧ len s ≠ 0 ∧ beginsAt c (len s) (spaceBefore len s) := by
  obtain ⟨codes, rfl, hassigned⟩ := assigned_of_canon hlen h
  obtain ⟨hnone, hsome⟩ := hassigned s
  rw [codeTableOf, lookup_filterMap_lookup] at hc
  by_cases hmem : (len s, s) ∈ codeOrder len
  · obtain ⟨hs, hcoded, -⟩ := mem_codeOrder.1 hmem
    obtain ⟨c', hlookup, hbegins⟩ := hsome hmem
    rw [if_pos (List.mem_range.2 hs), hlookup] at hc
    obtain rfl := Option.some.inj hc
    rw [spaceUpTo_codeOrder, Nat.zero_add] at hbegins
    exact ⟨hs, hcoded, hbegins⟩
  · rw [hnone hmem, ite_self] at hc
    cases hc

/-- A code that is a share of the code space is below two to the power of its length. -/
theorem code_lt_of_beginsAt {len : Nat → Nat} {s : Nat} {c : Code} (hs : s < 256) (hcoded : len s ≠ 0)
    (hlen : len s ≤ 255) (hkraft : kraftSum len ≤ 2 ^ 255) (hc : beginsAt c (len s) (spaceBefore len s)) :
    c.code.toNat < 2 ^ c.len.toNat := by
  obtain ⟨hclen, hcode⟩ := hc
  have hshare := (spaceBefore_add_le_kraftSum hs hcoded).trans hkraft
  have hpow : 2 ^ 255 = 2 ^ len s * 2 ^ (255 - len s) := by rw [← Nat.pow_add, Nat.add_sub_cancel' hlen]
  rw [hclen, ← Nat.mul_lt_mul_right (Nat.two_pow_pos (255 - len s)), hcode, ← hpow]
  have := Nat.two_pow_pos (255 - len s)
  omega

section
variable {len : Nat → Nat} {t : CodeTable} (hlen : ∀ s, len s ≤ 255) (h : canon len = .ok t)
include hlen h

/-- A symbol with a code, seen through `CodeTable.entry`. -/
theorem beginsAt_of_canon {s : Nat} (hs : (t.entry s).len ≠ 0#8) :
    s < 256 ∧ len s ≠ 0 ∧ beginsAt (t.entry s) (len s) (spaceBefore len s) := by
  rw [CodeTable.entry] at hs ⊢
  cases hlookup : t.lookup s with
  | none => exact absurd (by rw [hlookup]; rfl) hs
  | some c => exact lookup_of_canon hlen h hlookup

theorem code_lt_of_canon (s : Nat) : (t.entry s).code.toNat < 2 ^ (t.entry s).len.toNat := by
  cases hlookup : t.lookup s with
  | none =>
    rw [CodeTable.entry, hlookup]
    exact Nat.one_pos
  | some c =>
    obtain ⟨hs, hcoded, hc⟩ := lookup_of_canon hlen h hlookup
    rw [CodeTable.entry, hlookup]
    exact code_lt_of_beginsAt hs hcoded (hlen s) (kraftSum_le_of_canon hlen h) hc

/-- A code that begins another one has the other's share in its own. -/
theorem share_of_prefix {a b : Nat} (ha : (t.entry a).len ≠ 0#8) (hb : (t.entry b).len ≠ 0#8)
    (hprefix : codeBits (t.entry a) <+: codeBits (t.entry b)) :
    len a ≤ len b ∧ spaceBefore len a ≤ spaceBefore len b ∧
      spaceBefore len b < spaceBefore len a + 2 ^ (255 - len a) := by
  obtain ⟨-, -, halen, hacode⟩ := beginsAt_of_canon hlen h ha
  obtain ⟨-, -, hblen, hbcode⟩ := beginsAt_of_canon hlen h hb
  obtain ⟨rest, hrest⟩ := hprefix
  have hlength : len a + rest.length = len b := by
    rw [← halen, ← hblen, ← length_codeBits, ← length_codeBits, ← hrest, List.length_append]
  have hvalue : (t.entry b).code.toNat = (t.entry a).code.toNat * 2 ^ rest.length + bitsValue 0 rest := by
    rw [← bitsValue_codeBits (code_lt_of_canon hlen h b), ← hrest, bitsValue_append, bitsValue_eq_mul_add,
      bitsValue_codeBits (code_lt_of_canon hlen h a)]
  have hpow : 2 ^ (255 - len a) = 2 ^ rest.length * 2 ^ (255 - len b) := by
    have := hlen b
    rw [← Nat.pow_add, show 255 - len a = rest.length + (255 - len b) from by omega]
  have hstart : spaceBefore len b = spaceBefore len a + bitsValue 0 rest * 2 ^ (255 - len b) := by
    rw [← hbcode, ← hacode, hvalue, Nat.add_mul, hpow, Nat.mul_assoc]
  have hinside := (Nat.mul_lt_mul_right (Nat.two_pow_pos (255 - len b))).2 (bitsValue_lt rest)
  rw [← hpow] at hinside
  omega

/-- 30_encoding.md R81: the shares of two symbols do not overlap, so no code begins another one. -/
theorem uniquelyReadable_of_canon : uniquelyReadable t := by
  intro a b hne ha hb hprefix
  obtain ⟨hle, hstart, hend⟩ := share_of_prefix hlen h ha hb hprefix
  obtain ⟨hasmall, hacoded, -⟩ := beginsAt_of_canon hlen h ha
  obtain ⟨hbsmall, hbcoded, -⟩ := beginsAt_of_canon hlen h hb
  by_cases hbefore : len a < len b ∨ a < b
  · have := spaceBefore_add_le hasmall (s := b) ⟨hacoded, by omega⟩
    omega
  · have := spaceBefore_add_le hbsmall (s := a) ⟨hbcoded, by omega⟩
    have := Nat.two_pow_pos (255 - len b)
    omega

end

/-! ### The canonical form of a table -/

theorem risingFrom_of_pairwise {t : CodeTable} {lo : Nat} (hordered : t.Pairwise fun x y => x.1 < y.1)
    (hcodes : ∀ x ∈ t, lo ≤ x.1 ∧ x.1 < 256 ∧ x.2.len ≠ 0#8 ∧ x.2.code.toNat < 2 ^ x.2.len.toNat) :
    t.risingFrom lo = true := by
  induction t generalizing lo with
  | nil => rfl
  | cons x t ih =>
    obtain ⟨hhead, htail⟩ := List.pairwise_cons.1 hordered
    obtain ⟨⟨hlo, hsmall, hcoded, hcode⟩, hrest⟩ := List.forall_mem_cons.1 hcodes
    have hrising := ih (lo := x.1 + 1) htail fun y hy => ⟨hhead y hy, (hrest y hy).2⟩
    simp only [CodeTable.risingFrom, Bool.and_eq_true, Nat.ble_eq, Nat.blt_eq, bne_iff_ne]
    exact ⟨⟨⟨⟨hlo, hsmall⟩, hcoded⟩, hcode⟩, hrising⟩

theorem codeTableOf_pairwise (codes : List (Nat × Code)) : (codeTableOf codes).Pairwise fun x y => x.1 < y.1 := by
  refine List.pairwise_filterMap.2 (List.pairwise_lt_range.imp fun hlt x hx y hy => ?_)
  obtain ⟨_, -, rfl⟩ := Option.map_eq_some_iff.1 hx
  obtain ⟨_, -, rfl⟩ := Option.map_eq_some_iff.1 hy
  exact hlt

theorem mem_codeTableOf {codes : List (Nat × Code)} {x : Nat × Code} (hx : x ∈ codeTableOf codes) :
    (codeTableOf codes).lookup x.1 = some x.2 := by
  obtain ⟨s, hs, hmap⟩ := List.mem_filterMap.1 hx
  obtain ⟨c, hc, rfl⟩ := Option.map_eq_some_iff.1 hmap
  rw [codeTableOf, lookup_filterMap_lookup, if_pos hs, hc]

theorem wf_of_canon {len : Nat → Nat} {t : CodeTable} (hlen : ∀ s, len s ≤ 255) (h : canon len = .ok t) :
    t.wf = true := by
  obtain ⟨codes, rfl, -⟩ := assigned_of_canon hlen h
  refine risingFrom_of_pairwise (codeTableOf_pairwise codes) fun x hx => ?_
  have hlookup := mem_codeTableOf hx
  have hentry : (codeTableOf codes).entry x.1 = x.2 := by rw [CodeTable.entry, hlookup, Option.getD_some]
  obtain ⟨hs, hcoded, hc⟩ := lookup_of_canon hlen h hlookup
  refine ⟨Nat.zero_le _, hs, fun hzero => hcoded ?_, hentry ▸ code_lt_of_canon hlen h x.1⟩
  rw [← hc.1, hzero]
  rfl

/-- Settles O43: a symbol's code is where its share of the code space begins, and the shares do not overlap. -/
theorem canonicalCodesAreUniquelyReadable : Obligations.CanonicalCodesAreUniquelyReadable := fun _ _ hlen h =>
  ⟨uniquelyReadable_of_canon hlen h, wf_of_canon hlen h, code_lt_of_canon hlen h⟩

/-! ### HUF_CODE (45_huffman.md R150) -/

theorem exec_hufCode (p : Plane) (k : Kind) (s : State) : exec (.hufCode p k) s = .next (cmdHufCode p k s).state := rfl

/-- Settles O44, from what O42 says of `canon`. -/
theorem hufCodeBuildsTheCodes : Obligations.HufCodeBuildsTheCodes := by
  intro s p k
  dsimp only
  have hlen : ∀ sym, ((s.lt.at p k).read sym).toNat ≤ 255 := fun sym => Nat.le_of_lt_succ (BitVec.isLt _)
  refine ⟨fun hkraft => ?_, fun hover => ?_⟩
  · obtain ⟨t, ht, -⟩ := canon_succeeds hlen hkraft
    refine ⟨t, ht, ?_⟩
    rw [exec_hufCode, cmdHufCode, ht]
    rfl
  · obtain ⟨sym, herror, hsym, -⟩ := canon_fails hlen hover
    refine ⟨sym, hsym, herror, ?_⟩
    rw [exec_hufCode, cmdHufCode, herror]
    rfl

end Sys2Proof.Machine

/-! PROOFS. The Huffman decoder (45_huffman.md R153 to R156): what it reads in a table, one symbol, many symbols, the lockstep
loop of `HUF_DEC_AC`, and that it reads nothing at or behind its limit. -/

namespace Sys2Proof.Machine

/-! ### Bits in memory -/

theorem holdsBits_nil (m : Memory) (pos : Nat) : holdsBits m pos [] := fun _ hi => absurd hi (Nat.not_lt_zero _)

theorem holdsBits_append {m : Memory} {pos : Nat} {a b : List Bool} :
    holdsBits m pos (a ++ b) ↔ holdsBits m pos a ∧ holdsBits m (pos + a.length) b := by
  refine ⟨fun h => ⟨fun i hi => ?_, fun i hi => ?_⟩, fun ⟨ha, hb⟩ i hi => ?_⟩
  · rw [h i (by rw [List.length_append]; omega), List.getD_append _ _ _ _ hi]
  · rw [Nat.add_assoc, h (a.length + i) (by rw [List.length_append]; omega),
      List.getD_append_right _ _ _ _ (Nat.le_add_right _ _), Nat.add_sub_cancel_left]
  · by_cases hlt : i < a.length
    · rw [ha i hlt, List.getD_append _ _ _ _ hlt]
    · rw [List.length_append] at hi
      have := hb (i - a.length) (by omega)
      rwa [Nat.add_assoc, Nat.add_sub_cancel' (by omega), ← List.getD_append_right _ _ _ _ (by omega)] at this

theorem holdsBits_singleton {m : Memory} {pos : Nat} {b : Bool} : holdsBits m pos [b] ↔ bitAt m pos = b := by
  refine ⟨fun h => by simpa using h 0 Nat.one_pos, fun h i hi => ?_⟩
  obtain rfl : i = 0 := by simpa using hi
  simpa using h

theorem holdsBits_congr {m m' : Memory} {pos pos' : Nat} {bits : List Bool} (h : holdsBits m pos bits)
    (hsame : ∀ i, i < bits.length → bitAt m' (pos' + i) = bitAt m (pos + i)) : holdsBits m' pos' bits := fun i hi =>
  (hsame i hi).trans (h i hi)

theorem bitsOf_nil (t : CodeTable) : bitsOf t [] = [] := rfl

theorem bitsOf_cons (t : CodeTable) (b : Byte) (seq : List Byte) :
    bitsOf t (b :: seq) = codeBits (t.entry b.toNat) ++ bitsOf t seq := List.flatMap_cons

theorem nextBit_of_lt {m : Memory} {lim pos : Nat} (h : pos < 8 * lim) : nextBit m lim pos = .ok (bitAt m pos) :=
  if_neg (by rw [Nat.ble_eq]; omega)

theorem nextBit_of_le {m : Memory} {lim pos : Nat} (h : 8 * lim ≤ pos) :
    nextBit m lim pos = .error { code := .exhaust, info := lim } :=
  if_pos (Nat.ble_eq_true_of_le h)

/-! ### Reading a sequence -/

theorem reads_nil (m : Memory) (t : CodeTable) (pos lim : Nat) : reads m t pos lim [] :=
  ⟨fun _ hb => (List.not_mem_nil hb).elim, holdsBits_nil _ _, .inl rfl⟩

theorem reads_append {m : Memory} {t : CodeTable} {pos lim : Nat} {a b : List Byte} (h : reads m t pos lim (a ++ b)) :
    reads m t pos lim a ∧ reads m t (pos + (bitsOf t a).length) lim b := by
  obtain ⟨hcovers, hbits, hroom⟩ := h
  rw [bitsOf_append] at hbits hroom
  obtain ⟨ha, hb⟩ := holdsBits_append.1 hbits
  rw [List.length_append] at hroom
  refine ⟨⟨fun x hx => hcovers x (List.mem_append_left _ hx), ha, ?_⟩,
    fun x hx => hcovers x (List.mem_append_right _ hx), hb, ?_⟩
  · rcases hroom with hnil | hroom
    · exact .inl (List.append_eq_nil_iff.1 hnil).1
    · exact .inr (by omega)
  · rcases hroom with hnil | hroom
    · exact .inl (List.append_eq_nil_iff.1 hnil).2
    · exact .inr (by omega)

theorem reads_cons {m : Memory} {t : CodeTable} {pos lim : Nat} {b : Byte} {seq : List Byte} :
    reads m t pos lim (b :: seq) ↔ (t.entry b.toNat).len ≠ 0#8 ∧ holdsBits m pos (codeBits (t.entry b.toNat)) ∧
      pos + (codeBits (t.entry b.toNat)).length ≤ 8 * lim ∧
      reads m t (pos + (codeBits (t.entry b.toNat)).length) lim seq := by
  rw [reads, reads, covers, covers, List.forall_mem_cons, bitsOf_cons, holdsBits_append, List.length_append]
  refine ⟨fun ⟨⟨hb, hseq⟩, ⟨hcode, hbits⟩, hroom⟩ => ?_, fun ⟨hb, hcode, hfirst, hseq, hbits, hroom⟩ => ?_⟩
  · have hroom := hroom.resolve_left (by simp)
    exact ⟨hb, hcode, by omega, hseq, hbits, .inr (by omega)⟩
  · refine ⟨⟨hb, hseq⟩, ⟨hcode, hbits⟩, .inr ?_⟩
    rcases hroom with rfl | hroom
    · simpa [bitsOf_nil] using hfirst
    · omega

/-- A code has at least one bit. -/
theorem length_le_length_bitsOf {t : CodeTable} {seq : List Byte} (h : covers t seq) :
    seq.length ≤ (bitsOf t seq).length := by
  induction seq with
  | nil => exact Nat.zero_le _
  | cons b seq ih =>
    obtain ⟨hb, hseq⟩ := List.forall_mem_cons.1 h
    have hlen : (t.entry b.toNat).len.toNat ≠ 0 := fun hzero => hb (BitVec.eq_of_toNat_eq hzero)
    have := ih hseq
    rw [bitsOf_cons, List.length_append, length_codeBits, List.length_cons]
    omega

/-! ### What the decoder finds in a table -/

theorem CodeTable.risingFrom_cons {lo : Nat} {x : Nat × Code} {t : CodeTable} :
    CodeTable.risingFrom lo (x :: t) = true ↔
      (lo ≤ x.1 ∧ x.1 < 256 ∧ x.2.len ≠ 0#8 ∧ x.2.code.toNat < 2 ^ x.2.len.toNat) ∧
        CodeTable.risingFrom (x.1 + 1) t = true := by
  simp only [CodeTable.risingFrom, Bool.and_eq_true, Nat.ble_eq, Nat.blt_eq, bne_iff_ne, and_assoc]

theorem CodeTable.bounds_of_mem {t : CodeTable} {lo : Nat} (h : t.risingFrom lo = true) {x : Nat × Code} (hx : x ∈ t) :
    lo ≤ x.1 ∧ x.1 < 256 ∧ x.2.len ≠ 0#8 ∧ x.2.code.toNat < 2 ^ x.2.len.toNat := by
  induction t generalizing lo with
  | nil => cases hx
  | cons y t ih =>
    obtain ⟨hy, ht⟩ := CodeTable.risingFrom_cons.1 h
    rcases List.mem_cons.1 hx with rfl | hx
    · exact hy
    · obtain ⟨hlo, hrest⟩ := ih ht hx
      exact ⟨by omega, hrest⟩

theorem CodeTable.lookup_of_mem {t : CodeTable} {lo : Nat} (h : t.risingFrom lo = true) {s : Nat} {c : Code}
    (hx : (s, c) ∈ t) : t.lookup s = some c := by
  induction t generalizing lo with
  | nil => cases hx
  | cons y t ih =>
    obtain ⟨-, ht⟩ := CodeTable.risingFrom_cons.1 h
    rcases List.mem_cons.1 hx with rfl | hx
    · exact List.lookup_cons_self
    · have hne : s ≠ y.1 := Nat.ne_of_gt (CodeTable.bounds_of_mem ht hx).1
      rw [List.lookup_cons, beq_false_of_ne hne]
      exact ih ht hx

section
variable {t : CodeTable} (hwf : t.wf = true)
include hwf

theorem CodeTable.entry_of_mem {s : Nat} {c : Code} (hx : (s, c) ∈ t) : t.entry s = c := by
  rw [CodeTable.entry, CodeTable.lookup_of_mem hwf hx, Option.getD_some]

/-- A symbol with a code is a byte, and its code is below two to the power of its length. -/
theorem CodeTable.bounds_of_coded {s : Nat} (hs : (t.entry s).len ≠ 0#8) :
    s < 256 ∧ (t.entry s).code.toNat < 2 ^ (t.entry s).len.toNat := by
  obtain ⟨-, hsmall, -, hcode⟩ := CodeTable.bounds_of_mem hwf (CodeTable.mem_of_entry hs)
  exact ⟨hsmall, hcode⟩

/-- The symbol that the decoder finds for the bits read so far has them as its code. -/
theorem codeBits_of_matchCode {w : List Bool} {s : Nat} (h : matchCode t w.length (bitsValue 0 w) = some s) :
    (t.entry s).len ≠ 0#8 ∧ codeBits (t.entry s) = w := by
  rw [matchCode] at h
  cases hfind : t.find? fun e => Nat.beq e.2.len.toNat w.length && Nat.beq e.2.code.toNat (bitsValue 0 w) with
  | none => rw [hfind] at h; cases h
  | some e =>
    rw [hfind] at h
    obtain rfl := Option.some.inj h
    have hmem := List.mem_of_find?_eq_some hfind
    have hmatch := List.find?_some hfind
    simp only [Bool.and_eq_true, Nat.beq_eq] at hmatch
    obtain ⟨hlen, hcode⟩ := hmatch
    obtain ⟨-, -, hcoded, hbound⟩ := CodeTable.bounds_of_mem hwf hmem
    rw [CodeTable.entry_of_mem hwf (s := e.1) (c := e.2) hmem]
    exact ⟨hcoded, bitsValue_inj ((length_codeBits _).trans hlen) ((bitsValue_codeBits hbound).trans hcode)⟩

/-- Where no code is the bits read so far, the decoder finds no symbol. -/
theorem matchCode_eq_none {w : List Bool} (h : ∀ s, (t.entry s).len ≠ 0#8 → codeBits (t.entry s) ≠ w) :
    matchCode t w.length (bitsValue 0 w) = none := by
  cases hmatch : matchCode t w.length (bitsValue 0 w) with
  | none => rfl
  | some s =>
    obtain ⟨hcoded, hbits⟩ := codeBits_of_matchCode hwf hmatch
    exact absurd hbits (h s hcoded)

/-- Of a uniquely readable table, the decoder finds the symbol whose code has been read. -/
theorem matchCode_codeBits (hread : uniquelyReadable t) {s : Nat} (hs : (t.entry s).len ≠ 0#8) :
    matchCode t (codeBits (t.entry s)).length (bitsValue 0 (codeBits (t.entry s))) = some s := by
  cases hmatch : matchCode t (codeBits (t.entry s)).length (bitsValue 0 (codeBits (t.entry s))) with
  | none =>
    rw [matchCode] at hmatch
    split at hmatch
    · cases hmatch
    · rename_i hfind
      refine absurd ?_ (List.find?_eq_none.1 hfind _ (CodeTable.mem_of_entry hs))
      rw [length_codeBits, bitsValue_codeBits (CodeTable.bounds_of_coded hwf hs).2]
      simp
  | some r =>
    obtain ⟨hr, hbits⟩ := codeBits_of_matchCode hwf hmatch
    by_contra hne
    exact hread r s (fun h => hne (congrArg some h)) hr hs (hbits ▸ List.prefix_rfl)

end

theorem le_maxLen {t : CodeTable} {x : Nat × Code} (hx : x ∈ t) : x.2.len.toNat ≤ maxLen t := by
  induction t with
  | nil => cases hx
  | cons y t ih =>
    rcases List.mem_cons.1 hx with rfl | hx
    · exact Nat.le_max_left _ _
    · exact (ih hx).trans (Nat.le_max_right _ _)

theorem maxLen_le {t : CodeTable} {n : Nat} (h : ∀ x ∈ t, x.2.len.toNat ≤ n) : maxLen t ≤ n := by
  induction t with
  | nil => exact Nat.zero_le n
  | cons y t ih =>
    obtain ⟨hy, ht⟩ := List.forall_mem_cons.1 h
    exact Nat.max_le.2 ⟨hy, ih ht⟩

theorem byteOf_toNat_of_lt {s : Nat} (hs : s < 256) : (BitVec.ofNat 8 s).toNat = s := by
  rw [BitVec.toNat_ofNat, Nat.mod_eq_of_lt hs]

/-- The decoder counts to the length of the longest code. -/
theorem maxLen_of_longest {t : CodeTable} {n : Nat} (hwf : t.wf = true) (h : longest t n) : maxLen t = n := by
  obtain ⟨⟨b, hb⟩, hle⟩ := h
  refine Nat.le_antisymm (maxLen_le fun x hx => ?_) ?_
  · obtain ⟨-, hsmall, -, -⟩ := CodeTable.bounds_of_mem hwf hx
    have hentry := hle (BitVec.ofNat 8 x.1)
    rwa [byteOf_toNat_of_lt hsmall, CodeTable.entry_of_mem hwf (s := x.1) (c := x.2) hx] at hentry
  · by_cases hcoded : (t.entry b.toNat).len = 0#8
    · rw [hcoded] at hb
      exact hb ▸ Nat.zero_le _
    · exact hb ▸ le_maxLen (CodeTable.mem_of_entry hcoded)

/-! ### One symbol (45_huffman.md R154) -/

section
variable {m : Memory} {t : CodeTable} {lim pos : Nat}

/-- While the bits read are no code, the decoder reads on. -/
theorem decodeFrom_skip {left : Nat} {done front : List Bool} (hwf : t.wf = true) (hbits : holdsBits m pos front)
    (hroom : front = [] ∨ pos + front.length ≤ 8 * lim)
    (hnone : ∀ w, w <+: done ++ front → done.length < w.length →
      ∀ s, (t.entry s).len ≠ 0#8 → codeBits (t.entry s) ≠ w) :
    decodeFrom m lim t (front.length + left) done.length (bitsValue 0 done) pos =
      decodeFrom m lim t left (done ++ front).length (bitsValue 0 (done ++ front)) (pos + front.length) := by
  induction front generalizing done pos with
  | nil => rw [List.append_nil, List.length_nil, Nat.zero_add, Nat.add_zero]
  | cons b front ih =>
    replace hroom := hroom.resolve_left (by simp)
    rw [List.length_cons] at hroom
    obtain ⟨hfirst, hrest⟩ := holdsBits_append.1 (List.singleton_append ▸ hbits : holdsBits m pos ([b] ++ front))
    rw [List.length_singleton] at hrest
    have hsplit : done ++ b :: front = (done ++ [b]) ++ front := (List.append_cons ..)
    have hvalue : 2 * bitsValue 0 done + (if b = true then 1 else 0) = bitsValue 0 (done ++ [b]) := by
      rw [bitsValue_append]
      rfl
    have hmatch : matchCode t (done.length + 1) (bitsValue 0 (done ++ [b])) = none := by
      rw [← List.length_singleton (a := b), ← List.length_append]
      refine matchCode_eq_none hwf (hnone _ ?_ ?_)
      · rw [hsplit]
        exact List.prefix_append _ _
      · simp
    have hstep : decodeFrom m lim t (front.length + left + 1) done.length (bitsValue 0 done) pos =
        decodeFrom m lim t (front.length + left) (done ++ [b]).length (bitsValue 0 (done ++ [b])) (pos + 1) := by
      rw [decodeFrom, nextBit_of_lt (by omega), holdsBits_singleton.1 hfirst]
      dsimp only
      rw [hvalue, hmatch, List.length_append, List.length_singleton]
    rw [List.length_cons, Nat.add_right_comm, hstep, ih hrest (.inr (by omega)) fun w hw hlen => ?later, hsplit,
      Nat.add_assoc pos, Nat.add_comm 1]
    case later =>
      refine hnone w (hsplit ▸ hw) ?_
      rw [List.length_append] at hlen
      omega

/-- A code that stands in the segment is decoded to its symbol. -/
theorem decodeOne_of_code (hwf : t.wf = true) (hread : uniquelyReadable t) {b : Byte} (hb : (t.entry b.toNat).len ≠ 0#8)
    (hbits : holdsBits m pos (codeBits (t.entry b.toNat)))
    (hroom : pos + (codeBits (t.entry b.toNat)).length ≤ 8 * lim) :
    decodeOne m lim t pos = .ok (b, pos + (codeBits (t.entry b.toNat)).length) := by
  have hmatch := matchCode_codeBits hwf hread hb
  have hle : (codeBits (t.entry b.toNat)).length ≤ maxLen t := by
    rw [length_codeBits]
    exact le_maxLen (CodeTable.mem_of_entry hb)
  have hnone : ∀ w, w <+: codeBits (t.entry b.toNat) → w.length < (codeBits (t.entry b.toNat)).length →
      ∀ s, (t.entry s).len ≠ 0#8 → codeBits (t.entry s) ≠ w := by
    rintro w hw hlt s hs rfl
    by_cases hsame : s = b.toNat
    · rw [hsame] at hlt
      exact Nat.lt_irrefl _ hlt
    · exact hread s b.toNat hsame hs hb hw
  rcases List.eq_nil_or_concat' (codeBits (t.entry b.toNat)) with hnil | ⟨front, x, hcode⟩
  · have hlen := length_codeBits (t.entry b.toNat)
    rw [hnil] at hlen
    exact absurd (BitVec.eq_of_toNat_eq hlen.symm) hb
  rw [hcode] at hmatch hle hnone hbits hroom ⊢
  obtain ⟨hfront, hx⟩ := holdsBits_append.1 hbits
  rw [List.length_append, List.length_singleton] at hmatch hle hnone hroom ⊢
  obtain ⟨left, hleft⟩ := Nat.exists_eq_add_of_le hle
  have hskip := decodeFrom_skip (m := m) (lim := lim) (left := 1 + left) (done := []) (front := front) hwf hfront
    (.inr (by omega)) fun w hw _ => hnone w (hw.trans (List.prefix_append _ _))
      (Nat.lt_succ_of_le (List.IsPrefix.length_le hw))
  rw [List.nil_append, List.length_nil, bitsValue_nil] at hskip
  rw [bitsValue_append, bitsValue_cons, bitsValue_nil] at hmatch
  rw [decodeOne, if_neg (by rw [Nat.beq_eq]; omega), hleft, Nat.add_assoc, hskip, Nat.add_comm 1, decodeFrom,
    nextBit_of_lt (by omega), holdsBits_singleton.1 hx]
  dsimp only
  rw [hmatch]
  dsimp only
  rw [BitVec.ofNat_toNat, BitVec.setWidth_eq, Nat.add_assoc]

/-- What the decoder answers, where it fails (45_huffman.md R153, R154). -/
theorem decodeOne_of_failsAt (hwf : t.wf = true) {e : Err} (h : failsAt m t pos lim e) :
    decodeOne m lim t pos = .error e := by
  obtain ⟨n, w, hlongest, hbits, hnone, hcase⟩ := h
  have hmax := maxLen_of_longest hwf hlongest
  have hskip (left : Nat) (hroom : w = [] ∨ pos + w.length ≤ 8 * lim) :
      decodeFrom m lim t (w.length + left) 0 0 pos = decodeFrom m lim t left w.length (bitsValue 0 w) (pos + w.length) :=
    decodeFrom_skip (done := []) hwf hbits hroom fun v hv _ s hs heq => by
      obtain ⟨hsmall, -⟩ := CodeTable.bounds_of_coded hwf hs
      have hbyte := hnone (BitVec.ofNat 8 s)
      rw [byteOf_toNat_of_lt hsmall] at hbyte
      exact hbyte hs (heq ▸ hv)
  rw [decodeOne, hmax]
  rcases hcase with ⟨rfl, rfl⟩ | ⟨hpos, hlen, hroom, rfl⟩ | ⟨hlen, hend, rfl⟩
  · rfl
  · have hstop := hskip 0 (.inr (by omega))
    rw [Nat.add_zero, hlen] at hstop
    rw [if_neg (by rw [Nat.beq_eq]; omega), hstop, decodeFrom]
  · obtain ⟨left, rfl⟩ := Nat.exists_eq_add_of_lt hlen
    have hroom : w = [] ∨ pos + w.length ≤ 8 * lim := hend.elim (fun h => .inr (Nat.le_of_eq h)) fun h => .inl h.1
    have hlimit : 8 * lim ≤ pos + w.length := hend.elim (fun h => Nat.le_of_eq h.symm) fun h => by omega
    rw [if_neg (by rw [Nat.beq_eq]; omega), Nat.add_assoc, hskip _ hroom, decodeFrom, nextBit_of_le hlimit]

/-- The symbol that the decoder answers has its code in the segment. -/
theorem code_of_decodeFrom {left : Nat} {done : List Bool} {b : Byte} {next : Nat} (hwf : t.wf = true)
    (h : decodeFrom m lim t left done.length (bitsValue 0 done) pos = .ok (b, next)) :
    (t.entry b.toNat).len ≠ 0#8 ∧ ∃ w, codeBits (t.entry b.toNat) = done ++ w ∧ holdsBits m pos w ∧
      next = pos + w.length := by
  induction left generalizing done pos with
  | zero => cases h
  | succ left ih =>
    rw [decodeFrom] at h
    by_cases hlim : pos < 8 * lim
    case neg =>
      rw [nextBit_of_le (Nat.le_of_not_lt hlim)] at h
      cases h
    rw [nextBit_of_lt hlim] at h
    have hvalue : 2 * bitsValue 0 done + (if bitAt m pos = true then 1 else 0) = bitsValue 0 (done ++ [bitAt m pos]) := by
      rw [bitsValue_append]
      rfl
    have hlength : done.length + 1 = (done ++ [bitAt m pos]).length := by simp
    dsimp only at h
    rw [hvalue, hlength] at h
    have hbit : holdsBits m pos [bitAt m pos] := holdsBits_singleton.2 rfl
    cases hmatch : matchCode t (done ++ [bitAt m pos]).length (bitsValue 0 (done ++ [bitAt m pos])) with
    | some s =>
      rw [hmatch] at h
      cases h
      obtain ⟨hcoded, hbits⟩ := codeBits_of_matchCode hwf hmatch
      rw [byteOf_toNat_of_lt (CodeTable.bounds_of_coded hwf hcoded).1]
      exact ⟨hcoded, _, hbits, hbit, rfl⟩
    | none =>
      rw [hmatch] at h
      obtain ⟨hcoded, w, hcode, hbits, hnext⟩ := ih h
      refine ⟨hcoded, bitAt m pos :: w, ?_, holdsBits_append (a := [bitAt m pos]).2 ⟨hbit, hbits⟩, ?_⟩
      · rw [hcode, List.append_assoc, List.singleton_append]
      · rw [hnext, List.length_cons]
        omega

theorem decodeOne_ok {b : Byte} {next : Nat} (hwf : t.wf = true) (h : decodeOne m lim t pos = .ok (b, next)) :
    (t.entry b.toNat).len ≠ 0#8 ∧ holdsBits m pos (codeBits (t.entry b.toNat)) ∧
      next = pos + (codeBits (t.entry b.toNat)).length ∧ next ≤ 8 * lim := by
  have hprogress := decodeOne_progress h
  rw [decodeOne] at h
  by_cases hempty : Nat.beq (maxLen t) 0 = true
  · rw [if_pos hempty] at h
    cases h
  rw [if_neg hempty] at h
  obtain ⟨hcoded, w, hcode, hbits, hnext⟩ := code_of_decodeFrom (done := []) hwf h
  rw [List.nil_append] at hcode
  exact ⟨hcoded, hcode ▸ hbits, hcode ▸ hnext, hprogress.2⟩

theorem decodeFrom_error {left n acc : Nat} {e : Err} (h : decodeFrom m lim t left n acc pos = .error e) :
    e.code = .exhaust ∨ e.code = .nomatch := by
  induction left generalizing n acc pos with
  | zero =>
    cases h
    exact .inr rfl
  | succ left ih =>
    rw [decodeFrom] at h
    by_cases hlim : pos < 8 * lim
    · rw [nextBit_of_lt hlim] at h
      dsimp only at h
      split at h
      · cases h
      · exact ih h
    · rw [nextBit_of_le (Nat.le_of_not_lt hlim)] at h
      cases h
      exact .inl rfl

theorem decodeOne_error {e : Err} (h : decodeOne m lim t pos = .error e) : e.code = .exhaust ∨ e.code = .nomatch := by
  rw [decodeOne] at h
  split at h
  · cases h
    exact .inr rfl
  · exact decodeFrom_error h

/-- 45_huffman.md R153: a decoder reads no byte at or behind its limit. -/
theorem decodeFrom_congr {m' : Memory} (hsame : ∀ a, a < lim → m'.read a = m.read a) (left n acc : Nat) :
    decodeFrom m' lim t left n acc pos = decodeFrom m lim t left n acc pos := by
  induction left generalizing n acc pos with
  | zero => rfl
  | succ left ih =>
    have hbit : nextBit m' lim pos = nextBit m lim pos := by
      by_cases hlim : pos < 8 * lim
      · rw [nextBit_of_lt hlim, nextBit_of_lt hlim, bitAt, bitAt, hsame _ (by omega)]
      · rw [nextBit_of_le (Nat.le_of_not_lt hlim), nextBit_of_le (Nat.le_of_not_lt hlim)]
    simp only [decodeFrom, hbit, ih]

theorem decodeOne_congr {m' : Memory} (hsame : ∀ a, a < lim → m'.read a = m.read a) :
    decodeOne m' lim t pos = decodeOne m lim t pos := by
  simp only [decodeOne, decodeFrom_congr hsame]

end

/-! ### Many symbols (45_huffman.md R155) -/

section
variable {m : Memory} {t : CodeTable} {lim pos : Nat}

/-- Over the symbols whose codes stand in the segment, the decoder goes on behind them. -/
theorem decodeMany_of_reads {seq : List Byte} (hwf : t.wf = true) (hread : uniquelyReadable t)
    (h : reads m t pos lim seq) (n : Nat) :
    decodeMany m lim t (seq.length + n) pos =
      (decodeMany m lim t n (pos + (bitsOf t seq).length)).map fun d => (seq ++ d.1, d.2) := by
  induction seq generalizing pos with
  | nil =>
    rw [List.length_nil, Nat.zero_add, bitsOf_nil, List.length_nil, Nat.add_zero]
    cases decodeMany m lim t n pos <;> rfl
  | cons b seq ih =>
    obtain ⟨hb, hbits, hroom, hseq⟩ := reads_cons.1 h
    rw [List.length_cons, Nat.add_right_comm, decodeMany, decodeOne_of_code hwf hread hb hbits hroom]
    dsimp only
    rw [ih hseq, bitsOf_cons, List.length_append, Nat.add_assoc]
    cases decodeMany m lim t n (pos + ((codeBits (t.entry b.toNat)).length + (bitsOf t seq).length)) <;> rfl

theorem decodeMany_ok {n : Nat} {seq : List Byte} {next : Nat} (h : decodeMany m lim t n pos = .ok (seq, next)) :
    seq.length = n ∧ pos ≤ next ∧ (next = pos ∨ next ≤ 8 * lim) := by
  induction n generalizing pos seq with
  | zero =>
    cases h
    exact ⟨rfl, Nat.le_refl _, .inl rfl⟩
  | succ n ih =>
    rw [decodeMany] at h
    cases hone : decodeOne m lim t pos with
    | error e => rw [hone] at h; cases h
    | ok d =>
      have hprogress := decodeOne_progress hone
      cases hmany : decodeMany m lim t n d.2 with
      | error e => simp only [hone, hmany] at h; cases h
      | ok rest =>
        simp only [hone, hmany] at h
        cases h
        obtain ⟨hlen, hle, hend⟩ := ih hmany
        exact ⟨by rw [List.length_cons, hlen], by omega, .inr (by omega)⟩

theorem reads_of_decodeMany {n : Nat} {seq : List Byte} {next : Nat} (hwf : t.wf = true)
    (h : decodeMany m lim t n pos = .ok (seq, next)) :
    reads m t pos lim seq ∧ next = pos + (bitsOf t seq).length := by
  induction n generalizing pos seq with
  | zero =>
    cases h
    exact ⟨reads_nil m t _ lim, rfl⟩
  | succ n ih =>
    rw [decodeMany] at h
    cases hone : decodeOne m lim t pos with
    | error e => rw [hone] at h; cases h
    | ok d =>
      obtain ⟨hcoded, hbits, hnext, hlim⟩ := decodeOne_ok hwf hone
      cases hmany : decodeMany m lim t n d.2 with
      | error e => simp only [hone, hmany] at h; cases h
      | ok rest =>
        simp only [hone, hmany] at h
        cases h
        rw [hnext] at hmany hlim
        obtain ⟨hreads, hend⟩ := ih hmany
        exact ⟨reads_cons.2 ⟨hcoded, hbits, hlim, hreads⟩, by rw [hend, bitsOf_cons, List.length_append, Nat.add_assoc]⟩

theorem decodeMany_error {n : Nat} {e : Err} (h : decodeMany m lim t n pos = .error e) :
    e.code = .exhaust ∨ e.code = .nomatch := by
  induction n generalizing pos with
  | zero => cases h
  | succ n ih =>
    rw [decodeMany] at h
    cases hone : decodeOne m lim t pos with
    | error e' =>
      rw [hone] at h
      cases h
      exact decodeOne_error hone
    | ok d =>
      cases hmany : decodeMany m lim t n d.2 with
      | error e' =>
        simp only [hone, hmany] at h
        cases h
        exact ih hmany
      | ok rest => simp only [hone, hmany] at h; cases h

theorem decodeMany_succ_of_error {n : Nat} {e : Err} (h : decodeOne m lim t pos = .error e) :
    decodeMany m lim t (n + 1) pos = .error e := by
  rw [decodeMany, h]

theorem decodeMany_congr {m' : Memory} (hsame : ∀ a, a < lim → m'.read a = m.read a) (n : Nat) :
    decodeMany m' lim t n pos = decodeMany m lim t n pos := by
  induction n generalizing pos with
  | zero => rfl
  | succ n ih => simp only [decodeMany, decodeOne_congr hsame, ih]

end

/-! ### The lockstep loop of `HUF_DEC_AC` (45_huffman.md R156) -/

/-- How many blocks a pair of symbols ends. -/
def eobCount (run val : Byte) : Nat := if run = 0#8 ∧ val = 0#8 then 1 else 0

theorem count_zip_cons (run val : Byte) (runs vals : List Byte) :
    ((run :: runs).zip (val :: vals)).count (0#8, 0#8) = (runs.zip vals).count (0#8, 0#8) + eobCount run val := by
  rw [List.zip_cons_cons, List.count_cons, eobCount]
  simp [Prod.ext_iff]

theorem eobsLeft_eq (run val : Byte) (eobs : Nat) :
    (if (run == 0#8 && val == 0#8) = true then eobs else eobs + 1) = eobs + 1 - eobCount run val := by
  rw [eobCount]
  by_cases h : run = 0#8 ∧ val = 0#8
  · rw [if_pos (by simp [h]), if_pos h, Nat.add_sub_cancel]
  · rw [if_neg (by simpa using h), if_neg h, Nat.sub_zero]

theorem eobCount_le (run val : Byte) : eobCount run val ≤ 1 := by
  rw [eobCount]
  split <;> omega

/-- The pairs of two sequences as far as a loop over `eobs` blocks goes: it does not end before the last of them. -/
def WithinBlocks (eobs : Nat) (runs vals : List Byte) : Prop :=
  (runs.zip vals).count (0#8, 0#8) ≤ eobs ∧
    ((runs.zip vals).count (0#8, 0#8) = eobs → ∀ x ∈ (runs.zip vals).getLast?, x = (0#8, 0#8))

theorem withinBlocks_cons {eobs : Nat} {run val : Byte} {runs vals : List Byte} (hlen : runs.length = vals.length)
    (h : WithinBlocks eobs (run :: runs) (val :: vals)) :
    ∃ left, eobs = left + 1 ∧ WithinBlocks (left + 1 - eobCount run val) runs vals := by
  obtain ⟨hcount, hlast⟩ := h
  rw [count_zip_cons] at hcount hlast
  have hone := eobCount_le run val
  have hpos : eobs ≠ 0 := by
    rintro rfl
    have hall := hlast (by omega)
    cases runs with
    | nil =>
      cases vals with
      | cons v vals => simp at hlen
      | nil =>
        obtain ⟨rfl, rfl⟩ : run = 0#8 ∧ val = 0#8 := Prod.mk.inj (hall (run, val) rfl)
        have : eobCount 0#8 0#8 = 1 := rfl
        omega
    | cons r runs =>
      cases vals with
      | nil => simp at hlen
      | cons v vals =>
        obtain ⟨x, hx⟩ : ∃ x, ((r :: runs).zip (v :: vals)).getLast? = some x :=
          ⟨_, List.getLast?_eq_some_getLast (by simp)⟩
        obtain rfl := hall x (by rw [List.zip_cons_cons, List.zip_cons_cons, List.getLast?_cons_cons,
          ← List.zip_cons_cons]; exact hx)
        have hmem := List.mem_of_getLast? hx
        have := List.count_pos_iff.2 hmem
        omega
  obtain ⟨left, rfl⟩ := Nat.exists_eq_succ_of_ne_zero hpos
  refine ⟨left, rfl, by omega, fun heq x hx => hlast (by omega) x ?_⟩
  rw [List.zip_cons_cons]
  cases hzip : runs.zip vals with
  | nil => rw [hzip] at hx; cases hx
  | cons y rest => rwa [List.getLast?_cons_cons, ← hzip]

section
variable {src : AcSource} {pos1 pos2 : Nat}

theorem acLoop_zero (src : AcSource) (fuel pos1 pos2 : Nat) : acLoop src fuel 0 pos1 pos2 = .ok ([], [], pos1, pos2) := by
  cases fuel <;> rfl

/-- Over pairs whose codes stand in the two segments, the loop goes on behind them. -/
theorem acLoop_of_reads {runs vals : List Byte} {eobs : Nat} (hrunTable : src.runTable.wf = true ∧ uniquelyReadable src.runTable)
    (hvalTable : src.valTable.wf = true ∧ uniquelyReadable src.valTable) (hlen : runs.length = vals.length)
    (hwithin : WithinBlocks eobs runs vals) (hruns : reads src.cbuf src.runTable pos1 src.runLim runs)
    (hvals : reads src.cbuf src.valTable pos2 src.valLim vals) (fuel : Nat) :
    acLoop src (runs.length + fuel) eobs pos1 pos2 =
      (acLoop src fuel (eobs - (runs.zip vals).count (0#8, 0#8)) (pos1 + (bitsOf src.runTable runs).length)
        (pos2 + (bitsOf src.valTable vals).length)).map fun d => (runs ++ d.1, vals ++ d.2.1, d.2.2) := by
  induction runs generalizing vals eobs pos1 pos2 with
  | nil =>
    obtain rfl := List.length_eq_zero_iff.1 hlen.symm
    rw [bitsOf_nil, bitsOf_nil, List.length_nil, List.length_nil, Nat.zero_add, Nat.add_zero, Nat.add_zero, List.zip_nil_left,
      List.count_nil, Nat.sub_zero]
    cases acLoop src fuel eobs pos1 pos2 <;> rfl
  | cons run runs ih =>
    cases vals with
    | nil => simp at hlen
    | cons val vals =>
      replace hlen : runs.length = vals.length := Nat.succ.inj hlen
      obtain ⟨left, rfl, htail⟩ := withinBlocks_cons hlen hwithin
      obtain ⟨hrun, hrunBits, hrunRoom, hruns⟩ := reads_cons.1 hruns
      obtain ⟨hval, hvalBits, hvalRoom, hvals⟩ := reads_cons.1 hvals
      rw [List.length_cons, Nat.add_right_comm, acLoop, decodeOne_of_code hrunTable.1 hrunTable.2 hrun hrunBits hrunRoom]
      dsimp only
      rw [decodeOne_of_code hvalTable.1 hvalTable.2 hval hvalBits hvalRoom]
      dsimp only
      rw [eobsLeft_eq, ih hlen htail hruns hvals, count_zip_cons, Nat.sub_sub, Nat.add_comm (eobCount run val), bitsOf_cons, bitsOf_cons,
        List.length_append, List.length_append, Nat.add_assoc, Nat.add_assoc]
      generalize acLoop src fuel _ _ _ = r
      cases r <;> rfl

/-- One pass of a loop that answers: a run symbol, a value symbol, and the passes behind them. -/
theorem acLoop_succ_ok {fuel eobs end1 end2 : Nat} {runs vals : List Byte}
    (h : acLoop src (fuel + 1) (eobs + 1) pos1 pos2 = .ok (runs, vals, end1, end2)) :
    ∃ d d' runs' vals', decodeOne src.cbuf src.runLim src.runTable pos1 = .ok d ∧
      decodeOne src.cbuf src.valLim src.valTable pos2 = .ok d' ∧
      acLoop src fuel (eobs + 1 - eobCount d.1 d'.1) d.2 d'.2 = .ok (runs', vals', end1, end2) ∧
      runs = d.1 :: runs' ∧ vals = d'.1 :: vals' := by
  rw [acLoop] at h
  cases hrun : decodeOne src.cbuf src.runLim src.runTable pos1 with
  | error e => simp only [hrun] at h; cases h
  | ok d =>
    cases hval : decodeOne src.cbuf src.valLim src.valTable pos2 with
    | error e => simp only [hrun, hval] at h; cases h
    | ok d' =>
      simp only [hrun, hval, eobsLeft_eq] at h
      cases hloop : acLoop src fuel (eobs + 1 - eobCount d.1 d'.1) d.2 d'.2 with
      | error e => simp only [hloop] at h; cases h
      | ok rest =>
        simp only [hloop] at h
        cases h
        exact ⟨d, d', _, _, rfl, rfl, hloop, rfl, rfl⟩

/-- What the loop answers: as many runs as values, with as many EOB pairs as asked for, the last pair one of them. -/
theorem acLoop_ok {fuel eobs : Nat} {runs vals : List Byte} {end1 end2 : Nat}
    (h : acLoop src fuel eobs pos1 pos2 = .ok (runs, vals, end1, end2)) :
    runs.length = vals.length ∧ runs.length ≤ fuel ∧ (runs.zip vals).count (0#8, 0#8) = eobs ∧
      ∀ x ∈ (runs.zip vals).getLast?, x = (0#8, 0#8) := by
  induction fuel generalizing eobs pos1 pos2 runs vals with
  | zero =>
    cases eobs with
    | zero => cases h; simp
    | succ eobs => cases h
  | succ fuel ih =>
    cases eobs with
    | zero => cases h; simp
    | succ eobs =>
      obtain ⟨d, d', runs', vals', hrun, hval, hloop, rfl, rfl⟩ := acLoop_succ_ok h
      obtain ⟨hlen, hfuel, hcount, hlast⟩ := ih hloop
      have hone := eobCount_le d.1 d'.1
      refine ⟨by rw [List.length_cons, List.length_cons, hlen], by rw [List.length_cons]; omega,
        by rw [count_zip_cons, hcount]; omega, fun x hx => ?_⟩
      rw [List.zip_cons_cons] at hx
      cases hzip : runs'.zip vals' with
      | cons y rest =>
        rw [hzip, List.getLast?_cons_cons, ← hzip] at hx
        exact hlast x hx
      | nil =>
        rw [hzip] at hx
        rw [hzip, List.count_nil] at hcount
        obtain rfl : (d.1, d'.1) = x := Option.some.inj hx
        have heob : eobCount d.1 d'.1 ≠ 0 := by omega
        rw [eobCount, ne_eq, ite_eq_right_iff, Classical.not_imp] at heob
        exact Prod.ext heob.1.1 heob.1.2

theorem reads_of_acLoop {fuel eobs : Nat} {runs vals : List Byte} {end1 end2 : Nat} (hrunTable : src.runTable.wf = true)
    (hvalTable : src.valTable.wf = true) (h : acLoop src fuel eobs pos1 pos2 = .ok (runs, vals, end1, end2)) :
    (reads src.cbuf src.runTable pos1 src.runLim runs ∧ end1 = pos1 + (bitsOf src.runTable runs).length) ∧
      reads src.cbuf src.valTable pos2 src.valLim vals ∧ end2 = pos2 + (bitsOf src.valTable vals).length := by
  induction fuel generalizing eobs pos1 pos2 runs vals with
  | zero =>
    cases eobs with
    | zero => cases h; exact ⟨⟨reads_nil .., rfl⟩, reads_nil .., rfl⟩
    | succ eobs => cases h
  | succ fuel ih =>
    cases eobs with
    | zero => cases h; exact ⟨⟨reads_nil .., rfl⟩, reads_nil .., rfl⟩
    | succ eobs =>
      obtain ⟨d, d', runs', vals', hrun, hval, hloop, rfl, rfl⟩ := acLoop_succ_ok h
      obtain ⟨hcoded, hbits, hnext, hlim⟩ := decodeOne_ok hrunTable hrun
      obtain ⟨hcoded', hbits', hnext', hlim'⟩ := decodeOne_ok hvalTable hval
      rw [hnext, hnext'] at hloop
      rw [hnext] at hlim
      rw [hnext'] at hlim'
      obtain ⟨⟨hruns, hend⟩, hvals, hend'⟩ := ih hloop
      refine ⟨⟨reads_cons.2 ⟨hcoded, hbits, hlim, hruns⟩, ?_⟩, reads_cons.2 ⟨hcoded', hbits', hlim', hvals⟩, ?_⟩
      · rw [hend, bitsOf_cons, List.length_append, Nat.add_assoc]
      · rw [hend', bitsOf_cons, List.length_append, Nat.add_assoc]

theorem acLoop_error {fuel eobs : Nat} {e : Err} (h : acLoop src fuel eobs pos1 pos2 = .error e) :
    e.code = .exhaust ∨ e.code = .nomatch := by
  induction fuel generalizing eobs pos1 pos2 with
  | zero =>
    cases eobs with
    | zero => cases h
    | succ eobs =>
      cases h
      exact .inl rfl
  | succ fuel ih =>
    cases eobs with
    | zero => cases h
    | succ eobs =>
      rw [acLoop] at h
      cases hrun : decodeOne src.cbuf src.runLim src.runTable pos1 with
      | error e' =>
        simp only [hrun] at h
        cases h
        exact decodeOne_error hrun
      | ok d =>
        cases hval : decodeOne src.cbuf src.valLim src.valTable pos2 with
        | error e' =>
          simp only [hrun, hval] at h
          cases h
          exact decodeOne_error hval
        | ok d' =>
          simp only [hrun, hval, eobsLeft_eq] at h
          cases hloop : acLoop src fuel (eobs + 1 - eobCount d.1 d'.1) d.2 d'.2 with
          | error e' =>
            simp only [hloop] at h
            cases h
            exact ih hloop
          | ok rest => simp only [hloop] at h; cases h

theorem acLoop_of_run_error {fuel eobs : Nat} {e : Err}
    (h : decodeOne src.cbuf src.runLim src.runTable pos1 = .error e) :
    acLoop src (fuel + 1) (eobs + 1) pos1 pos2 = .error e := by
  rw [acLoop, h]

theorem acLoop_of_val_error {fuel eobs : Nat} {e : Err} {d : Byte × Nat}
    (hrun : decodeOne src.cbuf src.runLim src.runTable pos1 = .ok d)
    (h : decodeOne src.cbuf src.valLim src.valTable pos2 = .error e) :
    acLoop src (fuel + 1) (eobs + 1) pos1 pos2 = .error e := by
  simp only [acLoop, hrun, h]

theorem acLoop_congr {m' : Memory} (hrun : ∀ a, a < src.runLim → m'.read a = src.cbuf.read a)
    (hval : ∀ a, a < src.valLim → m'.read a = src.cbuf.read a) (fuel eobs : Nat) :
    acLoop { src with cbuf := m' } fuel eobs pos1 pos2 = acLoop src fuel eobs pos1 pos2 := by
  induction fuel generalizing eobs pos1 pos2 with
  | zero => cases eobs <;> rfl
  | succ fuel ih =>
    cases eobs with
    | zero => rfl
    | succ eobs => simp only [acLoop, decodeOne_congr hrun, decodeOne_congr hval, ih]

end

end Sys2Proof.Machine

/-! PROOFS. The Huffman commands on streams and segments (45_huffman.md R152 to R158): `HUF_ENC`, `HUF_DEC`, `HUF_DEC_AC`,
and the obligations O45 to O50. -/

namespace Sys2Proof.Machine

/-! ### `HUF_ENC` (45_huffman.md R152) -/

theorem exec_hufEnc (p : Plane) (k : Kind) (s : State) : exec (.hufEnc p k) s = .next (cmdHufEnc p k s).state := rfl

theorem firstUncoded_eq_none {t : CodeTable} {seq : List Byte} (h : covers t seq) : firstUncoded t seq = none :=
  List.findIdx?_eq_none_iff.2 fun b hb => by simpa using h b hb

theorem firstUncoded_eq_some {t : CodeTable} {seq : List Byte} {e : Nat} (he : e < seq.length)
    (hzero : (t.entry (seq.getD e 0#8).toNat).len = 0#8) (h : covers t (seq.take e)) : firstUncoded t seq = some e := by
  rw [List.getD_eq_getElem _ _ he] at hzero
  refine List.findIdx?_eq_some_iff_getElem.2 ⟨he, by simpa using hzero, fun i hi => ?_⟩
  have hmem : seq[i] ∈ seq.take e := List.mem_take_iff_getElem.2 ⟨i, by omega, rfl⟩
  simpa using h _ hmem

/-- The state after `HUF_ENC`: the packed codes in front of what the segment held. -/
def encodedSegment (p : Plane) (k : Kind) (bits : List Bool) (s : State) : State :=
  { s with
    bs := s.bs.put p k ((s.bs.at p k).writeBytes 0 (packBits bits))
    bslen := s.bslen.put p k (wordOf (byteCount bits)) }

section
variable {s : State} {p : Plane} {k : Kind} {seq : List Byte}

theorem cmdHufEnc_of_overCap (h : 4161600 < (s.slen.at p k).toNat) :
    cmdHufEnc p k s = raise (capError sCap) s := by
  rw [cmdHufEnc, raiseIf_of_lt (a := sCap) h]

variable (hlen : seq.length = (s.slen.at p k).toNat) (hcap : seq.length ≤ 4161600)
  (hsyms : holdsBytes (s.syms.at p k) 0 seq)
include hlen hcap hsyms

theorem cmdHufEnc_of_uncoded {e : Nat} (h : firstUncoded (s.ct.at p k) seq = some e) :
    cmdHufEnc p k s = raise { code := .nocode, info := e } s := by
  rw [cmdHufEnc, raiseIf_of_le (a := sCap) (hlen ▸ hcap), streamSymbols_eq hlen hsyms]
  simp only [h]

variable (hcovers : covers (s.ct.at p k) seq)
include hcovers

theorem cmdHufEnc_of_overflow (h : s.cfg.bsCap.toNat < byteCount (bitsOf (s.ct.at p k) seq)) :
    cmdHufEnc p k s = raise (capError s.cfg.bsCap.toNat) s := by
  rw [cmdHufEnc, raiseIf_of_le (a := sCap) (hlen ▸ hcap), streamSymbols_eq hlen hsyms]
  simp only [firstUncoded_eq_none hcovers]
  rw [raiseIf_of_lt (by rwa [length_packBits])]

theorem cmdHufEnc_of_fits (h : byteCount (bitsOf (s.ct.at p k) seq) ≤ s.cfg.bsCap.toNat) :
    cmdHufEnc p k s = .ok (encodedSegment p k (bitsOf (s.ct.at p k) seq) s) := by
  rw [cmdHufEnc, raiseIf_of_le (a := sCap) (hlen ▸ hcap), streamSymbols_eq hlen hsyms]
  simp only [firstUncoded_eq_none hcovers]
  rw [raiseIf_of_le (by rwa [length_packBits]), length_packBits]
  rfl

end

/-- What a memory with packed bits in front holds: the bits, zeros up to a byte, and behind it what it held. -/
theorem holdsBits_writeBytes_packBits (m : Memory) (bits : List Bool) :
    holdsBits (m.writeBytes 0 (packBits bits)) 0 bits ∧
      (∀ i, bits.length ≤ i → i < 8 * byteCount bits → bitAt (m.writeBytes 0 (packBits bits)) i = false) ∧
      ∀ a, byteCount bits ≤ a → (m.writeBytes 0 (packBits bits)).read a = m.read a := by
  have hholds := holdsBytes_writeBytes m 0 (packBits bits)
  refine ⟨by simpa using holdsBits_of_packed hholds, fun i hle hlt => ?_, fun a ha => ?_⟩
  · have hbit := packBytes_bit (byteCount bits) bits i hlt
    rw [List.getD_eq_default _ _ hle] at hbit
    have hread := hholds (i / 8) (by rw [length_packBits]; omega)
    rw [Nat.zero_add] at hread
    rw [bitAt, hread]
    exact hbit
  · exact Memory.read_writeBytes_of_outside (.inr (by rw [length_packBits]; omega))

/-- Settles O45. -/
theorem hufEncPacksTheCodes : Obligations.HufEncPacksTheCodes := by
  refine fun s p k => ⟨fun h => ?_, fun seq hlen hcap hsyms => ⟨fun e he hzero hfront => ?_, fun hcovers h => ?_,
    fun hcovers h => ?_⟩⟩
  · rw [exec_hufEnc, cmdHufEnc_of_overCap h, Run.state_raise, errorEntry_sCap]
  · rw [exec_hufEnc, cmdHufEnc_of_uncoded hlen hcap hsyms (firstUncoded_eq_some he hzero hfront)]
    rfl
  · rw [exec_hufEnc, cmdHufEnc_of_overflow hlen hcap hsyms hcovers h, Run.state_raise, capError, errorEntry_word]
  · refine ⟨_, ?_, holdsBits_writeBytes_packBits (s.bs.at p k) _⟩
    rw [exec_hufEnc, cmdHufEnc_of_fits hlen hcap hsyms hcovers h]
    rfl

/-! ### `HUF_DEC` (45_huffman.md R155) -/

theorem exec_hufDec (p : Plane) (k : Kind) (s : State) : exec (.hufDec p k) s = .next (cmdHufDec p k s).state := rfl

theorem wordOf_bytesUsed (c : Word) (n : Nat) :
    wordOf (bytesUsed (8 * c.toNat + n)) = c + BitVec.ofNat 32 ((n + 7) / 8) := by
  rw [bytesUsed, Nat.add_assoc, Nat.mul_add_div (by decide), wordOf_toNat_add]

/-- The state after `HUF_DEC`. -/
def decodedSegment (p : Plane) (k : Kind) (seq : List Byte) (c : Word) (s : State) : State :=
  { setStream p k seq s with cptr := c }

section
variable {s : State} {p : Plane} {k : Kind} {seq : List Byte}

theorem cmdHufDec_of_bufferOverCap (h : s.cfg.cbufCap.toNat < s.clen.toNat) :
    cmdHufDec p k s = raise (capError s.cfg.cbufCap.toNat) s := by
  rw [cmdHufDec, raiseIf_of_lt h]

variable (hclen : s.clen.toNat ≤ s.cfg.cbufCap.toNat)
include hclen

theorem cmdHufDec_of_countOverCap (h : 4161600 < s.count.toNat) : cmdHufDec p k s = raise (capError sCap) s := by
  rw [cmdHufDec, raiseIf_of_le hclen, raiseIf_of_lt (a := sCap) h]

variable (hcount : s.count.toNat ≤ 4161600)
include hcount

/-- Past the checks, `HUF_DEC` decodes `COUNT` symbols and then writes. -/
theorem cmdHufDec_of_checked : cmdHufDec p k s =
    withResult (decodeMany s.cbuf s.clen.toNat (s.ct.at p k) s.count.toNat (8 * s.cptr.toNat)) s fun d s =>
      .ok (decodedSegment p k d.1 (wordOf (bytesUsed d.2)) s) := by
  rw [cmdHufDec, raiseIf_of_le hclen, raiseIf_of_le (a := sCap) hcount]
  rfl

theorem cmdHufDec_of_reads (hwf : (s.ct.at p k).wf = true) (hread : uniquelyReadable (s.ct.at p k))
    (hlen : seq.length = s.count.toNat) (h : reads s.cbuf (s.ct.at p k) (8 * s.cptr.toNat) s.clen.toNat seq) :
    cmdHufDec p k s = .ok (decodedSegment p k seq
      (s.cptr + BitVec.ofNat 32 (byteCount (bitsOf (s.ct.at p k) seq))) s) := by
  have hdecode := decodeMany_of_reads hwf hread h 0
  rw [Nat.add_zero, hlen] at hdecode
  rw [cmdHufDec_of_checked hclen hcount, hdecode]
  simp only [decodeMany, Except.map, withResult_ok, List.append_nil, wordOf_bytesUsed, byteCount]

theorem cmdHufDec_of_failsAt (hwf : (s.ct.at p k).wf = true) (hread : uniquelyReadable (s.ct.at p k))
    (hlen : seq.length < s.count.toNat) (h : reads s.cbuf (s.ct.at p k) (8 * s.cptr.toNat) s.clen.toNat seq) {e : Err}
    (hfails : failsAt s.cbuf (s.ct.at p k) (8 * s.cptr.toNat + (bitsOf (s.ct.at p k) seq).length) s.clen.toNat e) :
    cmdHufDec p k s = raise e s := by
  obtain ⟨n, hn⟩ := Nat.exists_eq_add_of_lt hlen
  have hdecode := decodeMany_of_reads hwf hread h (n + 1)
  rw [← Nat.add_assoc, ← hn, decodeMany_succ_of_error (decodeOne_of_failsAt hwf hfails)] at hdecode
  rw [cmdHufDec_of_checked hclen hcount, hdecode]
  rfl

theorem cmdHufDec_of_first_error (hpos : 0 < s.count.toNat) {e : Err}
    (h : decodeOne s.cbuf s.clen.toNat (s.ct.at p k) (8 * s.cptr.toNat) = .error e) : cmdHufDec p k s = raise e s := by
  obtain ⟨n, hn⟩ := Nat.exists_eq_succ_of_ne_zero (Nat.ne_of_gt hpos)
  rw [cmdHufDec_of_checked hclen hcount, hn, Nat.succ_eq_add_one, decodeMany_succ_of_error h]
  rfl

end

theorem setStream_eq (p : Plane) (k : Kind) (bytes : List Byte) (s : State) : setStream p k bytes s =
    { s with
      syms := s.syms.put p k ((s.syms.at p k).writeBytes 0 bytes)
      slen := s.slen.put p k (wordOf bytes.length)
      srd := s.srd.put p k 0#32 } := rfl

theorem read_writeBytes_behind (m : Memory) (bytes : List Byte) {n : Nat} (hlen : bytes.length = n) (a : Nat)
    (ha : n ≤ a) : (m.writeBytes 0 bytes).read a = m.read a :=
  Memory.read_writeBytes_of_outside (.inr (by omega))

/-- Settles O46. -/
theorem hufDecDecodesASegment : Obligations.HufDecDecodesASegment := by
  intro s p k seq
  dsimp only
  intro hclen hlen hcap hwf hread hcovers hbits hroom
  have hreads : reads s.cbuf (s.ct.at p k) (8 * s.cptr.toNat) s.clen.toNat seq :=
    ⟨hcovers, hbits, .inr (by rw [byteCount] at hroom; omega)⟩
  refine ⟨_, ?_, holdsBytes_writeBytes (s.syms.at p k) 0 seq, read_writeBytes_behind _ _ rfl⟩
  rw [exec_hufDec, cmdHufDec_of_reads hclen (hlen ▸ hcap) hwf hread hlen hreads, decodedSegment, setStream_eq, hlen,
    wordOf_toNat]
  rfl

/-! ### `HUF_DEC_AC` (45_huffman.md R156) -/

theorem exec_hufDecAc (p : Plane) (s : State) : exec (.hufDecAc p) s = .next (cmdHufDecAc p s).state := rfl

/-- The lengths that the header declares for a plane's AC segments. -/
def runBytes (p : Plane) (s : State) : Nat := (s.aclen.get p).run.toNat

def valBytes (p : Plane) (s : State) : Nat := (s.aclen.get p).val.toNat

/-- What `HUF_DEC_AC` does with the decoded pairs: both segments must be used up, and only then it writes. -/
def commitPairs (p : Plane) (d : List Byte × List Byte × Nat × Nat) (s : State) : Run :=
  raiseIf (bytesUsed d.2.2.1 != s.cptr.toNat + runBytes p s) { code := .format, info := bytesUsed d.2.2.1 } s fun s =>
  raiseIf (bytesUsed d.2.2.2 != s.cptr.toNat + runBytes p s + valBytes p s)
    { code := .format, info := bytesUsed d.2.2.2 } s fun s =>
  .ok { setStream p .val d.2.1 (setStream p .run d.1 s) with
    cptr := wordOf (s.cptr.toNat + runBytes p s + valBytes p s) }

/-- The loop of `HUF_DEC_AC`, over all blocks. -/
def decodePairs (p : Plane) (s : State) : Except Err (List Byte × List Byte × Nat × Nat) :=
  acLoop (acSource p s) (8 * runBytes p s + 1) (blockCount s) (8 * s.cptr.toNat) (8 * (s.cptr.toNat + runBytes p s))

/-- The state after `HUF_DEC_AC`. -/
def decodedPairs (p : Plane) (runs vals : List Byte) (s : State) : State :=
  { setStream p .val vals (setStream p .run runs s) with
    cptr := s.cptr + BitVec.ofNat 32 (runBytes p s + valBytes p s) }

section
variable {s : State} {p : Plane}

theorem cmdHufDecAc_of_overCap (h : s.cfg.cbufCap.toNat < s.clen.toNat) :
    cmdHufDecAc p s = raise (capError s.cfg.cbufCap.toNat) s := by
  rw [cmdHufDecAc, raiseIf_of_lt h]

variable (hclen : s.clen.toNat ≤ s.cfg.cbufCap.toNat)
include hclen

theorem cmdHufDecAc_of_short (h : s.clen.toNat < s.cptr.toNat + runBytes p s + valBytes p s) :
    cmdHufDecAc p s = raise { code := .trunc, info := s.clen.toNat } s := by
  rw [cmdHufDecAc, raiseIf_of_le hclen]
  exact raiseIf_of_lt h _ _ _

variable (hroom : s.cptr.toNat + runBytes p s + valBytes p s ≤ s.clen.toNat)
include hroom

/-- Past the checks, `HUF_DEC_AC` decodes its pairs and then commits them. -/
theorem cmdHufDecAc_of_checked : cmdHufDecAc p s = withResult (decodePairs p s) s (commitPairs p) := by
  rw [cmdHufDecAc, raiseIf_of_le hclen]
  exact raiseIf_of_le hroom _ _ _

end

section
variable {s : State} {p : Plane} {d : List Byte × List Byte × Nat × Nat}

theorem commitPairs_of_runLeft (h : bytesUsed d.2.2.1 ≠ s.cptr.toNat + runBytes p s) :
    commitPairs p d s = raise { code := .format, info := bytesUsed d.2.2.1 } s := by
  rw [commitPairs, bne_iff_ne.2 h, raiseIf_true]

theorem commitPairs_of_valLeft (hrun : bytesUsed d.2.2.1 = s.cptr.toNat + runBytes p s)
    (h : bytesUsed d.2.2.2 ≠ s.cptr.toNat + runBytes p s + valBytes p s) :
    commitPairs p d s = raise { code := .format, info := bytesUsed d.2.2.2 } s := by
  rw [commitPairs, bne_eq_false_iff_eq.2 hrun, raiseIf_false, bne_iff_ne.2 h, raiseIf_true]

theorem commitPairs_of_used (hrun : bytesUsed d.2.2.1 = s.cptr.toNat + runBytes p s)
    (hval : bytesUsed d.2.2.2 = s.cptr.toNat + runBytes p s + valBytes p s) :
    commitPairs p d s = .ok (decodedPairs p d.1 d.2.1 s) := by
  rw [commitPairs, bne_eq_false_iff_eq.2 hrun, raiseIf_false, bne_eq_false_iff_eq.2 hval, raiseIf_false, decodedPairs,
    ← wordOf_toNat_add, Nat.add_assoc]

end

/-- What the obligations say of the two tables of `HUF_DEC_AC`, of the pairs, and of where their codes stand. -/
structure HoldsPairs (p : Plane) (s : State) (runs vals : List Byte) : Prop where
  runTable : (s.ct.at p .run).wf = true ∧ uniquelyReadable (s.ct.at p .run)
  valTable : (s.ct.at p .val).wf = true ∧ uniquelyReadable (s.ct.at p .val)
  readsRuns : reads s.cbuf (s.ct.at p .run) (8 * s.cptr.toNat) (s.cptr.toNat + runBytes p s) runs
  readsVals : reads s.cbuf (s.ct.at p .val) (8 * (s.cptr.toNat + runBytes p s))
    (s.cptr.toNat + runBytes p s + valBytes p s) vals

section
variable {s : State} {p : Plane} {runs vals : List Byte} (h : HoldsPairs p s runs vals)
include h

/-- Each run symbol takes a bit of its segment, so the loop is allowed a pass for each, and one more. -/
theorem HoldsPairs.length_le : runs.length ≤ 8 * runBytes p s := by
  obtain ⟨hcovers, -, hroom⟩ := h.readsRuns
  rcases hroom with rfl | hroom
  · exact Nat.zero_le _
  · have := length_le_length_bitsOf hcovers
    omega

theorem HoldsPairs.decodePairs_eq (hlen : runs.length = vals.length) (hwithin : WithinBlocks (blockCount s) runs vals) :
    ∃ fuel, decodePairs p s =
      (acLoop (acSource p s) (fuel + 1) (blockCount s - (runs.zip vals).count (0#8, 0#8))
        (8 * s.cptr.toNat + (bitsOf (s.ct.at p .run) runs).length)
        (8 * (s.cptr.toNat + runBytes p s) + (bitsOf (s.ct.at p .val) vals).length)).map
          fun d => (runs ++ d.1, vals ++ d.2.1, d.2.2) := by
  obtain ⟨fuel, hfuel⟩ := Nat.exists_eq_add_of_le h.length_le
  refine ⟨fuel, ?_⟩
  rw [decodePairs, hfuel, Nat.add_assoc]
  exact acLoop_of_reads (src := acSource p s) h.runTable h.valTable hlen hwithin h.readsRuns h.readsVals _

theorem HoldsPairs.decodePairs_of_last (hlen : runs.length = vals.length)
    (hcount : (runs.zip vals).count (0#8, 0#8) = blockCount s)
    (hlast : ∀ x ∈ (runs.zip vals).getLast?, x = (0#8, 0#8)) :
    decodePairs p s = .ok (runs, vals, 8 * s.cptr.toNat + (bitsOf (s.ct.at p .run) runs).length,
      8 * (s.cptr.toNat + runBytes p s) + (bitsOf (s.ct.at p .val) vals).length) := by
  obtain ⟨fuel, hloop⟩ := h.decodePairs_eq hlen ⟨Nat.le_of_eq hcount, fun _ => hlast⟩
  rw [hloop, hcount, Nat.sub_self, acLoop_zero]
  simp only [Except.map, List.append_nil]

theorem HoldsPairs.decodePairs_of_runFails (hlen : runs.length = vals.length)
    (hcount : (runs.zip vals).count (0#8, 0#8) < blockCount s) {e : Err}
    (hfails : failsAt s.cbuf (s.ct.at p .run) (8 * s.cptr.toNat + (bitsOf (s.ct.at p .run) runs).length)
      (s.cptr.toNat + runBytes p s) e) : decodePairs p s = .error e := by
  obtain ⟨fuel, hloop⟩ := h.decodePairs_eq hlen ⟨Nat.le_of_lt hcount, fun heq => absurd heq (Nat.ne_of_lt hcount)⟩
  obtain ⟨left, hleft⟩ := Nat.exists_eq_add_of_lt hcount
  have herror := decodeOne_of_failsAt h.runTable.1 hfails
  rw [hloop, hleft, Nat.add_assoc, Nat.add_sub_cancel_left, acLoop_of_run_error (src := acSource p s) herror]
  rfl

theorem HoldsPairs.decodePairs_of_valFails (hlen : runs.length = vals.length + 1)
    (hcount : (runs.zip vals).count (0#8, 0#8) < blockCount s) {e : Err}
    (hfails : failsAt s.cbuf (s.ct.at p .val) (8 * (s.cptr.toNat + runBytes p s) + (bitsOf (s.ct.at p .val) vals).length)
      (s.cptr.toNat + runBytes p s + valBytes p s) e) : decodePairs p s = .error e := by
  rcases List.eq_nil_or_concat' runs with rfl | ⟨front, run, rfl⟩
  · simp at hlen
  replace hlen : front.length = vals.length := by simpa using hlen
  have hzip : (front ++ [run]).zip vals = front.zip vals := by
    have happend : (front ++ [run]).zip (vals ++ []) = front.zip vals ++ [run].zip [] := List.zip_append hlen
    rwa [List.append_nil, List.zip_nil_right, List.append_nil] at happend
  rw [hzip] at hcount
  obtain ⟨hfront, hrun⟩ := reads_append h.readsRuns
  obtain ⟨hcoded, hbits, hlim, -⟩ := reads_cons.1 hrun
  have hprefix : HoldsPairs p s front vals := ⟨h.runTable, h.valTable, hfront, h.readsVals⟩
  obtain ⟨fuel, hloop⟩ := hprefix.decodePairs_eq hlen
    ⟨Nat.le_of_lt hcount, fun heq => absurd heq (Nat.ne_of_lt hcount)⟩
  obtain ⟨left, hleft⟩ := Nat.exists_eq_add_of_lt hcount
  have hone := decodeOne_of_code h.runTable.1 h.runTable.2 hcoded hbits hlim
  have herror := decodeOne_of_failsAt h.valTable.1 hfails
  rw [hloop, hleft, Nat.add_assoc, Nat.add_sub_cancel_left, acLoop_of_val_error (src := acSource p s) hone herror]
  rfl

end

theorem bytesUsed_eq (c n : Nat) : bytesUsed (8 * c + n) = c + (n + 7) / 8 := by
  rw [bytesUsed, Nat.add_assoc, Nat.mul_add_div (by decide)]

section
variable {s : State} {p : Plane} {runs vals : List Byte}

/-- 45_huffman.md R156: the pairs of two segments that they fill are decoded and committed. -/
theorem cmdHufDecAc_of_pairs (hclen : s.clen.toNat ≤ s.cfg.cbufCap.toNat)
    (hroom : s.cptr.toNat + runBytes p s + valBytes p s ≤ s.clen.toNat) (h : HoldsPairs p s runs vals)
    (hlen : runs.length = vals.length) (hcount : (runs.zip vals).count (0#8, 0#8) = blockCount s)
    (hlast : ∀ x ∈ (runs.zip vals).getLast?, x = (0#8, 0#8))
    (hrun : runBytes p s = byteCount (bitsOf (s.ct.at p .run) runs))
    (hval : valBytes p s = byteCount (bitsOf (s.ct.at p .val) vals)) :
    cmdHufDecAc p s = .ok (decodedPairs p runs vals s) := by
  rw [cmdHufDecAc_of_checked hclen hroom, h.decodePairs_of_last hlen hcount hlast, withResult_ok]
  refine commitPairs_of_used ?_ ?_
  · rw [bytesUsed_eq, hrun]
    rfl
  · rw [bytesUsed_eq, hval]
    rfl

end

/-- The symbols in the state after `HUF_DEC_AC`. -/
theorem decodedPairs_eq (p : Plane) (runs vals : List Byte) (s : State) : decodedPairs p runs vals s =
    { s with
      syms := (s.syms.put p .run ((s.syms.at p .run).writeBytes 0 runs)).put p .val
        ((s.syms.at p .val).writeBytes 0 vals)
      slen := (s.slen.put p .run (wordOf runs.length)).put p .val (wordOf vals.length)
      srd := (s.srd.put p .run 0#32).put p .val 0#32
      cptr := s.cptr + BitVec.ofNat 32 (runBytes p s + valBytes p s) } := by
  simp [decodedPairs, setStream]

/-- Settles O47. -/
theorem hufDecAcDecodesTwoSegments : Obligations.HufDecAcDecodesTwoSegments := by
  intro s p runs vals
  dsimp only
  intro hclen hroom htables hcoversRuns hcoversVals hlen hcount hlast hrun hval hrunBits hvalBits
  have hholds : HoldsPairs p s runs vals :=
    { runTable := htables .run (.inl rfl)
      valTable := htables .val (.inr rfl)
      readsRuns := ⟨hcoversRuns, hrunBits, .inr (by rw [byteCount] at hrun; rw [runBytes]; omega)⟩
      readsVals := ⟨hcoversVals, hvalBits, .inr (by rw [byteCount] at hval; rw [runBytes, valBytes]; omega)⟩ }
  refine ⟨_, _, ?_, holdsBytes_writeBytes (s.syms.at p .run) 0 runs, read_writeBytes_behind _ _ rfl,
    holdsBytes_writeBytes (s.syms.at p .val) 0 vals, read_writeBytes_behind _ _ rfl⟩
  rw [exec_hufDecAc, cmdHufDecAc_of_pairs hclen hroom hholds hlen hcount hlast hrun hval, decodedPairs_eq]
  rfl

end Sys2Proof.Machine

/-! PROOFS. What the Huffman decoders commit and which errors end them (45_huffman.md R153 to R156), that they read nothing
behind the container, and the round trip (45_huffman.md R158): the obligations O48 to O50. -/

namespace Sys2Proof.Machine

/-! ### `HUF_DEC` commits whole or not at all -/

section
variable {s : State} {p : Plane} {k : Kind}

/-- `HUF_DEC` ends with all its symbols written, or with an error of one of three codes and nothing written. -/
theorem cmdHufDec_cases (p : Plane) (k : Kind) (s : State) :
    (∃ d, decodeMany s.cbuf s.clen.toNat (s.ct.at p k) s.count.toNat (8 * s.cptr.toNat) = .ok d ∧
      cmdHufDec p k s = .ok (decodedSegment p k d.1 (wordOf (bytesUsed d.2)) s)) ∨
    ∃ e, cmdHufDec p k s = raise e s ∧ (e.code = .cap ∨ e.code = .exhaust ∨ e.code = .nomatch) := by
  by_cases hclen : s.clen.toNat ≤ s.cfg.cbufCap.toNat
  case neg => exact .inr ⟨_, cmdHufDec_of_bufferOverCap (Nat.lt_of_not_le hclen), .inl rfl⟩
  by_cases hcount : s.count.toNat ≤ 4161600
  case neg => exact .inr ⟨_, cmdHufDec_of_countOverCap hclen (Nat.lt_of_not_le hcount), .inl rfl⟩
  rw [cmdHufDec_of_checked hclen hcount]
  cases hdecode : decodeMany s.cbuf s.clen.toNat (s.ct.at p k) s.count.toNat (8 * s.cptr.toNat) with
  | ok d => exact .inl ⟨d, rfl, rfl⟩
  | error e => exact .inr ⟨e, rfl, .inr (decodeMany_error hdecode)⟩

/-- What `HUF_DEC` writes where it ends without an error. -/
theorem decodedSegment_of_decodeMany {d : List Byte × Nat}
    (h : decodeMany s.cbuf s.clen.toNat (s.ct.at p k) s.count.toNat (8 * s.cptr.toNat) = .ok d) :
    ∃ m c, decodedSegment p k d.1 (wordOf (bytesUsed d.2)) s = { s with
        syms := s.syms.put p k m
        slen := s.slen.put p k s.count
        srd := s.srd.put p k 0#32
        cptr := c } ∧
      (∀ a, s.count.toNat ≤ a → m.read a = (s.syms.at p k).read a) ∧
      s.cptr.toNat ≤ c.toNat ∧ (c = s.cptr ∨ c.toNat ≤ s.clen.toNat) ∧
      ((s.ct.at p k).wf = true → ∃ seq : List Byte, seq.length = s.count.toNat ∧
        reads s.cbuf (s.ct.at p k) (8 * s.cptr.toNat) s.clen.toNat seq ∧ holdsBytes m 0 seq ∧
        c = s.cptr + BitVec.ofNat 32 (byteCount (bitsOf (s.ct.at p k) seq))) := by
  obtain ⟨hlen, hle, hend⟩ := decodeMany_ok h
  have hclen := s.clen.isLt
  have hcptr := s.cptr.isLt
  have hused : bytesUsed d.2 = s.cptr.toNat ∨ s.cptr.toNat ≤ bytesUsed d.2 ∧ bytesUsed d.2 ≤ s.clen.toNat := by
    rw [bytesUsed]
    omega
  refine ⟨_, wordOf (bytesUsed d.2), ?_, read_writeBytes_behind (s.syms.at p k) d.1 hlen, ?_, ?_, fun hwf => ?_⟩
  · rw [decodedSegment, setStream_eq, hlen, wordOf_toNat]
  · rw [wordOf, BitVec.toNat_ofNat, Nat.mod_eq_of_lt (by omega)]
    omega
  · rcases hused with heq | ⟨-, hle⟩
    · exact .inl (by rw [heq, wordOf_toNat])
    · refine .inr ?_
      rw [wordOf, BitVec.toNat_ofNat, Nat.mod_eq_of_lt (by omega)]
      exact hle
  · obtain ⟨hreads, hnext⟩ := reads_of_decodeMany hwf h
    exact ⟨d.1, hlen, hreads, holdsBytes_writeBytes _ 0 _, by rw [hnext, wordOf_bytesUsed]; rfl⟩

/-- 45_huffman.md R154: an empty table holds no code. -/
theorem decodeOne_of_emptyTable (m : Memory) (lim pos : Nat) :
    decodeOne m lim [] pos = .error { code := .nomatch, info := pos / 8 } := rfl

/-- 45_huffman.md R153: no bit is left. -/
theorem decodeOne_of_exhausted {m : Memory} {lim pos : Nat} {t : CodeTable} (hne : t ≠ []) (hwf : t.wf = true)
    (h : 8 * lim ≤ pos) : decodeOne m lim t pos = .error { code := .exhaust, info := lim } := by
  obtain ⟨x, hx⟩ := List.exists_mem_of_ne_nil t hne
  obtain ⟨-, -, hcoded, -⟩ := CodeTable.bounds_of_mem hwf hx
  have hmax : maxLen t ≠ 0 := fun hzero => hcoded (BitVec.eq_of_toNat_eq (Nat.le_zero.1 (hzero ▸ le_maxLen hx)))
  obtain ⟨left, hleft⟩ := Nat.exists_eq_succ_of_ne_zero hmax
  rw [decodeOne, hleft, Nat.succ_eq_add_one, if_neg (by simp), decodeFrom, nextBit_of_le h]

/-- An error whose information word is a byte position of the container. -/
theorem errorEntry_at (c : ErrCode) (w : Word) (s : State) :
    errorEntry { code := c, info := 8 * w.toNat / 8 } s = { s with err := true, errcode := c, errinfo := w } := by
  rw [Nat.mul_div_cancel_left _ (by decide), errorEntry_word]

end

/-! ### `HUF_DEC_AC` commits whole or not at all -/

section
variable {s : State} {p : Plane}

theorem commitPairs_cases (p : Plane) (d : List Byte × List Byte × Nat × Nat) (s : State) :
    (bytesUsed d.2.2.1 = s.cptr.toNat + runBytes p s ∧
      bytesUsed d.2.2.2 = s.cptr.toNat + runBytes p s + valBytes p s ∧
      commitPairs p d s = .ok (decodedPairs p d.1 d.2.1 s)) ∨
    ∃ e, commitPairs p d s = raise e s ∧ e.code = .format := by
  by_cases hrun : bytesUsed d.2.2.1 = s.cptr.toNat + runBytes p s
  case neg => exact .inr ⟨_, commitPairs_of_runLeft hrun, rfl⟩
  by_cases hval : bytesUsed d.2.2.2 = s.cptr.toNat + runBytes p s + valBytes p s
  case neg => exact .inr ⟨_, commitPairs_of_valLeft hrun hval, rfl⟩
  exact .inl ⟨hrun, hval, commitPairs_of_used hrun hval⟩

/-- `HUF_DEC_AC` ends with all its pairs written, or with an error of one of five codes and nothing written. -/
theorem cmdHufDecAc_cases (p : Plane) (s : State) :
    (∃ d, decodePairs p s = .ok d ∧ bytesUsed d.2.2.1 = s.cptr.toNat + runBytes p s ∧
      bytesUsed d.2.2.2 = s.cptr.toNat + runBytes p s + valBytes p s ∧
      cmdHufDecAc p s = .ok (decodedPairs p d.1 d.2.1 s)) ∨
    ∃ e, cmdHufDecAc p s = raise e s ∧
      (e.code = .cap ∨ e.code = .trunc ∨ e.code = .exhaust ∨ e.code = .nomatch ∨ e.code = .format) := by
  by_cases hclen : s.clen.toNat ≤ s.cfg.cbufCap.toNat
  case neg => exact .inr ⟨_, cmdHufDecAc_of_overCap (Nat.lt_of_not_le hclen), .inl rfl⟩
  by_cases hroom : s.cptr.toNat + runBytes p s + valBytes p s ≤ s.clen.toNat
  case neg => exact .inr ⟨_, cmdHufDecAc_of_short hclen (Nat.lt_of_not_le hroom), .inr (.inl rfl)⟩
  rw [cmdHufDecAc_of_checked hclen hroom]
  cases hdecode : decodePairs p s with
  | error e =>
    refine .inr ⟨e, rfl, .inr (.inr ?_)⟩
    exact (acLoop_error hdecode).elim .inl fun h => .inr (.inl h)
  | ok d =>
    rcases commitPairs_cases p d s with ⟨hrun, hval, hcommit⟩ | ⟨e, hcommit, hcode⟩
    · exact .inl ⟨d, rfl, hrun, hval, hcommit⟩
    · exact .inr ⟨e, hcommit, .inr (.inr (.inr (.inr hcode)))⟩

theorem runBytes_lt (p : Plane) (s : State) : runBytes p s < 65536 := (s.aclen.get p).run.isLt

/-- A run symbol takes a bit of a segment that the header declares, so their number fits a word. -/
theorem length_of_decodePairs {runs vals : List Byte} {end1 end2 : Nat}
    (h : decodePairs p s = .ok (runs, vals, end1, end2)) : (wordOf runs.length).toNat = runs.length := by
  obtain ⟨-, hfuel, -⟩ := acLoop_ok h
  have := runBytes_lt p s
  rw [wordOf, BitVec.toNat_ofNat, Nat.mod_eq_of_lt (by omega)]

/-- What `HUF_DEC_AC` writes where it ends without an error. -/
theorem decodedPairs_of_decodePairs {d : List Byte × List Byte × Nat × Nat} (h : decodePairs p s = .ok d)
    (hrun : bytesUsed d.2.2.1 = s.cptr.toNat + runBytes p s)
    (hval : bytesUsed d.2.2.2 = s.cptr.toNat + runBytes p s + valBytes p s) :
    ∃ (mr mv : Memory) (n : Word), decodedPairs p d.1 d.2.1 s = { s with
        syms := (s.syms.put p .run mr).put p .val mv
        slen := (s.slen.put p .run n).put p .val n
        srd := (s.srd.put p .run 0#32).put p .val 0#32
        cptr := s.cptr + BitVec.ofNat 32 (runBytes p s + valBytes p s) } ∧
      (∀ x, n.toNat ≤ x → mr.read x = (s.syms.at p .run).read x ∧ mv.read x = (s.syms.at p .val).read x) ∧
      ((s.ct.at p .run).wf = true → (s.ct.at p .val).wf = true → ∃ runs vals : List Byte,
        runs.length = n.toNat ∧ vals.length = n.toNat ∧ holdsBytes mr 0 runs ∧ holdsBytes mv 0 vals ∧
        reads s.cbuf (s.ct.at p .run) (8 * s.cptr.toNat) (s.cptr.toNat + runBytes p s) runs ∧
        reads s.cbuf (s.ct.at p .val) (8 * (s.cptr.toNat + runBytes p s))
          (s.cptr.toNat + runBytes p s + valBytes p s) vals ∧
        runBytes p s = byteCount (bitsOf (s.ct.at p .run) runs) ∧
        valBytes p s = byteCount (bitsOf (s.ct.at p .val) vals) ∧
        (runs.zip vals).count (0#8, 0#8) = s.blkw.toNat * s.blkh.toNat ∧
        ∀ x ∈ (runs.zip vals).getLast?, x = (0#8, 0#8)) := by
  obtain ⟨runs, vals, end1, end2⟩ := d
  obtain ⟨hlen, -, hcount, hlast⟩ := acLoop_ok h
  have hn := length_of_decodePairs h
  refine ⟨_, _, wordOf runs.length, by rw [decodedPairs_eq, hlen], fun x hx => ⟨?_, ?_⟩, fun hrunTable hvalTable => ?_⟩
  · exact read_writeBytes_behind _ runs hn.symm x hx
  · exact read_writeBytes_behind _ vals (hlen.symm.trans hn.symm) x hx
  · obtain ⟨⟨hruns, hend1⟩, hvals, hend2⟩ := reads_of_acLoop (src := acSource p s) hrunTable hvalTable h
    refine ⟨runs, vals, hn.symm, hlen.symm.trans hn.symm, holdsBytes_writeBytes _ 0 _, holdsBytes_writeBytes _ 0 _, hruns,
      hvals, ?_, ?_, hcount, hlast⟩
    · rw [hend1, bytesUsed_eq] at hrun
      exact (Nat.add_left_cancel hrun).symm
    · rw [hend2, bytesUsed_eq] at hval
      exact (Nat.add_left_cancel hval).symm

theorem decodePairs_of_noBlocks (h : s.blkw.toNat * s.blkh.toNat = 0) :
    decodePairs p s = .ok ([], [], 8 * s.cptr.toNat, 8 * (s.cptr.toNat + runBytes p s)) := by
  rw [decodePairs, show blockCount s = 0 from h, acLoop_zero]

end

/-- Settles O48. -/
theorem decodersCommitWholeOrNotAtAll : Obligations.DecodersCommitWholeOrNotAtAll := by
  refine ⟨fun s p k => ?_, fun s p => ?_, fun s p k seq e hclen hcount hlen hwf hread hreads hfails => ?_,
    fun s p runs vals e => ?_, fun s p k => ⟨fun h => ?_, fun hclen h => ?_, fun hclen hpos hcount => ⟨fun hempty => ?_,
      fun hne hwf hend => ?_⟩⟩, fun s p => ⟨fun h => ?_, fun hclen h => ?_, fun hclen hroom hblocks => ⟨fun ha => ?_,
      fun ha hb => ?_⟩⟩⟩
  · refine ⟨_, exec_hufDec p k s, ?_⟩
    rcases cmdHufDec_cases p k s with ⟨d, hdecode, hrun⟩ | ⟨e, hrun, hcode⟩
    · rw [hrun, Run.state_ok]
      exact .inl (decodedSegment_of_decodeMany hdecode)
    · rw [hrun, Run.state_raise]
      exact .inr ⟨e, rfl, hcode⟩
  · refine ⟨_, exec_hufDecAc p s, ?_⟩
    rcases cmdHufDecAc_cases p s with ⟨d, hdecode, hrunUsed, hvalUsed, hrun⟩ | ⟨e, hrun, hcode⟩
    · rw [hrun, Run.state_ok]
      exact .inl (decodedPairs_of_decodePairs hdecode hrunUsed hvalUsed)
    · rw [hrun, Run.state_raise]
      exact .inr ⟨e, rfl, hcode⟩
  · rw [exec_hufDec, cmdHufDec_of_failsAt hclen hcount hwf hread hlen hreads hfails, Run.state_raise]
  · intro a b start runTable valTable runBits valBits hclen hroom hrunWf hrunRead hvalWf hvalRead hruns hvals
    have hholds : HoldsPairs p s runs vals := ⟨⟨hrunWf, hrunRead⟩, ⟨hvalWf, hvalRead⟩, hruns, hvals⟩
    have hchecked := cmdHufDecAc_of_checked (p := p) hclen hroom
    refine ⟨fun hcount => ⟨fun hlen hfails => ?_, fun hlen hfails => ?_⟩, fun hlen hcount hlast => ?_⟩
    · rw [exec_hufDecAc, hchecked, hholds.decodePairs_of_runFails hlen hcount hfails]
      rfl
    · rw [exec_hufDecAc, hchecked, hholds.decodePairs_of_valFails hlen hcount hfails]
      rfl
    · rw [exec_hufDecAc, hchecked, hholds.decodePairs_of_last hlen hcount hlast, withResult_ok]
      refine ⟨fun hleft => ?_, fun hused hleft => ?_⟩
      · rw [commitPairs_of_runLeft (fun h => hleft (Nat.add_left_cancel ((bytesUsed_eq _ _).symm.trans h))), bytesUsed_eq]
        rfl
      · rw [commitPairs_of_valLeft ((bytesUsed_eq _ _).trans (congrArg _ hused))
          (fun h => hleft (Nat.add_left_cancel ((bytesUsed_eq _ _).symm.trans h))), bytesUsed_eq]
        rfl
  · rw [exec_hufDec, cmdHufDec_of_bufferOverCap h, Run.state_raise, capError, errorEntry_word]
  · rw [exec_hufDec, cmdHufDec_of_countOverCap hclen h, Run.state_raise, errorEntry_sCap]
  · have herror := decodeOne_of_emptyTable s.cbuf s.clen.toNat (8 * s.cptr.toNat)
    rw [← hempty] at herror
    rw [exec_hufDec, cmdHufDec_of_first_error hclen hcount hpos herror, Run.state_raise, errorEntry_at]
  · have herror := decodeOne_of_exhausted (m := s.cbuf) hne hwf (Nat.mul_le_mul_left 8 hend)
    rw [exec_hufDec, cmdHufDec_of_first_error hclen hcount hpos herror, Run.state_raise, errorEntry_word]
  · rw [exec_hufDecAc, cmdHufDecAc_of_overCap h, Run.state_raise, capError, errorEntry_word]
  · rw [exec_hufDecAc, cmdHufDecAc_of_short hclen h, Run.state_raise, errorEntry_word]
  · have hcptr : bytesUsed (8 * s.cptr.toNat) = s.cptr.toNat := bytesUsed_eq s.cptr.toNat 0
    rw [exec_hufDecAc, cmdHufDecAc_of_checked hclen hroom, decodePairs_of_noBlocks hblocks, withResult_ok,
      commitPairs_of_runLeft (by rw [hcptr]; exact fun h => ha (Nat.left_eq_add.1 h)), Run.state_raise, hcptr,
      errorEntry_word]
  · have hzero : runBytes p s = 0 := ha
    have hcptr : bytesUsed (8 * s.cptr.toNat) = s.cptr.toNat := bytesUsed_eq s.cptr.toNat 0
    rw [exec_hufDecAc, cmdHufDecAc_of_checked hclen hroom, decodePairs_of_noBlocks hblocks, withResult_ok, hzero,
      Nat.add_zero, commitPairs_of_valLeft (by rw [hcptr, hzero, Nat.add_zero])
        (by rw [hcptr, hzero, Nat.add_zero]; exact fun h => hb (Nat.left_eq_add.1 h)), Run.state_raise, hcptr,
      errorEntry_word]

/-! ### Nothing at or behind `CLEN` is read (45_huffman.md R153, 46_container.md R172) -/

/-- The state with another content of `CBUF`. -/
def withBuffer (m : Memory) (s : State) : State := { s with cbuf := m }

/-- The run with another content of `CBUF` in the state it ends with. -/
def runWithBuffer (m : Memory) : Run → Run
  | .ok s => .ok (withBuffer m s)
  | .raised s => .raised (withBuffer m s)

theorem state_runWithBuffer (m : Memory) (r : Run) : (runWithBuffer m r).state = withBuffer m r.state := by
  cases r <;> rfl

theorem raiseIf_withBuffer {m : Memory} {c : Bool} {e : Err} {s : State} {go go' : State → Run}
    (hgo : c = false → go' (withBuffer m s) = runWithBuffer m (go s)) :
    raiseIf c e (withBuffer m s) go' = runWithBuffer m (raiseIf c e s go) := by
  cases c with
  | true => rfl
  | false => exact hgo rfl

theorem withResult_withBuffer {α : Type} {m : Memory} {r : Except Err α} {s : State} {go go' : α → State → Run}
    (hgo : ∀ a, go' a (withBuffer m s) = runWithBuffer m (go a s)) :
    withResult r (withBuffer m s) go' = runWithBuffer m (withResult r s go) := by
  cases r with
  | error e => rfl
  | ok a => exact hgo a

section
variable {m : Memory} {s : State} (hsame : ∀ a, a < s.clen.toNat → m.read a = s.cbuf.read a)
include hsame

theorem cmdHufDec_withBuffer (p : Plane) (k : Kind) :
    cmdHufDec p k (withBuffer m s) = runWithBuffer m (cmdHufDec p k s) := by
  refine raiseIf_withBuffer fun _ => raiseIf_withBuffer fun _ => ?_
  change withResult (decodeMany m s.clen.toNat (s.ct.at p k) s.count.toNat (8 * s.cptr.toNat)) (withBuffer m s) _ = _
  rw [decodeMany_congr hsame]
  exact withResult_withBuffer fun _ => rfl

theorem cmdHufDecAc_withBuffer (p : Plane) :
    cmdHufDecAc p (withBuffer m s) = runWithBuffer m (cmdHufDecAc p s) := by
  refine raiseIf_withBuffer fun _ => raiseIf_withBuffer fun hroom => ?_
  have hend : s.cptr.toNat + runBytes p s + valBytes p s ≤ s.clen.toNat := blt_eq_false_iff.1 hroom
  have hloop : decodePairs p (withBuffer m s) = decodePairs p s :=
    acLoop_congr (src := acSource p s) (fun a ha => hsame a (Nat.lt_of_lt_of_le ha (by
      rw [show (acSource p s).runLim = s.cptr.toNat + runBytes p s from rfl]
      omega))) (fun a ha => hsame a (Nat.lt_of_lt_of_le ha hend)) _ _
  change withResult (decodePairs p (withBuffer m s)) (withBuffer m s) (commitPairs p) =
    runWithBuffer m (withResult (decodePairs p s) s (commitPairs p))
  rw [hloop]
  exact withResult_withBuffer fun _ => raiseIf_withBuffer fun _ => raiseIf_withBuffer fun _ => rfl

theorem badMagic_withBuffer : badMagic (withBuffer m s) = badMagic s := by
  have hfields : badMagic (withBuffer m s) =
      (Nat.blt s.clen.toNat 2 || m.read 0 != 0x49#8 || m.read 1 != 0x4D#8) := rfl
  by_cases hshort : Nat.blt s.clen.toNat 2 = true
  · rw [hfields, badMagic, hshort, Bool.true_or, Bool.true_or, Bool.true_or, Bool.true_or]
  · have hlen := blt_eq_false_iff.1 (Bool.eq_false_iff.2 hshort)
    rw [hfields, badMagic, hsame 0 (by omega), hsame 1 (by omega)]

theorem headerCount_of_same (hlen : hdrBytes ≤ s.clen.toNat) (p : Plane) (a : AcKind) :
    headerCount m p a = headerCount s.cbuf p a := by
  have hplace : acNum p a ≤ 5 := by cases p <;> cases a <;> decide
  have hbound : 2320 ≤ s.clen.toNat := hlen
  rw [headerCount, headerCount, hsame _ (by omega), hsame _ (by omega)]

theorem tables_of_same (hlen : hdrBytes ≤ s.clen.toNat) (p : Plane) (k : Kind) :
    m.readBytes (tableOffset p k) 256 = s.cbuf.readBytes (tableOffset p k) 256 := by
  have hplace : tableOffset p k ≤ 2064 := by cases p <;> cases k <;> decide
  have hbound : 2320 ≤ s.clen.toNat := hlen
  rw [Memory.readBytes_eq, Memory.readBytes_eq]
  refine List.map_congr_left fun i hi => hsame _ ?_
  have := List.mem_range.1 hi
  omega

theorem cmdDeframeHdr_withBuffer : cmdDeframeHdr (withBuffer m s) = runWithBuffer m (cmdDeframeHdr s) := by
  refine raiseIf_withBuffer fun _ => ?_
  rw [badMagic_withBuffer hsame]
  refine raiseIf_withBuffer fun _ => raiseIf_withBuffer fun hheader => ?_
  have hlen := blt_eq_false_iff.1 hheader
  have hdeclared : declaredAc m = declaredAc s.cbuf := by
    simp only [declaredAc, headerCount_of_same hsame hlen]
  change raiseIf (Nat.blt s.clen.toNat (hdrBytes + declaredAc m)) _ (withBuffer m s) _ = _
  rw [hdeclared]
  refine raiseIf_withBuffer fun _ => ?_
  have hbound : 2320 ≤ s.clen.toNat := hlen
  simp only [runWithBuffer, withBuffer, headerCount_of_same hsame hlen, tables_of_same hsame hlen,
    hsame 2 (by omega), hsame 3 (by omega)]

end

/-- Settles O50. -/
theorem decodersReadOnlyTheContainer : Obligations.DecodersReadOnlyTheContainer := by
  intro i s t m hi hsame h
  rcases hi with ⟨p, k, rfl⟩ | ⟨p, rfl⟩ | rfl
  · rw [exec_hufDec] at h
    cases h
    rw [exec_hufDec, ← withBuffer, cmdHufDec_withBuffer hsame, state_runWithBuffer]
    rfl
  · rw [exec_hufDecAc] at h
    cases h
    rw [exec_hufDecAc, ← withBuffer, cmdHufDecAc_withBuffer hsame, state_runWithBuffer]
    rfl
  · rw [exec_deframeHdr] at h
    cases h
    rw [exec_deframeHdr, ← withBuffer, cmdDeframeHdr_withBuffer hsame, state_runWithBuffer]
    rfl

/-! ### The round trip (45_huffman.md R158) -/

/-- A stream's own length table, as `HUF_LEN` stores it. -/
theorem read_cellsFrom_huflen (seq : List Byte) :
    (fun sym => (Memory.read (cellsFrom 0 (huflen seq)) sym).toNat) = builtLengths seq := by
  funext sym
  rw [read_cellsFrom, builtLengths]
  by_cases hsym : sym < 256
  · rw [if_pos (by rw [length_huflen]; omega), Nat.sub_zero]
    rfl
  · rw [if_neg (by rw [length_huflen]; omega), List.getD_eq_default _ _ (by rw [length_huflen]; omega)]
    rfl

theorem builtLengths_le (seq : List Byte) (s : Nat) : builtLengths seq s ≤ 255 := Nat.le_of_lt_succ (BitVec.isLt _)

theorem ownBits_of_canon {seq : List Byte} {t : CodeTable} (h : canon (builtLengths seq) = .ok t) :
    ownBits seq = bitsOf t seq := by
  unfold ownBits
  rw [h]

/-- The own code of a sequence: `canon` answers it, each byte has a code in it, and it can be read. -/
theorem exists_ownTable (seq : List Byte) : ∃ t, canon (builtLengths seq) = .ok t ∧ ownBits seq = bitsOf t seq ∧
    covers t seq ∧ t.wf = true ∧ uniquelyReadable t := by
  obtain ⟨root, htree⟩ := exists_builtTree seq
  obtain ⟨t, ht, hentries⟩ := canon_succeeds (builtLengths_le seq) (Nat.le_of_eq htree.kraftSum_eq)
  refine ⟨t, ht, ownBits_of_canon ht, fun b _ hzero => ?_, wf_of_canon (builtLengths_le seq) ht,
    uniquelyReadable_of_canon (builtLengths_le seq) ht⟩
  obtain ⟨hlen, -⟩ := hentries b.toNat b.isLt
  have hpos := (htree.builtLengths_bounds b.isLt).1
  rw [← hlen, hzero] at hpos
  exact absurd hpos (by decide)

section
variable {s : State} {p : Plane} {k : Kind} {seq : List Byte}

theorem cmdHufLen_of_stream (hlen : seq.length = (s.slen.at p k).toNat) (hcap : seq.length ≤ 4161600)
    (hsyms : holdsBytes (s.syms.at p k) 0 seq) :
    cmdHufLen p k s = .ok { s with lt := s.lt.put p k (cellsFrom 0 (huflen seq)) } := by
  rw [cmdHufLen, raiseIf_of_le (a := sCap) (hlen ▸ hcap), streamSymbols_eq hlen hsyms]

theorem cmdHufCode_of_canon {t : CodeTable} (h : canon (fun sym => ((s.lt.at p k).read sym).toNat) = .ok t) :
    cmdHufCode p k s = .ok { s with ct := s.ct.put p k t } := by
  rw [cmdHufCode, h]
  rfl

/-- `HUF_DEC` of the bytes of a segment that `HUF_ENC` left, wherever they stand in the container. -/
theorem cmdHufDec_of_packed {start : Nat} (hclen : s.clen.toNat ≤ s.cfg.cbufCap.toNat) (hlen : seq.length = s.count.toNat)
    (hcap : seq.length ≤ 4161600) (hwf : (s.ct.at p k).wf = true) (hread : uniquelyReadable (s.ct.at p k))
    (hcovers : covers (s.ct.at p k) seq) (hstart : s.cptr.toNat = start)
    (hbytes : holdsBytes s.cbuf start (packBits (bitsOf (s.ct.at p k) seq)))
    (hroom : start + byteCount (bitsOf (s.ct.at p k) seq) ≤ s.clen.toNat) :
    cmdHufDec p k s = .ok (decodedSegment p k seq
      (s.cptr + BitVec.ofNat 32 (byteCount (bitsOf (s.ct.at p k) seq))) s) := by
  subst hstart
  refine cmdHufDec_of_reads hclen (hlen ▸ hcap) hwf hread hlen ⟨hcovers, holdsBits_of_packed hbytes, .inr ?_⟩
  rw [byteCount] at hroom
  omega

end

/-- Settles O49: the stream's own table is complete, so canonical codes exist for it, cover the stream and can be read. -/
theorem huffmanRoundTrip : Obligations.HuffmanRoundTrip := by
  intro s p k seq hlen hcap hsyms hfits
  obtain ⟨t, hcanon, hbits, hcovers, hwf, hread⟩ := exists_ownTable seq
  rw [hbits] at hfits ⊢
  let t₁ : State := { s with lt := s.lt.put p k (cellsFrom 0 (huflen seq)) }
  let t₂ : State := { t₁ with ct := t₁.ct.put p k t }
  let t₃ : State := encodedSegment p k (bitsOf t seq) t₂
  have hlt : (fun sym => ((t₁.lt.at p k).read sym).toNat) = builtLengths seq := by
    simpa [t₁] using read_cellsFrom_huflen seq
  have hct : t₂.ct.at p k = t := by simp [t₂]
  have hbound := s.cfg.bsCap.isLt
  have hbslen : (t₃.bslen.at p k).toNat = byteCount (bitsOf t seq) := by
    simpa [t₃, encodedSegment] using toNat_wordOf (Nat.lt_of_le_of_lt hfits hbound)
  have hbs : t₃.bs.at p k = (s.bs.at p k).writeBytes 0 (packBits (bitsOf t seq)) := by
    simp [t₃, encodedSegment, t₂, t₁]
  refine ⟨t₁, t₂, t₃, ?_, ?_, ?_, rfl, hbslen, fun buf start len hsame hroom hclen => ?_⟩
  · rw [exec_hufLen, cmdHufLen_of_stream hlen hcap hsyms]
    rfl
  · rw [exec_hufCode, cmdHufCode_of_canon (t := t) (by rw [hlt, hcanon])]
    rfl
  · have henc := cmdHufEnc_of_fits (s := t₂) (p := p) (k := k) hlen hcap hsyms (by rwa [hct]) (by rwa [hct])
    rw [exec_hufEnc, henc, hct]
    rfl
  · rw [hbslen] at hsame hroom ⊢
    let u : State := { t₃ with cbuf := buf, cptr := start, clen := len, count := s.slen.at p k }
    have huct : u.ct.at p k = t := hct
    have hbytes : holdsBytes buf start.toNat (packBits (bitsOf t seq)) := fun i hi => by
      rw [hsame i (by rwa [length_packBits] at hi), hbs]
      simpa using holdsBytes_writeBytes (s.bs.at p k) 0 (packBits (bitsOf t seq)) i hi
    have hdec := cmdHufDec_of_packed (s := u) (p := p) (k := k) (start := start.toNat) hclen hlen hcap (by rwa [huct])
      (by rwa [huct]) (by rwa [huct]) rfl (by rwa [huct]) (by rwa [huct])
    rw [huct] at hdec
    have hlength : wordOf seq.length = s.slen.at p k := by rw [hlen, wordOf_toNat]
    refine ⟨decodedSegment p k seq (start + BitVec.ofNat 32 (byteCount (bitsOf t seq))) u,
      by rw [exec_hufDec, hdec, Run.state_ok], rfl, ?_, ?_, ?_⟩
    · simpa [decodedSegment, setStream] using hlength
    · simpa [decodedSegment, setStream] using holdsBytes_writeBytes (u.syms.at p k) 0 seq
    · have hlimit := len.isLt
      change (start + BitVec.ofNat 32 (byteCount (bitsOf t seq))).toNat = _
      rw [← wordOf_toNat_add, toNat_wordOf (by omega)]

end Sys2Proof.Machine

/-! PROOFS. What a command leaves alone (20_memory.md R51, 10_state.md R24): the frames of the unit commands, the part of the
state that the stages of `COMPRESS` and `DECOMPRESS` leave alone, and the obligation O58. -/

namespace Sys2Proof.Machine

/-! ### A part of the state that a run leaves alone -/

section
variable {β : Type} {view : State → β} (hraise : ∀ e s, view (errorEntry e s) = view s)
include hraise

theorem view_raiseIf {c : Bool} {e : Err} {s : State} {go : State → Run} (hgo : view (go s).state = view s) :
    view (raiseIf c e s go).state = view s :=
  raiseIf_keeps (P := fun t => view t = view s) (hraise e s) fun _ => hgo

theorem view_withResult {α : Type} {r : Except Err α} {s : State} {go : α → State → Run}
    (hgo : ∀ a, view (go a s).state = view s) : view (withResult r s go).state = view s :=
  withResult_keeps (P := fun t => view t = view s) (fun e _ => hraise e s) fun a _ => hgo a

omit hraise in
theorem view_andThen {r : Run} {s : State} {go : State → Run} (hr : view r.state = view s)
    (hgo : ∀ t, view (go t).state = view t) : view (r.andThen go).state = view s :=
  Run.andThen_keeps (P := fun t => view t = view s) hr fun t _ ht => (hgo t).trans ht

omit hraise in
theorem view_forEach {α : Type} {l : List α} {body : α → State → Run}
    (hbody : ∀ a t, view (body a t).state = view t) (s : State) : view (forEach l body s).state = view s :=
  forEach_keeps (P := fun t => view t = view s) (fun a _ t ht => (hbody a t).trans ht) rfl

end

/-! ### The frames of the unit commands -/

/-- What the tables say that a command keeps (20_memory.md R51, 10_state.md R24). A proof names the parts that the command
writes; that the others are kept is by computation. -/
structure KeepsSpaces (i : Instr) (s t : State) : Prop where
  img : writesImg i = false → t.img = s.img := by intros; rfl
  cbuf : writesCbuf i = false → t.cbuf = s.cbuf := by intros; rfl
  syms : ∀ p k, writesS p k i = false → t.syms.at p k = s.syms.at p k := by intros; rfl
  bs : ∀ p k, writesBs p k i = false → t.bs.at p k = s.bs.at p k := by intros; rfl
  lt : ∀ p k, writesLt p k i = false → t.lt.at p k = s.lt.at p k := by intros; rfl
  ct : ∀ p k, writesCt p k i = false → t.ct.at p k = s.ct.at p k := by intros; rfl
  qp : ∀ p, writesQp p i = false → t.qp.get p = s.qp.get p := by intros; rfl
  sb : ∀ p, writesSb p i = false → t.sb.get p = s.sb.get p := by intros; rfl
  cb : writesCb i = false → t.cb = s.cb := by intros; rfl
  qb : writesQb i = false → t.qb = s.qb := by intros; rfl

section
variable {i : Instr} {s : State}

theorem keepsSpaces_errorEntry (i : Instr) (e : Err) (s : State) : KeepsSpaces i s (errorEntry e s) := {}

theorem keepsSpaces_raiseIf {c : Bool} {e : Err} {go : State → Run} (hgo : KeepsSpaces i s (go s).state) :
    KeepsSpaces i s (raiseIf c e s go).state :=
  raiseIf_keeps (keepsSpaces_errorEntry i e s) fun _ => hgo

theorem keepsSpaces_withResult {α : Type} {r : Except Err α} {go : α → State → Run}
    (hgo : ∀ a, KeepsSpaces i s (go a s).state) : KeepsSpaces i s (withResult r s go).state :=
  withResult_keeps (fun e _ => keepsSpaces_errorEntry i e s) fun a _ => hgo a

end

theorem get_set_of_ne {α : Type} {a : PerPlane α} {p q : Plane} {x : α} (h : (p == q) = false) :
    (a.set q x).get p = a.get p := by
  rw [PerPlane.get_set, if_neg fun heq => by simp [heq] at h]

theorem at_put_of_ne {α : Type} {a : PerStream α} {p q : Plane} {k l : Kind} {x : α} (h : (p == q && k == l) = false) :
    (a.put q l x).at p k = a.at p k := by
  rw [PerPlane.at_put, if_neg fun ⟨hp, hk⟩ => by simp [hp, hk] at h]

theorem at_putKinds_of_ne {α : Type} {a : PerStream α} {p q : Plane} {l : Kind} {x : Kind → α} (h : (q == p) = false) :
    (putKinds a p x).at q l = a.at q l := by
  have hput {b : PerStream α} {k : Kind} : (b.put p k (x k)).at q l = b.at q l :=
    at_put_of_ne (by rw [h, Bool.false_and])
  exact hput.trans (hput.trans hput)

/-- `CC_ENC` ends with `E_CAP`, or with the block appended within the capacity. -/
theorem cmdCcEnc_cases (p : Plane) (s : State) : cmdCcEnc p s = raise (capError sCap) s ∨
    cmdCcEnc p s = .ok (encodedState p s) ∧ (s.slen.at p .dc).toNat + 1 ≤ 4161600 ∧
      (s.slen.at p .run).toNat + (blockPairs s.qb).length ≤ 4161600 ∧
      (s.slen.at p .val).toNat + (blockPairs s.qb).length ≤ 4161600 := by
  by_cases hdc : (s.slen.at p .dc).toNat + 1 ≤ 4161600
  case neg => exact .inl (cmdCcEnc_of_dcOver (Nat.lt_of_not_le hdc))
  by_cases hac : acOver p s
  · exact .inl (cmdCcEnc_of_acOver hdc hac)
  · obtain ⟨hrun, hval⟩ := not_or.1 hac
    replace hrun := Nat.le_of_not_lt hrun
    replace hval := Nat.le_of_not_lt hval
    exact .inr ⟨cmdCcEnc_of_fits hdc hrun hval, hdc, hrun, hval⟩

section
variable (p : Plane) (k : Kind) (s : State)

theorem keepsSpaces_cmdTileIn : KeepsSpaces .tileIn s (cmdTileIn s).state := by
  have hwritten (sb : PerPlane (Block Byte)) : KeepsSpaces .tileIn s (Run.ok { s with sb := sb }).state :=
    { sb := fun _ h => nomatch h }
  rw [cmdTileIn, tileChecks]
  exact keepsSpaces_raiseIf (keepsSpaces_raiseIf (hwritten _))

theorem keepsSpaces_cmdTileOut : KeepsSpaces .tileOut s (cmdTileOut s).state := by
  have hwritten (m : Memory) : KeepsSpaces .tileOut s (Run.ok { s with img := m }).state :=
    { img := fun h => nomatch h }
  rw [cmdTileOut, tileChecks]
  exact keepsSpaces_raiseIf (keepsSpaces_raiseIf (hwritten _))

theorem keepsSpaces_cmdFdct : KeepsSpaces (.fdct p) s (cmdFdct p s).state := { cb := fun h => nomatch h }

theorem keepsSpaces_cmdIdct : KeepsSpaces (.idct p) s (cmdIdct p s).state := { sb := fun _ => get_set_of_ne }

theorem keepsSpaces_cmdQuant : KeepsSpaces .quant s (cmdQuant s).state := { qb := fun h => nomatch h }

theorem keepsSpaces_cmdDequant : KeepsSpaces .dequant s (cmdDequant s).state := { cb := fun h => nomatch h }

theorem keepsSpaces_cmdStq : KeepsSpaces (.stq p) s (cmdStq p s).state := by
  rw [cmdStq, blockCheck]
  refine keepsSpaces_raiseIf ?_
  exact { qp := fun _ => get_set_of_ne }

theorem keepsSpaces_cmdLdq : KeepsSpaces (.ldq p) s (cmdLdq p s).state := by
  rw [cmdLdq, blockCheck]
  refine keepsSpaces_raiseIf ?_
  exact { qb := fun h => nomatch h }

theorem keepsSpaces_cmdCcRst : KeepsSpaces (.ccRst p) s (cmdCcRst p s).state := {}

theorem keepsSpaces_cmdCcEnc : KeepsSpaces (.ccEnc p) s (cmdCcEnc p s).state := by
  rcases cmdCcEnc_cases p s with hrun | ⟨hrun, -⟩
  · rw [hrun]
    exact keepsSpaces_errorEntry _ _ s
  · rw [hrun]
    refine { syms := fun q l h => ?_ }
    exact at_putKinds_of_ne h

theorem keepsSpaces_cmdCcDec : KeepsSpaces (.ccDec p) s (cmdCcDec p s).state := by
  refine keepsSpaces_withResult fun _ => ?_
  exact { qb := fun h => nomatch h }

theorem keepsSpaces_cmdHufLen : KeepsSpaces (.hufLen p k) s (cmdHufLen p k s).state := by
  refine keepsSpaces_raiseIf ?_
  exact { lt := fun _ _ => at_put_of_ne }

theorem keepsSpaces_cmdHufCode : KeepsSpaces (.hufCode p k) s (cmdHufCode p k s).state := by
  refine keepsSpaces_withResult fun _ => ?_
  exact { ct := fun _ _ => at_put_of_ne }

theorem keepsSpaces_cmdHufEnc : KeepsSpaces (.hufEnc p k) s (cmdHufEnc p k s).state := by
  refine keepsSpaces_raiseIf ?_
  dsimp only
  split
  · exact keepsSpaces_errorEntry _ _ s
  · refine keepsSpaces_raiseIf ?_
    exact { bs := fun _ _ => at_put_of_ne }

theorem keepsSpaces_cmdHufDec : KeepsSpaces (.hufDec p k) s (cmdHufDec p k s).state := by
  refine keepsSpaces_raiseIf (keepsSpaces_raiseIf (keepsSpaces_withResult fun _ => ?_))
  exact { syms := fun _ _ => at_put_of_ne }

theorem keepsSpaces_cmdHufDecAc : KeepsSpaces (.hufDecAc p) s (cmdHufDecAc p s).state := by
  refine keepsSpaces_raiseIf (keepsSpaces_raiseIf (keepsSpaces_withResult fun _ =>
    keepsSpaces_raiseIf (keepsSpaces_raiseIf ?_)))
  refine { syms := fun q l h => ?_ }
  have hput {a : PerStream Memory} {l' : Kind} {x : Memory} (hl : l' ≠ .dc) : (a.put p l' x).at q l = a.at q l := by
    refine at_put_of_ne ?_
    rcases Bool.and_eq_false_iff.1 (show (q == p && l != .dc) = false from h) with hplane | hkind
    · rw [hplane, Bool.false_and]
    · obtain rfl : l = .dc := by simpa using hkind
      rw [beq_false_of_ne hl.symm, Bool.and_false]
  exact (hput (by decide)).trans (hput (by decide))

theorem keepsSpaces_cmdFrame : KeepsSpaces .frame s (cmdFrame s).state := by
  refine keepsSpaces_raiseIf ?_
  split
  · exact keepsSpaces_errorEntry _ _ s
  · refine keepsSpaces_raiseIf ?_
    exact { cbuf := fun h => nomatch h }

theorem keepsSpaces_cmdDeframeHdr : KeepsSpaces .deframeHdr s (cmdDeframeHdr s).state := by
  refine keepsSpaces_raiseIf (keepsSpaces_raiseIf (keepsSpaces_raiseIf (keepsSpaces_raiseIf ?_)))
  exact { lt := fun _ _ h => nomatch h }

end

/-! ### What the stages of `COMPRESS` before `FRAME` leave alone -/

/-- The part of the state that no stage of `COMPRESS` between the dimension check and `FRAME` writes. -/
def encodeFrame (s : State) : (BitVec 16 × BitVec 16 × BitVec 8 × BitVec 8 × PerPlane (PerAc (BitVec 16))) ×
    (Word × Word × Word × BitVec 24 × BitVec 24) × Memory × Memory × Config :=
  ((s.imgw, s.imgh, s.blkw, s.blkh, s.aclen), (s.clen, s.cptr, s.count, s.pix, s.yuv), s.cbuf, s.img, s.cfg)

theorem encodeFrame_eq_iff {s t : State} : encodeFrame s = encodeFrame t ↔
    (s.imgw = t.imgw ∧ s.imgh = t.imgh ∧ s.blkw = t.blkw ∧ s.blkh = t.blkh ∧ s.aclen = t.aclen) ∧
      (s.clen = t.clen ∧ s.cptr = t.cptr ∧ s.count = t.count ∧ s.pix = t.pix ∧ s.yuv = t.yuv) ∧
      s.cbuf = t.cbuf ∧ s.img = t.img ∧ s.cfg = t.cfg := by
  simp only [encodeFrame, Prod.mk.injEq]

theorem encodeFrame_errorEntry (e : Err) (s : State) : encodeFrame (errorEntry e s) = encodeFrame s := rfl

section
variable (p : Plane) (s : State)

theorem encodeFrame_cmdTileIn : encodeFrame (cmdTileIn s).state = encodeFrame s := by
  rw [cmdTileIn, tileChecks]
  exact view_raiseIf encodeFrame_errorEntry (view_raiseIf encodeFrame_errorEntry rfl)

theorem encodeFrame_cmdStq : encodeFrame (cmdStq p s).state = encodeFrame s := by
  rw [cmdStq, blockCheck]
  exact view_raiseIf encodeFrame_errorEntry rfl

theorem encodeFrame_cmdCcEnc : encodeFrame (cmdCcEnc p s).state = encodeFrame s := by
  rcases cmdCcEnc_cases p s with hrun | ⟨hrun, -⟩
  · rw [hrun, Run.state_raise, encodeFrame_errorEntry]
  · rw [hrun]
    rfl

theorem encodeFrame_cmdHufEnc (k : Kind) : encodeFrame (cmdHufEnc p k s).state = encodeFrame s := by
  refine view_raiseIf encodeFrame_errorEntry ?_
  dsimp only
  split
  · rfl
  · exact view_raiseIf encodeFrame_errorEntry rfl

theorem encodeFrame_encodePlane : encodeFrame (encodePlane p s).state = encodeFrame s :=
  view_andThen (view_andThen (view_andThen rfl fun _ => rfl) (encodeFrame_cmdStq p)) (encodeFrame_cmdCcEnc p)

theorem encodeFrame_encodeBlock (n : Nat) : encodeFrame (encodeBlock n s).state = encodeFrame s :=
  view_andThen (encodeFrame_cmdTileIn { s with bidx := BitVec.ofNat 16 n }) (view_forEach encodeFrame_encodePlane)

theorem encodeFrame_encodeStream (x : Plane × Kind) : encodeFrame (encodeStream x s).state = encodeFrame s :=
  view_andThen
    (view_andThen (view_raiseIf encodeFrame_errorEntry rfl)
      fun _ => view_withResult encodeFrame_errorEntry fun _ => rfl)
    fun t => encodeFrame_cmdHufEnc x.1 t x.2

/-- The stages of `COMPRESS` before `FRAME`. -/
def encodeStages (n : Nat) (s : State) : Run :=
  ((forEach allPlanes cmdCcRst s).andThen (forEach (List.range n) encodeBlock)).andThen (forEach allStreams encodeStream)

theorem compressStages_eq (n : Nat) : compressStages n s = (encodeStages n s).andThen cmdFrame := rfl

theorem encodeFrame_encodeStages (n : Nat) : encodeFrame (encodeStages n s).state = encodeFrame s :=
  view_andThen
    (view_andThen (view_forEach (fun _ _ => rfl) s) (view_forEach fun n t => encodeFrame_encodeBlock t n))
    (view_forEach fun x t => encodeFrame_encodeStream t x)

/-- `COMPRESS` writes no pixel. -/
theorem img_cmdCompress : (cmdCompress s).state.img = s.img := by
  refine view_raiseIf (view := State.img) (fun _ _ => rfl) (view_andThen ?_ fun t => (keepsSpaces_cmdFrame t).img rfl)
  obtain ⟨-, -, -, himg, -⟩ := encodeFrame_eq_iff.1 (encodeFrame_encodeStages (setGrid s) (blockCount (setGrid s)))
  exact himg

end

/-! ### What `DECOMPRESS` leaves alone -/

/-- The part of the state that no stage of `DECOMPRESS` writes. -/
def decodeFrame (s : State) : Memory × PerStream Memory × Word × PerStream Word × BitVec 24 × BitVec 24 × Config :=
  (s.cbuf, s.bs, s.clen, s.bslen, s.pix, s.yuv, s.cfg)

/-- The part of the state that no stage of `DECOMPRESS` before the image output writes. -/
def parseFrame (s : State) : (BitVec 16 × BitVec 16 × Memory) ×
    Memory × PerStream Memory × Word × PerStream Word × BitVec 24 × BitVec 24 × Config :=
  ((s.imgw, s.imgh, s.img), decodeFrame s)

theorem decodeFrame_eq_iff {s t : State} : decodeFrame s = decodeFrame t ↔
    s.cbuf = t.cbuf ∧ s.bs = t.bs ∧ s.clen = t.clen ∧ s.bslen = t.bslen ∧ s.pix = t.pix ∧ s.yuv = t.yuv ∧
      s.cfg = t.cfg := by
  simp only [decodeFrame, Prod.mk.injEq]

theorem parseFrame_eq_iff {s t : State} : parseFrame s = parseFrame t ↔
    (s.imgw = t.imgw ∧ s.imgh = t.imgh ∧ s.img = t.img) ∧ decodeFrame s = decodeFrame t := by
  simp only [parseFrame, Prod.mk.injEq]

theorem decodeFrame_errorEntry (e : Err) (s : State) : decodeFrame (errorEntry e s) = decodeFrame s := rfl

theorem parseFrame_errorEntry (e : Err) (s : State) : parseFrame (errorEntry e s) = parseFrame s := rfl

section
variable (p : Plane) (s : State)

theorem parseFrame_cmdDeframeHdr : parseFrame (cmdDeframeHdr s).state = parseFrame s :=
  view_raiseIf parseFrame_errorEntry <| view_raiseIf parseFrame_errorEntry <|
    view_raiseIf parseFrame_errorEntry <| view_raiseIf parseFrame_errorEntry rfl

theorem parseFrame_cmdHufDec (k : Kind) : parseFrame (cmdHufDec p k s).state = parseFrame s :=
  view_raiseIf parseFrame_errorEntry <| view_raiseIf parseFrame_errorEntry <|
    view_withResult parseFrame_errorEntry fun _ => rfl

theorem parseFrame_cmdHufDecAc : parseFrame (cmdHufDecAc p s).state = parseFrame s :=
  view_raiseIf parseFrame_errorEntry <| view_raiseIf parseFrame_errorEntry <|
    view_withResult parseFrame_errorEntry fun _ =>
      view_raiseIf parseFrame_errorEntry <| view_raiseIf parseFrame_errorEntry rfl

theorem parseFrame_decodePlane : parseFrame (decodePlane p s).state = parseFrame s :=
  view_andThen
    (view_andThen (view_forEach (fun _ _ => view_withResult parseFrame_errorEntry fun _ => rfl) s)
      fun t => parseFrame_cmdHufDec p { t with count := wordOf (blockCount t) } .dc)
    (parseFrame_cmdHufDecAc p)

theorem parseFrame_cmdStq : parseFrame (cmdStq p s).state = parseFrame s := by
  rw [cmdStq, blockCheck]
  exact view_raiseIf parseFrame_errorEntry rfl

theorem parseFrame_decodeCoefs (n : Nat) : parseFrame (decodeCoefs p n s).state = parseFrame s :=
  view_andThen
    (view_withResult (s := { s with bidx := BitVec.ofNat 16 n }) parseFrame_errorEntry fun _ => rfl)
    (parseFrame_cmdStq p)

theorem parseFrame_decompressParse : parseFrame (decompressParse s).state = parseFrame s :=
  view_andThen
    (view_andThen
      (view_andThen (parseFrame_cmdDeframeHdr s) (view_forEach parseFrame_decodePlane))
      fun _ => view_raiseIf parseFrame_errorEntry rfl)
    (view_forEach fun p t =>
      view_forEach (fun n t => parseFrame_decodeCoefs p t n) { t with dcp := t.dcp.set p 0#8 })

theorem decodeFrame_cmdTileOut : decodeFrame (cmdTileOut s).state = decodeFrame s := by
  have hwritten (m : Memory) : decodeFrame (Run.ok { s with img := m }).state = decodeFrame s := rfl
  rw [cmdTileOut, tileChecks]
  exact view_raiseIf decodeFrame_errorEntry (view_raiseIf decodeFrame_errorEntry (hwritten _))

theorem decodeFrame_cmdLdq : decodeFrame (cmdLdq p s).state = decodeFrame s := by
  rw [cmdLdq, blockCheck]
  exact view_raiseIf decodeFrame_errorEntry rfl

theorem decodeFrame_rebuildPlane : decodeFrame (rebuildPlane p s).state = decodeFrame s :=
  view_andThen (view_andThen (decodeFrame_cmdLdq p s) fun _ => rfl) fun _ => rfl

theorem decodeFrame_rebuildBlock (n : Nat) : decodeFrame (rebuildBlock n s).state = decodeFrame s :=
  view_andThen (view_forEach decodeFrame_rebuildPlane { s with bidx := BitVec.ofNat 16 n }) decodeFrame_cmdTileOut

theorem decodeFrame_decompressImage : decodeFrame (decompressImage s).state = decodeFrame s :=
  view_forEach (fun n t => decodeFrame_rebuildBlock t n) (setImageSize s)

theorem decodeFrame_cmdDecompress : decodeFrame (cmdDecompress s).state = decodeFrame s :=
  view_andThen (parseFrame_eq_iff.1 (parseFrame_decompressParse s)).2 decodeFrame_decompressImage

end

/-! ### Every command -/

theorem keepsSpaces_exec {i : Instr} {s t : State} (h : exec i s = .next t) : KeepsSpaces i s t := by
  cases i with
  | nop => cases h; exact {}
  | reset =>
    exact { img := fun _ => by cases h; rfl, cbuf := fun _ => by cases h; rfl, syms := fun _ _ h => (nomatch h),
            bs := fun _ _ h => (nomatch h), lt := fun _ _ h => (nomatch h), ct := fun _ _ h => (nomatch h),
            qp := fun _ h => (nomatch h), sb := fun _ h => (nomatch h), cb := fun h => (nomatch h), qb := fun h => (nomatch h) }
  | clrerr => cases h; exact {}
  | cscFwd => cases h; exact {}
  | cscInv => cases h; exact {}
  | tileIn => cases h; exact keepsSpaces_cmdTileIn s
  | tileOut => cases h; exact keepsSpaces_cmdTileOut s
  | fdct p => cases h; exact keepsSpaces_cmdFdct p s
  | idct p => cases h; exact keepsSpaces_cmdIdct p s
  | quant => cases h; exact keepsSpaces_cmdQuant s
  | dequant => cases h; exact keepsSpaces_cmdDequant s
  | stq p => cases h; exact keepsSpaces_cmdStq p s
  | ldq p => cases h; exact keepsSpaces_cmdLdq p s
  | ccRst p => cases h; exact keepsSpaces_cmdCcRst p s
  | ccEnc p => cases h; exact keepsSpaces_cmdCcEnc p s
  | ccDec p => cases h; exact keepsSpaces_cmdCcDec p s
  | hufLen p k => cases h; exact keepsSpaces_cmdHufLen p k s
  | hufCode p k => cases h; exact keepsSpaces_cmdHufCode p k s
  | hufEnc p k => cases h; exact keepsSpaces_cmdHufEnc p k s
  | hufDec p k => cases h; exact keepsSpaces_cmdHufDec p k s
  | hufDecAc p => cases h; exact keepsSpaces_cmdHufDecAc p s
  | frame => cases h; exact keepsSpaces_cmdFrame s
  | deframeHdr => cases h; exact keepsSpaces_cmdDeframeHdr s
  | compress =>
    exact { img := fun _ => by cases h; exact img_cmdCompress s, cbuf := fun h => (nomatch h), syms := fun _ _ h => (nomatch h),
            bs := fun _ _ h => (nomatch h), lt := fun _ _ h => (nomatch h), ct := fun _ _ h => (nomatch h),
            qp := fun _ h => (nomatch h), sb := fun _ h => (nomatch h), cb := fun h => (nomatch h), qb := fun h => (nomatch h) }
  | decompress =>
    obtain ⟨hcbuf, hbs, -⟩ := decodeFrame_eq_iff.1 (decodeFrame_cmdDecompress s)
    exact { img := fun h => (nomatch h), cbuf := fun _ => by cases h; exact hcbuf, syms := fun _ _ h => (nomatch h),
            bs := fun _ _ _ => by cases h; exact congrFun (congrFun (congrArg PerPlane.at hbs) _) _,
            lt := fun _ _ h => (nomatch h), ct := fun _ _ h => (nomatch h),
            qp := fun _ h => (nomatch h), sb := fun _ h => (nomatch h), cb := fun h => (nomatch h), qb := fun h => (nomatch h) }

/-- `RESET` keeps the parameters and the host's accesses (log 10). -/
theorem hostSide_cmdReset (s : State) : (cmdReset s).state.cfg = s.cfg ∧ (cmdReset s).state.pending = s.pending ∧
    (cmdReset s).state.reply = s.reply := ⟨rfl, rfl, rfl⟩

/-- Settles O58: the tables' frames, and `hostSide_exec` for the host's side. -/
theorem commandsWriteOnlyTheirSpaces : Obligations.CommandsWriteOnlyTheirSpaces := by
  intro i s t h
  have hspaces := keepsSpaces_exec h
  refine ⟨hspaces.img, hspaces.cbuf, fun p k => ⟨hspaces.syms p k, hspaces.bs p k, hspaces.lt p k, hspaces.ct p k⟩,
    fun p => ⟨hspaces.qp p, hspaces.sb p⟩, hspaces.cb, hspaces.qb, fun hi => ?_, ?_⟩
  · obtain ⟨-, hcmd, -, hdone, hie, -⟩ := hostSide_eq_iff.1 (hostSide_exec hi h)
    exact ⟨hie, hcmd, hdone⟩
  · by_cases hi : i = .reset
    · subst hi
      cases h
      exact hostSide_cmdReset s
    · obtain ⟨hcfg, -, -, -, -, hpending, hreply⟩ := hostSide_eq_iff.1 (hostSide_exec hi h)
      exact ⟨hcfg, hpending, hreply⟩

end Sys2Proof.Machine

/-! PROOFS. The invariant (10_state.md R29, R31, R41, 20_memory.md R50, R52): every command and every host access keeps the
error record consistent and the memories canonical and inside their capacities; the obligation O59. -/

namespace Sys2Proof.Machine

/-! ### Stored memories -/

/-- A memory in its canonical form and inside a capacity (20_memory.md R50, R52). -/
def Stored (cap : Nat) (m : Memory) : Prop := m.wf = true ∧ m.within cap = true

theorem stored_nil (cap : Nat) : Stored cap [] := ⟨rfl, rfl⟩

theorem stored_writeBytes {cap : Nat} {m : Memory} (h : Stored cap m) {a : Nat} {bytes : List Byte}
    (hcap : a + bytes.length ≤ cap) : Stored cap (m.writeBytes a bytes) :=
  ⟨Memory.writeBytes_wf a bytes h.1, Memory.writeBytes_within h.2 hcap⟩

theorem stored_cellsFrom {cap a : Nat} {bytes : List Byte} (hcap : a + bytes.length ≤ cap) :
    Stored cap (cellsFrom a bytes) := ⟨cellsFrom_wf a bytes, cellsFrom_within hcap⟩

theorem stored_set {cap : Nat} {a : PerPlane Memory} (h : ∀ p, Stored cap (a.get p)) {q : Plane} {m : Memory}
    (hm : Stored cap m) (p : Plane) : Stored cap ((a.set q m).get p) := by
  rw [PerPlane.get_set]
  split
  · exact hm
  · exact h p

theorem stored_put {cap : Nat} {a : PerStream Memory} (h : ∀ p k, Stored cap (a.at p k)) {q : Plane} {l : Kind}
    {m : Memory} (hm : Stored cap m) (p : Plane) (k : Kind) : Stored cap ((a.put q l m).at p k) := by
  rw [PerPlane.at_put]
  split
  · exact hm
  · exact h p k

/-! ### The invariant without `BUSY` -/

/-- What every command and access keeps: the error record is empty exactly when `ERR` is clear, and the memories and code
tables are stored well. -/
structure Sound (s : State) : Prop where
  record : (s.err = false → s.errcode = .none ∧ s.errinfo = 0#32) ∧ (s.err = true → s.errcode ≠ .none)
  cbuf : Stored s.cfg.cbufCap.toNat s.cbuf
  img : Stored (3 * 2 ^ 32) s.img
  qp : ∀ p, Stored (64 * qpBlocks) (s.qp.get p)
  syms : ∀ p k, Stored sCap (s.syms.at p k)
  bs : ∀ p k, Stored s.cfg.bsCap.toNat (s.bs.at p k)
  lt : ∀ p k, Stored 256 (s.lt.at p k)
  ct : ∀ p k, (s.ct.at p k).wf = true

theorem safe_iff {s : State} : Safe s ↔ s.busy = false ∧ Sound s :=
  ⟨fun h => ⟨h.idle, ⟨⟨h.errorFree, h.errorNamed⟩, ⟨h.cbufCanonical, h.cbufWithin⟩, ⟨h.imgCanonical, h.imgWithin⟩,
      fun p => ⟨h.qpCanonical p, h.qpWithin p⟩, fun p k => ⟨h.symsCanonical p k, h.symsWithin p k⟩,
      fun p k => ⟨h.bsCanonical p k, h.bsWithin p k⟩, fun p k => ⟨h.ltCanonical p k, h.ltWithin p k⟩, h.ctCanonical⟩⟩,
    fun ⟨hidle, h⟩ => ⟨hidle, h.record.1, h.record.2, h.cbuf.1, h.cbuf.2, h.img.1, h.img.2, fun p => (h.qp p).1,
      fun p => (h.qp p).2, fun p k => (h.syms p k).1, fun p k => (h.syms p k).2, fun p k => (h.bs p k).1,
      fun p k => (h.bs p k).2, fun p k => (h.lt p k).1, fun p k => (h.lt p k).2, h.ct⟩⟩

section
variable {s : State} (h : Sound s)
include h

theorem sound_errorEntry {e : Err} (he : e.code ≠ .none) : Sound (errorEntry e s) :=
  { h with record := ⟨nofun, fun _ => he⟩ }

theorem sound_clearError : Sound (clearError s) :=
  { h with record := ⟨fun _ => ⟨rfl, rfl⟩, fun herr => nomatch herr⟩ }

theorem sound_engineReset : Sound (engineReset s) :=
  { h with
    record := ⟨fun _ => ⟨rfl, rfl⟩, fun herr => nomatch herr⟩
    qp := fun p => by cases p <;> exact stored_nil _
    syms := fun p k => by cases p <;> cases k <;> exact stored_nil _
    bs := fun p k => by cases p <;> cases k <;> exact stored_nil _
    lt := fun p k => by cases p <;> cases k <;> exact stored_nil _
    ct := fun p k => by cases p <;> cases k <;> rfl }

theorem sound_raiseIf {c : Bool} {e : Err} {go : State → Run} (he : e.code ≠ .none)
    (hgo : c = false → Sound (go s).state) : Sound (raiseIf c e s go).state :=
  raiseIf_keeps (sound_errorEntry h he) hgo

theorem sound_withResult {α : Type} {r : Except Err α} {go : α → State → Run}
    (he : ∀ e, r = .error e → e.code ≠ .none) (hgo : ∀ a, r = .ok a → Sound (go a s).state) :
    Sound (withResult r s go).state :=
  withResult_keeps (fun e hr => sound_errorEntry h (he e hr)) hgo

end

theorem sound_andThen {r : Run} {go : State → Run} (hr : Sound r.state) (hgo : ∀ s, Sound s → Sound (go s).state) :
    Sound (r.andThen go).state := Run.andThen_keeps hr fun s _ hs => hgo s hs

theorem sound_forEach {α : Type} {l : List α} {body : α → State → Run}
    (hbody : ∀ a s, Sound s → Sound (body a s).state) {s : State} (hs : Sound s) : Sound (forEach l body s).state :=
  forEach_keeps (fun a _ => hbody a) hs

/-! ### The unit commands -/

theorem blockCount_le (s : State) : blockCount s ≤ 65025 := by
  have hw := s.blkw.isLt
  have hh := s.blkh.isLt
  exact Nat.mul_le_mul (Nat.le_of_lt_succ hw) (Nat.le_of_lt_succ hh)

/-- A tile of the grid lies among the pixels that an image can have. -/
theorem stored_writeRows {m : Memory} {x y k : Nat} {row : Nat → List Pixel} (h : Stored (3 * 2 ^ 32) m)
    (hx : x + 8 ≤ 65536) (hy : y + k ≤ 65536) (hrow : ∀ j, (row j).length = 8) :
    Stored (3 * 2 ^ 32) (writeRows m x y row k) := by
  induction k with
  | zero => exact h
  | succ k ih =>
    rw [writeRows_succ, Memory.writePixels]
    refine stored_writeBytes (ih (by omega)) ?_
    rw [length_flatMap_pixelBytes, hrow, pixelAddr]
    omega

section
variable {s : State} (h : Sound s) (p : Plane) (k : Kind)
include h

theorem sound_cmdTileIn : Sound (cmdTileIn s).state := by
  rw [cmdTileIn, tileChecks]
  refine sound_raiseIf h nofun fun _ => sound_raiseIf h nofun fun _ => ?_
  exact { h with }

theorem sound_cmdTileOut : Sound (cmdTileOut s).state := by
  have hwritten (m : Memory) (hm : Stored (3 * 2 ^ 32) m) : Sound (Run.ok { s with img := m }).state :=
    { h with img := hm }
  rw [cmdTileOut, tileChecks]
  refine sound_raiseIf h nofun fun hblock => sound_raiseIf h nofun fun _ => hwritten _ ?_
  have hbidx : s.bidx.toNat < s.blkw.toNat * s.blkh.toNat := by
    rw [← Bool.not_eq_true, Nat.ble_eq] at hblock
    exact Nat.lt_of_not_le hblock
  have hw := s.blkw.isLt
  have hh := s.blkh.isLt
  have hpos : 0 < s.blkw.toNat := Nat.pos_of_ne_zero fun hzero => by simp [hzero] at hbidx
  have hcol : s.bidx.toNat % s.blkw.toNat < s.blkw.toNat := Nat.mod_lt _ hpos
  have hrow : s.bidx.toNat / s.blkw.toNat < s.blkh.toNat := Nat.div_lt_of_lt_mul hbidx
  rw [tileWritten_eq]
  refine stored_writeRows h.img ?_ ?_ fun j => length_tileRow _ _
  · rw [tileX]
    omega
  · rw [tileY]
    omega

theorem sound_cmdStq : Sound (cmdStq p s).state := by
  rw [cmdStq, blockCheck]
  refine sound_raiseIf h nofun fun hblock => ?_
  refine { h with qp := stored_set h.qp (stored_writeBytes (h.qp p) ?_) }
  rw [← Bool.not_eq_true, Nat.ble_eq] at hblock
  have := blockCount_le s
  rw [Block.length_bytes, qpBlocks]
  omega

theorem sound_cmdLdq : Sound (cmdLdq p s).state := by
  rw [cmdLdq, blockCheck]
  refine sound_raiseIf h nofun fun _ => ?_
  exact { h with }

theorem sound_cmdCcRst : Sound (cmdCcRst p s).state := { h with }

theorem sound_cmdCcEnc : Sound (cmdCcEnc p s).state := by
  rcases cmdCcEnc_cases p s with hrun | ⟨hrun, hdc, hruns, hvals⟩
  · rw [hrun]
    exact sound_errorEntry h nofun
  · have hstream : ∀ l, Stored sCap (encodedStream s p l)
      | .dc => stored_writeBytes (h.syms p .dc) hdc
      | .run => stored_writeBytes (h.syms p .run) (by rwa [List.length_map])
      | .val => stored_writeBytes (h.syms p .val) (by rwa [List.length_map])
    rw [hrun]
    exact { h with syms := stored_put (stored_put (stored_put h.syms (hstream .dc)) (hstream .run)) (hstream .val) }

theorem sound_cmdCcDec : Sound (cmdCcDec p s).state := by
  rcases cmdCcDec_cases p s with ⟨q, d, c, hrun⟩ | ⟨e, hrun, hcode⟩
  · rw [hrun]
    exact { h with }
  · rw [hrun]
    refine sound_errorEntry h fun hnone => ?_
    rw [ccDecError, hnone] at hcode
    simp at hcode

theorem sound_cmdHufLen : Sound (cmdHufLen p k s).state := by
  refine sound_raiseIf h nofun fun _ => ?_
  exact { h with lt := stored_put h.lt (stored_cellsFrom (by rw [length_huflen])) }

theorem ct_put_wf {t : CodeTable} (ht : t.wf = true) (q : Plane) (l : Kind) : ((s.ct.put p k t).at q l).wf = true := by
  rw [PerPlane.at_put]
  split
  · exact ht
  · exact h.ct q l

omit h in
theorem canon_error_code {m : Memory} {e : Err} (herror : canon (fun sym => (m.read sym).toNat) = .error e) :
    e.code = .table := by
  have hlen : ∀ sym, (m.read sym).toNat ≤ 255 := fun sym => Nat.le_of_lt_succ (BitVec.isLt _)
  rcases Nat.lt_or_ge (2 ^ 255) (kraftSum fun sym => (m.read sym).toNat) with hover | hfits
  · obtain ⟨sym, hfails, -⟩ := canon_fails hlen hover
    rw [hfails] at herror
    cases herror
    rfl
  · obtain ⟨t, ht, -⟩ := canon_succeeds hlen hfits
    rw [ht] at herror
    cases herror

theorem sound_cmdHufCode : Sound (cmdHufCode p k s).state := by
  refine sound_withResult h (fun e herror hnone => ?_) fun t ht => ?_
  · rw [canon_error_code herror] at hnone
    cases hnone
  · exact { h with ct := ct_put_wf h p k (wf_of_canon (fun sym => Nat.le_of_lt_succ (BitVec.isLt _)) ht) }

theorem sound_cmdHufEnc : Sound (cmdHufEnc p k s).state := by
  refine sound_raiseIf h nofun fun _ => ?_
  dsimp only
  split
  · exact sound_errorEntry h nofun
  · refine sound_raiseIf h nofun fun hfits => ?_
    exact { h with bs := stored_put h.bs (stored_writeBytes (h.bs p k) (by rw [Nat.zero_add]; exact blt_eq_false_iff.1 hfits)) }

theorem sound_setStream {bytes : List Byte} (hcap : bytes.length ≤ 4161600) : Sound (setStream p k bytes s) :=
  { h with syms := stored_put h.syms (stored_writeBytes (h.syms p k) (by rwa [Nat.zero_add])) }

omit h in
theorem code_ne_none_of_decode {e : Err} (he : e.code = .exhaust ∨ e.code = .nomatch) : e.code ≠ .none := by
  rcases he with he | he <;> rw [he] <;> decide

theorem sound_cmdHufDec : Sound (cmdHufDec p k s).state := by
  refine sound_raiseIf h nofun fun _ => sound_raiseIf h nofun fun hcount =>
    sound_withResult h (fun e he => code_ne_none_of_decode (decodeMany_error he)) fun d hd => ?_
  have hlen := (decodeMany_ok hd).1
  exact { sound_setStream h p k (bytes := d.1) (hlen ▸ blt_eq_false_iff.1 hcount) with }

theorem sound_cmdHufDecAc : Sound (cmdHufDecAc p s).state := by
  rcases cmdHufDecAc_cases p s with ⟨⟨runs, vals, ends⟩, hdecode, -, -, hrun⟩ | ⟨e, hrun, hcode⟩
  · obtain ⟨hlen, hfuel, -⟩ := acLoop_ok hdecode
    have := runBytes_lt p s
    have hruns := sound_setStream h p .run (bytes := runs) (by omega)
    have hvals := sound_setStream hruns p .val (bytes := vals) (by omega)
    rw [hrun]
    exact { hvals with }
  · rw [hrun]
    refine sound_errorEntry h fun hnone => ?_
    rw [hnone] at hcode
    simp at hcode

theorem sound_cmdFrame : Sound (cmdFrame s).state := by
  refine sound_raiseIf h nofun fun _ => ?_
  split
  · exact sound_errorEntry h nofun
  · refine sound_raiseIf h nofun fun hfits => ?_
    refine { h with cbuf := stored_writeBytes h.cbuf ?_ }
    rw [length_containerBytes, ← containerLength_eq, Nat.zero_add]
    exact blt_eq_false_iff.1 hfits

theorem sound_cmdDeframeHdr : Sound (cmdDeframeHdr s).state := by
  refine sound_raiseIf h nofun fun _ => sound_raiseIf h nofun fun _ =>
    sound_raiseIf h nofun fun _ => sound_raiseIf h nofun fun _ => ?_
  refine { h with lt := fun q l => ?_ }
  rw [Run.state_ok, PerPlane.at_makeStreams]
  exact stored_cellsFrom (by rw [Memory.length_readBytes])

end

/-! ### The pipeline commands -/

section
variable {s : State} (h : Sound s)
include h

theorem sound_encodePlane (p : Plane) : Sound (encodePlane p s).state :=
  sound_andThen (sound_andThen (sound_andThen { h with } fun _ h => { h with }) fun _ h => sound_cmdStq h p)
    fun _ h => sound_cmdCcEnc h p

theorem sound_encodeBlock (n : Nat) : Sound (encodeBlock n s).state :=
  sound_andThen (sound_cmdTileIn (s := { s with bidx := BitVec.ofNat 16 n }) { h with })
    fun _ h => sound_forEach (fun p _ h => sound_encodePlane h p) h

theorem sound_encodeStream (x : Plane × Kind) : Sound (encodeStream x s).state :=
  sound_andThen (sound_andThen (sound_cmdHufLen h x.1 x.2) fun _ h => sound_cmdHufCode h x.1 x.2)
    fun _ h => sound_cmdHufEnc h x.1 x.2

theorem sound_cmdCompress : Sound (cmdCompress s).state := by
  refine sound_raiseIf h nofun fun _ => ?_
  have hgrid : Sound (setGrid s) := { h with }
  refine sound_andThen (sound_andThen (sound_andThen ?_ fun _ h => ?_) fun _ h => ?_) fun _ h => sound_cmdFrame h
  · exact sound_forEach (fun p _ h => sound_cmdCcRst h p) hgrid
  · exact sound_forEach (fun n _ h => sound_encodeBlock h n) h
  · exact sound_forEach (fun x _ h => sound_encodeStream h x) h

theorem sound_decodePlane (p : Plane) : Sound (decodePlane p s).state :=
  sound_andThen
    (sound_andThen (sound_forEach (fun k _ h => sound_cmdHufCode h p k) h)
      fun t h => sound_cmdHufDec (s := { t with count := wordOf (blockCount t) }) { h with } p .dc)
    fun _ h => sound_cmdHufDecAc h p

theorem sound_decodePlaneCoefs (p : Plane) : Sound (decodePlaneCoefs p s).state :=
  sound_forEach (s := { s with dcp := s.dcp.set p 0#8 })
    (fun n t h => sound_andThen (sound_cmdCcDec (s := { t with bidx := BitVec.ofNat 16 n }) { h with } p)
      fun _ h => sound_cmdStq h p)
    { h with }

theorem sound_rebuildPlane (p : Plane) : Sound (rebuildPlane p s).state :=
  sound_andThen (sound_andThen (sound_cmdLdq h p) fun _ h => { h with }) fun _ h => { h with }

theorem sound_rebuildBlock (n : Nat) : Sound (rebuildBlock n s).state :=
  sound_andThen
    (sound_forEach (s := { s with bidx := BitVec.ofNat 16 n }) (fun p _ h => sound_rebuildPlane h p) { h with })
    fun _ h => sound_cmdTileOut h

theorem sound_decompressParse : Sound (decompressParse s).state :=
  sound_andThen
    (sound_andThen
      (sound_andThen (sound_cmdDeframeHdr h) fun _ h => sound_forEach (fun p _ h => sound_decodePlane h p) h)
      fun _ h => sound_raiseIf h nofun fun _ => h)
    fun _ h => sound_forEach (fun p _ h => sound_decodePlaneCoefs h p) h

theorem sound_cmdDecompress : Sound (cmdDecompress s).state :=
  sound_andThen (sound_decompressParse h) fun t h =>
    sound_forEach (s := setImageSize t) (fun n _ h => sound_rebuildBlock h n) { h with }

theorem sound_exec {i : Instr} {t : State} (hexec : exec i s = .next t) : Sound t := by
  cases i with
  | nop => cases hexec; exact h
  | reset => cases hexec; exact sound_engineReset h
  | clrerr => cases hexec; exact sound_clearError h
  | cscFwd => cases hexec; exact { h with }
  | cscInv => cases hexec; exact { h with }
  | tileIn => cases hexec; exact sound_cmdTileIn h
  | tileOut => cases hexec; exact sound_cmdTileOut h
  | fdct p => cases hexec; exact { h with }
  | idct p => cases hexec; exact { h with }
  | quant => cases hexec; exact { h with }
  | dequant => cases hexec; exact { h with }
  | stq p => cases hexec; exact sound_cmdStq h p
  | ldq p => cases hexec; exact sound_cmdLdq h p
  | ccRst p => cases hexec; exact { h with }
  | ccEnc p => cases hexec; exact sound_cmdCcEnc h p
  | ccDec p => cases hexec; exact sound_cmdCcDec h p
  | hufLen p k => cases hexec; exact sound_cmdHufLen h p k
  | hufCode p k => cases hexec; exact sound_cmdHufCode h p k
  | hufEnc p k => cases hexec; exact sound_cmdHufEnc h p k
  | hufDec p k => cases hexec; exact sound_cmdHufDec h p k
  | hufDecAc p => cases hexec; exact sound_cmdHufDecAc h p
  | frame => cases hexec; exact sound_cmdFrame h
  | deframeHdr => cases hexec; exact sound_cmdDeframeHdr h
  | compress => cases hexec; exact sound_cmdCompress h
  | decompress => cases hexec; exact sound_cmdDecompress h

end

/-! ### The host's accesses -/

theorem sound_runWord {w : Word} {s t : State} (h : Sound s) (hrun : runWord w s = .next t) : Sound t := by
  rw [runWord] at hrun
  split at hrun
  · exact sound_exec h hrun
  · exact sound_exec h hrun
  · split at hrun
    · cases hrun
      exact h
    · exact sound_exec h hrun
  · split at hrun
    · cases hrun
      exact h
    · cases hrun
      exact sound_errorEntry h nofun

section
variable {s t : State}

theorem safe_of_safe_pending {l : List HostAccess} (h : Safe s) : Safe { s with pending := l } := by
  obtain ⟨hidle, h⟩ := safe_iff.1 h
  exact safe_iff.2 ⟨hidle, { h with }⟩

variable (h : Safe s)
include h

theorem safe_replyWith (r : Reply) : Safe (replyWith r s) := by
  obtain ⟨hidle, h⟩ := safe_iff.1 h
  exact safe_iff.2 ⟨hidle, { h with }⟩

/-- The end of a command clears `BUSY` (60_exceptions.md R194). -/
theorem safe_issue {w : Word} (hissue : issue w s = .next t) : Safe t := by
  obtain ⟨-, h⟩ := safe_iff.1 h
  rw [issue] at hissue
  cases hrun : runWord w (commandStart w s) with
  | next u =>
    rw [hrun] at hissue
    cases hissue
    have hu : Sound u := sound_runWord (s := commandStart w s) { h with } hrun
    exact safe_iff.2 ⟨rfl, { hu with }⟩
  | fault f => rw [hrun] at hissue; cases hissue
  | refused r => rw [hrun] at hissue; cases hissue

theorem safe_storeReg (r : Reg) (v : Word) : Safe (storeReg r v s) := by
  obtain ⟨hidle, h⟩ := safe_iff.1 h
  cases r
  case status =>
    rw [storeReg, writeStatus_eq]
    exact safe_iff.2 ⟨hidle, { h with }⟩
  all_goals exact safe_iff.2 ⟨hidle, { h with }⟩

theorem safe_writeAt {off : BitVec 9} {v : Word} (hwrite : writeAt off v s = .next t) : Safe t := by
  cases hr : regAt off with
  | none =>
    rw [writeAt, hr] at hwrite
    cases hwrite
    exact h
  | some r =>
    rw [writeAt_of_regAt hr] at hwrite
    by_cases hcmd : r = .cmd
    · subst hcmd
      exact safe_issue h hwrite
    · rw [writeReg_of_ne_cmd hcmd] at hwrite
      cases hwrite
      exact safe_storeReg h r v

theorem safe_windowWrite (l : ByteLoc) (b : Byte) : Safe (windowWrite l b s) := by
  rw [windowWrite]
  split
  case isFalse => exact h
  rename_i hin
  obtain ⟨hidle, h⟩ := safe_iff.1 h
  refine safe_iff.2 ⟨by cases l <;> exact hidle, ?_⟩
  cases l with
  | cbuf a => exact { h with cbuf := stored_writeBytes h.cbuf (Nat.blt_eq.mp hin) }
  | s p k n => exact { h with syms := stored_put h.syms (stored_writeBytes (h.syms p k) (Nat.blt_eq.mp hin)) }
  | bs p k n => exact { h with bs := stored_put h.bs (stored_writeBytes (h.bs p k) (Nat.blt_eq.mp hin)) }
  | qp p n v u =>
    refine { h with qp := stored_set h.qp (stored_writeBytes (h.qp p) ?_) }
    have hn : n < qpBlocks := Nat.blt_eq.mp hin
    have hv := v.isLt
    have hu := u.isLt
    rw [qpAddr, List.length_singleton]
    omega
  | lt p k sym => exact { h with lt := stored_put h.lt (stored_writeBytes (h.lt p k) sym.isLt) }
  | sb p j i => exact { h with }
  | qb v u => exact { h with }

theorem safe_imgWritten (x y : BitVec 16) {bytes : List Byte} (hlen : bytes.length ≤ 3) :
    Safe { s with img := s.img.writeBytes (pixelAddr x.toNat y.toNat) bytes } := by
  obtain ⟨hidle, h⟩ := safe_iff.1 h
  refine safe_iff.2 ⟨hidle, { h with img := stored_writeBytes h.img ?_ }⟩
  have hx := x.isLt
  have hy := y.isLt
  rw [pixelAddr]
  omega

theorem safe_storeElement (e : Element) (bytes : List Byte) : Safe (storeElement e bytes s) := by
  cases e with
  | byte l => exact safe_windowWrite h l _
  | coef v u =>
    obtain ⟨hidle, h⟩ := safe_iff.1 h
    exact safe_iff.2 ⟨hidle, { h with }⟩
  | code p k sym => exact h
  | pixel x y => exact safe_imgWritten h x y (by rw [List.length_take]; exact Nat.min_le_left _ _)

theorem safe_busWrite {addr : Nat} {bytes : List Byte} (hwrite : busWrite addr bytes s = .next t) : Safe t := by
  rw [busWrite] at hwrite
  split at hwrite
  · split at hwrite
    · exact safe_writeAt h hwrite
    · cases hwrite
  · split at hwrite
    · split at hwrite
      · cases hwrite
        exact safe_storeElement h _ _
      · cases hwrite
        exact h
    · cases hwrite
  · cases hwrite

theorem safe_busRead {addr : Nat} (hread : busRead addr s = .next t) : Safe t := by
  rw [busRead] at hread
  split at hread
  · split at hread
    · cases hread
      exact safe_replyWith h _
    · cases hread
  · cases hread
    exact safe_replyWith h _
  · cases hread
    exact safe_replyWith h _
  · cases hread

theorem safe_serve {a : HostAccess} (hserve : serve a s = .next t) : Safe t := by
  unfold serve at hserve
  split at hserve
  case isFalse => cases hserve
  cases a with
  | writeReg off v => exact safe_writeAt h hserve
  | busWrite addr bytes => exact safe_busWrite h hserve
  | busRead addr => exact safe_busRead h hserve
  | writeByte l b =>
    cases hserve
    exact safe_windowWrite h l b
  | writeCoef v u c =>
    cases hserve
    obtain ⟨hidle, h⟩ := safe_iff.1 h
    exact safe_iff.2 ⟨hidle, { h with }⟩
  | writePixel x y c =>
    cases hserve
    exact safe_imgWritten h x y (by rw [length_flatMap_pixelBytes]; exact Nat.le_refl 3)
  | assertReset =>
    cases hserve
    obtain ⟨-, h⟩ := safe_iff.1 h
    exact safe_iff.2 ⟨rfl, sound_engineReset h⟩
  | readReg off => cases hserve; exact safe_replyWith h _
  | readByte l => cases hserve; exact safe_replyWith h _
  | readCoef v u => cases hserve; exact safe_replyWith h _
  | readCode p k sym => cases hserve; exact safe_replyWith h _
  | readPixel x y => cases hserve; exact safe_replyWith h _

end

/-- Settles O59: the commands keep `Sound`, the host's accesses keep `Safe`. -/
theorem stepKeepsSafe : Obligations.StepKeepsSafe := by
  intro s t h hstep
  cases hp : s.pending with
  | nil =>
    rw [step_of_idle hp] at hstep
    cases hstep
    exact h
  | cons a rest =>
    rw [step_of_pending hp] at hstep
    exact safe_serve (safe_of_safe_pending h) hstep

end Sys2Proof.Machine

/-! PROOFS. The block stage of `COMPRESS` (47_codec.md R181): loops with an invariant, the symbols of a list of blocks, one
plane of one block, and all blocks of an image. -/

namespace Sys2Proof.Machine

/-! ### Loops that end without an error -/

/-- A loop over `0..N − 1` whose passes all end without an error, each making the invariant of the next. -/
theorem forEach_range_ok {inv : Nat → State → Prop} {body : Nat → State → Run} {N : Nat} {s : State} (h0 : inv 0 s)
    (hstep : ∀ n t, n < N → inv n t → ∃ t', body n t = .ok t' ∧ inv (n + 1) t') :
    ∃ t, forEach (List.range N) body s = .ok t ∧ inv N t := by
  induction N with
  | zero => exact ⟨s, rfl, h0⟩
  | succ N ih =>
    obtain ⟨t, hfront, ht⟩ := ih fun n t hn => hstep n t (by omega)
    obtain ⟨t', hlast, ht'⟩ := hstep N t (Nat.lt_succ_self N) ht
    exact ⟨t', by rw [List.range_succ, forEach_append, hfront, Run.andThen_ok, forEach_cons, hlast]; rfl, ht'⟩

theorem forEach_allPlanes (body : Plane → State → Run) (s : State) :
    forEach allPlanes body s = (body .y s).andThen fun s => (body .u s).andThen fun s => (body .v s).andThen .ok := rfl

/-! ### The symbols of a list of blocks (44_coefcoder.md R130) -/

/-- The DC coefficient of the last block, the predictor for the next; 0 before the first block. -/
def lastDc (blocks : List (Block Byte)) : Byte := (blocks.getLast?.map fun q => q.at 0 0).getD 0#8

@[simp] theorem lastDc_concat (blocks : List (Block Byte)) (q : Block Byte) : lastDc (blocks ++ [q]) = q.at 0 0 := by
  rw [lastDc, List.getLast?_concat]
  rfl

/-- The symbols of one kind that a block adds, behind blocks whose last DC coefficient is `d`. -/
def blockSymbols (d : Byte) (q : Block Byte) : Kind → List Byte
  | .dc => [q.at 0 0 - d]
  | .run => (blockPairs q).map Prod.fst
  | .val => (blockPairs q).map Prod.snd

theorem length_blockSymbols (d : Byte) (q : Block Byte) (k : Kind) :
    (blockSymbols d q k).length = advance (blockPairs q).length k := by
  cases k <;> simp [blockSymbols, advance]

theorem dcSymbols_concat (d : Byte) (blocks : List (Block Byte)) (q : Block Byte) :
    dcSymbols d (blocks ++ [q]) = dcSymbols d blocks ++ [q.at 0 0 - (blocks.getLast?.map fun r => r.at 0 0).getD d] := by
  induction blocks generalizing d with
  | nil => simp [dcSymbols, byteOf_sval_sub]
  | cons r blocks ih =>
    rw [List.cons_append, dcSymbols, ih, dcSymbols, List.cons_append]
    cases blocks with
    | nil => rfl
    | cons r' blocks =>
      obtain ⟨last, hlast⟩ : ∃ x, (r' :: blocks).getLast? = some x :=
        ⟨_, List.getLast?_eq_some_getLast (List.cons_ne_nil _ _)⟩
      rw [List.getLast?_cons_cons, hlast]
      rfl

theorem symbolsOf_concat (k : Kind) (blocks : List (Block Byte)) (q : Block Byte) :
    symbolsOf k (blocks ++ [q]) = symbolsOf k blocks ++ blockSymbols (lastDc blocks) q k := by
  cases k with
  | dc => exact dcSymbols_concat 0#8 blocks q
  | run => simp [symbolsOf, blockSymbols]
  | val => simp [symbolsOf, blockSymbols]

theorem symbolsOf_nil (k : Kind) : symbolsOf k [] = [] := by cases k <;> rfl

/-! ### Bytes behind bytes -/

theorem holdsBytes_nil (m : Memory) (a : Nat) : holdsBytes m a [] := fun _ hi => absurd hi (Nat.not_lt_zero _)

/-- Bytes written behind bytes that a memory holds. -/
theorem holdsBytes_writeBytes_behind {m : Memory} {front back : List Byte} (h : holdsBytes m 0 front) :
    holdsBytes (m.writeBytes front.length back) 0 (front ++ back) := by
  intro i hi
  by_cases hlt : i < front.length
  · rw [Memory.read_writeBytes_of_outside (.inl (by omega)), h i hlt, List.getD_append _ _ _ _ hlt]
  · rw [List.length_append] at hi
    have hback := holdsBytes_writeBytes m front.length back (i - front.length) (by omega)
    rw [Nat.add_sub_cancel' (by omega)] at hback
    rw [Nat.zero_add, hback, List.getD_append_right _ _ _ _ (by omega)]

/-! ### One plane of one block -/

/-- The state after `FDCT p ; QUANT ; STQ p`. -/
def quantisedState (p : Plane) (s : State) : State :=
  { s with
    cb := fdct (s.sb.get p)
    qb := quantised (s.sb.get p)
    qp := s.qp.set p ((s.qp.get p).writeBlock s.bidx.toNat (quantised (s.sb.get p))) }

theorem cmdStq_of_block {p : Plane} {s : State} (h : s.bidx.toNat < s.blkw.toNat * s.blkh.toNat) :
    cmdStq p s = .ok { s with qp := s.qp.set p ((s.qp.get p).writeBlock s.bidx.toNat s.qb) } := by
  rw [cmdStq, blockCheck_of_block h]

theorem encodePlane_eq {p : Plane} {s : State} (h : s.bidx.toNat < s.blkw.toNat * s.blkh.toNat) :
    encodePlane p s = cmdCcEnc p (quantisedState p s) := by
  rw [encodePlane, cmdFdct, Run.andThen_ok, cmdQuant, Run.andThen_ok]
  exact congrArg (Run.andThen · (cmdCcEnc p))
    (cmdStq_of_block (p := p) (s := { s with cb := fdct (s.sb.get p), qb := quantised (s.sb.get p) }) h)

/-- The state after one plane of one block. -/
def planeEncoded (p : Plane) (s : State) : State := encodedState p (quantisedState p s)

/-- What the blocks `blocks` of plane `p` leave in the streams, the predictor and the quantised plane, over what stood there
in `s`. -/
structure PlaneHolds (s : State) (p : Plane) (blocks : List (Block Byte)) (t : State) : Prop where
  slen : ∀ k, (t.slen.at p k).toNat = (symbolsOf k blocks).length
  symbols : ∀ k, holdsBytes (t.syms.at p k) 0 (symbolsOf k blocks)
  behind : ∀ k a, (symbolsOf k blocks).length ≤ a → (t.syms.at p k).read a = (s.syms.at p k).read a
  srd : ∀ k, t.srd.at p k = 0#32
  dcp : t.dcp.get p = lastDc blocks
  stored : ∀ n q, blocks[n]? = some q → (t.qp.get p).readBlock n = q
  storedBehind : ∀ a, 64 * blocks.length ≤ a → (t.qp.get p).read a = (s.qp.get p).read a

theorem getElem?_concat_cases {α : Type} {l : List α} {x y : α} {n : Nat} (h : (l ++ [x])[n]? = some y) :
    l[n]? = some y ∧ n < l.length ∨ n = l.length ∧ y = x := by
  rcases Nat.lt_trichotomy n l.length with hlt | heq | hgt
  · rw [List.getElem?_append_left hlt] at h
    exact .inl ⟨h, hlt⟩
  · rw [heq, List.getElem?_concat_length] at h
    exact .inr ⟨heq, (Option.some.inj h).symm⟩
  · rw [List.getElem?_eq_none (by rw [List.length_append, List.length_singleton]; omega)] at h
    cases h

/-- A quantised plane with a block stored behind `n` blocks. -/
theorem readBlock_writeBlock_behind {m : Memory} {blocks : List (Block Byte)} {q : Block Byte}
    (h : ∀ n r, blocks[n]? = some r → m.readBlock n = r) {n : Nat} {r : Block Byte}
    (hn : (blocks ++ [q])[n]? = some r) : (m.writeBlock blocks.length q).readBlock n = r := by
  rcases getElem?_concat_cases hn with ⟨hfront, hlt⟩ | ⟨rfl, rfl⟩
  · rw [Memory.readBlock_writeBlock_other (Nat.ne_of_gt hlt), h n r hfront]
  · exact Memory.readBlock_writeBlock_same _ _ _

theorem read_writeBlock_behind {m : Memory} {n a : Nat} {q : Block Byte} (ha : 64 * (n + 1) ≤ a) :
    (m.writeBlock n q).read a = m.read a := by
  rw [Memory.read_writeBlock, if_neg (by omega)]

section
variable {s t : State} {p : Plane} {blocks : List (Block Byte)}

theorem encodedStream_eq (t : State) (p : Plane) (k : Kind) : encodedStream t p k =
    (t.syms.at p k).writeBytes (t.slen.at p k).toNat (blockSymbols (t.dcp.get p) t.qb k) := by cases k <;> rfl

/-- One more block of a plane. -/
theorem PlaneHolds.encoded (h : PlaneHolds s p blocks t) (hbidx : t.bidx.toNat = blocks.length)
    (hroom : ∀ k, (symbolsOf k (blocks ++ [quantised (t.sb.get p)])).length ≤ 4161600) :
    PlaneHolds s p (blocks ++ [quantised (t.sb.get p)]) (planeEncoded p t) := by
  have hstream (k : Kind) : (planeEncoded p t).syms.at p k =
      (t.syms.at p k).writeBytes (symbolsOf k blocks).length (blockSymbols (lastDc blocks) (quantised (t.sb.get p)) k) := by
    rw [← h.slen, ← h.dcp]
    exact (at_putKinds _ _ _ _).trans (encodedStream_eq (quantisedState p t) p k)
  have hplane : (planeEncoded p t).qp.get p = (t.qp.get p).writeBlock blocks.length (quantised (t.sb.get p)) := by
    rw [← hbidx]
    exact (PerPlane.get_set _ _ _ _).trans (if_pos rfl)
  refine ⟨fun k => ?_, fun k => ?_, fun k a ha => ?_, h.srd, ?_, fun n q hn => ?_, fun a ha => ?_⟩
  · have hlen := hroom k
    rw [symbolsOf_concat, List.length_append, length_blockSymbols, ← h.slen] at hlen ⊢
    exact toNat_at_advanced hlen
  · rw [hstream, symbolsOf_concat]
    exact holdsBytes_writeBytes_behind (h.symbols k)
  · rw [symbolsOf_concat, List.length_append] at ha
    rw [hstream, Memory.read_writeBytes_of_outside (.inr ha), h.behind k a (by omega)]
  · rw [lastDc_concat]
    exact (PerPlane.get_set _ _ _ _).trans (if_pos rfl)
  · rw [hplane]
    exact readBlock_writeBlock_behind h.stored hn
  · rw [List.length_append, List.length_singleton] at ha
    rw [hplane, read_writeBlock_behind ha, h.storedBehind a (by omega)]

/-- A block of another plane leaves a plane's streams and blocks alone. -/
theorem PlaneHolds.encoded_other {q : Plane} (h : PlaneHolds s p blocks t) (hne : (p == q) = false) :
    PlaneHolds s p blocks (planeEncoded q t) := by
  have hslen (k : Kind) : (planeEncoded q t).slen.at p k = t.slen.at p k := by
    have hput {a : PerStream Word} {l : Kind} {x : Word} : (a.put q l x).at p k = a.at p k :=
      at_put_of_ne (by rw [hne, Bool.false_and])
    exact hput.trans (hput.trans hput)
  have hsyms (k : Kind) : (planeEncoded q t).syms.at p k = t.syms.at p k := at_putKinds_of_ne hne
  have hdcp : (planeEncoded q t).dcp.get p = t.dcp.get p := get_set_of_ne hne
  have hqp : (planeEncoded q t).qp.get p = t.qp.get p := get_set_of_ne hne
  refine ⟨fun k => ?_, fun k => ?_, fun k => ?_, h.srd, ?_, ?_, ?_⟩
  · rw [hslen]; exact h.slen k
  · rw [hsyms]; exact h.symbols k
  · rw [hsyms]; exact h.behind k
  · rw [hdcp]; exact h.dcp
  · rw [hqp]; exact h.stored
  · rw [hqp]; exact h.storedBehind

theorem encodePlane_of_holds (h : PlaneHolds s p blocks t) (hblock : t.bidx.toNat < t.blkw.toNat * t.blkh.toNat)
    (hroom : ∀ k, (symbolsOf k (blocks ++ [quantised (t.sb.get p)])).length ≤ 4161600) :
    encodePlane p t = .ok (planeEncoded p t) := by
  have hlen (k : Kind) : (t.slen.at p k).toNat + advance (blockPairs (quantised (t.sb.get p))).length k ≤ 4161600 := by
    have := hroom k
    rwa [symbolsOf_concat, List.length_append, length_blockSymbols, ← h.slen] at this
  rw [encodePlane_eq hblock]
  exact cmdCcEnc_of_fits (s := quantisedState p t) (hlen .dc) (hlen .run) (hlen .val)

end

/-! ### The image's blocks -/

/-- The samples of block `n` of plane `p` of the image. -/
def samplesAt (s : State) (p : Plane) (n : Nat) : Block Byte :=
  imageSamples s.cfg.cscMap s.img (s.imgw.toNat / 8) p n

/-- The part of the state that the block stage of `COMPRESS` leaves alone. -/
def blockFrame (s : State) :=
  (encodeFrame s, hostSide s, errorRecord s, s.lt, s.ct, s.bs, s.bslen)

/-- What the last block leaves in `BIDX` and the block registers; `s` itself where there was none. -/
structure LastBlock (s : State) (n : Nat) (t : State) : Prop where
  none : n = 0 → t.bidx = s.bidx ∧ t.sb = s.sb ∧ t.cb = s.cb ∧ t.qb = s.qb
  some : ∀ m, n = m + 1 → t.bidx = BitVec.ofNat 16 m ∧ (∀ p, t.sb.get p = samplesAt s p m) ∧
    t.cb = fdct (samplesAt s .v m) ∧ t.qb = quantised (samplesAt s .v m)

/-- The state after `n` blocks of the block stage. -/
structure BlocksEncoded (s : State) (n : Nat) (t : State) : Prop where
  frame : blockFrame t = blockFrame (setGrid s)
  planes : ∀ p, PlaneHolds s p ((imageBlocks s p).take n) t
  last : LastBlock s n t

/-- The dimensions that `COMPRESS` accepts (47_codec.md R181). -/
structure GoodSize (s : State) : Prop where
  wide : s.imgw.toNat % 8 = 0
  high : s.imgh.toNat % 8 = 0
  wideLe : s.imgw.toNat ≤ 2040
  highLe : s.imgh.toNat ≤ 2040

/-- The number of blocks per plane of the image. -/
def imageCount (s : State) : Nat := s.imgw.toNat / 8 * (s.imgh.toNat / 8)

section
variable {s : State} (h : GoodSize s)
include h

theorem GoodSize.count_le : imageCount s ≤ 65025 := by
  have hw := h.wideLe
  have hh := h.highLe
  exact Nat.mul_le_mul (show _ ≤ 255 by omega) (show _ ≤ 255 by omega)

theorem GoodSize.blkw : (setGrid s).blkw.toNat = s.imgw.toNat / 8 := by
  have hw := h.wideLe
  exact Nat.mod_eq_of_lt (by omega)

theorem GoodSize.blkh : (setGrid s).blkh.toNat = s.imgh.toNat / 8 := by
  have hh := h.highLe
  exact Nat.mod_eq_of_lt (by omega)

theorem GoodSize.blockCount : blockCount (setGrid s) = imageCount s := by
  rw [Machine.blockCount, h.blkw, h.blkh, imageCount]

end

theorem imageBlocks_take_succ {s : State} {n : Nat} (hn : n < imageCount s) (p : Plane) :
    (imageBlocks s p).take (n + 1) = (imageBlocks s p).take n ++ [quantised (samplesAt s p n)] := by
  rw [imageCount] at hn
  rw [List.take_add_one, imageBlocks, List.getElem?_map, List.getElem?_range hn]
  rfl

theorem length_imageBlocks_take {s : State} {n : Nat} (hn : n ≤ imageCount s) (p : Plane) :
    ((imageBlocks s p).take n).length = n := by
  rw [List.length_take, length_imageBlocks]
  exact Nat.min_eq_left hn

theorem length_symbolsOf_take_le {s : State} (h : GoodSize s) (p : Plane) (k : Kind) (n : Nat) :
    (symbolsOf k ((imageBlocks s p).take n)).length ≤ 4161600 := by
  have hcount := h.count_le
  have hle := length_symbolsOf_le k ((imageBlocks s p).take n)
  have htake := List.length_take_le' n (imageBlocks s p)
  rw [length_imageBlocks, ← imageCount] at htake
  omega

/-- The block registers hold the samples of block `n` of the image and the grid is the image's. -/
structure ReadyForBlock (s : State) (n : Nat) (t : State) : Prop where
  frame : blockFrame t = blockFrame (setGrid s)
  bidx : t.bidx = BitVec.ofNat 16 n
  samples : ∀ p, t.sb.get p = samplesAt s p n

section
variable {s t : State} {n : Nat}

theorem bidx_toNat (h : GoodSize s) (hn : n < imageCount s) : (BitVec.ofNat 16 n).toNat = n := by
  have := h.count_le
  exact Nat.mod_eq_of_lt (by omega)

theorem grid_of_blockFrame (h : blockFrame t = blockFrame (setGrid s)) :
    t.blkw = (setGrid s).blkw ∧ t.blkh = (setGrid s).blkh ∧ t.imgw = s.imgw ∧ t.imgh = s.imgh ∧ t.img = s.img ∧
      t.cfg = s.cfg := by
  obtain ⟨⟨hw, hh, hbw, hbh, -⟩, -, -, himg, hcfg⟩ := encodeFrame_eq_iff.1 (congrArg Prod.fst h)
  exact ⟨hbw, hbh, hw, hh, himg, hcfg⟩

theorem get_tileSamples (s : State) (p : Plane) :
    (tileSamples s).get p = Block.make fun j i => sampleOf (tileSample s j i) p := by cases p <;> rfl

/-- `TILE_IN` reads the samples of block `n` (41_color.md R101). -/
theorem cmdTileIn_of_block (hgood : GoodSize s) (hn : n < imageCount s) (hframe : blockFrame t = blockFrame (setGrid s)) :
    ∃ t', cmdTileIn { t with bidx := BitVec.ofNat 16 n } = .ok t' ∧ ReadyForBlock s n t' ∧
      ∀ p blocks, PlaneHolds s p blocks t → PlaneHolds s p blocks t' := by
  obtain ⟨hbw, hbh, hw, hh, himg, hcfg⟩ := grid_of_blockFrame hframe
  have hbidx := bidx_toNat hgood hn
  have hwide := hgood.wide
  have hhigh := hgood.high
  let u : State := { t with bidx := BitVec.ofNat 16 n }
  have hblkw : u.blkw.toNat = s.imgw.toNat / 8 := (congrArg BitVec.toNat hbw).trans hgood.blkw
  have hblkh : u.blkh.toNat = s.imgh.toNat / 8 := (congrArg BitVec.toNat hbh).trans hgood.blkh
  have hwidth : u.imgw.toNat = s.imgw.toNat := congrArg BitVec.toNat hw
  have hheight : u.imgh.toNat = s.imgh.toNat := congrArg BitVec.toNat hh
  obtain ⟨-, -, hpass⟩ := tileChecks_cases u fun s => .ok { s with sb := tileSamples s }
  refine ⟨{ u with sb := tileSamples u }, hpass ?_ ?_ ?_, ⟨hframe, rfl, fun p => ?_⟩,
    fun p blocks h => ⟨h.slen, h.symbols, h.behind, h.srd, h.dcp, h.stored, h.storedBehind⟩⟩
  · rw [hblkw, hblkh]
    exact hbidx.trans_lt hn
  · rw [hblkw, hwidth]
    omega
  · rw [hblkh, hheight]
    omega
  · have hsample (j i : Fin 8) : tileSample u j i = rgb2yuv s.cfg.cscMap
        (s.img.readPixel (8 * (n % (s.imgw.toNat / 8)) + i.val) (8 * (n / (s.imgw.toNat / 8)) + j.val)) := by
      rw [tileSample, tileX, tileY, hblkw, show u.bidx.toNat = n from hbidx, show u.img = s.img from himg,
        show u.cfg = s.cfg from hcfg]
    refine Block.ext_at fun j i => ?_
    rw [samplesAt, imageSamples, Block.at_make, ← hsample]
    exact (congrArg (Block.at · j i) (get_tileSamples u p)).trans (Block.at_make _ _ _)

/-- `FDCT p ; QUANT ; STQ p ; CC_ENC p` of block `n`: plane `p` has one block more, the others and the samples are as
before. -/
theorem encodePlane_of_ready (hgood : GoodSize s) (hn : n < imageCount s) (hready : ReadyForBlock s n t) {p : Plane}
    (hplane : PlaneHolds s p ((imageBlocks s p).take n) t) :
    encodePlane p t = .ok (planeEncoded p t) ∧ ReadyForBlock s n (planeEncoded p t) ∧
      PlaneHolds s p ((imageBlocks s p).take (n + 1)) (planeEncoded p t) := by
  obtain ⟨hbw, hbh, -⟩ := grid_of_blockFrame hready.frame
  have hbidx : t.bidx.toNat = n := hready.bidx ▸ bidx_toNat hgood hn
  have hroom (k : Kind) := length_symbolsOf_take_le hgood p k (n + 1)
  simp only [imageBlocks_take_succ hn, ← hready.samples] at hroom ⊢
  refine ⟨encodePlane_of_holds hplane ?_ hroom, ⟨hready.frame, hready.bidx, hready.samples⟩,
    hplane.encoded (hbidx.trans (length_imageBlocks_take (Nat.le_of_lt hn) p).symm) hroom⟩
  rw [hbw, hbh, hgood.blkw, hgood.blkh, hbidx]
  exact hn

/-- Block `n` of `COMPRESS`. -/
theorem encodeBlock_of_blocks (hgood : GoodSize s) (hn : n < imageCount s) (h : BlocksEncoded s n t) :
    ∃ t', encodeBlock n t = .ok t' ∧ BlocksEncoded s (n + 1) t' := by
  obtain ⟨t0, htile, hready0, hkeep⟩ := cmdTileIn_of_block hgood hn h.frame
  have hplane0 (p : Plane) := hkeep p _ (h.planes p)
  obtain ⟨hy, hready1, hplaneY⟩ := encodePlane_of_ready hgood hn hready0 (hplane0 .y)
  obtain ⟨hu, hready2, hplaneU⟩ := encodePlane_of_ready hgood hn hready1 ((hplane0 .u).encoded_other rfl)
  obtain ⟨hv, hready3, hplaneV⟩ := encodePlane_of_ready hgood hn hready2
    (((hplane0 .v).encoded_other rfl).encoded_other rfl)
  refine ⟨_, ?_, ⟨hready3.frame, fun p => ?_, ⟨fun hzero => by omega, fun m hm => ?_⟩⟩⟩
  · rw [encodeBlock, htile, Run.andThen_ok, forEach_allPlanes, hy, Run.andThen_ok, hu, Run.andThen_ok, hv,
      Run.andThen_ok]
  · cases p with
    | y => exact (hplaneY.encoded_other rfl).encoded_other rfl
    | u => exact hplaneU.encoded_other rfl
    | v => exact hplaneV
  · obtain rfl : n = m := Nat.succ.inj hm
    refine ⟨hready3.bidx, hready3.samples, ?_, ?_⟩
    · rw [← hready2.samples]
      rfl
    · rw [← hready2.samples]
      rfl

end

/-! ### The streams reset, and all blocks -/

/-- The state after `CC_RST` of the three planes. -/
def streamsReset (s : State) : State :=
  let s := (cmdCcRst .y s).state
  let s := (cmdCcRst .u s).state
  (cmdCcRst .v s).state

theorem forEach_cmdCcRst (s : State) : forEach allPlanes cmdCcRst s = .ok (streamsReset s) := rfl

theorem planeHolds_streamsReset (s : State) (p : Plane) : PlaneHolds s p [] (streamsReset (setGrid s)) := by
  have hslen (k : Kind) : (streamsReset (setGrid s)).slen.at p k = 0#32 := by cases p <;> cases k <;> rfl
  have hsrd (k : Kind) : (streamsReset (setGrid s)).srd.at p k = 0#32 := by cases p <;> cases k <;> rfl
  refine ⟨fun k => ?_, fun k => ?_, fun _ _ _ => rfl, hsrd, by cases p <;> rfl, fun n q hn => by simp at hn,
    fun _ _ => rfl⟩
  · rw [hslen, symbolsOf_nil]
    rfl
  · rw [symbolsOf_nil]
    exact holdsBytes_nil _ _

/-- 47_codec.md R181: after the block stage the streams hold the symbols of the image's blocks. -/
theorem forEach_encodeBlock {s : State} (hgood : GoodSize s) :
    ∃ t, forEach (List.range (imageCount s)) encodeBlock (streamsReset (setGrid s)) = .ok t ∧
      BlocksEncoded s (imageCount s) t := by
  refine forEach_range_ok (inv := BlocksEncoded s) ⟨rfl, fun p => ?_, ⟨fun _ => ⟨rfl, rfl, rfl, rfl⟩, nofun⟩⟩
    fun n t hn h => encodeBlock_of_blocks hgood hn h
  rw [List.take_zero]
  exact planeHolds_streamsReset s p

theorem imageBlocks_take_count (s : State) (p : Plane) : (imageBlocks s p).take (imageCount s) = imageBlocks s p :=
  List.take_of_length_le (Nat.le_of_eq (length_imageBlocks s p))

end Sys2Proof.Machine

/-! PROOFS. The stream stage of `COMPRESS`, its container and its errors (47_codec.md R181, R182): the obligations O53 and
O54. -/

namespace Sys2Proof.Machine

/-! ### One stream -/

/-- The state after `HUF_LEN p,k ; HUF_CODE p,k ; HUF_ENC p,k` of a stream with the symbols `seq` and their own codes `c`. -/
def streamEncoded (x : Plane × Kind) (c : CodeTable) (seq : List Byte) (s : State) : State :=
  { s with
    lt := s.lt.put x.1 x.2 (cellsFrom 0 (huflen seq))
    ct := s.ct.put x.1 x.2 c
    bs := s.bs.put x.1 x.2 ((s.bs.at x.1 x.2).writeBytes 0 (packBits (ownBits seq)))
    bslen := s.bslen.put x.1 x.2 (wordOf (byteCount (ownBits seq))) }

/-- A stream memory holds a sequence within the capacity. -/
structure HoldsStream (s : State) (p : Plane) (k : Kind) (seq : List Byte) : Prop where
  length : seq.length = (s.slen.at p k).toNat
  within : seq.length ≤ 4161600
  symbols : holdsBytes (s.syms.at p k) 0 seq

section
variable {s : State} {p : Plane} {k : Kind} {seq : List Byte} (h : HoldsStream s p k seq)
include h

/-- After the table and the codes of a stream, `HUF_ENC` sees the stream's own code. -/
theorem HoldsStream.coded : ∃ c, canon (builtLengths seq) = .ok c ∧ ownBits seq = bitsOf c seq ∧ covers c seq ∧
    encodeStream (p, k) s = cmdHufEnc p k
      { s with lt := s.lt.put p k (cellsFrom 0 (huflen seq)), ct := s.ct.put p k c } := by
  obtain ⟨c, hcanon, hbits, hcovers, -⟩ := exists_ownTable seq
  refine ⟨c, hcanon, hbits, hcovers, ?_⟩
  have hlt : (fun sym => (((s.lt.put p k (cellsFrom 0 (huflen seq))).at p k).read sym).toNat) = builtLengths seq := by
    simpa using read_cellsFrom_huflen seq
  have hcode := cmdHufCode_of_canon (s := { s with lt := s.lt.put p k (cellsFrom 0 (huflen seq)) }) (p := p) (k := k)
    (t := c) (by rw [hlt, hcanon])
  rw [encodeStream, cmdHufLen_of_stream h.length h.within h.symbols, Run.andThen_ok, hcode, Run.andThen_ok]

theorem HoldsStream.encodeStream_ok (hfits : byteCount (ownBits seq) ≤ s.cfg.bsCap.toNat) :
    ∃ c, canon (builtLengths seq) = .ok c ∧ encodeStream (p, k) s = .ok (streamEncoded (p, k) c seq s) := by
  obtain ⟨c, hcanon, hbits, hcovers, hrun⟩ := h.coded
  let u : State := { s with lt := s.lt.put p k (cellsFrom 0 (huflen seq)), ct := s.ct.put p k c }
  have hct : u.ct.at p k = c := by simp [u]
  have henc := cmdHufEnc_of_fits (s := u) (p := p) (k := k) h.length h.within h.symbols (by rwa [hct])
    (by rwa [hct, ← hbits])
  refine ⟨c, hcanon, hrun.trans (henc.trans ?_)⟩
  rw [hct, ← hbits]
  rfl

theorem HoldsStream.encodeStream_overflow (hover : s.cfg.bsCap.toNat < byteCount (ownBits seq)) :
    ∃ t, encodeStream (p, k) s = raise (capError s.cfg.bsCap.toNat) t := by
  obtain ⟨c, hcanon, hbits, hcovers, hrun⟩ := h.coded
  let u : State := { s with lt := s.lt.put p k (cellsFrom 0 (huflen seq)), ct := s.ct.put p k c }
  have hct : u.ct.at p k = c := by simp [u]
  exact ⟨u, hrun.trans (cmdHufEnc_of_overflow (s := u) (p := p) (k := k) h.length h.within h.symbols (by rwa [hct])
    (by rwa [hct, ← hbits]))⟩

end

/-! ### All streams -/

/-- The part of the state that the stream stage of `COMPRESS` leaves alone. -/
def streamFrame (s : State) :=
  (encodeFrame s, hostSide s, errorRecord s, (s.bidx, s.dcp, s.slen, s.srd), (s.sb, s.cb, s.qb), s.syms, s.qp)

theorem streamFrame_eq_iff {s t : State} : streamFrame s = streamFrame t ↔
    encodeFrame s = encodeFrame t ∧ hostSide s = hostSide t ∧ errorRecord s = errorRecord t ∧
      (s.bidx = t.bidx ∧ s.dcp = t.dcp ∧ s.slen = t.slen ∧ s.srd = t.srd) ∧
      (s.sb = t.sb ∧ s.cb = t.cb ∧ s.qb = t.qb) ∧ s.syms = t.syms ∧ s.qp = t.qp := by
  simp only [streamFrame, Prod.mk.injEq]

/-- What the stream stage leaves of one stream, over what stood there in `s`. -/
structure StreamEncoded (s : State) (p : Plane) (k : Kind) (seq : List Byte) (t : State) : Prop where
  lt : t.lt.at p k = cellsFrom 0 (huflen seq)
  ct : canon (builtLengths seq) = .ok (t.ct.at p k)
  bs : t.bs.at p k = (s.bs.at p k).writeBytes 0 (packBits (ownBits seq))
  bslen : (t.bslen.at p k).toNat = byteCount (ownBits seq)

/-- What `t` has of one stream's tables and segment is what `s` has. -/
structure SameStream (s : State) (p : Plane) (k : Kind) (t : State) : Prop where
  lt : t.lt.at p k = s.lt.at p k
  ct : t.ct.at p k = s.ct.at p k
  bs : t.bs.at p k = s.bs.at p k
  bslen : t.bslen.at p k = s.bslen.at p k

section
variable {s t : State} {p : Plane} {k : Kind} {seq : List Byte}

theorem streamEncoded_same {c : CodeTable} (hcanon : canon (builtLengths seq) = .ok c)
    (hfits : byteCount (ownBits seq) ≤ s.cfg.bsCap.toNat) :
    StreamEncoded s p k seq (streamEncoded (p, k) c seq s) := by
  have hcap := s.cfg.bsCap.isLt
  refine ⟨by simp [streamEncoded], by simpa [streamEncoded] using hcanon, by simp [streamEncoded], ?_⟩
  simpa [streamEncoded] using toNat_wordOf (Nat.lt_of_le_of_lt hfits hcap)

theorem streamEncoded_other {x : Plane × Kind} {c : CodeTable} (hne : (p, k) ≠ x) :
    SameStream s p k (streamEncoded x c seq s) := by
  have h : (p == x.1 && k == x.2) = false := by
    rw [Bool.eq_false_iff]
    intro heq
    simp only [Bool.and_eq_true, beq_iff_eq] at heq
    exact hne (Prod.ext heq.1 heq.2)
  exact ⟨at_put_of_ne h, at_put_of_ne h, at_put_of_ne h, at_put_of_ne h⟩

theorem StreamEncoded.of_same_before {u : State} (h : StreamEncoded u p k seq t) (hsame : SameStream s p k u) :
    StreamEncoded s p k seq t := ⟨h.lt, h.ct, hsame.bs ▸ h.bs, h.bslen⟩

theorem StreamEncoded.of_same_after {u : State} (h : StreamEncoded s p k seq t) (hsame : SameStream t p k u) :
    StreamEncoded s p k seq u :=
  ⟨hsame.lt.trans h.lt, hsame.ct ▸ h.ct, hsame.bs.trans h.bs, hsame.bslen ▸ h.bslen⟩

theorem SameStream.trans {u : State} (h : SameStream s p k t) (h' : SameStream t p k u) : SameStream s p k u :=
  ⟨h'.lt.trans h.lt, h'.ct.trans h.ct, h'.bs.trans h.bs, h'.bslen.trans h.bslen⟩

end

section
variable {s : State} {seqs : Plane → Kind → List Byte}

theorem holdsStream_streamEncoded (h : ∀ p k, HoldsStream s p k (seqs p k)) (x : Plane × Kind) (c : CodeTable)
    (seq : List Byte) (p : Plane) (k : Kind) : HoldsStream (streamEncoded x c seq s) p k (seqs p k) :=
  ⟨(h p k).length, (h p k).within, (h p k).symbols⟩

/-- The stream stage, where every segment fits. -/
theorem forEach_encodeStream_ok {l : List (Plane × Kind)} (hnodup : l.Nodup) (h : ∀ p k, HoldsStream s p k (seqs p k))
    (hfits : ∀ p k, byteCount (ownBits (seqs p k)) ≤ s.cfg.bsCap.toNat) :
    ∃ t, forEach l encodeStream s = .ok t ∧ streamFrame t = streamFrame s ∧
      (∀ x ∈ l, StreamEncoded s x.1 x.2 (seqs x.1 x.2) t) ∧ ∀ p k, (p, k) ∉ l → SameStream s p k t := by
  induction l generalizing s with
  | nil => exact ⟨s, rfl, rfl, fun _ hx => (List.not_mem_nil hx).elim, fun _ _ _ => ⟨rfl, rfl, rfl, rfl⟩⟩
  | cons x l ih =>
    obtain ⟨hx, hl⟩ := List.nodup_cons.1 hnodup
    obtain ⟨c, hcanon, hrun⟩ := (h x.1 x.2).encodeStream_ok (hfits x.1 x.2)
    obtain ⟨t, hloop, hframe, hdone, hrest⟩ := ih hl (holdsStream_streamEncoded h x c (seqs x.1 x.2)) hfits
    refine ⟨t, by rw [forEach_cons, hrun]; exact hloop, hframe, List.forall_mem_cons.2 ⟨?_, fun y hy => ?_⟩,
      fun p k hpk => ?_⟩
    · exact (streamEncoded_same hcanon (hfits x.1 x.2)).of_same_after (hrest x.1 x.2 hx)
    · exact (hdone y hy).of_same_before (streamEncoded_other fun heq => hx (heq ▸ hy))
    · obtain ⟨hne, hpk⟩ := not_or.1 (mt List.mem_cons.2 hpk)
      exact (streamEncoded_other hne).trans (hrest p k hpk)

/-- The stream stage, where a segment does not fit. -/
theorem forEach_encodeStream_overflow {l : List (Plane × Kind)} (h : ∀ p k, HoldsStream s p k (seqs p k))
    (hover : ∃ x ∈ l, s.cfg.bsCap.toNat < byteCount (ownBits (seqs x.1 x.2))) :
    ∃ t, forEach l encodeStream s = raise (capError s.cfg.bsCap.toNat) t := by
  induction l generalizing s with
  | nil => simp at hover
  | cons x l ih =>
    by_cases hfits : byteCount (ownBits (seqs x.1 x.2)) ≤ s.cfg.bsCap.toNat
    · obtain ⟨y, hy, hlong⟩ := hover
      obtain ⟨c, -, hrun⟩ := (h x.1 x.2).encodeStream_ok hfits
      have hrest : ∃ y ∈ l, s.cfg.bsCap.toNat < byteCount (ownBits (seqs y.1 y.2)) := by
        rcases List.mem_cons.1 hy with rfl | hy
        · exact absurd hfits (Nat.not_le.2 hlong)
        · exact ⟨y, hy, hlong⟩
      obtain ⟨t, hloop⟩ := ih (holdsStream_streamEncoded h x c (seqs x.1 x.2)) hrest
      exact ⟨t, by rw [forEach_cons, hrun]; exact hloop⟩
    · obtain ⟨t, hrun⟩ := (h x.1 x.2).encodeStream_overflow (Nat.lt_of_not_le hfits)
      exact ⟨errorEntry (capError s.cfg.bsCap.toNat) t, by rw [forEach_cons, hrun]; rfl⟩

end

/-! ### The stages of `COMPRESS` before `FRAME` -/

/-- The symbols of a stream of the image. -/
def imageSymbols (s : State) (p : Plane) (k : Kind) : List Byte := symbolsOf k (imageBlocks s p)

theorem imageBits_eq (s : State) (p : Plane) (k : Kind) : imageBits s p k = ownBits (imageSymbols s p k) := rfl

/-- The state before `FRAME`. -/
structure StreamsEncoded (s t : State) : Prop where
  frame : encodeFrame t = encodeFrame (setGrid s)
  host : hostSide t = hostSide s
  record : errorRecord t = errorRecord s
  planes : ∀ p, PlaneHolds s p (imageBlocks s p) t
  last : LastBlock s (imageCount s) t
  streams : ∀ p k, StreamEncoded s p k (imageSymbols s p k) t

theorem PlaneHolds.holdsStream {s t : State} {p : Plane} (h : PlaneHolds s p (imageBlocks s p) t) (hgood : GoodSize s)
    (k : Kind) : HoldsStream t p k (imageSymbols s p k) := by
  refine ⟨(h.slen k).symm, ?_, h.symbols k⟩
  have := length_symbolsOf_take_le hgood p k (imageCount s)
  rwa [imageBlocks_take_count] at this

theorem allStreams_nodup : allStreams.Nodup := by decide

theorem BlocksEncoded.planeHolds {s t : State} (h : BlocksEncoded s (imageCount s) t) (p : Plane) :
    PlaneHolds s p (imageBlocks s p) t := imageBlocks_take_count s p ▸ h.planes p

theorem blockFrame_eq_iff {s t : State} : blockFrame s = blockFrame t ↔
    encodeFrame s = encodeFrame t ∧ hostSide s = hostSide t ∧ errorRecord s = errorRecord t ∧ s.lt = t.lt ∧
      s.ct = t.ct ∧ s.bs = t.bs ∧ s.bslen = t.bslen := by
  simp only [blockFrame, Prod.mk.injEq]

theorem encodeStages_eq {s t : State} (h : forEach (List.range (imageCount s)) encodeBlock (streamsReset (setGrid s)) = .ok t) :
    encodeStages (imageCount s) (setGrid s) = forEach allStreams encodeStream t := by
  rw [encodeStages, forEach_cmdCcRst, Run.andThen_ok, h, Run.andThen_ok]

/-- 47_codec.md R181: what stands before `FRAME`, where every segment fits. -/
theorem encodeStages_ok {s : State} (hgood : GoodSize s) (hfits : ∀ p k, byteCount (imageBits s p k) ≤ s.cfg.bsCap.toNat) :
    ∃ t, encodeStages (imageCount s) (setGrid s) = .ok t ∧ StreamsEncoded s t := by
  obtain ⟨u, hblocks, hu⟩ := forEach_encodeBlock hgood
  obtain ⟨hframe, hhost, hrecord, hlt, hct, hbs, hbslen⟩ := blockFrame_eq_iff.1 hu.frame
  obtain ⟨-, -, -, -, hcfg⟩ := encodeFrame_eq_iff.1 hframe
  obtain ⟨t, hloop, hkept, hdone, -⟩ := forEach_encodeStream_ok allStreams_nodup
    (fun p k => (hu.planeHolds p).holdsStream hgood k) (by rw [hcfg]; exact hfits)
  obtain ⟨hframe', hhost', hrecord', ⟨hbidx, hdcp, hslen, hsrd⟩, ⟨hsb, hcb, hqb⟩, hsyms, hqp⟩ :=
    streamFrame_eq_iff.1 hkept
  refine ⟨t, (encodeStages_eq hblocks).trans hloop, ⟨hframe'.trans hframe, hhost'.trans hhost, hrecord'.trans hrecord,
    fun p => ?_, ?_, fun p k => ?_⟩⟩
  · have hplane := hu.planeHolds p
    exact ⟨by rw [hslen]; exact hplane.slen, by rw [hsyms]; exact hplane.symbols, by rw [hsyms]; exact hplane.behind,
      by rw [hsrd]; exact hplane.srd, by rw [hdcp]; exact hplane.dcp, by rw [hqp]; exact hplane.stored,
      by rw [hqp]; exact hplane.storedBehind⟩
  · exact ⟨by rw [hbidx, hsb, hcb, hqb]; exact hu.last.none, by rw [hbidx, hsb, hcb, hqb]; exact hu.last.some⟩
  · exact (hdone (p, k) (mem_allStreams p k)).of_same_before
      ⟨by rw [hlt]; rfl, by rw [hct]; rfl, by rw [hbs]; rfl, by rw [hbslen]; rfl⟩

/-- 47_codec.md R181: a segment that does not fit ends `COMPRESS` with `E_CAP`. -/
theorem encodeStages_overflow {s : State} (hgood : GoodSize s)
    (hover : ∃ p k, s.cfg.bsCap.toNat < byteCount (imageBits s p k)) :
    ∃ t, encodeStages (imageCount s) (setGrid s) = raise (capError s.cfg.bsCap.toNat) t := by
  obtain ⟨u, hblocks, hu⟩ := forEach_encodeBlock hgood
  obtain ⟨hframe, -⟩ := blockFrame_eq_iff.1 hu.frame
  obtain ⟨-, -, -, -, hcfg⟩ := encodeFrame_eq_iff.1 hframe
  obtain ⟨p, k, hlong⟩ := hover
  have hloop := forEach_encodeStream_overflow (l := allStreams) (fun p k => (hu.planeHolds p).holdsStream hgood k)
    ⟨(p, k), mem_allStreams p k, by rw [hcfg]; exact hlong⟩
  rw [hcfg] at hloop
  rwa [encodeStages_eq hblocks]

/-! ### The container -/

section
variable {s t : State} (h : StreamsEncoded s t)
include h

theorem StreamsEncoded.segmentLengths_eq (p : Plane) (k : Kind) : segmentLengths t p k = byteCount (imageBits s p k) :=
  (h.streams p k).bslen

theorem StreamsEncoded.totalLength_eq :
    totalLength (segmentLengths t) = totalLength fun p k => byteCount (imageBits s p k) :=
  congrArg totalLength (funext fun p => funext fun k => h.segmentLengths_eq p k)

theorem StreamsEncoded.table_eq (p : Plane) (k : Kind) : (t.lt.at p k).readBytes 0 256 = huflen (imageSymbols s p k) := by
  rw [(h.streams p k).lt, ← length_huflen (imageSymbols s p k)]
  exact Memory.readBytes_of_holds (holdsBytes_cellsFrom 0 _)

theorem StreamsEncoded.segment_eq (p : Plane) (k : Kind) :
    (t.bs.at p k).readBytes 0 (t.bslen.at p k).toNat = packBits (imageBits s p k) := by
  rw [(h.streams p k).bslen, ← length_packBits, (h.streams p k).bs]
  exact Memory.readBytes_of_holds (holdsBytes_writeBytes _ 0 _)

/-- 30_encoding.md R77 to R80: `FRAME` finds the image's container. -/
theorem StreamsEncoded.containerBytes_eq : containerBytes t = imageContainer s := by
  obtain ⟨⟨-, -, hbw, hbh, -⟩, -⟩ := encodeFrame_eq_iff.1 h.frame
  have hcount (p : Plane) (k : Kind) : countBytes (t.bslen.at p k) = lowHigh (byteCount (imageBits s p k)) := by
    rw [countBytes_eq]
    exact congrArg lowHigh (h.segmentLengths_eq p k)
  have hheader : fileHeader t = [0x49#8, 0x4D#8, BitVec.ofNat 8 (s.imgw.toNat / 8), BitVec.ofNat 8 (s.imgh.toNat / 8)] ++
      allPlanes.flatMap fun p =>
        lowHigh (byteCount (imageBits s p .run)) ++ lowHigh (byteCount (imageBits s p .val)) := by
    rw [fileHeader, hbw, hbh]
    simp [acSegments, allPlanes, hcount, acKind, magic, setGrid]
  have htables : tableBytes t = allStreams.flatMap fun x => huflen (symbolsOf x.2 (imageBlocks s x.1)) :=
    List.flatMap_congr fun x _ => h.table_eq x.1 x.2
  have hpayload : payloadBytes t = allStreams.flatMap fun x => packBits (imageBits s x.1 x.2) :=
    List.flatMap_congr fun x _ => h.segment_eq x.1 x.2
  rw [containerBytes, hheader, htables, hpayload, imageContainer]

end

/-- The state after `FRAME`. -/
def framedState (s : State) : State :=
  { s with
    cbuf := framedBuffer s
    aclen := segmentCounts s
    clen := wordOf (totalLength (segmentLengths s)) }

theorem cmdFrame_of_fits {s : State} (hcap : ∀ p k, segmentLengths s p k ≤ s.cfg.bsCap.toNat)
    (hcounts : ∀ p a, segmentLengths s p (acKind a) ≤ 65535)
    (htotal : totalLength (segmentLengths s) ≤ s.cfg.cbufCap.toNat) : cmdFrame s = .ok (framedState s) := by
  simp only [cmdFrame, segmentOverCap_eq_false hcap, raiseIf_false, longSegment_eq_none hcounts, containerLength_eq,
    raiseIf_of_le htotal, framedBuffer, framedState]

theorem cmdFrame_cases (s : State) :
    cmdFrame s = .ok (framedState s) ∨ ∃ e, cmdFrame s = raise e s ∧ (e.code = .seglen ∨ e.code = .cap) := by
  rw [cmdFrame]
  rcases raiseIf_cases (allStreams.any fun t => Nat.blt s.cfg.bsCap.toNat (s.bslen.at t.1 t.2).toNat)
    (capError s.cfg.bsCap.toNat) s _ with ⟨-, h⟩ | ⟨-, h⟩
  · exact .inr ⟨_, h, .inr rfl⟩
  rw [h]
  cases longSegment s with
  | some x => exact .inr ⟨_, rfl, .inl rfl⟩
  | none =>
    dsimp only
    rcases raiseIf_cases (Nat.blt s.cfg.cbufCap.toNat (containerLength s)) (capError s.cfg.cbufCap.toNat) s _ with
      ⟨-, h⟩ | ⟨-, h⟩
    · exact .inr ⟨_, h, .inr rfl⟩
    · exact .inl h

/-! ### `COMPRESS` -/

theorem exec_compress (s : State) : exec .compress s = .next (cmdCompress s).state := rfl

theorem badDimension_eq_false_iff {d : BitVec 16} : badDimension d = false ↔ d.toNat % 8 = 0 ∧ d.toNat ≤ 2040 := by
  simp [badDimension, ← Bool.not_eq_true]

theorem cmdCompress_of_good {s : State} (h : GoodSize s) :
    cmdCompress s = (encodeStages (imageCount s) (setGrid s)).andThen cmdFrame := by
  have hdim : (badDimension s.imgw || badDimension s.imgh) = false := by
    rw [Bool.or_eq_false_iff]
    exact ⟨badDimension_eq_false_iff.2 ⟨h.wide, h.wideLe⟩, badDimension_eq_false_iff.2 ⟨h.high, h.highLe⟩⟩
  rw [cmdCompress, hdim, raiseIf_false, h.blockCount, compressStages_eq]

/-- What an image must meet for `COMPRESS` to write its container (47_codec.md R181). -/
structure Compressible (s : State) : Prop where
  good : GoodSize s
  segments : ∀ p k, byteCount (imageBits s p k) ≤ s.cfg.bsCap.toNat
  counts : ∀ p a, byteCount (imageBits s p (acKind a)) ≤ 65535
  total : (totalLength fun p k => byteCount (imageBits s p k)) ≤ s.cfg.cbufCap.toNat

/-- 47_codec.md R181: `COMPRESS` ends with `FRAME` of the image's streams. -/
theorem cmdCompress_ok {s : State} (h : Compressible s) :
    ∃ t, cmdCompress s = .ok (framedState t) ∧ StreamsEncoded s t := by
  obtain ⟨t, hstages, ht⟩ := encodeStages_ok h.good h.segments
  obtain ⟨-, -, -, -, hcfg⟩ := encodeFrame_eq_iff.1 ht.frame
  refine ⟨t, ?_, ht⟩
  rw [cmdCompress_of_good h.good, hstages, Run.andThen_ok]
  refine cmdFrame_of_fits (fun p k => ?_) (fun p a => ?_) ?_
  · rw [ht.segmentLengths_eq, hcfg]
    exact h.segments p k
  · rw [ht.segmentLengths_eq]
    exact h.counts p a
  · rw [ht.totalLength_eq, hcfg]
    exact h.total

/-- Settles O53: the state before `FRAME` is `StreamsEncoded`, and `FRAME` finds the image's container in it. -/
theorem compressWritesTheContainer : Obligations.CompressWritesTheContainer := by
  refine ⟨by decide, fun s => ?_⟩
  dsimp only
  intro hwide hhigh hwideLe hhighLe hsegments hcounts htotal
  have hgood : GoodSize s := ⟨hwide, hhigh, hwideLe, hhighLe⟩
  obtain ⟨t, hrun, ht⟩ := cmdCompress_ok ⟨hgood, hsegments, hcounts, htotal⟩
  obtain ⟨⟨himgw, himgh, hblkw, hblkh, -⟩, ⟨-, hcptr, hcount, hpix, hyuv⟩, hcbuf, himg, hcfg⟩ :=
    encodeFrame_eq_iff.1 ht.frame
  obtain ⟨-, hcmd, hbusy, hdone, hie, hpending, hreply⟩ := hostSide_eq_iff.1 ht.host
  obtain ⟨herr, herrcode, herrinfo⟩ : t.err = s.err ∧ t.errcode = s.errcode ∧ t.errinfo = s.errinfo := by
    simpa only [errorRecord, Prod.mk.injEq] using ht.record
  have hlength := ht.totalLength_eq
  have hcbufCap := s.cfg.cbufCap.isLt
  refine ⟨framedState t, by rw [exec_compress, hrun, Run.state_ok], ?_, ?_, fun a ha => ?_, ?_, ?_, ?_, fun p a => ?_, ?_,
    fun p n hn => ?_, fun p a ha => ?_, fun p k => ?_, ?_, fun p => (ht.planes p).dcp, himg, himgw, himgh, hcptr, hcount,
    hpix, hyuv, hie, herr, herrcode, herrinfo, hcfg, hcmd, hbusy, hdone, hpending, hreply⟩
  · rw [← ht.containerBytes_eq, length_containerBytes, hlength]
  · rw [← ht.containerBytes_eq]
    exact holdsBytes_framedBuffer t
  · exact (read_framedBuffer_behind (hlength ▸ ha)).trans (by rw [hcbuf]; rfl)
  · exact (congrArg (BitVec.toNat ∘ wordOf) hlength).trans (toNat_wordOf (by omega))
  · exact (congrArg BitVec.toNat hblkw).trans hgood.blkw
  · exact (congrArg BitVec.toNat hblkh).trans hgood.blkh
  · rw [← ht.segmentLengths_eq]
    exact segmentCounts_toNat (by rw [ht.segmentLengths_eq]; exact hcounts p a)
  · rw [← imageCount]
    by_cases hzero : imageCount s = 0
    · rw [if_pos hzero]
      exact (ht.last.none hzero).1
    · rw [if_neg hzero]
      exact (ht.last.some _ (Nat.succ_pred hzero).symm).1
  · refine (ht.planes p).stored n _ ?_
    rw [imageBlocks, List.getElem?_map, List.getElem?_range hn]
    rfl
  · refine (ht.planes p).storedBehind a ?_
    rwa [length_imageBlocks]
  · have hplane := ht.planes p
    have hstream := ht.streams p k
    refine ⟨hplane.srd k, hplane.slen k, hstream.bslen, hplane.symbols k, hplane.behind k, ?_, ?_, ?_, fun a ha => ?_⟩
    · exact hstream.lt ▸ holdsBytes_cellsFrom 0 _
    · exact hstream.ct
    · exact hstream.bs ▸ holdsBytes_writeBytes _ 0 _
    · refine (congrArg (Memory.read · a) hstream.bs).trans ?_
      exact read_writeBytes_behind _ _ (length_packBits _) a ha
  · rw [← imageCount]
    by_cases hzero : imageCount s = 0
    · rw [if_pos hzero]
      exact (ht.last.none hzero).2
    · rw [if_neg hzero]
      exact (ht.last.some _ (Nat.succ_pred hzero).symm).2

/-- A failing or complete `COMPRESS` of an image of a legal size (47_codec.md R181). -/
theorem cmdCompress_cases {s : State} (h : GoodSize s) :
    (∃ t, cmdCompress s = .ok t ∧ errorRecord t = errorRecord s) ∨
      ∃ e t, cmdCompress s = raise e t ∧ (e.code = .seglen ∨ e.code = .cap) ∧ encodeFrame t = encodeFrame (setGrid s) := by
  rw [cmdCompress_of_good h]
  have hframe := encodeFrame_encodeStages (setGrid s) (imageCount s)
  by_cases hfits : ∀ p k, byteCount (imageBits s p k) ≤ s.cfg.bsCap.toNat
  · obtain ⟨t, hstages, ht⟩ := encodeStages_ok h hfits
    rw [hstages, Run.andThen_ok]
    rcases cmdFrame_cases t with hok | ⟨e, hraise, hcode⟩
    · exact .inl ⟨framedState t, hok, ht.record⟩
    · exact .inr ⟨e, t, hraise, hcode, ht.frame⟩
  · obtain ⟨t, hstages⟩ := encodeStages_overflow h (by simpa using hfits)
    rw [hstages] at hframe ⊢
    exact .inr ⟨_, t, rfl, .inr rfl, hframe⟩

/-- The information word of `E_DIM` (60_exceptions.md R191). -/
theorem wordOf_dimensions (w h : BitVec 16) : wordOf (w.toNat + 65536 * h.toNat) = h ++ w := by
  have hw := w.isLt
  have hh := h.isLt
  refine BitVec.eq_of_toNat_eq ?_
  rw [toNat_wordOf (by omega), BitVec.toNat_append, ← Nat.shiftLeft_add_eq_or_of_lt hw, Nat.shiftLeft_eq]
  omega

/-- Settles O54: past the dimension check only `HUF_ENC` and `FRAME` can fail, and nothing before `FRAME` writes `CBUF`,
`CLEN` or the image. -/
theorem failingCompressKeepsTheBuffer : Obligations.FailingCompressKeepsTheBuffer := by
  refine fun s => ⟨fun hbad => ?_, fun hgood herr => ⟨_, exec_compress s, fun herr' => ?_⟩⟩
  · have hdim : (badDimension s.imgw || badDimension s.imgh) = true := by
      simp only [badDimension, Bool.or_eq_true, bne_iff_ne, Nat.blt_eq]
      omega
    rw [exec_compress, cmdCompress, hdim, raiseIf_true, Run.state_raise, errorEntry, wordOf_dimensions]
  · simp only [not_or, Nat.not_lt, Decidable.not_not] at hgood
    obtain ⟨hwide, hhigh, hwideLe, hhighLe⟩ := hgood
    rcases cmdCompress_cases ⟨hwide, hhigh, hwideLe, hhighLe⟩ with ⟨t, hrun, hrecord⟩ | ⟨e, t, hrun, hcode, hframe⟩
    · have hkept : t.err = s.err := congrArg Prod.fst hrecord
      rw [hrun, Run.state_ok, hkept, herr] at herr'
      cases herr'
    · obtain ⟨⟨himgw, himgh, -, -, haclen⟩, ⟨hclen, -⟩, hcbuf, himg, -⟩ := encodeFrame_eq_iff.1 hframe
      rw [hrun, Run.state_raise]
      exact ⟨hcode, hcbuf, hclen, haclen, himg, himgw, himgh⟩

end Sys2Proof.Machine

/-! PROOFS. The image stage of `DECOMPRESS` (47_codec.md R183, R184): loops that may end with an error, one block rebuilt, and
all blocks of the image. -/

namespace Sys2Proof.Machine

/-! ### Loops that may end with an error -/

theorem Run.andThen_raise (e : Err) (s : State) (go : State → Run) : (raise e s).andThen go = raise e s := rfl

/-- A loop over `0..N − 1` whose passes each make the invariant of the next or raise one of the errors `bad`. -/
theorem forEach_range_cases {inv : Nat → State → Prop} {bad : Err → Prop} {body : Nat → State → Run} {N : Nat} {s : State}
    (h0 : inv 0 s) (hstep : ∀ n t, n < N → inv n t →
      (∃ t', body n t = .ok t' ∧ inv (n + 1) t') ∨ ∃ e t', body n t = raise e t' ∧ bad e) :
    (∃ t, forEach (List.range N) body s = .ok t ∧ inv N t) ∨
      ∃ e t, forEach (List.range N) body s = raise e t ∧ bad e := by
  induction N with
  | zero => exact .inl ⟨s, rfl, h0⟩
  | succ N ih =>
    rw [List.range_succ, forEach_append]
    rcases ih fun n t hn => hstep n t (by omega) with ⟨t, hfront, ht⟩ | ⟨e, t, hfront, he⟩
    · rw [hfront, Run.andThen_ok, forEach_cons]
      rcases hstep N t (Nat.lt_succ_self N) ht with ⟨t', hlast, ht'⟩ | ⟨e, t', hlast, he⟩
      · exact .inl ⟨t', by rw [hlast]; rfl, ht'⟩
      · exact .inr ⟨e, t', by rw [hlast]; rfl, he⟩
    · exact .inr ⟨e, t, by rw [hfront, Run.andThen_raise], he⟩

/-- What a pass of a loop over the planes does when it ends normally: it makes the invariant of the next plane and its own
result, and keeps what holds for the other planes. -/
structure PlanePass (inv : Nat → State → Prop) (todo done : Plane → State → Prop) (p : Plane) (s t : State) : Prop where
  next : inv (planeNum p + 1) t
  own : done p t
  others : ∀ q, (q == p) = false → (todo q s → todo q t) ∧ (done q s → done q t)

/-- A loop over the planes. -/
theorem forEach_allPlanes_cases {inv : Nat → State → Prop} {todo done : Plane → State → Prop} {bad : Err → Prop}
    {body : Plane → State → Run} {s : State} (h0 : inv 0 s) (htodo : ∀ p, todo p s)
    (hpass : ∀ p t, inv (planeNum p) t → todo p t →
      (∃ t', body p t = .ok t' ∧ PlanePass inv todo done p t t') ∨ ∃ e t', body p t = raise e t' ∧ bad e) :
    (∃ t, forEach allPlanes body s = .ok t ∧ inv 3 t ∧ ∀ p, done p t) ∨
      ∃ e t, forEach allPlanes body s = raise e t ∧ bad e := by
  rw [forEach_allPlanes]
  rcases hpass .y s h0 (htodo .y) with ⟨t1, hy, h1⟩ | ⟨e, t, hy, he⟩
  case inr => exact .inr ⟨e, t, by rw [hy, Run.andThen_raise], he⟩
  rw [hy, Run.andThen_ok]
  rcases hpass .u t1 h1.next ((h1.others .u rfl).1 (htodo .u)) with ⟨t2, hu, h2⟩ | ⟨e, t, hu, he⟩
  case inr => exact .inr ⟨e, t, by rw [hu, Run.andThen_raise], he⟩
  rw [hu, Run.andThen_ok]
  have htodoV := (h2.others .v rfl).1 ((h1.others .v rfl).1 (htodo .v))
  rcases hpass .v t2 h2.next htodoV with ⟨t3, hv, h3⟩ | ⟨e, t, hv, he⟩
  case inr => exact .inr ⟨e, t, by rw [hv, Run.andThen_raise], he⟩
  refine .inl ⟨t3, by rw [hv, Run.andThen_ok], h3.next, fun p => ?_⟩
  cases p with
  | y => exact (h3.others .y rfl).2 ((h2.others .y rfl).2 h1.own)
  | u => exact (h3.others .u rfl).2 h2.own
  | v => exact h3.own

/-! ### One block rebuilt -/

/-- The state after `LDQ p ; DEQUANT ; IDCT p` of the three planes, for block `n`. -/
def blockRebuilt (n : Nat) (s : State) : State :=
  { s with
    bidx := BitVec.ofNat 16 n
    qb := s.qp.v.readBlock n
    cb := Block.make fun v u => dequantOne v u ((s.qp.v.readBlock n).at v u)
    sb := PerPlane.make fun p => rebuilt ((s.qp.get p).readBlock n) }

theorem rebuildPlane_of_block {p : Plane} {s : State} (h : s.bidx.toNat < s.blkw.toNat * s.blkh.toNat) :
    rebuildPlane p s = .ok { s with
      qb := (s.qp.get p).readBlock s.bidx.toNat
      cb := Block.make fun v u => dequantOne v u (((s.qp.get p).readBlock s.bidx.toNat).at v u)
      sb := s.sb.set p (rebuilt ((s.qp.get p).readBlock s.bidx.toNat)) } := by
  rw [rebuildPlane, cmdLdq, blockCheck_of_block h]
  rfl

section
variable {n : Nat} {s : State}

theorem toNat_blockIndex (hn : n < blockCount s) : (BitVec.ofNat 16 n).toNat = n := by
  have := blockCount_le s
  exact Nat.mod_eq_of_lt (by omega)

theorem forEach_rebuildPlane (hn : n < blockCount s) :
    forEach allPlanes rebuildPlane { s with bidx := BitVec.ofNat 16 n } = .ok (blockRebuilt n s) := by
  have hblock : (BitVec.ofNat 16 n).toNat < s.blkw.toNat * s.blkh.toNat := (toNat_blockIndex hn).trans_lt hn
  rw [forEach_allPlanes, rebuildPlane_of_block hblock, Run.andThen_ok, rebuildPlane_of_block hblock, Run.andThen_ok,
    rebuildPlane_of_block hblock, Run.andThen_ok, toNat_blockIndex hn]
  rfl

theorem rebuildBlock_eq (hn : n < blockCount s) (hwide : 8 * s.blkw.toNat ≤ s.imgw.toNat)
    (hhigh : 8 * s.blkh.toNat ≤ s.imgh.toNat) :
    rebuildBlock n s = .ok { blockRebuilt n s with img := tileWritten (blockRebuilt n s) } := by
  obtain ⟨-, -, hpass⟩ := tileChecks_cases (blockRebuilt n s) fun s => .ok { s with img := tileWritten s }
  rw [rebuildBlock, forEach_rebuildPlane hn, Run.andThen_ok, cmdTileOut]
  exact hpass ((toNat_blockIndex hn).trans_lt hn) hwide hhigh

end

/-! ### The pixels of a tile and of the others -/

/-- Two different pixels lie apart. -/
theorem pixelAddr_apart {x y x' y' : Nat} (hx : x < 65536) (hx' : x' < 65536) (hne : ¬(x = x' ∧ y = y')) :
    pixelAddr x y + 3 ≤ pixelAddr x' y' ∨ pixelAddr x' y' + 3 ≤ pixelAddr x y := by
  simp only [pixelAddr]
  omega

theorem readPixel_congr {m m' : Memory} {x y : Nat} (h : ∀ k, k < 3 → m'.read (pixelAddr x y + k) = m.read (pixelAddr x y + k)) :
    m'.readPixel x y = m.readPixel x y := by
  simp only [Memory.readPixel]
  rw [h 1 (by decide), h 2 (by decide), show m'.read (pixelAddr x y) = m.read (pixelAddr x y) from h 0 (by decide)]

/-- `TILE_OUT` leaves the pixels outside its tile alone. -/
theorem readPixel_tileWritten_of_other {s : State} {x y : Nat} (hx : x < 65536) (htile : ∀ i : Fin 8, tileX s i.val < 65536)
    (h : ∀ j i : Fin 8, ¬(x = tileX s i.val ∧ y = tileY s j.val)) : (tileWritten s).readPixel x y = s.img.readPixel x y := by
  refine readPixel_congr fun k hk => read_tileWritten_of_outside fun j i => ?_
  have := pixelAddr_apart hx (htile i) (h j i)
  omega

section
variable {n bw bh : Nat}

theorem column_lt (hn : n < bw * bh) : n % bw < bw :=
  Nat.mod_lt _ (Nat.pos_of_ne_zero fun h => by rw [h, Nat.zero_mul] at hn; exact Nat.not_lt_zero _ hn)

theorem row_lt (hn : n < bw * bh) : n / bw < bh := Nat.div_lt_of_lt_mul hn

/-- Blocks at the same place are the same block. -/
theorem eq_of_place {m : Nat} (hcolumn : m % bw = n % bw) (hrow : m / bw = n / bw) : m = n := by
  rw [← Nat.div_add_mod m bw, ← Nat.div_add_mod n bw, hcolumn, hrow]

end

/-! ### All blocks of the image -/

/-- The part of the state that the image stage of `DECOMPRESS` leaves alone. -/
def imageFrame (s : State) :=
  (decodeFrame s, hostSide s, errorRecord s, (s.imgw, s.imgh, s.blkw, s.blkh), (s.aclen, s.cptr, s.count, s.dcp),
    (s.slen, s.srd, s.syms), s.lt, s.ct, s.qp)

theorem imageFrame_eq_iff {s t : State} : imageFrame s = imageFrame t ↔
    decodeFrame s = decodeFrame t ∧ hostSide s = hostSide t ∧ errorRecord s = errorRecord t ∧
      (s.imgw = t.imgw ∧ s.imgh = t.imgh ∧ s.blkw = t.blkw ∧ s.blkh = t.blkh) ∧
      (s.aclen = t.aclen ∧ s.cptr = t.cptr ∧ s.count = t.count ∧ s.dcp = t.dcp) ∧
      (s.slen = t.slen ∧ s.srd = t.srd ∧ s.syms = t.syms) ∧ s.lt = t.lt ∧ s.ct = t.ct ∧ s.qp = t.qp := by
  simp only [imageFrame, Prod.mk.injEq]

/-- The samples of plane `p` that block `n` of the quantised plane stands for. -/
def rebuiltAt (s : State) (p : Plane) (n : Nat) : Block Byte := rebuilt ((s.qp.get p).readBlock n)

/-- The pixel of block `n` at row `j` and column `i`. -/
def rebuiltPixel (s : State) (n : Nat) (j i : Fin 8) : Pixel :=
  yuv2rgb { y := (rebuiltAt s .y n).at j i, u := (rebuiltAt s .u n).at j i, v := (rebuiltAt s .v n).at j i }

/-- The state after `n` blocks of the image stage of `DECOMPRESS` from `s`. -/
structure ImageRebuilt (s : State) (n : Nat) (t : State) : Prop where
  frame : imageFrame t = imageFrame (setImageSize s)
  pixels : ∀ m, m < n → ∀ j i : Fin 8,
    t.img.readPixel (8 * (m % s.blkw.toNat) + i.val) (8 * (m / s.blkw.toNat) + j.val) = rebuiltPixel s m j i
  outside : ∀ a, 8 * s.blkw.toNat ≤ a / 3 % 65536 ∨ 8 * s.blkh.toNat ≤ a / 3 / 65536 → t.img.read a = s.img.read a
  none : n = 0 → t.bidx = s.bidx ∧ t.sb = s.sb ∧ t.cb = s.cb ∧ t.qb = s.qb
  some : ∀ m, n = m + 1 → t.bidx = BitVec.ofNat 16 m ∧ (∀ p, t.sb.get p = rebuiltAt s p m) ∧
    t.qb = s.qp.v.readBlock m ∧ t.cb = Block.make fun v u => dequantOne v u (t.qb.at v u)

section
variable {s t : State} {n : Nat}

/-- The places of the tile `n` as `TILE_OUT` computes them. -/
theorem tile_places (hn : n < blockCount t) (k : Nat) : tileX (blockRebuilt n t) k = 8 * (n % t.blkw.toNat) + k ∧
    tileY (blockRebuilt n t) k = 8 * (n / t.blkw.toNat) + k := by
  simp only [tileX, tileY, blockRebuilt, toNat_blockIndex hn, and_self]

theorem tile_bounds (hn : n < blockCount t) (k : Fin 8) : tileX (blockRebuilt n t) k.val < 8 * t.blkw.toNat ∧
    tileY (blockRebuilt n t) k.val < 8 * t.blkh.toNat := by
  have hcolumn := column_lt hn
  have hrow := row_lt hn
  have hk := k.isLt
  rw [(tile_places hn k.val).1, (tile_places hn k.val).2]
  omega

theorem toNat_imageSize (w : BitVec 8) : (BitVec.ofNat 16 (8 * w.toNat)).toNat = 8 * w.toNat := by
  have := w.isLt
  exact Nat.mod_eq_of_lt (by omega)

/-- A pass of the image stage. -/
theorem ImageRebuilt.step (h : ImageRebuilt s n t) (hn : n < blockCount s) :
    ∃ t', rebuildBlock n t = .ok t' ∧ ImageRebuilt s (n + 1) t' := by
  obtain ⟨-, -, -, ⟨himgw, himgh, hblkw, hblkh⟩, -, -, -, -, hqp⟩ := imageFrame_eq_iff.1 h.frame
  have hbw : t.blkw = s.blkw := hblkw
  have hbh : t.blkh = s.blkh := hblkh
  have hwidth : t.imgw.toNat = 8 * s.blkw.toNat := (congrArg BitVec.toNat himgw).trans (toNat_imageSize _)
  have hheight : t.imgh.toNat = 8 * s.blkh.toNat := (congrArg BitVec.toNat himgh).trans (toNat_imageSize _)
  have hn' : n < blockCount t := by
    rw [blockCount, hbw, hbh]
    exact hn
  have hbwLt := s.blkw.isLt
  have hbounds := tile_bounds hn'
  simp only [hbw, hbh] at hbounds
  have hplaces := tile_places hn'
  simp only [hbw] at hplaces
  have hsamples (p : Plane) : (blockRebuilt n t).sb.get p = rebuiltAt s p n := by
    rw [rebuiltAt, ← show t.qp = s.qp from hqp]
    exact PerPlane.get_make _ p
  refine ⟨_, rebuildBlock_eq hn' (by rw [hbw, hwidth]) (by rw [hbh, hheight]), h.frame, fun m hm j i => ?_, fun a ha => ?_,
    nofun, fun m hm => ?_⟩
  · change (tileWritten (blockRebuilt n t)).readPixel _ _ = _
    rcases Nat.lt_succ_iff_lt_or_eq.1 hm with hlt | rfl
    · rw [← h.pixels m hlt]
      have hcolumn := column_lt (hlt.trans hn)
      have hi := i.isLt
      refine readPixel_tileWritten_of_other (by omega) (fun i => by have := (hbounds i).1; omega) fun j' i' hsame => ?_
      rw [(hplaces _).1, (hplaces _).2] at hsame
      have hi' := i'.isLt
      have hj := j.isLt
      have hj' := j'.isLt
      exact Nat.ne_of_lt hlt (eq_of_place (bw := s.blkw.toNat) (by omega) (by omega))
    · rw [← (hplaces _).1, ← (hplaces _).2, readPixel_tileWritten, rebuiltPixel, ← hsamples, ← hsamples, ← hsamples]
      rfl
  · refine Eq.trans ?_ (h.outside a ha)
    change (tileWritten (blockRebuilt n t)).read a = _
    refine read_tileWritten_of_outside fun j i => ?_
    have hx := (hbounds i).1
    have hy := (hbounds j).2
    simp only [pixelAddr]
    omega
  · obtain rfl : n = m := Nat.succ.inj hm
    have hqb : (blockRebuilt n t).qb = s.qp.v.readBlock n := by
      rw [← show t.qp = s.qp from hqp]
      rfl
    exact ⟨rfl, hsamples, hqb, rfl⟩

end

/-- 47_codec.md R183, R184: the image stage of `DECOMPRESS` ends without an error, from every state. -/
theorem decompressImage_ok (s : State) : ∃ t, decompressImage s = .ok t ∧ ImageRebuilt s (blockCount s) t :=
  forEach_range_ok (inv := ImageRebuilt s)
    ⟨rfl, fun _ hm => absurd hm (Nat.not_lt_zero _), fun _ _ => rfl, fun _ => ⟨rfl, rfl, rfl, rfl⟩, nofun⟩
    fun _ _ hn h => h.step hn

end Sys2Proof.Machine

/-! PROOFS. The coefficient stage of `DECOMPRESS` (47_codec.md R183): one block read from a plane's streams, the blocks of a
plane, and the three planes, for streams that hold blocks and for streams that hold any pairs with an EOB per block. -/

namespace Sys2Proof.Machine

/-! ### The symbols at the cursors of a plane -/

/-- The symbols of the three kinds that DC differences and pairs give. -/
def pairSymbols (dcs : List Byte) (pairs : List (Byte × Byte)) : Kind → List Byte
  | .dc => dcs
  | .run => pairs.map Prod.fst
  | .val => pairs.map Prod.snd

theorem pairSymbols_append (front back : List Byte) (l m : List (Byte × Byte)) (k : Kind) :
    pairSymbols (front ++ back) (l ++ m) k = pairSymbols front l k ++ pairSymbols back m k := by
  cases k with
  | dc => rfl
  | run => exact List.map_append
  | val => exact List.map_append

theorem length_pairSymbols_singleton (d : Byte) (l : List (Byte × Byte)) (k : Kind) :
    (pairSymbols [d] l k).length = advance l.length k := by
  cases k with
  | dc => rfl
  | run => exact List.length_map _
  | val => exact List.length_map _

/-- From the cursors of plane `p` on, its streams are these DC differences and these pairs. -/
structure CoefsAt (p : Plane) (dcs : List Byte) (pairs : List (Byte × Byte)) (s : State) : Prop where
  filled : ∀ k, (s.srd.at p k).toNat + (pairSymbols dcs pairs k).length = (s.slen.at p k).toNat
  within : ∀ k, (s.slen.at p k).toNat ≤ 4161600
  symbols : ∀ k, holdsBytes (s.syms.at p k) (s.srd.at p k).toNat (pairSymbols dcs pairs k)

/-- The state after `BIDX <- n ; CC_DEC p ; STQ p`, of a block `q` with the DC coefficient `d` that stood in `k` pairs. -/
def blockStored (p : Plane) (n : Nat) (q : Block Byte) (d : Byte) (k : Nat) (s : State) : State :=
  { s with
    bidx := BitVec.ofNat 16 n
    qb := q
    dcp := s.dcp.set p d
    srd := advanced s.srd p k
    qp := s.qp.set p ((s.qp.get p).writeBlock n q) }

section
variable {p : Plane} {s : State} {d : Byte} {dcs : List Byte} {front back : List (Byte × Byte)}

theorem CoefsAt.front_le (h : CoefsAt p (d :: dcs) (front ++ back) s) (k : Kind) :
    (s.srd.at p k).toNat + advance front.length k ≤ (s.slen.at p k).toNat := by
  have hfilled := h.filled k
  have hsplit := pairSymbols_append [d] dcs front back k
  rw [List.singleton_append] at hsplit
  rw [hsplit, List.length_append, length_pairSymbols_singleton] at hfilled
  omega

/-- The symbols in front of the others. -/
theorem CoefsAt.front_symbols (h : CoefsAt p (d :: dcs) (front ++ back) s) (k : Kind) :
    holdsBytes (s.syms.at p k) (s.srd.at p k).toNat (pairSymbols [d] front k) :=
  (holdsBytes_append ((pairSymbols_append [d] dcs front back k) ▸ h.symbols k)).1

/-- A block taken from the streams. -/
theorem CoefsAt.stored (h : CoefsAt p (d :: dcs) (front ++ back) s) (n : Nat) (q : Block Byte) (b : Byte) :
    CoefsAt p dcs back (blockStored p n q b front.length s) := by
  have hsplit (k : Kind) : pairSymbols (d :: dcs) (front ++ back) k = pairSymbols [d] front k ++ pairSymbols dcs back k :=
    pairSymbols_append [d] dcs front back k
  have hsrd (k : Kind) : ((blockStored p n q b front.length s).srd.at p k).toNat =
      (s.srd.at p k).toNat + (pairSymbols [d] front k).length := by
    rw [length_pairSymbols_singleton]
    exact toNat_at_advanced (Nat.le_trans (h.front_le k) (h.within k))
  refine ⟨fun k => ?_, h.within, fun k => ?_⟩
  · have hfilled := h.filled k
    rw [hsplit, List.length_append] at hfilled
    rw [hsrd, Nat.add_assoc]
    exact hfilled
  · rw [hsrd]
    exact (holdsBytes_append (hsplit k ▸ h.symbols k)).2

end

/-! ### What belongs to the other planes -/

/-- What `t` has of the quantised blocks, the predictor and the cursors of plane `p` is what `s` has. -/
structure SamePlane (p : Plane) (s t : State) : Prop where
  qp : t.qp.get p = s.qp.get p
  dcp : t.dcp.get p = s.dcp.get p
  srd : ∀ k, t.srd.at p k = s.srd.at p k

theorem SamePlane.trans {p : Plane} {s t u : State} (h : SamePlane p s t) (h' : SamePlane p t u) : SamePlane p s u :=
  ⟨h'.qp.trans h.qp, h'.dcp.trans h.dcp, fun k => (h'.srd k).trans (h.srd k)⟩

theorem at_advanced_of_ne {a : PerStream Word} {p q : Plane} {n : Nat} (k : Kind) (h : (q == p) = false) :
    (advanced a p n).at q k = a.at q k := by
  have hput {b : PerStream Word} {l : Kind} {x : Word} : (b.put p l x).at q k = b.at q k :=
    at_put_of_ne (by rw [h, Bool.false_and])
  exact hput.trans (hput.trans hput)

theorem samePlane_blockStored {p q : Plane} {s : State} {n k : Nat} {r : Block Byte} {d : Byte} (h : (q == p) = false) :
    SamePlane q s (blockStored p n r d k s) :=
  ⟨get_set_of_ne h, get_set_of_ne h, fun l => at_advanced_of_ne l h⟩

/-- The part of the state that the coefficient stage of `DECOMPRESS` leaves alone. -/
def coefFrame (s : State) :=
  (parseFrame s, hostSide s, errorRecord s, (s.blkw, s.blkh, s.aclen, s.cptr, s.count), (s.lt, s.ct), (s.syms, s.slen),
    s.sb, s.cb)

theorem coefFrame_eq_iff {s t : State} : coefFrame s = coefFrame t ↔
    parseFrame s = parseFrame t ∧ hostSide s = hostSide t ∧ errorRecord s = errorRecord t ∧
      (s.blkw = t.blkw ∧ s.blkh = t.blkh ∧ s.aclen = t.aclen ∧ s.cptr = t.cptr ∧ s.count = t.count) ∧
      (s.lt = t.lt ∧ s.ct = t.ct) ∧ (s.syms = t.syms ∧ s.slen = t.slen) ∧ s.sb = t.sb ∧ s.cb = t.cb := by
  simp only [coefFrame, Prod.mk.injEq]

theorem blockCount_of_coefFrame {s t : State} (h : coefFrame t = coefFrame s) : blockCount t = blockCount s := by
  obtain ⟨-, -, -, ⟨hblkw, hblkh, -⟩, -⟩ := coefFrame_eq_iff.1 h
  rw [blockCount, hblkw, hblkh, blockCount]

theorem CoefsAt.of_same {p : Plane} {dcs : List Byte} {pairs : List (Byte × Byte)} {s t : State} (h : CoefsAt p dcs pairs s)
    (hframe : coefFrame t = coefFrame s) (hsame : SamePlane p s t) : CoefsAt p dcs pairs t := by
  obtain ⟨-, -, -, -, -, ⟨hsyms, hslen⟩, -⟩ := coefFrame_eq_iff.1 hframe
  exact ⟨by simpa only [hslen, hsame.srd] using h.filled, by simpa only [hslen] using h.within,
    by simpa only [hsyms, hsame.srd] using h.symbols⟩

/-! ### One block -/

section
variable {p : Plane} {n : Nat} {s : State}

theorem decodeCoefs_of_block {q : Block Byte} {d : Byte} {k : Nat} (hn : n < blockCount s)
    (h : cmdCcDec p { s with bidx := BitVec.ofNat 16 n } = .ok { s with
      bidx := BitVec.ofNat 16 n
      qb := q
      dcp := s.dcp.set p d
      srd := advanced s.srd p k }) :
    decodeCoefs p n s = .ok (blockStored p n q d k s) := by
  have hblock : (BitVec.ofNat 16 n).toNat < s.blkw.toNat * s.blkh.toNat := (toNat_blockIndex hn).trans_lt hn
  rw [decodeCoefs, h, Run.andThen_ok, cmdStq_of_block hblock, toNat_blockIndex hn]
  rfl

theorem decodeCoefs_of_raise {e : Err} {t : State} (h : cmdCcDec p { s with bidx := BitVec.ofNat 16 n } = raise e t) :
    decodeCoefs p n s = raise e t := by
  rw [decodeCoefs, h, Run.andThen_raise]

/-- The symbols of a block at the cursors are read, and the block is stored. -/
theorem decodeCoefs_of_symbols {q : Block Byte} {dcs : List Byte} {pairs : List (Byte × Byte)} (hn : n < blockCount s)
    (h : CoefsAt p ((q.at 0 0 - s.dcp.get p) :: dcs) (blockPairs q ++ pairs) s) :
    decodeCoefs p n s = .ok (blockStored p n q (q.at 0 0) (blockPairs q).length s) :=
  have hcap (k : Kind) := Nat.le_trans (h.front_le k) (h.within k)
  decodeCoefs_of_block hn (cmdCcDec_of_block_symbols (s := { s with bidx := BitVec.ofNat 16 n }) (h.front_le .dc)
    (hcap .dc) (h.front_le .run) (hcap .run) (h.front_le .val) (hcap .val) (h.front_symbols .dc) (h.front_symbols .run)
    (h.front_symbols .val))

/-- Pairs that do not stay inside the positions have a first one that leaves them. -/
theorem exists_leaving {l : List (Byte × Byte)} {c : Nat} (hc : c ≤ 63) (h : 63 < c + (acSequence l).length) :
    ∃ front x back, l = front ++ x :: back ∧ c + (acSequence front).length ≤ 63 ∧
      62 < c + (acSequence front).length + x.1.toNat := by
  induction l generalizing c with
  | nil => exact absurd h (Nat.not_lt.2 hc)
  | cons x l ih =>
    by_cases hx : 62 < c + x.1.toNat
    · exact ⟨[], x, l, rfl, hc, hx⟩
    rw [acSequence_cons, List.length_append, List.length_replicate, List.length_cons] at h
    obtain ⟨front, y, back, rfl, hfront, hy⟩ := ih (c := c + x.1.toNat + 1) (by omega) (by omega)
    refine ⟨x :: front, y, back, rfl, ?_, ?_⟩ <;>
      rw [acSequence_cons, List.length_append, List.length_replicate, List.length_cons] <;> omega

/-- `CC_DEC` of pairs at the cursors that an EOB ends. -/
theorem CoefsAt.cmdCcDec_of_eob {d : Byte} {dcs : List Byte} {front back : List (Byte × Byte)}
    (h : CoefsAt p (d :: dcs) ((front ++ [(0#8, 0#8)]) ++ back) s) (heob : (0#8, 0#8) ∉ front)
    (hpositions : (acSequence front).length ≤ 63) :
    cmdCcDec p s = .ok { s with
      qb := placePairs 0 front (dcBlock (s.dcp.get p + d))
      dcp := s.dcp.set p (s.dcp.get p + d)
      srd := advanced s.srd p (front.length + 1) } := by
  have hlength : (front ++ [((0#8, 0#8) : Byte × Byte)]).length = front.length + 1 := List.length_append
  have hle (k : Kind) := hlength ▸ h.front_le k
  have hcap (k : Kind) := Nat.le_trans (hle k) (h.within k)
  have hruns : holdsBytes (s.syms.at p .run) (s.srd.at p .run).toNat ((front ++ [(0#8, 0#8)]).map Prod.fst) :=
    h.front_symbols .run
  have hvals : holdsBytes (s.syms.at p .val) (s.srd.at p .val).toNat ((front ++ [(0#8, 0#8)]).map Prod.snd) :=
    h.front_symbols .val
  rw [List.map_append] at hruns hvals
  exact cmdCcDec_of_pairs heob hpositions (hle .dc) (hcap .dc) (hle .run) (hcap .run) (hle .val) (hcap .val)
    (h.front_symbols .dc) hruns hvals

/-- `CC_DEC` of pairs at the cursors of which one leaves the positions. -/
theorem CoefsAt.cmdCcDec_of_leaving {d : Byte} {dcs : List Byte} {front back : List (Byte × Byte)} {x : Byte × Byte}
    (h : CoefsAt p (d :: dcs) ((front ++ [x]) ++ back) s) (heob : (0#8, 0#8) ∉ front ++ [x])
    (hpositions : (acSequence front).length ≤ 63) (hleaves : 62 < (acSequence front).length + x.1.toNat) :
    cmdCcDec p s = raise { code := .zz, info := (s.srd.at p .dc).toNat } s := by
  have hlength : (front ++ [x]).length = front.length + 1 := List.length_append
  have hle (k : Kind) := hlength ▸ h.front_le k
  have hcap (k : Kind) := Nat.le_trans (hle k) (h.within k)
  have hrunLe : (s.srd.at p .run).toNat + front.length < (s.slen.at p .run).toNat := hle .run
  have hvalLe : (s.srd.at p .val).toNat + front.length < (s.slen.at p .val).toNat := hle .val
  have hrunCap : (s.srd.at p .run).toNat + front.length < 4161600 := hcap .run
  have hvalCap : (s.srd.at p .val).toNat + front.length < 4161600 := hcap .val
  have hruns : holdsBytes (s.syms.at p .run) (s.srd.at p .run).toNat ((front ++ [x]).map Prod.fst) :=
    h.front_symbols .run
  have hvals : holdsBytes (s.syms.at p .val) (s.srd.at p .val).toNat ((front ++ [x]).map Prod.snd) :=
    h.front_symbols .val
  rw [List.map_append] at hruns hvals
  obtain ⟨hruns, hrun⟩ := holdsBytes_append hruns
  obtain ⟨hvals, hval⟩ := holdsBytes_append hvals
  rw [List.length_map] at hrun hval
  have hread : readPair (pairSource p s) ((s.srd.at p .run).toNat + front.length)
      ((s.srd.at p .val).toNat + front.length) = .ok (x.1, x.2) := by
    rw [readPair_of_lt (src := pairSource p s) hrunLe hvalLe hrunCap hvalCap]
    exact congrArg Except.ok (Prod.ext (holdsBytes_cons hrun).1 (holdsBytes_cons hval).1)
  have hpairs : PairsAtCursors p s front :=
    ⟨fun hmem => heob (List.mem_append_left _ hmem), hpositions,
      .inr ⟨Nat.le_of_lt hrunLe, Nat.le_of_lt hrunCap, Nat.le_of_lt hvalLe, Nat.le_of_lt hvalCap⟩, hruns, hvals⟩
  refine cmdCcDec_of_nextLeaves hpairs (decodeDc_of_lt (hle .dc) (hcap .dc)) hread (fun hzero => heob ?_) hleaves
  rw [show x = (0#8, 0#8) from Prod.ext hzero.1 hzero.2]
  exact List.mem_append_right _ (List.mem_singleton_self _)

/-- What `CC_DEC` finds where an EOB follows in the streams: a block, or a pair that leaves the positions. -/
theorem decodeCoefs_cases {d : Byte} {dcs : List Byte} {pairs : List (Byte × Byte)} (hn : n < blockCount s)
    (h : CoefsAt p (d :: dcs) pairs s) (heob : (0#8, 0#8) ∈ pairs) :
    (∃ front back q b, pairs = front ++ back ∧ back.count (0#8, 0#8) + 1 = pairs.count (0#8, 0#8) ∧
      decodeCoefs p n s = .ok (blockStored p n q b front.length s)) ∨
    ∃ e t, decodeCoefs p n s = raise e t ∧ e.code = .zz := by
  obtain ⟨front, back, rfl, hfront⟩ := List.eq_append_cons_of_mem heob
  have hindexed : CoefsAt p (d :: dcs) (front ++ (0#8, 0#8) :: back) { s with bidx := BitVec.ofNat 16 n } :=
    ⟨h.filled, h.within, h.symbols⟩
  by_cases hpositions : (acSequence front).length ≤ 63
  · rw [List.append_cons] at hindexed
    refine .inl ⟨front ++ [(0#8, 0#8)], back, placePairs 0 front (dcBlock (s.dcp.get p + d)), s.dcp.get p + d,
      List.append_cons _ _ _, ?_, decodeCoefs_of_block hn ?_⟩
    · rw [List.count_append, List.count_eq_zero.2 hfront, List.count_cons_self, Nat.zero_add]
    · rw [List.length_append]
      exact hindexed.cmdCcDec_of_eob hfront hpositions
  · obtain ⟨inside, x, rest, rfl, hinside, hleaves⟩ := exists_leaving (l := front) (c := 0) (Nat.zero_le _) (by omega)
    rw [Nat.zero_add] at hinside hleaves
    rw [List.append_assoc, List.cons_append, List.append_cons] at hindexed
    rw [List.append_cons] at hfront
    exact .inr ⟨_, _, decodeCoefs_of_raise (hindexed.cmdCcDec_of_leaving (fun hmem => hfront
      (List.mem_append_left _ hmem)) hinside hleaves), rfl⟩

end

/-! ### The blocks of a plane -/

/-- The state while the coefficient stage from `u` has read the blocks `front` of plane `p` and `back` is left. -/
structure CoefsDecoded (u : State) (p : Plane) (front back : List (Block Byte)) (t : State) : Prop where
  frame : coefFrame t = coefFrame u
  others : ∀ q, (q == p) = false → SamePlane q u t
  none : front = [] → t.bidx = u.bidx ∧ t.qb = u.qb
  cursors : CoefsAt p (dcSymbols (lastDc front) back) (back.flatMap blockPairs) t
  dcp : t.dcp.get p = lastDc front
  stored : ∀ n q, front[n]? = some q → (t.qp.get p).readBlock n = q
  storedBehind : ∀ a, 64 * front.length ≤ a → (t.qp.get p).read a = (u.qp.get p).read a

section
variable {u t : State} {p : Plane}

/-- A pass of the coefficient stage over streams of blocks. -/
theorem CoefsDecoded.step {front back : List (Block Byte)} {q : Block Byte} (h : CoefsDecoded u p front (q :: back) t)
    (hn : front.length < blockCount u) :
    ∃ t', decodeCoefs p front.length t = .ok t' ∧ CoefsDecoded u p (front ++ [q]) back t' := by
  have hcursors : CoefsAt p ((q.at 0 0 - t.dcp.get p) :: dcSymbols (q.at 0 0) back)
      (blockPairs q ++ back.flatMap blockPairs) t := by
    rw [h.dcp, ← byteOf_sval_sub]
    exact h.cursors
  have hplane : (blockStored p front.length q (q.at 0 0) (blockPairs q).length t).qp.get p =
      (t.qp.get p).writeBlock front.length q := (PerPlane.get_set _ _ _ _).trans (if_pos rfl)
  refine ⟨_, decodeCoefs_of_symbols (blockCount_of_coefFrame h.frame ▸ hn) hcursors, h.frame,
    fun r hr => (h.others r hr).trans (samePlane_blockStored hr), fun hnil => by simp at hnil, ?_, ?_,
    fun n r hr => ?_, fun a ha => ?_⟩
  · rw [lastDc_concat]
    exact hcursors.stored front.length q (q.at 0 0)
  · rw [lastDc_concat]
    exact (PerPlane.get_set _ _ _ _).trans (if_pos rfl)
  · rw [hplane]
    exact readBlock_writeBlock_behind h.stored hr
  · rw [List.length_append, List.length_singleton] at ha
    rw [hplane, read_writeBlock_behind ha, h.storedBehind a (by omega)]

/-- 47_codec.md R183: the coefficient stage of a plane whose streams hold blocks. -/
theorem decodePlaneCoefs_ok {blocks : List (Block Byte)} (hcount : blocks.length = blockCount u)
    (h : CoefsAt p (dcSymbols 0#8 blocks) (blocks.flatMap blockPairs) u) :
    ∃ t, decodePlaneCoefs p u = .ok t ∧ CoefsDecoded u p blocks [] t := by
  have hstart : CoefsDecoded u p (blocks.take 0) (blocks.drop 0) { u with dcp := u.dcp.set p 0#8 } := by
    refine ⟨rfl, fun q hq => ⟨rfl, get_set_of_ne hq, fun _ => rfl⟩, fun _ => ⟨rfl, rfl⟩, ⟨h.filled, h.within, h.symbols⟩,
      (PerPlane.get_set _ _ _ _).trans (if_pos rfl), fun n q hq => by simp at hq, fun _ _ => rfl⟩
  obtain ⟨t, hloop, ht⟩ := forEach_range_ok (N := blockCount u) (body := decodeCoefs p)
    (inv := fun n => CoefsDecoded u p (blocks.take n) (blocks.drop n)) hstart fun n t hn ht => by
      have hlt : n < blocks.length := hcount ▸ hn
      have hlength : (blocks.take n).length = n := List.length_take_of_le (Nat.le_of_lt hlt)
      rw [List.drop_eq_getElem_cons hlt] at ht
      have hstep := ht.step (by rwa [hlength])
      rwa [hlength, List.take_append_getElem] at hstep
  rw [← hcount, List.take_length, List.drop_length] at ht
  exact ⟨t, hloop, ht⟩

/-- The streams of plane `p` hold, from the cursors on, `n` DC symbols and pairs with `n` EOBs. -/
def HoldsEobs (p : Plane) (n : Nat) (s : State) : Prop :=
  ∃ dcs pairs, CoefsAt p dcs pairs s ∧ dcs.length = n ∧ pairs.count (0#8, 0#8) = n

/-- The state while the coefficient stage from `u` has `n` blocks of plane `p` left. -/
structure CoefsLeft (u : State) (p : Plane) (n : Nat) (t : State) : Prop where
  frame : coefFrame t = coefFrame u
  others : ∀ q, (q == p) = false → SamePlane q u t
  cursors : HoldsEobs p n t

/-- A pass of the coefficient stage over streams with an EOB per block. -/
theorem CoefsLeft.step {n k : Nat} (h : CoefsLeft u p (k + 1) t) (hn : n < blockCount u) :
    (∃ t', decodeCoefs p n t = .ok t' ∧ CoefsLeft u p k t') ∨ ∃ e t', decodeCoefs p n t = raise e t' ∧ e.code = .zz := by
  obtain ⟨dcs, pairs, hcoefs, hdcs, hpairs⟩ := h.cursors
  obtain ⟨d, dcs, rfl⟩ := List.exists_cons_of_length_eq_add_one hdcs
  have heob : (0#8, 0#8) ∈ pairs := List.count_pos_iff.1 (hpairs ▸ Nat.succ_pos k)
  rcases decodeCoefs_cases (blockCount_of_coefFrame h.frame ▸ hn) hcoefs heob with
    ⟨front, back, q, b, rfl, hback, hrun⟩ | hraise
  · refine .inl ⟨_, hrun, h.frame, fun r hr => (h.others r hr).trans (samePlane_blockStored hr), dcs, back,
      hcoefs.stored n q b, Nat.succ.inj hdcs, ?_⟩
    omega
  · exact .inr hraise

/-- 47_codec.md R183: only `E_ZZ` can end the coefficient stage of a plane whose streams hold an EOB per block. -/
theorem decodePlaneCoefs_cases (h : HoldsEobs p (blockCount u) u) :
    (∃ t, decodePlaneCoefs p u = .ok t ∧ CoefsLeft u p 0 t) ∨ ∃ e t, decodePlaneCoefs p u = raise e t ∧ e.code = .zz := by
  obtain ⟨dcs, pairs, hcoefs, hdcs, hpairs⟩ := h
  have hstart : CoefsLeft u p (blockCount u - 0) { u with dcp := u.dcp.set p 0#8 } :=
    ⟨rfl, fun q hq => ⟨rfl, get_set_of_ne hq, fun _ => rfl⟩, dcs, pairs,
      ⟨hcoefs.filled, hcoefs.within, hcoefs.symbols⟩, hdcs, hpairs⟩
  have hloop := forEach_range_cases (N := blockCount u) (body := decodeCoefs p) (bad := fun e => e.code = .zz)
    (inv := fun n => CoefsLeft u p (blockCount u - n)) hstart fun n t hn ht => by
      obtain ⟨k, hk⟩ := Nat.exists_eq_add_of_lt hn
      rw [hk, Nat.add_assoc, Nat.add_sub_cancel_left] at ht
      rw [show blockCount u - (n + 1) = k by omega]
      exact ht.step hn
  rwa [Nat.sub_self] at hloop

end

/-! ### The three planes -/

/-- What the coefficient stage from `u` leaves of plane `p`, whose streams held `blocks`. -/
structure PlaneRestored (u : State) (p : Plane) (blocks : List (Block Byte)) (t : State) : Prop where
  srd : ∀ k, t.srd.at p k = u.slen.at p k
  dcp : t.dcp.get p = lastDc blocks
  stored : ∀ n q, blocks[n]? = some q → (t.qp.get p).readBlock n = q
  storedBehind : ∀ a, 64 * blocks.length ≤ a → (t.qp.get p).read a = (u.qp.get p).read a

theorem PlaneRestored.of_same {u s t : State} {p : Plane} {blocks : List (Block Byte)} (h : PlaneRestored u p blocks s)
    (hsame : SamePlane p s t) : PlaneRestored u p blocks t := by
  refine ⟨fun k => (hsame.srd k).trans (h.srd k), hsame.dcp.trans h.dcp, ?_, ?_⟩
  · rw [hsame.qp]
    exact h.stored
  · rw [hsame.qp]
    exact h.storedBehind

theorem CoefsDecoded.planeRestored {u t : State} {p : Plane} {blocks : List (Block Byte)}
    (h : CoefsDecoded u p blocks [] t) : PlaneRestored u p blocks t := by
  obtain ⟨-, -, -, -, -, ⟨-, hslen⟩, -⟩ := coefFrame_eq_iff.1 h.frame
  refine ⟨fun k => BitVec.eq_of_toNat_eq ?_, h.dcp, h.stored, h.storedBehind⟩
  have hnone : (pairSymbols (dcSymbols (lastDc blocks) []) (([] : List (Block Byte)).flatMap blockPairs) k).length = 0 := by
    cases k <;> rfl
  have hfilled := h.cursors.filled k
  rwa [hnone, Nat.add_zero, hslen] at hfilled

/-- 47_codec.md R183: the coefficient stage of streams that hold blocks. -/
theorem forEach_decodePlaneCoefs_ok {u : State} {blocks : Plane → List (Block Byte)}
    (hcount : ∀ p, (blocks p).length = blockCount u)
    (h : ∀ p, CoefsAt p (dcSymbols 0#8 (blocks p)) ((blocks p).flatMap blockPairs) u) :
    ∃ t, forEach allPlanes decodePlaneCoefs u = .ok t ∧ coefFrame t = coefFrame u ∧
      (blockCount u = 0 → t.bidx = u.bidx ∧ t.qb = u.qb) ∧ ∀ p, PlaneRestored u p (blocks p) t := by
  have hloop := forEach_allPlanes_cases (s := u) (body := decodePlaneCoefs) (bad := fun _ => False)
    (inv := fun _ t => coefFrame t = coefFrame u ∧ (blockCount u = 0 → t.bidx = u.bidx ∧ t.qb = u.qb))
    (todo := fun p t => SamePlane p u t) (done := fun p t => PlaneRestored u p (blocks p) t)
    ⟨rfl, fun _ => ⟨rfl, rfl⟩⟩ (fun _ => ⟨rfl, rfl, fun _ => rfl⟩) fun p t ⟨hframe, hnone⟩ hsame => by
      have hblocks := blockCount_of_coefFrame hframe
      obtain ⟨-, -, -, -, -, ⟨-, hslen⟩, -⟩ := coefFrame_eq_iff.1 hframe
      obtain ⟨t', hrun, ht'⟩ := decodePlaneCoefs_ok ((hcount p).trans hblocks.symm) ((h p).of_same hframe hsame)
      have hplane := ht'.planeRestored
      refine .inl ⟨t', hrun, ⟨ht'.frame.trans hframe, fun hzero => ?_⟩, ⟨?_, hplane.dcp, hplane.stored, ?_⟩,
        fun q hq => ⟨fun hq' => hq'.trans (ht'.others q hq), fun hq' => hq'.of_same (ht'.others q hq)⟩⟩
      · obtain ⟨hbidx, hqb⟩ := ht'.none (List.length_eq_zero_iff.1 ((hcount p).trans hzero))
        exact ⟨hbidx.trans (hnone hzero).1, hqb.trans (hnone hzero).2⟩
      · rw [← hslen]
        exact hplane.srd
      · rw [← hsame.qp]
        exact hplane.storedBehind
  rcases hloop with ⟨t, hrun, ⟨hframe, hnone⟩, hplanes⟩ | ⟨_, _, _, hfalse⟩
  · exact ⟨t, hrun, hframe, hnone, hplanes⟩
  · exact hfalse.elim

/-- 47_codec.md R183: the coefficient stage of streams that hold an EOB per block. -/
theorem forEach_decodePlaneCoefs_cases {u : State} (h : ∀ p, HoldsEobs p (blockCount u) u) :
    (∃ t, forEach allPlanes decodePlaneCoefs u = .ok t ∧ coefFrame t = coefFrame u) ∨
      ∃ e t, forEach allPlanes decodePlaneCoefs u = raise e t ∧ e.code = .zz := by
  have hloop := forEach_allPlanes_cases (s := u) (body := decodePlaneCoefs) (bad := fun e => e.code = .zz)
    (inv := fun _ t => coefFrame t = coefFrame u) (todo := SamePlane (s := u)) (done := fun _ _ => True)
    rfl (fun _ => ⟨rfl, rfl, fun _ => rfl⟩) fun p t hframe hsame => by
      obtain ⟨dcs, pairs, hcoefs, hdcs, hpairs⟩ := h p
      have hblocks := blockCount_of_coefFrame hframe
      have hplane : HoldsEobs p (blockCount t) t := by
        rw [hblocks]
        exact ⟨dcs, pairs, hcoefs.of_same hframe hsame, hdcs, hpairs⟩
      rcases decodePlaneCoefs_cases hplane with ⟨t', hrun, ht'⟩ | hraise
      · exact .inl ⟨t', hrun, ht'.frame.trans hframe, trivial,
          fun q hq => ⟨fun hq' => hq'.trans (ht'.others q hq), fun _ => trivial⟩⟩
      · exact .inr hraise
  rcases hloop with ⟨t, hrun, hframe, -⟩ | hraise
  · exact .inl ⟨t, hrun, hframe⟩
  · exact .inr hraise

end Sys2Proof.Machine

/-! PROOFS. The header and the entropy stage of `DECOMPRESS` (47_codec.md R183): a plane decoded from a container of blocks,
a plane decoded from any buffer, and the three planes. -/

namespace Sys2Proof.Machine

/-! ### The codes of a plane -/

/-- `canon` looks at the lengths of the 256 symbols only. -/
theorem canon_congr {len len' : Nat → Nat} (h : ∀ sym, sym < 256 → len sym = len' sym) : canon len = canon len' := by
  have horder : codeOrder len = codeOrder len' :=
    List.foldr_ext _ _ _ fun sym hsym l => by rw [h sym (List.mem_range.1 hsym)]
  rw [canon, horder, canon]

/-- The codes of the length table of a stream. -/
def codesOf (p : Plane) (k : Kind) (s : State) : Except Err CodeTable := canon fun sym => ((s.lt.at p k).read sym).toNat

/-- The state before `HUF_DEC p,DC` (47_codec.md R183). -/
def codesReady (p : Plane) (table : Kind → CodeTable) (s : State) : State :=
  { s with ct := putKinds s.ct p table, count := wordOf (blockCount s) }

section
variable {p : Plane} {s : State}

theorem forEach_allKinds (body : Kind → State → Run) (s : State) :
    forEach allKinds body s = (body .dc s).andThen fun s => (body .run s).andThen fun s => (body .val s).andThen .ok := rfl

theorem cmdHufCode_of_error {k : Kind} {e : Err} (h : codesOf p k s = .error e) : cmdHufCode p k s = raise e s := by
  rw [codesOf] at h
  rw [cmdHufCode, h]
  rfl

theorem forEach_cmdHufCode {table : Kind → CodeTable} (h : ∀ k, codesOf p k s = .ok (table k)) :
    forEach allKinds (cmdHufCode p) s = .ok { s with ct := putKinds s.ct p table } := by
  let t : State := { s with ct := s.ct.put p .dc (table .dc) }
  let u : State := { t with ct := t.ct.put p .run (table .run) }
  have hdc : cmdHufCode p .dc s = .ok t := cmdHufCode_of_canon (h .dc)
  have hrun : cmdHufCode p .run t = .ok u := cmdHufCode_of_canon (h .run)
  have hval : cmdHufCode p .val u = .ok { u with ct := u.ct.put p .val (table .val) } := cmdHufCode_of_canon (h .val)
  rw [forEach_allKinds, hdc, Run.andThen_ok, hrun, Run.andThen_ok, hval]
  rfl

theorem decodePlane_of_codes {table : Kind → CodeTable} (h : ∀ k, codesOf p k s = .ok (table k)) :
    decodePlane p s = (cmdHufDec p .dc (codesReady p table s)).andThen (cmdHufDecAc p) := by
  rw [decodePlane, forEach_cmdHufCode h]
  rfl

/-- A length table that `canon` refuses ends the three `HUF_CODE`s. -/
theorem forEach_cmdHufCode_of_error {kinds : List Kind} (h : ∃ k ∈ kinds, ∃ e, codesOf p k s = .error e) :
    ∃ e t, forEach kinds (cmdHufCode p) s = raise e t ∧ e.code = .table := by
  induction kinds generalizing s with
  | nil => simp at h
  | cons k kinds ih =>
    rw [forEach_cons]
    cases hk : codesOf p k s with
    | error e => exact ⟨e, s, by rw [cmdHufCode_of_error hk, Run.andThen_raise], canon_error_code hk⟩
    | ok t =>
      obtain ⟨l, hl, e, he⟩ := h
      have hrest : l ∈ kinds := by
        rcases List.mem_cons.1 hl with rfl | hl
        · rw [hk] at he
          cases he
        · exact hl
      have hcode : cmdHufCode p k s = .ok { s with ct := s.ct.put p k t } := cmdHufCode_of_canon hk
      rw [hcode, Run.andThen_ok]
      exact ih ⟨l, hrest, e, he⟩

/-- The three codes of a plane, or an error of `canon`. -/
theorem forEach_cmdHufCode_cases (p : Plane) (s : State) :
    (∃ table : Kind → CodeTable, ∀ k, codesOf p k s = .ok (table k)) ∨
      ∃ e t, forEach allKinds (cmdHufCode p) s = raise e t ∧ e.code = .table := by
  by_cases h : ∃ k ∈ allKinds, ∃ e, codesOf p k s = .error e
  · exact .inr (forEach_cmdHufCode_of_error h)
  · have hok (k : Kind) : ∃ t, codesOf p k s = .ok t := by
      cases hk : codesOf p k s with
      | error e => exact absurd ⟨k, by cases k <;> decide, e, hk⟩ h
      | ok t => exact ⟨t, rfl⟩
    exact .inl ⟨fun k => (hok k).choose, fun k => (hok k).choose_spec⟩

end

/-! ### The state after the entropy decoding of a plane -/

/-- The state after `decodePlane`: the tables, the sequences in the streams, and the container position. -/
def planeDecoded (p : Plane) (table : Kind → CodeTable) (seqs : Kind → List Byte) (c : Word) (s : State) : State :=
  { s with
    ct := putKinds s.ct p table
    count := wordOf (blockCount s)
    syms := putKinds s.syms p fun k => (s.syms.at p k).writeBytes 0 (seqs k)
    slen := putKinds s.slen p fun k => wordOf (seqs k).length
    srd := putKinds s.srd p fun _ => 0#32
    cptr := c }

theorem decodedPairs_decodedSegment (p : Plane) (table : Kind → CodeTable) (seqs : Kind → List Byte) (c : Word) (s : State) :
    decodedPairs p (seqs .run) (seqs .val) (decodedSegment p .dc (seqs .dc) c (codesReady p table s)) =
      planeDecoded p table seqs (c + BitVec.ofNat 32 (runBytes p s + valBytes p s)) s := by
  rw [decodedPairs_eq, decodedSegment, setStream_eq]
  simp [planeDecoded, putKinds, codesReady, runBytes, valBytes]

/-- What the entropy stage leaves of the streams of plane `p`, over what stood there in `s`. -/
structure StreamsDecoded (s : State) (p : Plane) (table : Kind → CodeTable) (seqs : Kind → List Byte) (t : State) : Prop where
  ct : ∀ k, t.ct.at p k = table k
  slen : ∀ k, t.slen.at p k = wordOf (seqs k).length
  srd : ∀ k, t.srd.at p k = 0#32
  syms : ∀ k, t.syms.at p k = (s.syms.at p k).writeBytes 0 (seqs k)

/-- What `t` has of the streams of plane `p` is what `s` has. -/
structure SameStreams (p : Plane) (s t : State) : Prop where
  ct : ∀ k, t.ct.at p k = s.ct.at p k
  slen : ∀ k, t.slen.at p k = s.slen.at p k
  srd : ∀ k, t.srd.at p k = s.srd.at p k
  syms : ∀ k, t.syms.at p k = s.syms.at p k

theorem SameStreams.trans {p : Plane} {s t u : State} (h : SameStreams p s t) (h' : SameStreams p t u) : SameStreams p s u :=
  ⟨fun k => (h'.ct k).trans (h.ct k), fun k => (h'.slen k).trans (h.slen k), fun k => (h'.srd k).trans (h.srd k),
    fun k => (h'.syms k).trans (h.syms k)⟩

section
variable {s t u : State} {p : Plane} {table : Kind → CodeTable} {seqs : Kind → List Byte} {c : Word}

theorem streamsDecoded_planeDecoded (hsame : SameStreams p s t) :
    StreamsDecoded s p table seqs (planeDecoded p table seqs c t) where
  ct := at_putKinds t.ct p table
  slen := at_putKinds t.slen p fun k => wordOf (seqs k).length
  srd := at_putKinds t.srd p fun _ => 0#32
  syms k := (at_putKinds t.syms p (fun k => (t.syms.at p k).writeBytes 0 (seqs k)) k).trans
    (congrArg (Memory.writeBytes · 0 (seqs k)) (hsame.syms k))

theorem sameStreams_planeDecoded {q : Plane} (hq : (q == p) = false) : SameStreams q s (planeDecoded p table seqs c s) where
  ct _ := at_putKinds_of_ne (a := s.ct) (x := table) hq
  slen _ := at_putKinds_of_ne (a := s.slen) (x := fun k => wordOf (seqs k).length) hq
  srd _ := at_putKinds_of_ne (a := s.srd) (x := fun _ => 0#32) hq
  syms _ := at_putKinds_of_ne (a := s.syms) (x := fun k => (s.syms.at p k).writeBytes 0 (seqs k)) hq

theorem StreamsDecoded.of_same (h : StreamsDecoded s p table seqs t) (hsame : SameStreams p t u) :
    StreamsDecoded s p table seqs u :=
  ⟨fun k => (hsame.ct k).trans (h.ct k), fun k => (hsame.slen k).trans (h.slen k), fun k => (hsame.srd k).trans (h.srd k),
    fun k => (hsame.syms k).trans (h.syms k)⟩

theorem toNat_wordOf_length {l : List Byte} (h : l.length ≤ 4161600) : (wordOf l.length).toNat = l.length :=
  toNat_wordOf (by omega)

/-- The decoded streams stand at the cursors. -/
theorem StreamsDecoded.coefsAt {dcs : List Byte} {pairs : List (Byte × Byte)} (h : StreamsDecoded s p table seqs t)
    (hseqs : ∀ k, seqs k = pairSymbols dcs pairs k) (hlength : ∀ k, (seqs k).length ≤ 4161600) :
    CoefsAt p dcs pairs t := by
  refine ⟨fun k => ?_, fun k => ?_, fun k => ?_⟩
  · rw [h.slen, h.srd, toNat_wordOf_length (hlength k), hseqs]
    exact Nat.zero_add _
  · rw [h.slen, toNat_wordOf_length (hlength k)]
    exact hlength k
  · rw [h.syms, h.srd, ← hseqs]
    exact holdsBytes_writeBytes _ 0 _

end

/-- The part of the state that the entropy stage of `DECOMPRESS` leaves alone. -/
def entropyFrame (s : State) :=
  (parseFrame s, hostSide s, errorRecord s, (s.blkw, s.blkh, s.aclen, s.lt), (s.bidx, s.dcp, s.qp), s.sb, s.cb, s.qb)

theorem entropyFrame_eq_iff {s t : State} : entropyFrame s = entropyFrame t ↔
    parseFrame s = parseFrame t ∧ hostSide s = hostSide t ∧ errorRecord s = errorRecord t ∧
      (s.blkw = t.blkw ∧ s.blkh = t.blkh ∧ s.aclen = t.aclen ∧ s.lt = t.lt) ∧
      (s.bidx = t.bidx ∧ s.dcp = t.dcp ∧ s.qp = t.qp) ∧ s.sb = t.sb ∧ s.cb = t.cb ∧ s.qb = t.qb := by
  simp only [entropyFrame, Prod.mk.injEq]

theorem blockCount_of_entropyFrame {s t : State} (h : entropyFrame t = entropyFrame s) : blockCount t = blockCount s := by
  obtain ⟨-, -, -, ⟨hblkw, hblkh, -⟩, -⟩ := entropyFrame_eq_iff.1 h
  rw [blockCount, hblkw, hblkh, blockCount]

/-! ### Any buffer -/

/-- The errors that can end `DECOMPRESS` (47_codec.md R183). -/
def parseError (e : Err) : Prop :=
  e.code ∈ [ErrCode.cap, .magic, .trunc, .table, .exhaust, .nomatch, .format, .zz]

/-- Sequences with a DC symbol and an EOB for each of `n` blocks, as `HUF_DEC_AC` bounds them. -/
structure WholeBlocks (n : Nat) (seqs : Kind → List Byte) : Prop where
  dcs : (seqs .dc).length = n
  pairs : (seqs .run).length = (seqs .val).length
  bounded : (seqs .run).length ≤ 524281
  eobs : ((seqs .run).zip (seqs .val)).count (0#8, 0#8) = n

/-- 47_codec.md R183: the entropy decoding of a plane, whatever the buffer holds. -/
theorem decodePlane_cases (p : Plane) (s : State) :
    (∃ table seqs c, decodePlane p s = .ok (planeDecoded p table seqs c s) ∧ WholeBlocks (blockCount s) seqs) ∨
      ∃ e t, decodePlane p s = raise e t ∧ parseError e := by
  rcases forEach_cmdHufCode_cases p s with ⟨table, hcodes⟩ | ⟨e, t, hraise, hcode⟩
  case inr => exact .inr ⟨e, t, by rw [decodePlane, hraise]; rfl, by simp [parseError, hcode]⟩
  rw [decodePlane_of_codes hcodes]
  rcases cmdHufDec_cases p .dc (codesReady p table s) with ⟨d, hdecode, hrun⟩ | ⟨e, hraise, hcode⟩
  case inr => exact .inr ⟨e, _, by rw [hraise, Run.andThen_raise], by rcases hcode with h | h | h <;> simp [parseError, h]⟩
  rw [hrun, Run.andThen_ok]
  let u := decodedSegment p .dc d.1 (wordOf (bytesUsed d.2)) (codesReady p table s)
  rcases cmdHufDecAc_cases p u with ⟨x, hpairs, -, -, hac⟩ | ⟨e, hraise, hcode⟩
  case inr =>
    exact .inr ⟨e, _, hraise, by rcases hcode with h | h | h | h | h <;> simp [parseError, h]⟩
  obtain ⟨runs, vals, end1, end2⟩ := x
  obtain ⟨hlength, hfuel, heobs, -⟩ := acLoop_ok hpairs
  have hdcs := (decodeMany_ok hdecode).1
  have hcount : (codesReady p table s).count.toNat = blockCount s :=
    toNat_wordOf (Nat.lt_of_le_of_lt (blockCount_le s) (by decide))
  have hsegment := runBytes_lt p u
  refine .inl ⟨table, fun k => ({ dc := d.1, run := runs, val := vals } : PerKind (List Byte)).get k, _,
    hac.trans (congrArg Run.ok (decodedPairs_decodedSegment p table
      (fun k => ({ dc := d.1, run := runs, val := vals } : PerKind (List Byte)).get k) _ s)), ?_⟩
  exact ⟨hdcs.trans hcount, hlength, by change runs.length ≤ _; omega, heobs⟩

theorem WholeBlocks.length_le {n : Nat} {seqs : Kind → List Byte} (h : WholeBlocks n seqs) (hn : n ≤ 65025) (k : Kind) :
    (seqs k).length ≤ 4161600 := by
  have hdcs := h.dcs
  have hpairs := h.pairs
  have hbounded := h.bounded
  cases k <;> omega

/-- Sequences of one length are the kinds of their pairs. -/
theorem pairSymbols_zip {seqs : Kind → List Byte} (h : (seqs .run).length = (seqs .val).length) (k : Kind) :
    seqs k = pairSymbols (seqs .dc) ((seqs .run).zip (seqs .val)) k := by
  cases k with
  | dc => rfl
  | run => exact (List.map_fst_zip (Nat.le_of_eq h)).symm
  | val => exact (List.map_snd_zip (Nat.le_of_eq h.symm)).symm

/-- 47_codec.md R183: the entropy stage, whatever the buffer holds. -/
theorem forEach_decodePlane_cases (u : State) :
    (∃ t, forEach allPlanes decodePlane u = .ok t ∧ entropyFrame t = entropyFrame u ∧ ∀ p, HoldsEobs p (blockCount u) t) ∨
      ∃ e t, forEach allPlanes decodePlane u = raise e t ∧ parseError e := by
  have hloop := forEach_allPlanes_cases (s := u) (body := decodePlane) (bad := parseError)
    (inv := fun _ t => entropyFrame t = entropyFrame u) (todo := fun _ _ => True)
    (done := fun p t => ∃ s table seqs, StreamsDecoded s p table seqs t ∧ WholeBlocks (blockCount u) seqs)
    rfl (fun _ => trivial) fun p t hframe _ => by
      rcases decodePlane_cases p t with ⟨table, seqs, c, hrun, hwhole⟩ | hraise
      · rw [blockCount_of_entropyFrame hframe] at hwhole
        exact .inl ⟨_, hrun, hframe,
          ⟨t, table, seqs, streamsDecoded_planeDecoded ⟨fun _ => rfl, fun _ => rfl, fun _ => rfl, fun _ => rfl⟩, hwhole⟩,
          fun q hq => ⟨fun _ => trivial, fun ⟨s, table, seqs, hdecoded, hwhole⟩ =>
            ⟨s, table, seqs, hdecoded.of_same (sameStreams_planeDecoded hq), hwhole⟩⟩⟩
      · exact .inr hraise
  rcases hloop with ⟨t, hrun, hframe, hplanes⟩ | hraise
  · refine .inl ⟨t, hrun, hframe, fun p => ?_⟩
    obtain ⟨s, table, seqs, hdecoded, hwhole⟩ := hplanes p
    exact ⟨_, _, hdecoded.coefsAt (pairSymbols_zip hwhole.pairs) (hwhole.length_le (blockCount_le u)), hwhole.dcs,
      hwhole.eobs⟩
  · exact .inr hraise

/-! ### The pairs of a list of blocks -/

theorem symbolsOf_run (blocks : List (Block Byte)) : symbolsOf .run blocks = (blocks.flatMap blockPairs).map Prod.fst :=
  List.map_flatMap.symm

theorem symbolsOf_val (blocks : List (Block Byte)) : symbolsOf .val blocks = (blocks.flatMap blockPairs).map Prod.snd :=
  List.map_flatMap.symm

theorem symbolsOf_eq (blocks : List (Block Byte)) (k : Kind) :
    symbolsOf k blocks = pairSymbols (dcSymbols 0#8 blocks) (blocks.flatMap blockPairs) k := by
  cases k with
  | dc => rfl
  | run => exact symbolsOf_run blocks
  | val => exact symbolsOf_val blocks

theorem zip_symbolsOf (blocks : List (Block Byte)) :
    (symbolsOf .run blocks).zip (symbolsOf .val blocks) = blocks.flatMap blockPairs := by
  rw [symbolsOf_run, symbolsOf_val, List.zip_map']
  exact List.map_id _

theorem count_eob_blocks (blocks : List (Block Byte)) :
    (blocks.flatMap blockPairs).count (0#8, 0#8) = blocks.length := by
  induction blocks with
  | nil => rfl
  | cons q blocks ih => rw [List.flatMap_cons, List.count_append, count_eob_blockPairs, ih, List.length_cons, Nat.add_comm]

theorem last_eob_blocks (blocks : List (Block Byte)) :
    ∀ x ∈ (blocks.flatMap blockPairs).getLast?, x = (0#8, 0#8) := by
  intro x hx
  rcases List.eq_nil_or_concat' blocks with rfl | ⟨front, q, rfl⟩
  · simp at hx
  · rw [List.flatMap_append, List.flatMap_singleton, blockPairs_eq, ← List.append_assoc, List.getLast?_concat] at hx
    exact (Option.some.inj hx).symm

/-! ### Where the segments stand (30_encoding.md R79) -/

/-- Where the segments of plane `n` begin, and behind the last plane the container's end. -/
def planeStart (len : Plane → Kind → Nat) (n : Nat) : Nat :=
  2320 + ((allPlanes.take n).map fun p => len p .dc + len p .run + len p .val).sum

section
variable (len : Plane → Kind → Nat)

theorem segmentStart_dc (p : Plane) : segmentStart len p .dc = planeStart len (planeNum p) := by
  cases p <;> simp [segmentStart, planeStart, allStreams, allPlanes, streamNum, planeNum, kindNum, Nat.add_assoc]

theorem segmentStart_run (p : Plane) : segmentStart len p .run = segmentStart len p .dc + len p .dc := by
  cases p <;> simp [segmentStart, allStreams, streamNum, planeNum, kindNum, Nat.add_assoc]

theorem segmentStart_val (p : Plane) : segmentStart len p .val = segmentStart len p .run + len p .run := by
  cases p <;> simp [segmentStart, allStreams, streamNum, planeNum, kindNum, Nat.add_assoc]

theorem planeStart_succ (p : Plane) :
    planeStart len (planeNum p + 1) = planeStart len (planeNum p) + (len p .dc + len p .run + len p .val) := by
  cases p <;> simp [planeStart, allPlanes, planeNum, Nat.add_assoc]

theorem planeStart_three : planeStart len 3 = totalLength len := by
  simp [planeStart, totalLength, allPlanes, allStreams, Nat.add_assoc]

theorem planeStart_succ_le (p : Plane) : planeStart len (planeNum p + 1) ≤ totalLength len := by
  rw [← planeStart_three]
  cases p <;> simp [planeStart, allPlanes, planeNum, Nat.add_assoc]

end

/-! ### A container of blocks -/

/-- The length of a segment of a container of blocks. -/
def blocksLength (blocks : Plane → List (Block Byte)) (table : Plane → Kind → CodeTable) (p : Plane) (k : Kind) : Nat :=
  byteCount (bitsOf (table p k) (symbolsOf k (blocks p)))

/-- The state holds a container of blocks, and has read its header. -/
structure ContainerOpen (bw bh : Nat) (blocks : Plane → List (Block Byte)) (table : Plane → Kind → CodeTable) (s : State) :
    Prop where
  holds : HoldsContainer s.cbuf s.clen.toNat bw bh blocks table
  within : s.clen.toNat ≤ s.cfg.cbufCap.toNat
  codes : ∀ p k, codesOf p k s = .ok (table p k)
  counts : ∀ p a, ((s.aclen.get p).get a).toNat = blocksLength blocks table p (acKind a)
  blkw : s.blkw.toNat = bw
  blkh : s.blkh.toNat = bh

section
variable {bw bh : Nat} {blocks : Plane → List (Block Byte)} {table : Plane → Kind → CodeTable} {s t : State}

theorem ContainerOpen.of_frame (h : ContainerOpen bw bh blocks table s) (hframe : entropyFrame t = entropyFrame s) :
    ContainerOpen bw bh blocks table t := by
  obtain ⟨hparse, -, -, ⟨hblkw, hblkh, haclen, hlt⟩, -⟩ := entropyFrame_eq_iff.1 hframe
  obtain ⟨hcbuf, -, hclen, -, -, -, hcfg⟩ := decodeFrame_eq_iff.1 (parseFrame_eq_iff.1 hparse).2
  refine ⟨?_, ?_, fun p k => ?_, ?_, ?_, ?_⟩
  · rw [hcbuf, hclen]
    exact h.holds
  · rw [hclen, hcfg]
    exact h.within
  · rw [codesOf, hlt]
    exact h.codes p k
  · rw [haclen]
    exact h.counts
  · rw [hblkw]
    exact h.blkw
  · rw [hblkh]
    exact h.blkh

theorem HoldsContainer.table_readable {m : Memory} {n : Nat} (h : HoldsContainer m n bw bh blocks table) (p : Plane)
    (k : Kind) : (table p k).wf = true ∧ uniquelyReadable (table p k) :=
  have hlen := fun _ => Nat.le_of_lt_succ (BitVec.isLt _)
  ⟨wf_of_canon hlen (h.tables p k), uniquelyReadable_of_canon hlen (h.tables p k)⟩

theorem ContainerOpen.blockCount_eq (h : ContainerOpen bw bh blocks table s) : blockCount s = bw * bh := by
  rw [blockCount, h.blkw, h.blkh]

theorem ContainerOpen.length_symbols_le (h : ContainerOpen bw bh blocks table s) (p : Plane) (k : Kind) :
    (symbolsOf k (blocks p)).length ≤ 4161600 := by
  have hle := length_symbolsOf_le k (blocks p)
  have hcount := blockCount_le s
  rw [h.blockCount_eq, ← h.holds.count p] at hcount
  omega

theorem ContainerOpen.planeStart_le (h : ContainerOpen bw bh blocks table s) (p : Plane) :
    planeStart (blocksLength blocks table) (planeNum p + 1) ≤ s.clen.toNat :=
  Nat.le_trans (planeStart_succ_le _ p) (Nat.le_of_eq h.holds.length.symm)

theorem ContainerOpen.segment (h : ContainerOpen bw bh blocks table s) (p : Plane) (k : Kind) :
    holdsBits s.cbuf (8 * segmentStart (blocksLength blocks table) p k) (bitsOf (table p k) (symbolsOf k (blocks p))) :=
  h.holds.segments p k

/-- The codes of a stream are read where its segment stands. -/
theorem ContainerOpen.reads_segment (h : ContainerOpen bw bh blocks table s) {p : Plane} {k : Kind} {start lim : Nat}
    (hstart : start = segmentStart (blocksLength blocks table) p k) (hlim : start + blocksLength blocks table p k ≤ lim) :
    reads s.cbuf (table p k) (8 * start) lim (symbolsOf k (blocks p)) := by
  subst hstart
  rw [blocksLength, byteCount] at hlim
  exact ⟨h.holds.covered p k, h.segment p k, .inr (by omega)⟩

/-- The DC segment of a plane. -/
theorem ContainerOpen.cmdHufDec_dc (h : ContainerOpen bw bh blocks table s) {p : Plane}
    (hcptr : s.cptr.toNat = planeStart (blocksLength blocks table) (planeNum p)) :
    cmdHufDec p .dc (codesReady p (table p) s) = .ok (decodedSegment p .dc (symbolsOf .dc (blocks p))
      (s.cptr + BitVec.ofNat 32 (blocksLength blocks table p .dc)) (codesReady p (table p) s)) := by
  have htable : (codesReady p (table p) s).ct.at p .dc = table p .dc := at_putKinds _ _ _ _
  have hcount : (codesReady p (table p) s).count.toNat = blockCount s :=
    toNat_wordOf (Nat.lt_of_le_of_lt (blockCount_le s) (by decide))
  have hend := h.planeStart_le p
  rw [planeStart_succ, ← hcptr] at hend
  obtain ⟨hwf, hread⟩ := h.holds.table_readable p .dc
  have hreads : reads s.cbuf (table p .dc) (8 * s.cptr.toNat) s.clen.toNat (symbolsOf .dc (blocks p)) :=
    h.reads_segment (hcptr.trans (segmentStart_dc _ p).symm) (by omega)
  have hrun := cmdHufDec_of_reads (s := codesReady p (table p) s) (p := p) (k := .dc) (seq := symbolsOf .dc (blocks p))
    h.within (by rw [hcount]; exact Nat.le_trans (blockCount_le s) (by decide)) (by rwa [htable]) (by rwa [htable])
    (by rw [hcount, h.blockCount_eq, ← h.holds.count p]; exact length_dcSymbols _ _) (by rw [htable]; exact hreads)
  rwa [htable] at hrun

/-- 47_codec.md R183: the entropy decoding of a plane of a container of blocks. -/
theorem ContainerOpen.decodePlane_ok (h : ContainerOpen bw bh blocks table s) {p : Plane}
    (hcptr : s.cptr.toNat = planeStart (blocksLength blocks table) (planeNum p)) :
    ∃ c, decodePlane p s = .ok (planeDecoded p (table p) (fun k => symbolsOf k (blocks p)) c s) ∧
      c.toNat = planeStart (blocksLength blocks table) (planeNum p + 1) := by
  let u := decodedSegment p .dc (symbolsOf .dc (blocks p))
    (s.cptr + BitVec.ofNat 32 (blocksLength blocks table p .dc)) (codesReady p (table p) s)
  have hopen : ContainerOpen bw bh blocks table u := h.of_frame rfl
  have hend := h.planeStart_le p
  rw [planeStart_succ, ← hcptr] at hend
  have hclen := s.clen.isLt
  have hstart : u.cptr.toNat = s.cptr.toNat + blocksLength blocks table p .dc := by
    change (s.cptr + BitVec.ofNat 32 (blocksLength blocks table p .dc)).toNat = _
    rw [← wordOf_toNat_add, toNat_wordOf (by omega)]
  have hrunStart : u.cptr.toNat = segmentStart (blocksLength blocks table) p .run := by
    rw [segmentStart_run, segmentStart_dc, ← hcptr, hstart]
  have hrun : runBytes p u = blocksLength blocks table p .run := h.counts p .run
  have hval : valBytes p u = blocksLength blocks table p .val := h.counts p .val
  have hvalStart : u.cptr.toNat + runBytes p u = segmentStart (blocksLength blocks table) p .val := by
    rw [segmentStart_val, ← hrunStart, hrun]
  have htable (k : Kind) : u.ct.at p k = table p k := at_putKinds _ _ _ _
  have hpairs : HoldsPairs p u (symbolsOf .run (blocks p)) (symbolsOf .val (blocks p)) := by
    refine ⟨?_, ?_, ?_, ?_⟩
    · rw [htable]
      exact h.holds.table_readable p .run
    · rw [htable]
      exact h.holds.table_readable p .val
    · rw [htable]
      exact hopen.reads_segment hrunStart (Nat.le_of_eq (by rw [hrun]))
    · rw [htable]
      exact hopen.reads_segment hvalStart (Nat.le_of_eq (by rw [hval]))
  have hac := cmdHufDecAc_of_pairs hopen.within (by change _ ≤ s.clen.toNat; omega) hpairs
    (by rw [symbolsOf_run, symbolsOf_val, List.length_map, List.length_map])
    (by rw [zip_symbolsOf, count_eob_blocks, hopen.blockCount_eq, h.holds.count])
    (by rw [zip_symbolsOf]; exact last_eob_blocks _) (by rw [htable]; exact hrun) (by rw [htable]; exact hval)
  refine ⟨s.cptr + BitVec.ofNat 32 (blocksLength blocks table p .dc) +
    BitVec.ofNat 32 (runBytes p s + valBytes p s), ?_, ?_⟩
  · rw [decodePlane_of_codes (h.codes p), h.cmdHufDec_dc hcptr, Run.andThen_ok]
    exact hac.trans (congrArg Run.ok (decodedPairs_decodedSegment p (table p) (fun k => symbolsOf k (blocks p)) _ s))
  · have hruns : runBytes p s = blocksLength blocks table p .run := hrun
    have hvals : valBytes p s = blocksLength blocks table p .val := hval
    rw [BitVec.add_assoc, ← BitVec.ofNat_add, ← wordOf_toNat_add, toNat_wordOf (by omega), planeStart_succ, hcptr, hruns,
      hvals]
    omega

/-- 47_codec.md R183: the entropy stage of a container of blocks. -/
theorem ContainerOpen.forEach_decodePlane (h : ContainerOpen bw bh blocks table s) (hcptr : s.cptr.toNat = 2320) :
    ∃ t, forEach allPlanes decodePlane s = .ok t ∧ entropyFrame t = entropyFrame s ∧ t.cptr = s.clen ∧
      t.count.toNat = bw * bh ∧
      ∀ p, StreamsDecoded s p (table p) (fun k => symbolsOf k (blocks p)) t := by
  have hloop := forEach_allPlanes_cases (s := s) (body := decodePlane) (bad := fun _ => False)
    (inv := fun n t => entropyFrame t = entropyFrame s ∧ t.cptr.toNat = planeStart (blocksLength blocks table) n ∧
      (0 < n → t.count.toNat = bw * bh))
    (todo := fun p t => SameStreams p s t)
    (done := fun p t => StreamsDecoded s p (table p) (fun k => symbolsOf k (blocks p)) t)
    ⟨rfl, hcptr, fun h => absurd h (Nat.lt_irrefl 0)⟩ (fun _ => ⟨fun _ => rfl, fun _ => rfl, fun _ => rfl, fun _ => rfl⟩)
    fun p t ⟨hframe, hstart, _⟩ hsame => by
      have hopen := h.of_frame hframe
      obtain ⟨c, hrun, hc⟩ := hopen.decodePlane_ok hstart
      have hcount : (wordOf (blockCount t)).toNat = bw * bh := by
        rw [toNat_wordOf (Nat.lt_of_le_of_lt (blockCount_le t) (by decide)), hopen.blockCount_eq]
      exact .inl ⟨_, hrun, ⟨hframe, hc, fun _ => hcount⟩, streamsDecoded_planeDecoded hsame,
        fun q hq => ⟨fun h => h.trans (sameStreams_planeDecoded hq), fun h => h.of_same (sameStreams_planeDecoded hq)⟩⟩
  rcases hloop with ⟨t, hrun, ⟨hframe, hend, hcount⟩, hplanes⟩ | ⟨_, _, _, hfalse⟩
  · refine ⟨t, hrun, hframe, BitVec.eq_of_toNat_eq ?_, hcount (by decide), hplanes⟩
    rw [hend, planeStart_three]
    exact h.holds.length.symm
  · exact hfalse.elim

end

end Sys2Proof.Machine

/-! PROOFS. `DECOMPRESS` (47_codec.md R183, R184, R186): its header, a container of blocks parsed and shown, its errors, and
its round trip with `COMPRESS`: the obligations O55 to O57. -/

namespace Sys2Proof.Machine

/-! ### The header -/

/-- The state after `DEFRAME_HDR` (46_container.md R172). -/
def headerState (s : State) : State :=
  { s with
    blkw := s.cbuf.read 2
    blkh := s.cbuf.read 3
    aclen := headerCounts s.cbuf
    lt := headerTables s.cbuf
    cptr := 2320#32 }

section
variable {s : State}

theorem cmdDeframeHdr_of_overCap (h : s.cfg.cbufCap.toNat < s.clen.toNat) :
    cmdDeframeHdr s = raise (capError s.cfg.cbufCap.toNat) s := by
  rw [cmdDeframeHdr, raiseIf_of_lt h]

variable (hcap : s.clen.toNat ≤ s.cfg.cbufCap.toNat)
include hcap

theorem cmdDeframeHdr_of_badMagic (h : badMagic s = true) : cmdDeframeHdr s = raise { code := .magic, info := 0 } s := by
  rw [cmdDeframeHdr, raiseIf_of_le hcap, h, raiseIf_true]

variable (hmagic : badMagic s = false)
include hmagic

theorem cmdDeframeHdr_of_short (h : s.clen.toNat < 2320 ∨ s.clen.toNat < 2320 + declaredAc s.cbuf) :
    cmdDeframeHdr s = raise { code := .trunc, info := s.clen.toNat } s := by
  rw [cmdDeframeHdr, raiseIf_of_le hcap, hmagic, raiseIf_false, hdrBytes]
  by_cases hheader : s.clen.toNat < 2320
  · rw [raiseIf_of_lt hheader]
  · rw [raiseIf_of_le (Nat.not_lt.1 hheader), raiseIf_of_lt (h.resolve_left hheader)]

theorem cmdDeframeHdr_of_whole (h : 2320 + declaredAc s.cbuf ≤ s.clen.toNat) : cmdDeframeHdr s = .ok (headerState s) := by
  rw [cmdDeframeHdr, raiseIf_of_le hcap, hmagic, raiseIf_false, hdrBytes, raiseIf_of_le (Nat.le_of_add_right_le h),
    raiseIf_of_le h]
  rfl

end

theorem cmdDeframeHdr_cases (s : State) :
    cmdDeframeHdr s = .ok (headerState s) ∨ ∃ e, cmdDeframeHdr s = raise e s ∧ parseError e := by
  by_cases hcap : s.clen.toNat ≤ s.cfg.cbufCap.toNat
  case neg => exact .inr ⟨_, cmdDeframeHdr_of_overCap (Nat.lt_of_not_le hcap), by simp [parseError, capError]⟩
  cases hmagic : badMagic s with
  | true => exact .inr ⟨_, cmdDeframeHdr_of_badMagic hcap hmagic, by simp [parseError]⟩
  | false =>
    rcases Nat.lt_or_ge s.clen.toNat (2320 + declaredAc s.cbuf) with hshort | hwhole
    · exact .inr ⟨_, cmdDeframeHdr_of_short hcap hmagic (.inr hshort), by simp [parseError]⟩
    · exact .inl (cmdDeframeHdr_of_whole hcap hmagic hwhole)

/-! ### The stages of `DECOMPRESS` one after another -/

/-- What `DECOMPRESS` does between its entropy stage and its coefficient stage: bytes left behind the segments are an
error. -/
def trailingCheck (s : State) : Run := raiseIf (s.cptr != s.clen) { code := .format, info := s.cptr.toNat } s .ok

theorem decompressParse_of_header {s t : State} (h : cmdDeframeHdr s = .ok t) :
    decompressParse s = ((forEach allPlanes decodePlane t).andThen trailingCheck).andThen
      (forEach allPlanes decodePlaneCoefs) := by
  rw [decompressParse, h]
  rfl

theorem cmdDecompress_of_header_raise {s t : State} {e : Err} (h : cmdDeframeHdr s = raise e t) :
    cmdDecompress s = raise e t := by
  rw [cmdDecompress, decompressParse, h]
  rfl

theorem exec_decompress (s : State) : exec .decompress s = .next (cmdDecompress s).state := rfl

/-! ### A container of blocks -/

section
variable {bw bh : Nat} {blocks : Plane → List (Block Byte)} {table : Plane → Kind → CodeTable} {s : State}

theorem HoldsContainer.badMagic_eq (h : HoldsContainer s.cbuf s.clen.toNat bw bh blocks table) : badMagic s = false := by
  have hlength : s.clen.toNat = 2320 + _ := h.length
  exact (badMagic_eq_false_iff s).2 ⟨by omega, h.magicI, h.magicM⟩

/-- The six declared segments are among the nine. -/
theorem HoldsContainer.declared_le {m : Memory} {n : Nat} (h : HoldsContainer m n bw bh blocks table) :
    2320 + declaredAc m ≤ n := by
  have hcount (p : Plane) (a : AcKind) : headerCount m p a = blocksLength blocks table p (acKind a) := h.counts p a
  have hlength : n = totalLength (blocksLength blocks table) := h.length
  rw [hlength, totalLength]
  simp only [declaredAc, hcount, acSegments, allStreams, acKind, List.map_cons, List.map_nil, List.sum_cons, List.sum_nil]
  omega

theorem HoldsContainer.containerOpen (h : HoldsContainer s.cbuf s.clen.toNat bw bh blocks table)
    (hcap : s.clen.toNat ≤ s.cfg.cbufCap.toNat) : ContainerOpen bw bh blocks table (headerState s) where
  holds := h
  within := hcap
  codes p k := by
    rw [← h.tables p k]
    refine canon_congr fun sym hsym => congrArg BitVec.toNat ?_
    exact (read_headerTables s.cbuf p k sym).trans (if_pos hsym)
  counts p a := (headerCounts_toNat s.cbuf p a).trans (h.counts p a)
  blkw := h.wide
  blkh := h.high

/-- The states that the parsing of a container passes: `u` after the entropy stage, `t` after the coefficient stage. -/
structure ContainerParsed (bw bh : Nat) (blocks : Plane → List (Block Byte)) (table : Plane → Kind → CodeTable)
    (s u t : State) : Prop where
  entropyFrame : entropyFrame u = entropyFrame (headerState s)
  cptr : u.cptr = s.clen
  count : u.count.toNat = bw * bh
  streams : ∀ p, StreamsDecoded (headerState s) p (table p) (fun k => symbolsOf k (blocks p)) u
  coefFrame : coefFrame t = coefFrame u
  none : bw * bh = 0 → t.bidx = u.bidx ∧ t.qb = u.qb
  planes : ∀ p, PlaneRestored u p (blocks p) t

/-- 47_codec.md R183: a container of blocks is parsed without an error. -/
theorem HoldsContainer.decompressParse_ok (h : HoldsContainer s.cbuf s.clen.toNat bw bh blocks table)
    (hcap : s.clen.toNat ≤ s.cfg.cbufCap.toNat) :
    ∃ u t, decompressParse s = .ok t ∧ ContainerParsed bw bh blocks table s u t := by
  have hopen := h.containerOpen hcap
  obtain ⟨u, hentropy, hframe, hcptr, hcount, hstreams⟩ := hopen.forEach_decodePlane rfl
  have hopen' := hopen.of_frame hframe
  obtain ⟨hparse, -⟩ := entropyFrame_eq_iff.1 hframe
  obtain ⟨-, -, hclen, -⟩ := decodeFrame_eq_iff.1 (parseFrame_eq_iff.1 hparse).2
  obtain ⟨t, hcoefs, hframe', hnone, hplanes⟩ := forEach_decodePlaneCoefs_ok
    (fun p => (h.count p).trans hopen'.blockCount_eq.symm)
    (fun p => (hstreams p).coefsAt (symbolsOf_eq (blocks p)) (hopen.length_symbols_le p))
  rw [hopen'.blockCount_eq] at hnone
  refine ⟨u, t, ?_, hframe, hcptr, hcount, hstreams, hframe', hnone, hplanes⟩
  rw [decompressParse_of_header (cmdDeframeHdr_of_whole hcap h.badMagic_eq h.declared_le), hentropy, Run.andThen_ok,
    trailingCheck, hclen, hcptr, bne_self_eq_false, raiseIf_false, Run.andThen_ok, hcoefs]

theorem PlaneRestored.readBlock {u t : State} {p : Plane} {l : List (Block Byte)} (h : PlaneRestored u p l t) {n : Nat}
    (hn : n < l.length) : (t.qp.get p).readBlock n = l.getD n (Block.all 0#8) := by
  rw [List.getD_eq_getElem _ _ hn]
  exact h.stored n _ (List.getElem?_eq_getElem hn)

/-- What the parsing of a container leaves, over the state before it. -/
theorem ContainerParsed.frames {u t : State} (h : ContainerParsed bw bh blocks table s u t) :
    decodeFrame t = decodeFrame s ∧ t.img = s.img ∧ hostSide t = hostSide s ∧ errorRecord t = errorRecord s ∧
      (t.blkw = s.cbuf.read 2 ∧ t.blkh = s.cbuf.read 3 ∧ t.aclen = headerCounts s.cbuf ∧ t.lt = headerTables s.cbuf) ∧
      (t.cptr = s.clen ∧ t.count.toNat = bw * bh ∧ t.ct = u.ct) ∧ t.sb = s.sb ∧ t.cb = s.cb := by
  obtain ⟨hparse, hhost, hrecord, ⟨hblkw, hblkh, haclen, hlt⟩, -, hsb, hcb, -⟩ := entropyFrame_eq_iff.1 h.entropyFrame
  obtain ⟨hparse', hhost', hrecord', ⟨hblkw', hblkh', haclen', hcptr, hcount⟩, ⟨hlt', hct⟩, -, hsb', hcb'⟩ :=
    coefFrame_eq_iff.1 h.coefFrame
  obtain ⟨⟨-, -, himg⟩, hdecode⟩ := parseFrame_eq_iff.1 (hparse'.trans hparse)
  refine ⟨hdecode, himg, hhost'.trans hhost, hrecord'.trans hrecord, ⟨hblkw'.trans hblkw, hblkh'.trans hblkh,
    haclen'.trans haclen, hlt'.trans hlt⟩, ⟨hcptr.trans h.cptr, ?_, hct⟩, hsb'.trans hsb, hcb'.trans hcb⟩
  rw [hcount, h.count]

end

/-- Settles O55: the container is parsed into the quantised planes, and the image stage shows them. -/
theorem decompressReadsTheContainer : Obligations.DecompressReadsTheContainer := by
  refine ⟨by decide, fun s bw bh blocks table h hcap => ?_⟩
  dsimp only
  obtain ⟨u, t, hparsed, ht⟩ := h.decompressParse_ok hcap
  obtain ⟨v, himage, hv⟩ := decompressImage_ok t
  obtain ⟨hdecode, himg, hhost, hrecord, ⟨hblkw, hblkh, haclen, hlt⟩, ⟨hcptr, hcount, hct⟩, hsb, hcb⟩ := ht.frames
  obtain ⟨-, -, -, -, ⟨hbidx, -, hqp⟩, -, -, hqb⟩ := entropyFrame_eq_iff.1 ht.entropyFrame
  obtain ⟨-, -, -, -, -, ⟨hsyms, hslen⟩, -⟩ := coefFrame_eq_iff.1 ht.coefFrame
  obtain ⟨hdecode', hhost', hrecord', ⟨himgw, himgh, hblkw', hblkh'⟩, ⟨haclen', hcptr', hcount', hdcp⟩,
    ⟨hslen', hsrd', hsyms'⟩, hlt', hct', hqp'⟩ := imageFrame_eq_iff.1 hv.frame
  obtain ⟨hcbuf, hbs, hclen, hbslen, hpix, hyuv, -⟩ := decodeFrame_eq_iff.1 (hdecode'.trans hdecode)
  obtain ⟨hcfg, hcmd, hbusy, hdone, hie, hpending, hreply⟩ := hostSide_eq_iff.1 (hhost'.trans hhost)
  obtain ⟨herr, herrcode, herrinfo⟩ : v.err = s.err ∧ v.errcode = s.errcode ∧ v.errinfo = s.errinfo := by
    simpa only [errorRecord, Prod.mk.injEq] using hrecord'.trans hrecord
  have hwide : t.blkw.toNat = bw := (congrArg BitVec.toNat hblkw).trans h.wide
  have hhigh : t.blkh.toNat = bh := (congrArg BitVec.toNat hblkh).trans h.high
  have hblocks : blockCount t = bw * bh := by rw [blockCount, hwide, hhigh]
  have hread (p : Plane) {n : Nat} (hn : n < bw * bh) :
      (t.qp.get p).readBlock n = (blocks p).getD n (Block.all 0#8) :=
    (ht.planes p).readBlock ((h.count p).symm ▸ hn)
  have hsample (p : Plane) {n : Nat} (hn : n < bw * bh) : rebuiltAt t p n = rebuilt ((blocks p).getD n (Block.all 0#8)) :=
    congrArg rebuilt (hread p hn)
  have hqp' : v.qp = t.qp := hqp'
  rw [hblocks] at hv
  refine ⟨v, by rw [exec_decompress, cmdDecompress, hparsed, Run.andThen_ok, himage, Run.state_ok], ?_, ?_, ?_, ?_,
    fun n hn j i => ?_, fun a ha => ?_, fun p n hn => ?_, fun p a ha => ?_, fun p k => ⟨?_, fun sym hsym => ?_, ?_, ?_,
    ?_, fun a ha => ?_⟩, fun p a => ?_, fun p => ?_, ?_, ?_, hcbuf, hclen, hcptr'.trans hcptr, ?_, hbs, hbslen, hpix,
    hyuv, hie, herr, herrcode, herrinfo, hcfg, hcmd, hbusy, hdone, hpending, hreply⟩
  · rw [himgw, ← hwide]
    exact toNat_imageSize _
  · rw [himgh, ← hhigh]
    exact toNat_imageSize _
  · exact (congrArg BitVec.toNat hblkw').trans hwide
  · exact (congrArg BitVec.toNat hblkh').trans hhigh
  · have hpixel := hv.pixels n hn j i
    rwa [hwide, rebuiltPixel, hsample .y hn, hsample .u hn, hsample .v hn] at hpixel
  · rw [← himg]
    exact hv.outside a (by rwa [hwide, hhigh])
  · rw [hqp', hread p hn]
  · rw [hqp', (ht.planes p).storedBehind a (by rwa [h.count]), hqp]
    rfl
  · rw [hct', show (setImageSize t).ct = u.ct from hct]
    exact (ht.streams p).ct k
  · rw [hlt', show (setImageSize t).lt = headerTables s.cbuf from hlt, read_headerTables, if_pos hsym]
  · rw [hslen', show (setImageSize t).slen = u.slen from hslen, (ht.streams p).slen]
    exact toNat_wordOf_length ((h.containerOpen hcap).length_symbols_le p k)
  · rw [hslen', hsrd', show (setImageSize t).slen = u.slen from hslen]
    exact (ht.planes p).srd k
  · rw [hsyms', show (setImageSize t).syms = u.syms from hsyms, (ht.streams p).syms]
    exact holdsBytes_writeBytes _ 0 _
  · rw [hsyms', show (setImageSize t).syms = u.syms from hsyms, (ht.streams p).syms]
    exact read_writeBytes_behind _ _ rfl a ha
  · rw [haclen', show (setImageSize t).aclen = headerCounts s.cbuf from haclen, headerCounts_toNat]
    exact h.counts p a
  · rw [hdcp]
    exact (ht.planes p).dcp
  · by_cases hzero : bw * bh = 0
    · rw [if_pos hzero]
      obtain ⟨-, hsb', hcb', hqb'⟩ := hv.none hzero
      exact ⟨hsb'.trans hsb, hcb'.trans hcb, hqb'.trans ((ht.none hzero).2.trans hqb)⟩
    · rw [if_neg hzero]
      have hlast : bw * bh - 1 < bw * bh := Nat.sub_one_lt hzero
      obtain ⟨-, hsb', hqb', hcb'⟩ := hv.some (bw * bh - 1) (Nat.sub_one_add_one hzero).symm
      exact ⟨fun p => (hsb' p).trans (hsample p hlast), hqb'.trans (hread .v hlast), hcb'⟩
  · by_cases hzero : bw * bh = 0
    · rw [if_pos hzero]
      exact (hv.none hzero).1.trans ((ht.none hzero).1.trans hbidx)
    · rw [if_neg hzero]
      exact (hv.some (bw * bh - 1) (Nat.sub_one_add_one hzero).symm).1
  · rw [hcount']
    exact hcount

/-! ### The errors -/

/-- 47_codec.md R183: the parsing of any buffer ends without an error, or with one of the errors the rule lists. -/
theorem decompressParse_cases (s : State) :
    (∃ t, decompressParse s = .ok t ∧ errorRecord t = errorRecord s) ∨
      ∃ e t, decompressParse s = raise e t ∧ parseError e := by
  rcases cmdDeframeHdr_cases s with hheader | ⟨e, hraise, he⟩
  case inr => exact .inr ⟨e, s, by rw [decompressParse, hraise]; rfl, he⟩
  rw [decompressParse_of_header hheader]
  rcases forEach_decodePlane_cases (headerState s) with ⟨u, hentropy, hframe, heobs⟩ | ⟨e, t, hraise, he⟩
  case inr => exact .inr ⟨e, t, by rw [hraise, Run.andThen_raise, Run.andThen_raise], he⟩
  obtain ⟨-, -, hrecord, -⟩ := entropyFrame_eq_iff.1 hframe
  rw [hentropy, Run.andThen_ok, trailingCheck]
  rcases raiseIf_cases (u.cptr != u.clen) { code := .format, info := u.cptr.toNat } u .ok with ⟨-, hcheck⟩ | ⟨-, hcheck⟩
  · exact .inr ⟨_, u, by rw [hcheck, Run.andThen_raise], by simp [parseError]⟩
  rw [hcheck, Run.andThen_ok]
  rw [← blockCount_of_entropyFrame hframe] at heobs
  rcases forEach_decodePlaneCoefs_cases heobs with ⟨t, hcoefs, hframe'⟩ | ⟨e, t, hraise, he⟩
  · obtain ⟨-, -, hrecord', -⟩ := coefFrame_eq_iff.1 hframe'
    exact .inl ⟨t, hcoefs, hrecord'.trans hrecord⟩
  · exact .inr ⟨e, t, hraise, by simp [parseError, he]⟩

/-- Settles O56: nothing before the image stage writes the image, and the image stage has no error. -/
theorem failingDecompressKeepsTheImage : Obligations.FailingDecompressKeepsTheImage := by
  intro s
  dsimp only
  intro hnone
  obtain ⟨hcbuf, -, hclen, -⟩ := decodeFrame_eq_iff.1 (decodeFrame_cmdDecompress s)
  refine ⟨_, exec_decompress s, hcbuf, hclen, fun herr => ?_, fun hover => ?_, fun hcap => ⟨fun hmagic => ?_,
    fun hmagic hshort => ?_⟩⟩
  · have hkept := parseFrame_decompressParse s
    rcases decompressParse_cases s with ⟨t, hparsed, hrecord⟩ | ⟨e, t, hparsed, he⟩
    · obtain ⟨v, himage, hv⟩ := decompressImage_ok t
      obtain ⟨-, -, hrecord', -⟩ := imageFrame_eq_iff.1 hv.frame
      have hclear : v.err = s.err := congrArg Prod.fst (hrecord'.trans hrecord)
      rw [cmdDecompress, hparsed, Run.andThen_ok, himage, Run.state_ok, hclear, hnone] at herr
      cases herr
    · rw [cmdDecompress, hparsed, Run.andThen_raise]
      rw [hparsed] at hkept
      obtain ⟨⟨himgw, himgh, himg⟩, -⟩ := parseFrame_eq_iff.1 hkept
      exact ⟨himg, himgw, himgh, he⟩
  · rw [cmdDecompress_of_header_raise (cmdDeframeHdr_of_overCap hover), Run.state_raise, capError, errorEntry_word]
  · rw [← badMagic_eq_false_iff, Bool.not_eq_false] at hmagic
    rw [cmdDecompress_of_header_raise (cmdDeframeHdr_of_badMagic hcap hmagic)]
    rfl
  · rw [cmdDecompress_of_header_raise (cmdDeframeHdr_of_short hcap ((badMagic_eq_false_iff s).2 hmagic) hshort),
      Run.state_raise, errorEntry_word]

/-! ### `COMPRESS`, then `DECOMPRESS` -/

section
variable {s t : State}

/-- The codes that `COMPRESS` made for a stream of the image. -/
theorem StreamsEncoded.own_code (h : StreamsEncoded s t) (p : Plane) (k : Kind) :
    covers (t.ct.at p k) (imageSymbols s p k) ∧ imageBits s p k = bitsOf (t.ct.at p k) (imageSymbols s p k) := by
  obtain ⟨c, hcanon, hbits, hcovers, -⟩ := exists_ownTable (imageSymbols s p k)
  obtain rfl : t.ct.at p k = c := Except.ok.inj ((h.streams p k).ct.symm.trans hcanon)
  exact ⟨hcovers, hbits⟩

/-- 46_container.md R173: `COMPRESS` leaves a container of the image's blocks in the buffer. -/
theorem StreamsEncoded.holdsContainer (h : StreamsEncoded s t) (hs : Compressible s) :
    HoldsContainer (framedState t).cbuf (framedState t).clen.toNat (s.imgw.toNat / 8) (s.imgh.toNat / 8) (imageBlocks s)
      t.ct.at := by
  obtain ⟨⟨-, -, hblkw, hblkh, -⟩, -⟩ := encodeFrame_eq_iff.1 h.frame
  have hbuffer : holdsBytes (framedState t).cbuf 0 (containerBytes t) := holdsBytes_framedBuffer t
  have hbeginning := container_beginning hbuffer
  have hlength (p : Plane) (k : Kind) : byteCount (bitsOf (t.ct.at p k) (symbolsOf k (imageBlocks s p))) =
      segmentLengths t p k := by
    rw [h.segmentLengths_eq, (h.own_code p k).2]
    rfl
  have hlengths : (fun p k => byteCount (bitsOf (t.ct.at p k) (symbolsOf k (imageBlocks s p)))) = segmentLengths t :=
    funext fun p => funext (hlength p)
  have htotal : totalLength (segmentLengths t) ≤ s.cfg.cbufCap.toNat := h.totalLength_eq ▸ hs.total
  have hcap := s.cfg.cbufCap.isLt
  refine ⟨hbeginning 0 (Nat.zero_lt_succ 3), hbeginning 1 (show 1 < 4 by decide), ?_, ?_, length_imageBlocks s, fun p k => ?_,
    fun p k => (h.own_code p k).1, fun p a => ?_, fun p k => ?_, ?_⟩
  · rw [← hs.good.blkw, ← hblkw]
    exact congrArg BitVec.toNat (hbeginning 2 (show 2 < 4 by decide))
  · rw [← hs.good.blkh, ← hblkh]
    exact congrArg BitVec.toNat (hbeginning 3 (show 3 < 4 by decide))
  · refine Eq.trans (canon_congr fun sym hsym => ?_) (h.streams p k).ct
    rw [container_table hbuffer p k hsym, (h.streams p k).lt]
    exact congrFun (read_cellsFrom_huflen (imageSymbols s p k)) sym
  · have hcount := container_count hbuffer p a
    have hfits := hs.counts p a
    rw [← h.segmentLengths_eq] at hfits
    have hlow : (framedState t).cbuf.read (4 + 2 * acNum p a) = BitVec.ofNat 8 (segmentLengths t p (acKind a)) :=
      hcount 0 Nat.zero_lt_two
    have hhigh : (framedState t).cbuf.read (4 + 2 * acNum p a + 1) =
        BitVec.ofNat 8 (segmentLengths t p (acKind a) / 256) := hcount 1 Nat.one_lt_two
    rw [hlength, hlow, show 5 + 2 * acNum p a = 4 + 2 * acNum p a + 1 by omega, hhigh, BitVec.toNat_ofNat,
      BitVec.toNat_ofNat]
    omega
  · rw [hlengths]
    refine holdsBits_of_packed fun n hn => ?_
    rw [length_packBits, hlength] at hn
    have hpacked := holdsBytes_writeBytes (s.bs.at p k) 0 (packBits (imageBits s p k)) n
      (by rwa [length_packBits, ← h.segmentLengths_eq])
    rw [container_segment hbuffer p k hn, (h.streams p k).bs, ← imageBits_eq]
    rw [Nat.zero_add, (h.own_code p k).2] at hpacked
    rwa [(h.own_code p k).2]
  · rw [hlengths]
    exact toNat_wordOf (by omega)

end

/-- Settles O57: `COMPRESS` leaves a container of the image's blocks, and `DECOMPRESS` rebuilds what such a container holds. -/
theorem compressThenDecompressPreserves : Obligations.CompressThenDecompressPreserves := by
  intro s
  dsimp only
  intro hwide hhigh hwideLe hhighLe hsegments hcounts htotal
  have hs : Compressible s := ⟨⟨hwide, hhigh, hwideLe, hhighLe⟩, hsegments, hcounts, htotal⟩
  obtain ⟨t, hrun, ht⟩ := cmdCompress_ok hs
  obtain ⟨-, -, -, -, hcfg⟩ := encodeFrame_eq_iff.1 ht.frame
  have hcontainer := ht.holdsContainer hs
  have hcap : (framedState t).clen.toNat ≤ (framedState t).cfg.cbufCap.toNat := by
    rw [show (framedState t).cfg = s.cfg from hcfg, hcontainer.length]
    refine Nat.le_trans (Nat.le_of_eq (congrArg totalLength (funext fun p => funext fun k => ?_))) htotal
    exact congrArg byteCount (ht.own_code p k).2.symm
  obtain ⟨u, hexec, himgw, himgh, -, -, -, -, hstored, -, -, -, -, -, -, -, -, -, -, -, -, -, -, -, herr, -⟩ :=
    decompressReadsTheContainer.2 (framedState t) _ _ (imageBlocks s) t.ct.at hcontainer hcap
  refine ⟨framedState t, u, by rw [exec_compress, hrun, Run.state_ok], hexec, ?_, BitVec.eq_of_toNat_eq ?_,
    BitVec.eq_of_toNat_eq ?_, fun p n hn => ?_⟩
  · exact herr.trans (congrArg Prod.fst ht.record)
  · rw [himgw]
    omega
  · rw [himgh]
    omega
  · rw [hstored p n hn, imageBlocks, List.getD_eq_getElem?_getD, List.getElem?_map, List.getElem?_range hn]
    rfl

end Sys2Proof.Machine
